-- ==== Sys2Proof/Word.lean ====
section
/-! DEFINITION. The machine's word and byte (spec 00_scope.md R8: all words are 32 bits wide unless a width is
stated, all quantities are unsigned). -/

namespace Sys2Proof

/-- A 32-bit register or bus word (R8). -/
abbrev Word := BitVec 32

/-- An 8-bit byte of a buffer, of a command or of the SPI stream. -/
abbrev Byte := BitVec 8

end Sys2Proof
end

