-- ==== Sys2Proof/Syntax.lean ====
section
/-! DEFINITION. The names the spec speaks of (registers, fields, read modes, widths, wire events, the latched
descriptor) and the instruction type: one constructor of `Instr` for each of the 72 rows of spec/opcode_table.json
(17 formatter requests, 46 registers, 4 bus primitives, 5 internal steps: 00_scope.md R2, 30_encoding.md R120). -/

namespace Sys2Proof

/-- The 46 software-visible registers of one FIU instance (10_state.md R21). -/
inductive Reg where
  | drdCfg
  | dwrCfg
  | umaCfg
  | umaCts
  | umaCmd
  | umaAddr
  | prtCfg
  | prtSts
  | umaDw (k : Fin 4)
  | umaDr (k : Fin 4)
  | prtCmd (n : Fin 14)
  | prtRange (n : Fin 16)
deriving DecidableEq, Repr

/-- Which 16-bit entry of a protection command register: A in bits 15:0, B in bits 31:16 (10_state.md R33). -/
inductive Half where
  | a
  | b
deriving DecidableEq, Repr

/-- Every register field of the spec, with the register it lies in: `DRD_CFG` (R28), `DWR_CFG` (R29), `UMA_CFG` (R26),
`UMA_CTS` (R27), `UMA_CMD` (R22), `UMA_ADDR` (R23), `PRT_CFG` (R30), `PRT_STS` (R31), the data registers (R24, R25),
`PRT_CMD(n)` whole entries and the six fields of an entry (R33), `PRT_RANGE(n)` (R32). -/
inductive Field where
  | drdRdcmd | drdAcctype | drdDbw | drdAddsiz | drdRBurst
  | dwrWrcmd | dwrAddsiz | dwrWBurst
  | cfgCmbpck | cfgAdbpck | cfgWdbpck | cfgDbpck | cfgRdbpck
  | cfgCmdsiz | cfgAddsiz | cfgWdatsiz | cfgDbsiz | cfgRdatsiz
  | ctsExecDone | ctsDevNum | ctsSwCs | ctsRdyst | ctsRdyie
  | cmdCmd
  | addrAddr
  | prtLck | prtPen | prtVie | prtFcsLck | prtFcsEn | prtFcsVal | prtIo2f | prtDevsiz | prtOcalwd
  | stsViol
  | dwData (k : Fin 4)
  | drData (k : Fin 4)
  | entry (n : Fin 14) (h : Half)
  | entCmd (n : Fin 14) (h : Half)
  | entFrbdc (n : Fin 14) (h : Half)
  | entAddsz (n : Fin 14) (h : Half)
  | entCmbpck (n : Fin 14) (h : Half)
  | entAdbpck (n : Fin 14) (h : Half)
  | entRngsel (n : Fin 14) (h : Half)
  | rngStrt (n : Fin 16)
  | rngLast (n : Fin 16)
  | rngCsuse (n : Fin 16)
  | rngRlck (n : Fin 16)
deriving DecidableEq, Repr

/-- The six read modes (00_scope.md R18). `UNDEFINED_MODE`, which only `get_read_mode` can return, is `none` of
`Option ReadMode`. -/
inductive ReadMode where
  | normal
  | fast
  | dualIo
  | dualOut
  | quadIo
  | spiX
deriving DecidableEq, Repr

/-- A phase width in bits per clock, 1, 2 or 4 (00_scope.md R14). -/
inductive Width where
  | w1
  | w2
  | w4
deriving DecidableEq, Repr

/-- The UMA phases `PHASE_WIDTH` distinguishes (42_uma_engine.md R180). -/
inductive PhaseClass where
  | command
  | address
  | data
deriving DecidableEq, Repr

/-- The two-valued operand `address_present` (30_encoding.md R115). -/
inductive AddressPresent where
  | absent
  | auto
deriving DecidableEq, Repr

/-- Who performs a raw bus access: the host agent, or another bus master (20_memory.md R95). -/
inductive Master where
  | host
  | other
deriving DecidableEq, Repr

/-- Direction of a bus access and, for a write, its datum (30_encoding.md R116). -/
inductive Access where
  | read
  | write (v : Word)
deriving DecidableEq, Repr

/-- Width of a raw bus access; only whole words have a meaning (20_memory.md R74). -/
inductive AccessSize where
  | word
  | half
  | byte
deriving DecidableEq, Repr

/-- Disposition a forbid code selects (00_scope.md R18); `outsideForbidden rs` is `OUTSIDE_FORBIDDEN(S)`. -/
inductive Disposition where
  | alwaysAllowed
  | alwaysForbidden
  | outsideForbidden (rs : List (Fin 16))
deriving DecidableEq, Repr

/-- The latched transaction descriptor `L` (10_state.md R48): device, held chip select, the ten fields of `UMA_CFG`,
the command byte, the address and the sixteen write bytes. -/
structure Descr where
  dev : Nat
  held : Bool
  cmdsiz : Nat
  addsiz : Nat
  wdatsiz : Nat
  dbsiz : Nat
  rdatsiz : Nat
  cmbpck : Nat
  adbpck : Nat
  wdbpck : Nat
  dbpck : Nat
  rdbpck : Nat
  cmd : Byte
  addr : Word
  wdata : List Byte
deriving DecidableEq, Repr

/-- Phases that carry bytes in the wire log; the dummy phase is an event of its own (10_state.md R51). -/
inductive PhaseKind where
  | cmd
  | addr
  | wdata
  | rdata
deriving DecidableEq, Repr

/-- Events of the wire log `WIRE` (10_state.md R51). Of a dummy phase only the width and the byte count are recorded
(93_implementation_defined.md U6). -/
inductive WireEvent where
  | csLow (d : Nat)
  | csHigh (d : Nat)
  | phase (kind : PhaseKind) (bpc : Nat) (bytes : List Byte)
  | dummy (bpc : Nat) (count : Nat)
  | disturbed (l : Descr)
  | reset
deriving DecidableEq, Repr

/-- The tuple handed to the interrupt controller with a handler (60_exceptions.md R290). -/
structure IrqLine where
  provider : Nat
  line : Nat
  polarity : Nat
  priority : Nat
deriving DecidableEq, Repr, Inhabited

/-- The instructions: one constructor per row of spec/opcode_table.json. Operands of a request are those of
30_encoding.md R114 in that order (a buffer stands last, after the numbers). A register row is one raw bus access to that
register by a master (R116, R120). A violation handler is named by a number (60_exceptions.md R290). -/
inductive Instr where
  -- group REQ, 30_encoding.md R114
  | configureDirect (inst flashSize : Nat) (mode : ReadMode) (readBurst writeBurst : Nat)
  | configureCommand (inst : Nat) (readCmd writeCmd : Byte)
  | getReadMode (inst : Nat)
  | setDummyCycles (inst cycles : Nat)
  | umaRead (inst dev : Nat) (cmd : Byte) (addr : Word) (ap : AddressPresent) (size : Nat) (timeout : Word)
  | umaWrite (inst dev : Nat) (cmd : Byte) (addr : Word) (ap : AddressPresent) (size : Nat) (timeout : Word)
      (data : List Byte)
  | umaIoctl (inst dev : Nat) (cmd : Byte) (addr : Word) (addrSize readSize writeSize : Nat)
      (cmdBits addrBits wrBits rdBits : Nat) (timeout : Word) (dummyBytes : Nat) (writeBuf : List Byte)
  | pageWrite (inst dev : Nat) (cmd : Byte) (addr : Word) (size : Nat) (timeout : Word) (data : List Byte)
  | selectChip (inst dev : Nat)
  | setFourByteAddressing (inst dev : Nat) (enabled : Bool)
  | getFourByteAddressing (inst dev : Nat)
  | selectChipByAddress (inst dev : Nat) (addr : Word)
  | setProtectionRange (inst index : Nat) (start stop : Word) (csMask : BitVec 2)
  | setProtectionCommand (inst slot code : Nat) (cmd : Byte) (addrBytes addrBits cmdBits : Nat)
  | configureProtection (inst : Nat) (lock enable : Bool) (deviceSize : Nat) (csEnable0 csEnable1 csForce0 csForce1 : Bool)
      (io2Force otherAllowed : Bool) (handler : Option Nat)
  | getViolationStatus (inst : Nat) (clear : Bool)
  | waitReady (inst : Nat) (timeout : Word)
  -- group REG, 20_memory.md R84
  | drdCfg (m : Master) (inst : Nat) (a : Access)
  | dwrCfg (m : Master) (inst : Nat) (a : Access)
  | umaCfg (m : Master) (inst : Nat) (a : Access)
  | umaCts (m : Master) (inst : Nat) (a : Access)
  | umaCmd (m : Master) (inst : Nat) (a : Access)
  | umaAddr (m : Master) (inst : Nat) (a : Access)
  | prtCfg (m : Master) (inst : Nat) (a : Access)
  | prtSts (m : Master) (inst : Nat) (a : Access)
  | umaDw0 (m : Master) (inst : Nat) (a : Access)
  | umaDw1 (m : Master) (inst : Nat) (a : Access)
  | umaDw2 (m : Master) (inst : Nat) (a : Access)
  | umaDw3 (m : Master) (inst : Nat) (a : Access)
  | umaDr0 (m : Master) (inst : Nat) (a : Access)
  | umaDr1 (m : Master) (inst : Nat) (a : Access)
  | umaDr2 (m : Master) (inst : Nat) (a : Access)
  | umaDr3 (m : Master) (inst : Nat) (a : Access)
  | prtCmd0 (m : Master) (inst : Nat) (a : Access)
  | prtCmd1 (m : Master) (inst : Nat) (a : Access)
  | prtCmd2 (m : Master) (inst : Nat) (a : Access)
  | prtCmd3 (m : Master) (inst : Nat) (a : Access)
  | prtCmd4 (m : Master) (inst : Nat) (a : Access)
  | prtCmd5 (m : Master) (inst : Nat) (a : Access)
  | prtCmd6 (m : Master) (inst : Nat) (a : Access)
  | prtCmd7 (m : Master) (inst : Nat) (a : Access)
  | prtCmd8 (m : Master) (inst : Nat) (a : Access)
  | prtCmd9 (m : Master) (inst : Nat) (a : Access)
  | prtCmd10 (m : Master) (inst : Nat) (a : Access)
  | prtCmd11 (m : Master) (inst : Nat) (a : Access)
  | prtCmd12 (m : Master) (inst : Nat) (a : Access)
  | prtCmd13 (m : Master) (inst : Nat) (a : Access)
  | prtRange0 (m : Master) (inst : Nat) (a : Access)
  | prtRange1 (m : Master) (inst : Nat) (a : Access)
  | prtRange2 (m : Master) (inst : Nat) (a : Access)
  | prtRange3 (m : Master) (inst : Nat) (a : Access)
  | prtRange4 (m : Master) (inst : Nat) (a : Access)
  | prtRange5 (m : Master) (inst : Nat) (a : Access)
  | prtRange6 (m : Master) (inst : Nat) (a : Access)
  | prtRange7 (m : Master) (inst : Nat) (a : Access)
  | prtRange8 (m : Master) (inst : Nat) (a : Access)
  | prtRange9 (m : Master) (inst : Nat) (a : Access)
  | prtRange10 (m : Master) (inst : Nat) (a : Access)
  | prtRange11 (m : Master) (inst : Nat) (a : Access)
  | prtRange12 (m : Master) (inst : Nat) (a : Access)
  | prtRange13 (m : Master) (inst : Nat) (a : Access)
  | prtRange14 (m : Master) (inst : Nat) (a : Access)
  | prtRange15 (m : Master) (inst : Nat) (a : Access)
  -- group BUS, 40_register_access.md R140 to R143
  | regRead (m : Master) (inst offset : Nat) (sz : AccessSize)
  | regWrite (m : Master) (inst offset : Nat) (sz : AccessSize) (v : Word)
  | fieldRead (inst : Nat) (f : Field)
  | fieldWrite (inst : Nat) (f : Field) (v : Word)
  -- group INT, 00_scope.md R2 (iii)
  | engineComplete (inst : Nat)
  | prtCheck (inst : Nat)
  | poll (inst : Nat)
  | irqDeliver (inst : Nat)
  | reset
deriving DecidableEq, Repr

/-- The register instruction of group REG for register `r` (30_encoding.md R120). -/
def Instr.ofReg (r : Reg) (m : Master) (inst : Nat) (a : Access) : Instr :=
  match r with
  | .drdCfg => .drdCfg m inst a
  | .dwrCfg => .dwrCfg m inst a
  | .umaCfg => .umaCfg m inst a
  | .umaCts => .umaCts m inst a
  | .umaCmd => .umaCmd m inst a
  | .umaAddr => .umaAddr m inst a
  | .prtCfg => .prtCfg m inst a
  | .prtSts => .prtSts m inst a
  | .umaDw 0 => .umaDw0 m inst a
  | .umaDw 1 => .umaDw1 m inst a
  | .umaDw 2 => .umaDw2 m inst a
  | .umaDw 3 => .umaDw3 m inst a
  | .umaDr 0 => .umaDr0 m inst a
  | .umaDr 1 => .umaDr1 m inst a
  | .umaDr 2 => .umaDr2 m inst a
  | .umaDr 3 => .umaDr3 m inst a
  | .prtCmd 0 => .prtCmd0 m inst a
  | .prtCmd 1 => .prtCmd1 m inst a
  | .prtCmd 2 => .prtCmd2 m inst a
  | .prtCmd 3 => .prtCmd3 m inst a
  | .prtCmd 4 => .prtCmd4 m inst a
  | .prtCmd 5 => .prtCmd5 m inst a
  | .prtCmd 6 => .prtCmd6 m inst a
  | .prtCmd 7 => .prtCmd7 m inst a
  | .prtCmd 8 => .prtCmd8 m inst a
  | .prtCmd 9 => .prtCmd9 m inst a
  | .prtCmd 10 => .prtCmd10 m inst a
  | .prtCmd 11 => .prtCmd11 m inst a
  | .prtCmd 12 => .prtCmd12 m inst a
  | .prtCmd 13 => .prtCmd13 m inst a
  | .prtRange 0 => .prtRange0 m inst a
  | .prtRange 1 => .prtRange1 m inst a
  | .prtRange 2 => .prtRange2 m inst a
  | .prtRange 3 => .prtRange3 m inst a
  | .prtRange 4 => .prtRange4 m inst a
  | .prtRange 5 => .prtRange5 m inst a
  | .prtRange 6 => .prtRange6 m inst a
  | .prtRange 7 => .prtRange7 m inst a
  | .prtRange 8 => .prtRange8 m inst a
  | .prtRange 9 => .prtRange9 m inst a
  | .prtRange 10 => .prtRange10 m inst a
  | .prtRange 11 => .prtRange11 m inst a
  | .prtRange 12 => .prtRange12 m inst a
  | .prtRange 13 => .prtRange13 m inst a
  | .prtRange 14 => .prtRange14 m inst a
  | .prtRange _ => .prtRange15 m inst a

end Sys2Proof
end

