-- ==== Sys2Proof/Config.lean ====
section
/-! DEFINITION. What an implementation fixes and what the spec leaves open (00_scope.md R6). The OPEN parameters and the
values the model does not choose (draws, the device oracle) are opaque constants: nothing in Lean can evaluate them.
The parameters that have a value, fixed by the source or by default, are the fields of `Cfg`; their values stand in
Machine/Params.lean, in one record that another choice replaces. -/

namespace Sys2Proof.Config

/-- OPEN `BASE(i)`: base address of instance `i`'s register block (R6, 20_memory.md R85). The blocks do not overlap:
`Machine.blockBase` is what the model reads. -/
opaque base : Nat → Nat

/-- OPEN `FLASH_SIZE(i,d)` in bytes (R6, 20_memory.md R86). -/
opaque flashSize : Nat → Nat → Nat

/-- OPEN `POLL_PERIOD_US` less one. -/
opaque pollPeriodLessOne : Nat

/-- OPEN `POLL_PERIOD_US`, a positive integer (R6, D32). -/
def pollPeriodUs : Nat := pollPeriodLessOne + 1

/-- OPEN `SETTLE_DELAY`; no rule reads its value (R6, D32). -/
opaque settleDelay : Nat

/-- OPEN `VIOL_IRQ` of an instance (R6, D34). -/
opaque violIrq : Nat → IrqLine

/-- `draw(32)` of instance `i`: a word the model does not choose (R9), one for each value of the instance's draw
counter. -/
opaque drawWord : Nat → Nat → Word

/-- `draw(8)` of instance `i`, one for each value of the instance's draw counter. -/
opaque drawByte : Nat → Nat → Byte

/-- The device oracle `DevRead(i, d, WIRE, n)` (10_state.md R52): byte `j` that device `d` of instance `i` drives in a
read phase, as a function of the whole wire log so far and of `choice`, a choice the model does not make. -/
opaque devByte (inst dev : Nat) (wire : List WireEvent) (choice j : Nat) : Byte

end Sys2Proof.Config

namespace Sys2Proof

/-- The parameters of 00_scope.md R6 that have a value: the counts the source fixes and the replaceable defaults. -/
structure Cfg where
  /-- `N_FIU`, the number of FIU instances. -/
  nFiu : Nat
  /-- `N_RANGE`, protection ranges per instance; source. -/
  nRange : Nat
  /-- `N_CMD_SLOT`, protection command entries per instance; source. -/
  nCmdSlot : Nat
  /-- `N_CMD_REG`, protection command registers per instance; source. -/
  nCmdReg : Nat
  /-- `BURST_MAX`, data bytes per armed transaction; source. -/
  burstMax : Nat
  /-- `RANGE_UNIT` as a shift; source. -/
  rangeShift : Nat
  /-- `DEV_COUNT(i)`. -/
  devCount : Nat → Nat
  /-- `OFFSET(reg)`. -/
  offset : Reg → Nat
  /-- `LAYOUT`: lowest bit and width of every field. -/
  layout : Field → Nat × Nat
  /-- `READ_MODE_CODE(m)`: the pair (ACCTYPE, DBW). -/
  readModeCode : ReadMode → Nat × Nat
  /-- `PHASE_WIDTH(m, phase)`; `none` is `UNDEFINED_MODE`. -/
  phaseWidth : Option ReadMode → PhaseClass → Width
  /-- `FORBID_TABLE(code)`. -/
  forbidTable : Nat → Disposition
  /-- `IOCTL_DBPCK(cmd, addr, wr, rd)`. -/
  ioctlDbpck : Width → Width → Width → Width → Width
  /-- `IOCTL_HOLDS_CS`. -/
  ioctlHoldsCs : Bool
  /-- `RESET(reg)` per field, given `READ_MODE_CODE`: `none` where 10_state.md R60 says "unspecified". -/
  resetField : (ReadMode → Nat × Nat) → Field → Option Nat

end Sys2Proof
end

