-- ==== Sys2Proof/Machine/Params.lean ====
section
/-! DEFINITION. The default values of the replaceable parameters of 00_scope.md R6: register offsets (20_memory.md R84),
field layout (30_encoding.md R101 to R105, R110), read-mode spelling (R112), phase widths (42_uma_engine.md R180), forbid
table (45_protection.md R247), the two `uma_ioctl` parameters (43_uma_chunked.md R207, R208) and the reset values
(10_state.md R60). -/

namespace Sys2Proof.Machine

/-- Default `OFFSET` map (20_memory.md R84). -/
def regOffset (r : Reg) : Nat :=
  match r with
  | .drdCfg => 0x00
  | .dwrCfg => 0x04
  | .umaCfg => 0x08
  | .umaCts => 0x0C
  | .umaCmd => 0x10
  | .umaAddr => 0x14
  | .prtCfg => 0x18
  | .prtSts => 0x1C
  | .umaDw k => 0x20 + 4 * k.val
  | .umaDr k => 0x30 + 4 * k.val
  | .prtCmd n => 0x40 + 4 * n.val
  | .prtRange n => 0x80 + 4 * n.val

/-- First bit of an entry of `PRT_CMD(n)`: A in bits 15:0, B in bits 31:16 (10_state.md R33). -/
def halfBase (h : Half) : Nat :=
  match h with
  | .a => 0
  | .b => 16

/-- Default `LAYOUT`: (lowest bit, width) of every field (30_encoding.md R101 to R105, R110; 10_state.md R22 to R25). -/
def fieldLayout (f : Field) : Nat × Nat :=
  match f with
  | .drdRdcmd => (0, 8)
  | .drdAcctype => (8, 2)
  | .drdDbw => (12, 2)
  | .drdAddsiz => (16, 2)
  | .drdRBurst => (24, 2)
  | .dwrWrcmd => (0, 8)
  | .dwrAddsiz => (16, 2)
  | .dwrWBurst => (24, 2)
  | .cfgCmbpck => (0, 2)
  | .cfgAdbpck => (2, 2)
  | .cfgWdbpck => (4, 2)
  | .cfgDbpck => (6, 2)
  | .cfgRdbpck => (8, 2)
  | .cfgCmdsiz => (10, 1)
  | .cfgAddsiz => (11, 3)
  | .cfgWdatsiz => (16, 5)
  | .cfgDbsiz => (21, 3)
  | .cfgRdatsiz => (24, 5)
  | .ctsExecDone => (0, 1)
  | .ctsDevNum => (8, 2)
  | .ctsSwCs => (16, 1)
  | .ctsRdyst => (24, 1)
  | .ctsRdyie => (25, 1)
  | .cmdCmd => (0, 8)
  | .addrAddr => (0, 32)
  | .prtLck => (31, 1)
  | .prtPen => (30, 1)
  | .prtVie => (29, 1)
  | .prtFcsLck => (22, 2)
  | .prtFcsEn => (20, 2)
  | .prtFcsVal => (18, 2)
  | .prtIo2f => (16, 1)
  | .prtDevsiz => (8, 3)
  | .prtOcalwd => (4, 1)
  | .stsViol => (0, 1)
  | .dwData _ => (0, 32)
  | .drData _ => (0, 32)
  | .entry _ h => (halfBase h, 16)
  | .entCmd _ h => (halfBase h, 8)
  | .entFrbdc _ h => (halfBase h + 8, 2)
  | .entAddsz _ h => (halfBase h + 10, 1)
  | .entCmbpck _ h => (halfBase h + 11, 2)
  | .entAdbpck _ h => (halfBase h + 13, 2)
  | .entRngsel _ h => (halfBase h + 15, 1)
  | .rngStrt _ => (0, 13)
  | .rngLast _ => (16, 13)
  | .rngCsuse _ => (29, 2)
  | .rngRlck _ => (31, 1)

/-- Default `READ_MODE_CODE`: (ACCTYPE, DBW) of each mode (30_encoding.md R112, 90_conflicts.md C7). -/
def readModePair (m : ReadMode) : Nat × Nat :=
  match m with
  | .normal => (0, 0)
  | .fast => (0, 1)
  | .dualOut => (1, 1)
  | .dualIo => (2, 0)
  | .quadIo => (3, 2)
  | .spiX => (3, 1)

/-- `mode_width(m)` (42_uma_engine.md R180); `none` is `UNDEFINED_MODE`. -/
def modeWidth (m : Option ReadMode) : Width :=
  match m with
  | some .dualIo => .w2
  | some .dualOut => .w2
  | some .quadIo => .w4
  | some .spiX => .w4
  | some .normal => .w1
  | some .fast => .w1
  | none => .w1

/-- Default `FORBID_TABLE` (45_protection.md R247): with `bank = code[2]` and `d = code[1:0]`, `d = 0` always allowed,
`d = 3` always forbidden, else forbidden outside range `2*bank + (d - 1)`. -/
def forbidDefault (code : Nat) : Disposition :=
  match code with
  | 0 => .alwaysAllowed
  | 1 => .outsideForbidden [0]
  | 2 => .outsideForbidden [1]
  | 3 => .alwaysForbidden
  | 4 => .alwaysAllowed
  | 5 => .outsideForbidden [2]
  | 6 => .outsideForbidden [3]
  | _ => .alwaysForbidden

/-- Default `RESET(reg)` by field (10_state.md R60), given the spelling `code` of the read modes: `ACCTYPE` and `DBW` spell
`NORMAL`; `none` is "unspecified". The entry fields of `PRT_CMD` are views of the whole entry, which is 0. -/
def resetDefault (code : ReadMode → Nat × Nat) (f : Field) : Option Nat :=
  match f with
  | .drdRdcmd | .drdRBurst | .dwrWrcmd | .dwrWBurst => none
  | .drdAcctype => some (code .normal).1
  | .drdDbw => some (code .normal).2
  | .drdAddsiz | .dwrAddsiz => some 0
  | .cfgCmbpck | .cfgAdbpck | .cfgWdbpck | .cfgDbpck | .cfgRdbpck => none
  | .cfgCmdsiz | .cfgAddsiz | .cfgWdatsiz | .cfgDbsiz | .cfgRdatsiz => none
  | .ctsSwCs => some 1
  | .ctsExecDone | .ctsDevNum | .ctsRdyst | .ctsRdyie => some 0
  | .cmdCmd | .addrAddr | .dwData _ | .drData _ => none
  | .prtLck | .prtPen | .prtVie | .prtFcsLck | .prtFcsEn | .prtFcsVal | .prtIo2f | .prtDevsiz | .prtOcalwd => some 0
  | .stsViol => some 0
  | .entry _ _ | .entCmd _ _ | .entFrbdc _ _ | .entAddsz _ _ | .entCmbpck _ _ | .entAdbpck _ _ | .entRngsel _ _ => some 0
  | .rngStrt _ | .rngLast _ | .rngCsuse _ | .rngRlck _ => some 0

/-- The configuration record (00_scope.md R6): the counts of the source and the default values. -/
@[reducible] def cfg : Cfg where
  nFiu := 4
  nRange := 16
  nCmdSlot := 28
  nCmdReg := 14
  burstMax := 16
  rangeShift := 14
  devCount := fun _ => 4
  offset := regOffset
  layout := fieldLayout
  readModeCode := readModePair
  phaseWidth := fun m _ => modeWidth m
  forbidTable := forbidDefault
  ioctlDbpck := fun _ addrBits _ _ => addrBits
  ioctlHoldsCs := true
  resetField := resetDefault

end Sys2Proof.Machine

namespace Sys2Proof.Config

/-- `N_FIU` (R6). -/
abbrev nFiu : Nat := Machine.cfg.nFiu

/-- `N_RANGE` (R6). -/
abbrev nRange : Nat := Machine.cfg.nRange

/-- `N_CMD_SLOT` (R6). -/
abbrev nCmdSlot : Nat := Machine.cfg.nCmdSlot

/-- `N_CMD_REG` (R6). -/
abbrev nCmdReg : Nat := Machine.cfg.nCmdReg

/-- `BURST_MAX` (R6). -/
abbrev burstMax : Nat := Machine.cfg.burstMax

/-- `RANGE_UNIT` as a shift: 16 KiB units (R6). -/
abbrev rangeShift : Nat := Machine.cfg.rangeShift

end Sys2Proof.Config
end

