-- ==== Sys2Proof/Machine/Bits.lean ====
section
/-! DEFINITION. Registers and fields as bits: the register a field lies in, the fields of a register, field extraction and
insertion (40_register_access.md R142, R143), reserved bits (10_state.md R41), the reset word of a register (R60), and the
byte order of the data registers (20_memory.md R70, R71). -/

namespace Sys2Proof.Machine

/-- The register a field lies in. -/
def fieldReg (f : Field) : Reg :=
  match f with
  | .drdRdcmd | .drdAcctype | .drdDbw | .drdAddsiz | .drdRBurst => .drdCfg
  | .dwrWrcmd | .dwrAddsiz | .dwrWBurst => .dwrCfg
  | .cfgCmbpck | .cfgAdbpck | .cfgWdbpck | .cfgDbpck | .cfgRdbpck => .umaCfg
  | .cfgCmdsiz | .cfgAddsiz | .cfgWdatsiz | .cfgDbsiz | .cfgRdatsiz => .umaCfg
  | .ctsExecDone | .ctsDevNum | .ctsSwCs | .ctsRdyst | .ctsRdyie => .umaCts
  | .cmdCmd => .umaCmd
  | .addrAddr => .umaAddr
  | .prtLck | .prtPen | .prtVie | .prtFcsLck | .prtFcsEn | .prtFcsVal | .prtIo2f | .prtDevsiz | .prtOcalwd => .prtCfg
  | .stsViol => .prtSts
  | .dwData k => .umaDw k
  | .drData k => .umaDr k
  | .entry n _ | .entCmd n _ | .entFrbdc n _ | .entAddsz n _ | .entCmbpck n _ | .entAdbpck n _ | .entRngsel n _ => .prtCmd n
  | .rngStrt n | .rngLast n | .rngCsuse n | .rngRlck n => .prtRange n

/-- The fields of a register, in the order the model's encoding of a field operand numbers them. -/
def regFields (r : Reg) : List Field :=
  match r with
  | .drdCfg => [.drdRdcmd, .drdAcctype, .drdDbw, .drdAddsiz, .drdRBurst]
  | .dwrCfg => [.dwrWrcmd, .dwrAddsiz, .dwrWBurst]
  | .umaCfg => [.cfgCmbpck, .cfgAdbpck, .cfgWdbpck, .cfgDbpck, .cfgRdbpck, .cfgCmdsiz, .cfgAddsiz, .cfgWdatsiz,
      .cfgDbsiz, .cfgRdatsiz]
  | .umaCts => [.ctsExecDone, .ctsDevNum, .ctsSwCs, .ctsRdyst, .ctsRdyie]
  | .umaCmd => [.cmdCmd]
  | .umaAddr => [.addrAddr]
  | .prtCfg => [.prtLck, .prtPen, .prtVie, .prtFcsLck, .prtFcsEn, .prtFcsVal, .prtIo2f, .prtDevsiz, .prtOcalwd]
  | .prtSts => [.stsViol]
  | .umaDw k => [.dwData k]
  | .umaDr k => [.drData k]
  | .prtCmd n => [.entry n .a, .entry n .b, .entCmd n .a, .entFrbdc n .a, .entAddsz n .a, .entCmbpck n .a,
      .entAdbpck n .a, .entRngsel n .a, .entCmd n .b, .entFrbdc n .b, .entAddsz n .b, .entCmbpck n .b,
      .entAdbpck n .b, .entRngsel n .b]
  | .prtRange n => [.rngStrt n, .rngLast n, .rngCsuse n, .rngRlck n]

/-- All 46 registers, in ascending order of default offset (10_state.md R21, 20_memory.md R84). -/
def allRegs : List Reg :=
  [.drdCfg, .dwrCfg, .umaCfg, .umaCts, .umaCmd, .umaAddr, .prtCfg, .prtSts]
    ++ (List.finRange 4).map .umaDw ++ (List.finRange 4).map .umaDr
    ++ (List.finRange 14).map .prtCmd ++ (List.finRange 16).map .prtRange

/-- Decode of a bus offset to a register, by exact match (30_encoding.md R116). -/
def regOfOffset (o : Nat) : Option Reg :=
  allRegs.find? (fun r => cfg.offset r == o)

/-- `lo(F)`. -/
def fieldLo (f : Field) : Nat := (cfg.layout f).1

/-- `width(F)`. -/
def fieldWidth (f : Field) : Nat := (cfg.layout f).2

/-- `2^width - 1` as a word. -/
def lowMask (width : Nat) : Word := (1#32 <<< width) - 1#32

/-- `mask(F) = (2^width(F) - 1) << lo(F)` (40_register_access.md R143). -/
def fieldMask (f : Field) : Word := lowMask (fieldWidth f) <<< fieldLo f

/-- Value of field `F` in the word `w`: `(w >> lo(F)) and (2^width(F) - 1)` (R142). -/
def getField (f : Field) (w : Word) : Word := (w >>> fieldLo f) &&& lowMask (fieldWidth f)

/-- `(w and not mask(F)) or (v << lo(F))`, a larger `v` truncated to the field width (R143). -/
def putField (f : Field) (v w : Word) : Word := (w &&& ~~~(fieldMask f)) ||| ((v &&& lowMask (fieldWidth f)) <<< fieldLo f)

/-- The bits of a register that some field occupies; all others are reserved (10_state.md R41). -/
def regMask (r : Reg) : Word := (regFields r).foldl (fun m f => m ||| fieldMask f) 0#32

/-- Reset value of a field (10_state.md R60); `none` is "unspecified". -/
def resetOf (f : Field) : Option Nat := cfg.resetField cfg.readModeCode f

/-- Reset word of a register (10_state.md R60): every field at its reset value; `d` stands for the drawn values of the
fields the spec leaves unspecified. -/
def resetWord (r : Reg) (d : Word) : Word :=
  (regFields r).foldl
    (fun w f => match resetOf f with
      | some v => putField f (BitVec.ofNat 32 v) w
      | none => putField f (getField f d) w) 0#32

/-- Byte `j` of a word, byte 0 in bits 7:0. -/
def wordByte (w : Word) (j : Nat) : Byte := (w >>> (8 * j)).setWidth 8

/-- The word of four bytes, the first in bits 7:0 (20_memory.md R70). -/
def wordOfBytes (b0 b1 b2 b3 : Byte) : Word :=
  b0.setWidth 32 ||| (b1.setWidth 32 <<< 8) ||| (b2.setWidth 32 <<< 16) ||| (b3.setWidth 32 <<< 24)

/-- Word `k` of `pack16(b)`: bytes `4k .. 4k+3`, zero where the buffer ends (20_memory.md R70). -/
def packWord (b : List Byte) (k : Nat) : Word :=
  wordOfBytes (b.getD (4 * k) 0#8) (b.getD (4 * k + 1) 0#8) (b.getD (4 * k + 2) 0#8) (b.getD (4 * k + 3) 0#8)

/-- `unpack(w, n)`: byte `j` is `(w[j div 4] >> (8 * (j mod 4)))[7:0]` (20_memory.md R70). -/
def unpackBytes (ws : List Word) (n : Nat) : List Byte :=
  (List.range n).map (fun j => wordByte (ws.getD (j / 4) 0#32) (j % 4))

/-- The address bytes on the wire: the low `8*n` bits, most significant byte first (20_memory.md R71). -/
def addrBytes (a : Word) (n : Nat) : List Byte :=
  ((List.range n).map (wordByte a)).reverse

end Sys2Proof.Machine
end

