-- ==== Sys2Proof/WellFormed.lean ====
section
/-! DEFINITION. Which instruction terms the model's encoding can carry: every number fits the bytes its record gives it, and
a buffer has exactly the length its size operand states (30_encoding.md R115 "byte arrays of the stated length"). An operand
outside its LEGAL set (an instance index that is too large, a bit width of 3) is well formed: the request's own rule says
what it does (R115). -/

namespace Sys2Proof

/-- A bus access always fits. -/
def instFits (inst : Nat) : Bool := inst < 2 ^ 16

/-- Fits one byte. -/
def fits8 (n : Nat) : Bool := n < 2 ^ 8

/-- Fits two bytes. -/
def fits16 (n : Nat) : Bool := n < 2 ^ 16

/-- Fits four bytes. -/
def fits32 (n : Nat) : Bool := n < 2 ^ 32

/-- Fits eight bytes. -/
def fits64 (n : Nat) : Bool := n < 2 ^ 64

/-- Well-formedness of an instruction term. -/
def Instr.WellFormed (i : Instr) : Bool :=
  match i with
  | .configureDirect inst flashSize _ rb wb => instFits inst && fits64 flashSize && fits8 rb && fits8 wb
  | .configureCommand inst _ _ => instFits inst
  | .getReadMode inst => instFits inst
  | .setDummyCycles inst cycles => instFits inst && fits32 cycles
  | .umaRead inst dev _ _ _ size _ => instFits inst && fits8 dev && fits32 size
  | .umaWrite inst dev _ _ _ size _ data => instFits inst && fits8 dev && fits32 size && data.length == size
  | .umaIoctl inst dev _ _ asz rs ws cb ab wb rb _ dummy buf =>
      instFits inst && fits8 dev && fits8 asz && fits32 rs && fits32 ws && fits8 cb && fits8 ab && fits8 wb && fits8 rb
        && fits8 dummy && buf.length == ws
  | .pageWrite inst dev _ _ size _ data => instFits inst && fits8 dev && fits32 size && data.length == size
  | .selectChip inst dev => instFits inst && fits8 dev
  | .setFourByteAddressing inst dev _ => instFits inst && fits8 dev
  | .getFourByteAddressing inst dev => instFits inst && fits8 dev
  | .selectChipByAddress inst dev _ => instFits inst && fits8 dev
  | .setProtectionRange inst index _ _ _ => instFits inst && fits8 index
  | .setProtectionCommand inst slot code _ aby ab cb =>
      instFits inst && fits8 slot && fits8 code && fits8 aby && fits8 ab && fits8 cb
  | .configureProtection inst _ _ deviceSize _ _ _ _ _ _ handler =>
      instFits inst && fits64 deviceSize && (match handler with | none => true | some h => fits16 h)
  | .getViolationStatus inst _ => instFits inst
  | .waitReady inst _ => instFits inst
  | .drdCfg _ inst _ | .dwrCfg _ inst _ | .umaCfg _ inst _ | .umaCts _ inst _ | .umaCmd _ inst _ | .umaAddr _ inst _
  | .prtCfg _ inst _ | .prtSts _ inst _
  | .umaDw0 _ inst _ | .umaDw1 _ inst _ | .umaDw2 _ inst _ | .umaDw3 _ inst _
  | .umaDr0 _ inst _ | .umaDr1 _ inst _ | .umaDr2 _ inst _ | .umaDr3 _ inst _
  | .prtCmd0 _ inst _ | .prtCmd1 _ inst _ | .prtCmd2 _ inst _ | .prtCmd3 _ inst _ | .prtCmd4 _ inst _
  | .prtCmd5 _ inst _ | .prtCmd6 _ inst _ | .prtCmd7 _ inst _ | .prtCmd8 _ inst _ | .prtCmd9 _ inst _
  | .prtCmd10 _ inst _ | .prtCmd11 _ inst _ | .prtCmd12 _ inst _ | .prtCmd13 _ inst _
  | .prtRange0 _ inst _ | .prtRange1 _ inst _ | .prtRange2 _ inst _ | .prtRange3 _ inst _ | .prtRange4 _ inst _
  | .prtRange5 _ inst _ | .prtRange6 _ inst _ | .prtRange7 _ inst _ | .prtRange8 _ inst _ | .prtRange9 _ inst _
  | .prtRange10 _ inst _ | .prtRange11 _ inst _ | .prtRange12 _ inst _ | .prtRange13 _ inst _ | .prtRange14 _ inst _
  | .prtRange15 _ inst _ => instFits inst
  | .regRead _ inst offset _ => instFits inst && fits16 offset
  | .regWrite _ inst offset _ _ => instFits inst && fits16 offset
  | .fieldRead inst _ => instFits inst
  | .fieldWrite inst _ _ => instFits inst
  | .engineComplete inst => instFits inst
  | .prtCheck inst => instFits inst
  | .poll inst => instFits inst
  | .irqDeliver inst => instFits inst
  | .reset => true

end Sys2Proof
end

