-- ==== Sys2Proof/Decode.lean ====
section
/-! DEFINITION. The decoder and the encoder of the model's command records. The source gives the requests as function calls
and no binary encoding of them (30_encoding.md R114, decision D38), so the record layout is the model's own
(notes/assumptions/2.md); what it carries from the spec are the request ids (R114), the operand types (R115), the register
offsets (20_memory.md R84) and the little-endian byte order of buffers (R70). A record is: one group byte (0 REQ, 1 REG,
2 BUS, 3 INT), the selector (request id; register offset; a number), the instance in two bytes, the other operands, and
last the data buffer. -/

namespace Sys2Proof

/-- Why a byte record is no instruction. -/
inductive DecodeError where
  /-- the record ends inside an operand -/
  | truncated
  /-- the group byte is none of 0 to 3 -/
  | unknownGroup
  /-- no request has this id (30_encoding.md R114) -/
  | unknownRequest
  /-- no bus primitive has this number -/
  | unknownBus
  /-- no internal step has this number -/
  | unknownInternal
  /-- no register stands at this offset (20_memory.md R84) -/
  | noRegister
  /-- an operand byte spells no value of its type -/
  | badOperand
  /-- bytes other than zero follow the instruction -/
  | trailingBytes
deriving DecidableEq, Repr

/-- What decoding the head of a byte list gives: the instruction and the bytes after it, or a named error. -/
abbrev Decoded := Except DecodeError (Instr × List Byte)

/-- `n` bytes, little-endian. -/
def putNat (n v : Nat) : List Byte :=
  match n with
  | 0 => []
  | n + 1 => BitVec.ofNat 8 v :: putNat n (v / 256)

/-- Reads `n` bytes, little-endian. -/
def readNat (n : Nat) (bs : List Byte) : Option (Nat × List Byte) :=
  match n, bs with
  | 0, bs => some (0, bs)
  | _ + 1, [] => none
  | n + 1, b :: bs =>
    match readNat n bs with
    | some (v, rest) => some (b.toNat + 256 * v, rest)
    | none => none

/-- Continue with the next `n`-byte number. -/
def withNat (n : Nat) (bs : List Byte) (k : Nat → List Byte → Decoded) : Decoded :=
  match readNat n bs with
  | some (v, rest) => k v rest
  | none => .error .truncated

/-- Continue with the next byte. -/
def withByte (bs : List Byte) (k : Byte → List Byte → Decoded) : Decoded :=
  withNat 1 bs fun v rest => k (BitVec.ofNat 8 v) rest

/-- Continue with the next 32-bit word. -/
def withWord (bs : List Byte) (k : Word → List Byte → Decoded) : Decoded :=
  withNat 4 bs fun v rest => k (BitVec.ofNat 32 v) rest

/-- Continue with the next truth value, a byte 0 or 1. -/
def withBool (bs : List Byte) (k : Bool → List Byte → Decoded) : Decoded :=
  withNat 1 bs fun v rest =>
    match v with
    | 0 => k false rest
    | 1 => k true rest
    | _ => .error .badOperand

/-- Continue with a buffer of `n` bytes. -/
def withBytes (n : Nat) (bs : List Byte) (k : List Byte → List Byte → Decoded) : Decoded :=
  if n ≤ bs.length then k (bs.take n) (bs.drop n) else .error .truncated

/-- Number of a read mode in a record. -/
def modeCode (m : ReadMode) : Nat :=
  match m with
  | .normal => 0
  | .fast => 1
  | .dualIo => 2
  | .dualOut => 3
  | .quadIo => 4
  | .spiX => 5

/-- The read mode of a number. -/
def modeOfCode (n : Nat) : Option ReadMode :=
  match n with
  | 0 => some .normal
  | 1 => some .fast
  | 2 => some .dualIo
  | 3 => some .dualOut
  | 4 => some .quadIo
  | 5 => some .spiX
  | _ => none

/-- Number of `address_present` in a record: a truth value, true for `AUTO`. -/
def apCode (ap : AddressPresent) : Bool :=
  match ap with
  | .absent => false
  | .auto => true

/-- `address_present` of a truth value. -/
def apOfCode (b : Bool) : AddressPresent := if b then .auto else .absent

/-- A master as a truth value, true for another bus master. -/
def masterCode (m : Master) : Bool :=
  match m with
  | .host => false
  | .other => true

/-- The master of a truth value. -/
def masterOfCode (b : Bool) : Master := if b then .other else .host

/-- Number of an access size. -/
def sizeCode (z : AccessSize) : Nat :=
  match z with
  | .word => 0
  | .half => 1
  | .byte => 2

/-- The access size of a number. -/
def sizeOfCode (n : Nat) : Option AccessSize :=
  match n with
  | 0 => some .word
  | 1 => some .half
  | 2 => some .byte
  | _ => none

/-- Continue with the operand `f` reads from the next byte. -/
def withCode {α : Type} (f : Nat → Option α) (bs : List Byte) (k : α → List Byte → Decoded) : Decoded :=
  withNat 1 bs fun v rest =>
    match f v with
    | some a => k a rest
    | none => .error .badOperand

/-- A 2-bit operand: a byte 0 to 3 (30_encoding.md R115 `cs_mask`). -/
def bits2OfCode (n : Nat) : Option (BitVec 2) := if n < 4 then some (BitVec.ofNat 2 n) else none

/-- Continue with a bus access: direction byte (0 read, 1 write), then the datum of a write. -/
def withAccess (bs : List Byte) (k : Access → List Byte → Decoded) : Decoded :=
  withBool bs fun w rest => if w then withWord rest fun v rest => k (.write v) rest else k .read rest

/-- Continue with a violation handler: 0, or 1 and its two-byte number. -/
def withHandler (bs : List Byte) (k : Option Nat → List Byte → Decoded) : Decoded :=
  withBool bs fun some? rest => if some? then withNat 2 rest fun h rest => k (some h) rest else k none rest

/-- Continue with a field operand: the number of its register, then its number within the register. -/
def withField (bs : List Byte) (k : Field → List Byte → Decoded) : Decoded :=
  withNat 1 bs fun r rest => withNat 1 rest fun n rest =>
    match Machine.allRegs[r]? with
    | none => .error .badOperand
    | some reg =>
      match (Machine.regFields reg)[n]? with
      | none => .error .badOperand
      | some f => k f rest

/-- Group REQ: request id, instance, operands in the order of 30_encoding.md R114 with the buffer last. -/
def decodeReq (bs : List Byte) : Decoded :=
  withNat 1 bs fun op bs => withNat 2 bs fun inst bs =>
    match op with
    | 0 => withNat 8 bs fun fs bs => withCode modeOfCode bs fun m bs => withNat 1 bs fun rb bs => withNat 1 bs fun wb bs =>
        .ok (.configureDirect inst fs m rb wb, bs)
    | 1 => withByte bs fun r bs => withByte bs fun w bs => .ok (.configureCommand inst r w, bs)
    | 2 => .ok (.getReadMode inst, bs)
    | 3 => withNat 4 bs fun c bs => .ok (.setDummyCycles inst c, bs)
    | 4 => withNat 1 bs fun dev bs => withByte bs fun cmd bs => withWord bs fun addr bs => withBool bs fun ap bs =>
        withNat 4 bs fun size bs => withWord bs fun t bs => .ok (.umaRead inst dev cmd addr (apOfCode ap) size t, bs)
    | 5 => withNat 1 bs fun dev bs => withByte bs fun cmd bs => withWord bs fun addr bs => withBool bs fun ap bs =>
        withNat 4 bs fun size bs => withWord bs fun t bs => withBytes size bs fun data bs =>
          .ok (.umaWrite inst dev cmd addr (apOfCode ap) size t data, bs)
    | 6 => withNat 1 bs fun dev bs => withByte bs fun cmd bs => withWord bs fun addr bs => withNat 1 bs fun asz bs =>
        withNat 4 bs fun rs bs => withNat 4 bs fun ws bs => withNat 1 bs fun cb bs => withNat 1 bs fun ab bs =>
          withNat 1 bs fun wb bs => withNat 1 bs fun rb bs => withWord bs fun t bs => withNat 1 bs fun dummy bs =>
            withBytes ws bs fun buf bs => .ok (.umaIoctl inst dev cmd addr asz rs ws cb ab wb rb t dummy buf, bs)
    | 7 => withNat 1 bs fun dev bs => withByte bs fun cmd bs => withWord bs fun addr bs => withNat 4 bs fun size bs =>
        withWord bs fun t bs => withBytes size bs fun data bs => .ok (.pageWrite inst dev cmd addr size t data, bs)
    | 8 => withNat 1 bs fun dev bs => .ok (.selectChip inst dev, bs)
    | 9 => withNat 1 bs fun dev bs => withBool bs fun en bs => .ok (.setFourByteAddressing inst dev en, bs)
    | 10 => withNat 1 bs fun dev bs => .ok (.getFourByteAddressing inst dev, bs)
    | 11 => withNat 1 bs fun dev bs => withWord bs fun addr bs => .ok (.selectChipByAddress inst dev addr, bs)
    | 12 => withNat 1 bs fun idx bs => withWord bs fun start bs => withWord bs fun stop bs =>
        withCode bits2OfCode bs fun mask bs => .ok (.setProtectionRange inst idx start stop mask, bs)
    | 13 => withNat 1 bs fun slot bs => withNat 1 bs fun code bs => withByte bs fun cmd bs => withNat 1 bs fun aby bs =>
        withNat 1 bs fun ab bs => withNat 1 bs fun cb bs => .ok (.setProtectionCommand inst slot code cmd aby ab cb, bs)
    | 14 => withBool bs fun lock bs => withBool bs fun enable bs => withNat 8 bs fun size bs =>
        withBool bs fun e0 bs => withBool bs fun e1 bs => withBool bs fun v0 bs => withBool bs fun v1 bs =>
          withBool bs fun io2 bs => withBool bs fun oca bs => withHandler bs fun h bs =>
            .ok (.configureProtection inst lock enable size e0 e1 v0 v1 io2 oca h, bs)
    | 15 => withBool bs fun clear bs => .ok (.getViolationStatus inst clear, bs)
    | 16 => withWord bs fun t bs => .ok (.waitReady inst t, bs)
    | _ => .error .unknownRequest

/-- Group REG: offset, of which the low 12 bits select the register (R120), master, instance, access. -/
def decodeReg (bs : List Byte) : Decoded :=
  withNat 2 bs fun o bs =>
    match Machine.regOfOffset (o % 2 ^ 12) with
    | none => .error .noRegister
    | some r => withBool bs fun m bs => withNat 2 bs fun inst bs => withAccess bs fun a bs =>
        .ok (Instr.ofReg r (masterOfCode m) inst a, bs)

/-- Group BUS: the four primitives of 40_register_access.md, numbered in that file's order. -/
def decodeBus (bs : List Byte) : Decoded :=
  withNat 1 bs fun sel bs => withNat 2 bs fun inst bs =>
    match sel with
    | 0 => withBool bs fun m bs => withNat 2 bs fun o bs => withCode sizeOfCode bs fun z bs =>
        .ok (.regRead (masterOfCode m) inst o z, bs)
    | 1 => withBool bs fun m bs => withNat 2 bs fun o bs => withCode sizeOfCode bs fun z bs => withWord bs fun v bs =>
        .ok (.regWrite (masterOfCode m) inst o z v, bs)
    | 2 => withField bs fun f bs => .ok (.fieldRead inst f, bs)
    | 3 => withField bs fun f bs => withWord bs fun v bs => .ok (.fieldWrite inst f v, bs)
    | _ => .error .unknownBus

/-- Group INT: the five internal steps of 00_scope.md R2 (iii), in that order. -/
def decodeInt (bs : List Byte) : Decoded :=
  withNat 1 bs fun sel bs =>
    match sel with
    | 0 => withNat 2 bs fun inst bs => .ok (.engineComplete inst, bs)
    | 1 => withNat 2 bs fun inst bs => .ok (.prtCheck inst, bs)
    | 2 => withNat 2 bs fun inst bs => .ok (.poll inst, bs)
    | 3 => withNat 2 bs fun inst bs => .ok (.irqDeliver inst, bs)
    | 4 => .ok (.reset, bs)
    | _ => .error .unknownInternal

/-- The instruction at the head of a byte list, and the bytes after it. -/
def decode (bs : List Byte) : Decoded :=
  withNat 1 bs fun group bs =>
    match group with
    | 0 => decodeReq bs
    | 1 => decodeReg bs
    | 2 => decodeBus bs
    | 3 => decodeInt bs
    | _ => .error .unknownGroup

/-- The instruction of a whole record; only zero bytes may follow it. -/
def decodeRecord (bs : List Byte) : Except DecodeError Instr :=
  match decode bs with
  | .error e => .error e
  | .ok (i, rest) => if rest.all (· == 0#8) then .ok i else .error .trailingBytes

/-! The encoder. -/

/-- One byte of a truth value. -/
def putBool (b : Bool) : List Byte := [if b then 1#8 else 0#8]

/-- Four bytes of a word. -/
def putWord (w : Word) : List Byte := putNat 4 w.toNat

/-- A bus access. -/
def putAccess (a : Access) : List Byte :=
  match a with
  | .read => putBool false
  | .write v => putBool true ++ putWord v

/-- A violation handler. -/
def putHandler (h : Option Nat) : List Byte :=
  match h with
  | none => putBool false
  | some n => putBool true ++ putNat 2 n

/-- A field operand. -/
def putFieldRef (f : Field) : List Byte :=
  putNat 1 (Machine.allRegs.idxOf (Machine.fieldReg f)) ++ putNat 1 ((Machine.regFields (Machine.fieldReg f)).idxOf f)

/-- Group REQ. -/
def encodeReq (op inst : Nat) (operands : List Byte) : List Byte := 0#8 :: (putNat 1 op ++ (putNat 2 inst ++ operands))

/-- Group REG. -/
def encodeReg (r : Reg) (m : Master) (inst : Nat) (a : Access) : List Byte :=
  1#8 :: (putNat 2 (Machine.cfg.offset r) ++ (putBool (masterCode m) ++ (putNat 2 inst ++ putAccess a)))

/-- Group BUS. -/
def encodeBus (sel inst : Nat) (operands : List Byte) : List Byte := 2#8 :: (putNat 1 sel ++ (putNat 2 inst ++ operands))

/-- Group INT, with an instance. -/
def encodeInt (sel inst : Nat) : List Byte := 3#8 :: (putNat 1 sel ++ putNat 2 inst)

/-- The record of an instruction. -/
def encode (i : Instr) : List Byte :=
  match i with
  | .configureDirect inst fs m rb wb =>
      encodeReq 0 inst (putNat 8 fs ++ (putNat 1 (modeCode m) ++ (putNat 1 rb ++ putNat 1 wb)))
  | .configureCommand inst r w => encodeReq 1 inst [r, w]
  | .getReadMode inst => encodeReq 2 inst []
  | .setDummyCycles inst c => encodeReq 3 inst (putNat 4 c)
  | .umaRead inst dev cmd addr ap size t =>
      encodeReq 4 inst (putNat 1 dev ++ (cmd :: (putWord addr ++ (putBool (apCode ap) ++ (putNat 4 size ++ putWord t)))))
  | .umaWrite inst dev cmd addr ap size t data =>
      encodeReq 5 inst
        (putNat 1 dev ++ (cmd :: (putWord addr ++ (putBool (apCode ap) ++ (putNat 4 size ++ (putWord t ++ data))))))
  | .umaIoctl inst dev cmd addr asz rs ws cb ab wb rb t dummy buf =>
      encodeReq 6 inst
        (putNat 1 dev ++ (cmd :: (putWord addr ++ (putNat 1 asz ++ (putNat 4 rs ++ (putNat 4 ws ++ (putNat 1 cb ++
          (putNat 1 ab ++ (putNat 1 wb ++ (putNat 1 rb ++ (putWord t ++ (putNat 1 dummy ++ buf))))))))))))
  | .pageWrite inst dev cmd addr size t data =>
      encodeReq 7 inst (putNat 1 dev ++ (cmd :: (putWord addr ++ (putNat 4 size ++ (putWord t ++ data)))))
  | .selectChip inst dev => encodeReq 8 inst (putNat 1 dev)
  | .setFourByteAddressing inst dev en => encodeReq 9 inst (putNat 1 dev ++ putBool en)
  | .getFourByteAddressing inst dev => encodeReq 10 inst (putNat 1 dev)
  | .selectChipByAddress inst dev addr => encodeReq 11 inst (putNat 1 dev ++ putWord addr)
  | .setProtectionRange inst idx start stop mask =>
      encodeReq 12 inst (putNat 1 idx ++ (putWord start ++ (putWord stop ++ putNat 1 mask.toNat)))
  | .setProtectionCommand inst slot code cmd aby ab cb =>
      encodeReq 13 inst (putNat 1 slot ++ (putNat 1 code ++ (cmd :: (putNat 1 aby ++ (putNat 1 ab ++ putNat 1 cb)))))
  | .configureProtection inst lock enable size e0 e1 v0 v1 io2 oca h =>
      encodeReq 14 inst
        (putBool lock ++ (putBool enable ++ (putNat 8 size ++ (putBool e0 ++ (putBool e1 ++ (putBool v0 ++ (putBool v1 ++
          (putBool io2 ++ (putBool oca ++ putHandler h)))))))))
  | .getViolationStatus inst clear => encodeReq 15 inst (putBool clear)
  | .waitReady inst t => encodeReq 16 inst (putWord t)
  | .drdCfg m inst a => encodeReg .drdCfg m inst a
  | .dwrCfg m inst a => encodeReg .dwrCfg m inst a
  | .umaCfg m inst a => encodeReg .umaCfg m inst a
  | .umaCts m inst a => encodeReg .umaCts m inst a
  | .umaCmd m inst a => encodeReg .umaCmd m inst a
  | .umaAddr m inst a => encodeReg .umaAddr m inst a
  | .prtCfg m inst a => encodeReg .prtCfg m inst a
  | .prtSts m inst a => encodeReg .prtSts m inst a
  | .umaDw0 m inst a => encodeReg (.umaDw 0) m inst a
  | .umaDw1 m inst a => encodeReg (.umaDw 1) m inst a
  | .umaDw2 m inst a => encodeReg (.umaDw 2) m inst a
  | .umaDw3 m inst a => encodeReg (.umaDw 3) m inst a
  | .umaDr0 m inst a => encodeReg (.umaDr 0) m inst a
  | .umaDr1 m inst a => encodeReg (.umaDr 1) m inst a
  | .umaDr2 m inst a => encodeReg (.umaDr 2) m inst a
  | .umaDr3 m inst a => encodeReg (.umaDr 3) m inst a
  | .prtCmd0 m inst a => encodeReg (.prtCmd 0) m inst a
  | .prtCmd1 m inst a => encodeReg (.prtCmd 1) m inst a
  | .prtCmd2 m inst a => encodeReg (.prtCmd 2) m inst a
  | .prtCmd3 m inst a => encodeReg (.prtCmd 3) m inst a
  | .prtCmd4 m inst a => encodeReg (.prtCmd 4) m inst a
  | .prtCmd5 m inst a => encodeReg (.prtCmd 5) m inst a
  | .prtCmd6 m inst a => encodeReg (.prtCmd 6) m inst a
  | .prtCmd7 m inst a => encodeReg (.prtCmd 7) m inst a
  | .prtCmd8 m inst a => encodeReg (.prtCmd 8) m inst a
  | .prtCmd9 m inst a => encodeReg (.prtCmd 9) m inst a
  | .prtCmd10 m inst a => encodeReg (.prtCmd 10) m inst a
  | .prtCmd11 m inst a => encodeReg (.prtCmd 11) m inst a
  | .prtCmd12 m inst a => encodeReg (.prtCmd 12) m inst a
  | .prtCmd13 m inst a => encodeReg (.prtCmd 13) m inst a
  | .prtRange0 m inst a => encodeReg (.prtRange 0) m inst a
  | .prtRange1 m inst a => encodeReg (.prtRange 1) m inst a
  | .prtRange2 m inst a => encodeReg (.prtRange 2) m inst a
  | .prtRange3 m inst a => encodeReg (.prtRange 3) m inst a
  | .prtRange4 m inst a => encodeReg (.prtRange 4) m inst a
  | .prtRange5 m inst a => encodeReg (.prtRange 5) m inst a
  | .prtRange6 m inst a => encodeReg (.prtRange 6) m inst a
  | .prtRange7 m inst a => encodeReg (.prtRange 7) m inst a
  | .prtRange8 m inst a => encodeReg (.prtRange 8) m inst a
  | .prtRange9 m inst a => encodeReg (.prtRange 9) m inst a
  | .prtRange10 m inst a => encodeReg (.prtRange 10) m inst a
  | .prtRange11 m inst a => encodeReg (.prtRange 11) m inst a
  | .prtRange12 m inst a => encodeReg (.prtRange 12) m inst a
  | .prtRange13 m inst a => encodeReg (.prtRange 13) m inst a
  | .prtRange14 m inst a => encodeReg (.prtRange 14) m inst a
  | .prtRange15 m inst a => encodeReg (.prtRange 15) m inst a
  | .regRead m inst o z => encodeBus 0 inst (putBool (masterCode m) ++ (putNat 2 o ++ putNat 1 (sizeCode z)))
  | .regWrite m inst o z v =>
      encodeBus 1 inst (putBool (masterCode m) ++ (putNat 2 o ++ (putNat 1 (sizeCode z) ++ putWord v)))
  | .fieldRead inst f => encodeBus 2 inst (putFieldRef f)
  | .fieldWrite inst f v => encodeBus 3 inst (putFieldRef f ++ putWord v)
  | .engineComplete inst => encodeInt 0 inst
  | .prtCheck inst => encodeInt 1 inst
  | .poll inst => encodeInt 2 inst
  | .irqDeliver inst => encodeInt 3 inst
  | .reset => 3#8 :: putNat 1 4

/-! The opcode table's words. -/

/-- The record of a word of spec/opcode_table.json: group REG where the word has 16 bits and its low 12 bits are a
register's offset (30_encoding.md R120: mask `0xFFF`), else group REQ (8-bit match on the request id); every bit above the word
is 0. -/
def tableRecord (nbits w : Nat) : List Byte :=
  if nbits = 16 ∧ (Machine.regOfOffset (w % 2 ^ 12)).isSome then 1#8 :: putNat 64 w else 0#8 :: putNat 64 w

/-- The instruction the decoder reads from a word of the opcode table. -/
def decodeTableWord (nbits w : Nat) : Option Instr :=
  match decodeRecord (tableRecord nbits w) with
  | .ok i => some i
  | .error _ => none

end Sys2Proof
end

