-- ==== Sys2Proof/Machine/State.lean ====
section
/-! DEFINITION. The state of the machine (10_state.md): per FIU instance the 46 registers and the hidden state of section 6,
and, once, what belongs to the one host agent (sequencer position, halt mark) and to the model itself (the input the
environment supplies, the recorded observations). Plain data throughout. -/

namespace Sys2Proof.Machine

/-- Why a state has no meaning (93_implementation_defined.md F1 to F6). -/
inductive Unmodelled where
  /-- F1: a UMA register other than UMA_CTS written while a transaction runs (R36) -/
  | busyWrite
  /-- F2: a trigger with a reserved code in UMA_CFG (R106) -/
  | illegalUmaCfg
  /-- F3: a trigger while a chip select is forced to the active level (R57) -/
  | forcedActiveCs
  /-- F4: a register access that is not an aligned 32-bit access (R74) -/
  | narrowRegisterAccess
  /-- F5: an access to an offset that holds no register (R81) -/
  | unmappedOffset
  /-- F6: a violation handler issued an operation outside its contract (R292) -/
  | handlerReentrancy
deriving DecidableEq, Repr

/-- Reason of a fatal assertion (60_exceptions.md R282, R283). -/
inductive HaltReason where
  | instanceIndex
  | deviceIndex
  | dummyCyclesNotMultipleOf8
deriving DecidableEq, Repr

/-- Status results, symbolic (60_exceptions.md R281). -/
inductive Status where
  | ok
  | paramError
  | timeout
deriving DecidableEq, Repr

/-- Verdict of the enforcer (00_scope.md R18). -/
inductive Verdict where
  | allow
  | reject
deriving DecidableEq, Repr

/-- The engine latch `ENG` (10_state.md R47). -/
inductive Eng where
  | idle
  | busy (l : Descr) (disturbed : Bool)
deriving DecidableEq, Repr

/-- The frame state `FRAME` (10_state.md R50); the verdict `NONE` is `none`. -/
inductive Frame where
  | closed
  | opened (d : Nat) (v : Option Verdict)
deriving DecidableEq, Repr

/-- The supervisor state `SUP` (10_state.md R54). -/
inductive Sup where
  | off
  | unbounded
  | bounded (remaining : Nat)
deriving DecidableEq, Repr

/-- One FIU instance (10_state.md R20). -/
structure Fiu where
  /-- the 46 registers, by `regIndex` (R21) -/
  regs : Vector Word 46
  /-- `ENG` (R47) -/
  eng : Eng
  /-- `FOURB[0..3]` (R49) -/
  fourb : Vector Bool 4
  /-- `FRAME` (R50) -/
  frame : Frame
  /-- `WIRE`, oldest event first (R51) -/
  wire : List WireEvent
  /-- `HANDLER`: the registered violation handler, by number (R53, R290) -/
  handler : Option Nat
  /-- `IN_HANDLER` (R53) -/
  inHandler : Bool
  /-- `SUP` (R54) -/
  sup : Sup
  /-- `UNMODELLED` (R58) -/
  unmodelled : Option Unmodelled
  /-- the model's own: how many values have been drawn in this instance (R9 `draw`) -/
  draws : Nat
deriving DecidableEq, Repr

/-- Labels of the steps of a request's rule (10_state.md R55). `s n k` is bus access `k` of step S<n>, `l n k` of step L<n>
in a chunk loop; a wait inside a request has the label of its step for its entry and `sp n` or `lp n` for its poll loop;
`fin` and `fail` are END and FAIL of 43_uma_chunked.md. `start` is V1: the validation steps and the first access. -/
inductive Label where
  | start
  | s (n k : Nat)
  | sp (n : Nat)
  | l (n k : Nat)
  | lp (n : Nat)
  | fin
  | fail
deriving DecidableEq, Repr

/-- Position inside a request: `Run(.., step, offset, acc)` of 10_state.md R55 and the values the request has read so far. -/
structure Pos where
  /-- label of the next step -/
  label : Label
  /-- chunk offset, 0 outside `uma_ioctl` and `page_write` -/
  offset : Nat
  /-- bytes harvested so far -/
  acc : List Byte
  /-- words of the read buffer harvested in the current chunk -/
  words : List Word
  /-- the first field value read by a request that reads two (ACCTYPE of `get_read_mode`, VIOL of `get_violation_status`) -/
  first : Word
  /-- the read mode read at the `get_read_mode` sub-sequence; `none` is `UNDEFINED_MODE` -/
  mode : Option ReadMode
  /-- the resolved address size of step S2 (42_uma_engine.md R179) -/
  asz : Nat
deriving DecidableEq, Repr

/-- The sequencer position `SEQ` (10_state.md R55): the running request is kept with its operands. -/
inductive Seq where
  | idle
  | run (i : Instr) (p : Pos)
deriving DecidableEq, Repr

/-- Result of the last finished host operation. `UNDEFINED_MODE` is `mode none`. In `data`, `bytes` are the bytes the
request delivered; with a status other than `ok` every further byte of the caller's buffer is unspecified (R192, R206). -/
inductive Result where
  | status (st : Status)
  | mode (m : Option ReadMode)
  | flag (b : Bool)
  | word (w : Word)
  | data (st : Status) (bytes : List Byte)
  | verdict (v : Verdict)
  | done
deriving DecidableEq, Repr

/-- One access of the host's bus trace (40_register_access.md R148): a read with the value it returned, or a write. -/
structure BusEvent where
  inst : Nat
  isWrite : Bool
  reg : Reg
  data : Word
deriving DecidableEq, Repr

/-- Whose turn it is (00_scope.md R10, R15): the host agent, or another agent's step, given as a record. -/
inductive Turn where
  | host
  | agent (record : List Byte)
deriving DecidableEq, Repr

/-- The machine. -/
structure State where
  /-- the FIU instances (R7) -/
  fius : Vector Fiu Config.nFiu
  /-- `SEQ` of the one host (R55, R303) -/
  seq : Seq
  /-- `HALTED` of the one host (R58, R284) -/
  halted : Option HaltReason
  /-- position inside the operation the violation handler is executing (R291) -/
  hseq : Seq
  /-- operations the running violation handler has still to perform (R291), as records -/
  hprog : List (List Byte)
  /-- environment: what each handler number performs when it is delivered, as records -/
  handlerCode : List (Nat × List (List Byte))
  /-- environment: the host operations still to be issued, in program order, as records -/
  prog : List (List Byte)
  /-- environment: whose turn each coming step is; the host's when the list is used up -/
  sched : List Turn
  /-- observation: result of the last finished host operation -/
  result : Option Result
  /-- observation: what the last read of another bus master returned (20_memory.md R95) -/
  otherRead : Option Word
  /-- observation: the host's bus trace, oldest access first (R148) -/
  trace : List BusEvent
deriving DecidableEq, Repr

/-- Faults. -/
inductive Fault where
  /-- Raised by every step but RESET from a state whose `UNMODELLED` mark is set (00_scope.md R16, 10_state.md R58,
  93_implementation_defined.md section 1 "the model stops with a named Unmodelled reason; no claim holds past it"). The
  step that meets the condition sets the mark and answers a next state. Safe: the model stops where the spec gives no meaning. -/
  | unmodelled (r : Unmodelled)
deriving DecidableEq, Repr

/-- Refusals. -/
inductive Refusal where
  /-- An instruction whose meaning is not written yet, by its mnemonic. Raised by `exec` only. Safe. -/
  | notModelled (mnemonic : String)
  /-- Raised by a meaning whose step the spec does not enable in this state: a host step while `HALTED` or while another
  request runs (R284, R303), `ENGINE_COMPLETE` of an idle engine (R170), `IRQ_DELIVER` when R291 does not enable it, an
  agent of an instance that does not exist. `step` passes such a turn over. Safe: no behaviour is added. -/
  | notEnabled
  /-- Raised by `step` where the environment supplied bytes that are no record of an instruction. Safe. -/
  | undecodable (e : DecodeError)
  /-- Raised by `step` where the environment scheduled an instruction for an agent that does not perform it. Safe. -/
  | wrongAgent
deriving DecidableEq, Repr

/-- Place of a register in `Fiu.regs`. -/
def regIndex (r : Reg) : Fin 46 :=
  match r with
  | .drdCfg => 0
  | .dwrCfg => 1
  | .umaCfg => 2
  | .umaCts => 3
  | .umaCmd => 4
  | .umaAddr => 5
  | .prtCfg => 6
  | .prtSts => 7
  | .umaDw k => ⟨8 + k.val, by omega⟩
  | .umaDr k => ⟨12 + k.val, by omega⟩
  | .prtCmd n => ⟨16 + n.val, by omega⟩
  | .prtRange n => ⟨30 + n.val, by omega⟩

/-- The register file after reset; register number `k` draws `d k` for its unspecified fields (R60). -/
def resetRegs (d : Nat → Word) : Vector Word 46 :=
  Vector.ofFn fun k => resetWord (allRegs.getD k.val .drdCfg) (d k.val)

/-- One instance right after power-on reset: the values of R60 and R61, the unspecified fields at 0
(notes/assumptions/5.md). The wire log starts empty, without the marker that the step `RESET` appends: the spec gives no
starting log, DESIGN CHOICE (notes/assumptions/22.md). -/
def resetFiu : Fiu where
  regs := resetRegs fun _ => 0#32
  eng := .idle
  fourb := Vector.replicate 4 false
  frame := .closed
  wire := []
  handler := none
  inHandler := false
  sup := .off
  unmodelled := none
  draws := 0

/-- The machine right after reset (R60, R61, R311): the sequencer idle, waiting for the host's first request. -/
def State.reset : State where
  fius := Vector.replicate Config.nFiu resetFiu
  seq := .idle
  halted := none
  hseq := .idle
  hprog := []
  handlerCode := []
  prog := []
  sched := []
  result := none
  otherRead := none
  trace := []

end Sys2Proof.Machine
end

