-- ==== Sys2Proof/Machine/Operands.lean ====
section
/-! DEFINITION. Operand forms: legal operand sets (30_encoding.md R115), the arithmetic of 00_scope.md R11 to R14, the
packed words of 30_encoding.md R108, R109, R111, and the operand-derived words of the requests (42_uma_engine.md R179,
R180, 43_uma_chunked.md R202, R204). -/

namespace Sys2Proof.Machine

/-- `1, 2, 4` bits per clock (R14). -/
def widthBits (w : Width) : Nat :=
  match w with
  | .w1 => 1
  | .w2 => 2
  | .w4 => 4

/-- `bpck`: the code of a width (R14). -/
def widthCode (w : Width) : Nat :=
  match w with
  | .w1 => 0
  | .w2 => 1
  | .w4 => 2

/-- The width of an operand in {1, 2, 4}; no other number has one (R14). -/
def widthOfBits (n : Nat) : Option Width :=
  match n with
  | 1 => some .w1
  | 2 => some .w2
  | 4 => some .w4
  | _ => none

/-- `width(code)` as bits per clock (R14); code 3 has no width, and no transaction with it is armed (R106). -/
def codeBits (code : Nat) : Nat := 2 ^ code

/-- Code of an optional width; `-` (absent) is code 0 (30_encoding.md R108). -/
def optCode (w : Option Width) : Nat :=
  match w with
  | some w => widthCode w
  | none => 0

/-- A number as a word. -/
def nat32 (n : Nat) : Word := BitVec.ofNat 32 n

/-- A truth value as a word. -/
def bool32 (b : Bool) : Word := if b then 1#32 else 0#32

/-- Two truth values as a 2-bit field, `b1 ++ b0`. -/
def pair32 (b1 b0 : Bool) : Word := (bool32 b1 <<< 1) ||| bool32 b0

/-- `clamp(size - offset, 0, 16)` on mathematical integers (R11): truncated subtraction gives the lower bound. -/
def clampChunk (size offset : Nat) : Nat := min (size - offset) Config.burstMax

/-- `start13` (R12). -/
def start13 (start : Word) : Word := (start >>> Config.rangeShift) &&& lowMask 13

/-- `last13`: `((end - 0x3FFF) mod 2^32 >> 14)[12:0]` (R12). -/
def last13 (stop : Word) : Word := ((stop - 0x3FFF#32) >>> Config.rangeShift) &&& lowMask 13

/-- Search of the least `k` from `k` on with `4^k MiB ≥ size`. -/
def devsizFrom (fuel k size : Nat) : Nat :=
  match fuel with
  | 0 => k
  | fuel + 1 => if size ≤ 4 ^ k * 2 ^ 20 then k else devsizFrom fuel (k + 1) size

/-- `devsiz(size)`: the least `k ≥ 0` with `4^k MiB ≥ size` (R13). `4^(log2 size) MiB ≥ size`, so the search ends. -/
def devsiz (size : Nat) : Nat := devsizFrom (Nat.log2 size + 1) 0 size

/-- `instance < N_FIU` (R7, R283). -/
def instOk (inst : Nat) : Bool := inst < Config.nFiu

/-- `device < DEV_COUNT(instance)` (R115). -/
def devOk (inst dev : Nat) : Bool := dev < cfg.devCount inst

/-- `pack_uma_cfg` (30_encoding.md R108); an absent phase has width `none`. -/
def packUmaCfg (cmdsiz addsiz wdatsiz dbsiz rdatsiz : Nat) (wc wa ww wd wr : Option Width) : Word :=
  putField .cfgCmbpck (nat32 (optCode wc)) (putField .cfgAdbpck (nat32 (optCode wa))
    (putField .cfgWdbpck (nat32 (optCode ww)) (putField .cfgDbpck (nat32 (optCode wd))
      (putField .cfgRdbpck (nat32 (optCode wr)) (putField .cfgCmdsiz (nat32 cmdsiz)
        (putField .cfgAddsiz (nat32 addsiz) (putField .cfgWdatsiz (nat32 wdatsiz)
          (putField .cfgDbsiz (nat32 dbsiz) (putField .cfgRdatsiz (nat32 rdatsiz) 0#32)))))))))

/-- `pack_range` (30_encoding.md R109); `RLCK` is not part of the packed value. -/
def packRange (start stop : Word) (csMask : BitVec 2) : Word :=
  putField (.rngStrt 0) (start13 start) (putField (.rngLast 0) (last13 stop)
    (putField (.rngCsuse 0) (csMask.setWidth 32) 0#32))

/-- `pack_entry` (30_encoding.md R111): `code[2]` to the range-select bit, `code[1:0]` to the forbid code. -/
def packEntry (code : Nat) (cmd : Byte) (addrBytes : Nat) (addrBits cmdBits : Width) : Word :=
  putField (.entCmd 0 .a) (cmd.setWidth 32) (putField (.entFrbdc 0 .a) (nat32 (code % 4))
    (putField (.entAddsz 0 .a) (bool32 (addrBytes == 4)) (putField (.entCmbpck 0 .a) (nat32 (widthCode cmdBits))
      (putField (.entAdbpck 0 .a) (nat32 (widthCode addrBits)) (putField (.entRngsel 0 .a) (nat32 (code / 4)) 0#32)))))

/-- The mode `m` with `READ_MODE_CODE(m) = (acc, dbw)`, or `none` for `UNDEFINED_MODE` (41_direct_access.md R156). -/
def modeOfPair (acc dbw : Word) : Option ReadMode :=
  [ReadMode.normal, .fast, .dualIo, .dualOut, .quadIo, .spiX].find?
    (fun m => (cfg.readModeCode m).1 == acc.toNat && (cfg.readModeCode m).2 == dbw.toNat)

/-- `PHASE_WIDTH(m, phase)` (42_uma_engine.md R180). -/
def phaseWidth (m : Option ReadMode) (ph : PhaseClass) : Width := cfg.phaseWidth m ph

/-- `resolve_addsiz` (42_uma_engine.md R179), from the device's flag `FOURB[device]`. -/
def resolveAddsiz (fourb : Bool) (ap : AddressPresent) : Nat :=
  match ap with
  | .absent => 0
  | .auto => if fourb then 4 else 3

/-- The `UMA_CFG` word of `uma_read` (42_uma_engine.md R185 S5). -/
def readCfg (m : Option ReadMode) (asz size : Nat) : Word :=
  packUmaCfg 1 asz 0 0 size (some (phaseWidth m .command)) (some (phaseWidth m .address)) none none
    (some (phaseWidth m .data))

/-- Command size of the write path: no command phase in `SPI_X` mode (42_uma_engine.md R190). -/
def writeCmdsiz (m : Option ReadMode) : Nat := if m = some .spiX then 0 else 1

/-- Command width of the write path: `-` in `SPI_X` mode (42_uma_engine.md R190). -/
def writeCmdWidth (m : Option ReadMode) : Option Width := if m = some .spiX then none else some (phaseWidth m .command)

/-- The `UMA_CFG` word of `uma_write` (R188 S5) and of chunk 0 of `page_write` (43_uma_chunked.md R211 L1). -/
def writeCfg (m : Option ReadMode) (asz n : Nat) : Word :=
  packUmaCfg (writeCmdsiz m) asz n 0 0 (writeCmdWidth m) (some (phaseWidth m .address)) (some (phaseWidth m .data)) none none

/-- The `UMA_CFG` word of a continuation chunk of `page_write` (43_uma_chunked.md R211 L1). -/
def writeContCfg (m : Option ReadMode) (n : Nat) : Word :=
  packUmaCfg 0 0 n 0 0 (writeCmdWidth m) (some (phaseWidth m .address)) (some (phaseWidth m .data)) none none

/-- `size = max(read_size, write_size)` (43_uma_chunked.md R202). -/
def ioctlSize (readSize writeSize : Nat) : Nat := max readSize writeSize

/-- `hold = IOCTL_HOLDS_CS and size > 16` (43_uma_chunked.md R202, R207). -/
def ioctlHold (readSize writeSize : Nat) : Bool := cfg.ioctlHoldsCs && Config.burstMax < ioctlSize readSize writeSize

/-- `chunk_cfg(offset, wn, rn)` (43_uma_chunked.md R204): the head form at offset 0, else the continuation form. -/
def chunkCfg (offset asz wn dummyBytes rn : Nat) (wc wa ww wr : Width) : Word :=
  if offset = 0 then
    packUmaCfg 1 asz wn dummyBytes rn (some wc) (some wa) (some ww) (some (cfg.ioctlDbpck wc wa ww wr)) (some wr)
  else packUmaCfg 0 0 wn 0 rn (some wc) (some wa) (some ww) (some (cfg.ioctlDbpck wc wa ww wr)) (some wr)

/-- `n_chunks(size) = max(1, ceil(size / 16))` (30_encoding.md R117). -/
def nChunks (size : Nat) : Nat := max 1 ((size + 15) / 16)

/-- Polls permitted by a bounded wait: `timeout / POLL_PERIOD_US`, floor division (46_supervisor.md R271). -/
def pollBudget (timeout : Word) : Nat := timeout.toNat / Config.pollPeriodUs

end Sys2Proof.Machine
end

