-- ==== Sys2Proof/Machine/Flags.lean ====
section
/-! DEFINITION. Flags, locks and pin levels as functions of register words: the write-1-to-clear and done-bit rules of
`UMA_CTS` (10_state.md R34, R36, R43, R44) and `PRT_STS` (R40), the write filter of `PRT_CFG` (R37), the lock flags (R46),
the two interrupt request levels (60_exceptions.md R288, R293), and the chip-select multiplexer (R57). -/

namespace Sys2Proof.Machine

/-- A one-bit field is 1. -/
def flag (f : Field) (w : Word) : Bool := getField f w == 1#32

/-- Bit `k` of a field. -/
def fieldBit (f : Field) (k : Nat) (w : Word) : Bool := (getField f w).getLsbD k

/-- Word of `UMA_CTS` after a bus write of `v` and before any trigger (R34, R36 (b)): `DEV_NUM`, `SW_CS`, `RDYIE` written,
`RDYST` cleared by a 1, `EXEC_DONE` kept. -/
def ctsWritten (old v : Word) : Word :=
  (v &&& (fieldMask .ctsDevNum ||| fieldMask .ctsSwCs ||| fieldMask .ctsRdyie))
    ||| (old &&& fieldMask .ctsExecDone) ||| (old &&& ~~~v &&& fieldMask .ctsRdyst)

/-- Word of `PRT_STS` after a bus write of `v`: `VIOL <- VIOL and not v.VIOL` (R40). -/
def stsWritten (old v : Word) : Word := old &&& ~~~v &&& fieldMask .stsViol

/-- The three force fields' bits of chip select `k` in `PRT_CFG` (R37). -/
def fcsBits (k : Nat) : Word :=
  (1#32 <<< (fieldLo .prtFcsLck + k)) ||| (1#32 <<< (fieldLo .prtFcsEn + k)) ||| (1#32 <<< (fieldLo .prtFcsVal + k))

/-- The bits a write of `PRT_CFG` leaves alone because `FCS_LCK[k] = 1` (R37). -/
def fcsKept (old : Word) : Word :=
  (if fieldBit .prtFcsLck 0 old then fcsBits 0 else 0#32) ||| (if fieldBit .prtFcsLck 1 old then fcsBits 1 else 0#32)

/-- Word of `PRT_CFG` after a bus write of `v` (R37): unchanged when locked. -/
def prtCfgWritten (old v : Word) : Word :=
  if flag .prtLck old then old else (v &&& regMask .prtCfg &&& ~~~(fcsKept old)) ||| (old &&& fcsKept old)

/-- `IRQ_VIOL`, a level (60_exceptions.md R288). -/
def irqViol (prtCfg prtSts : Word) : Bool := flag .stsViol prtSts && flag .prtVie prtCfg

/-- `IRQ_RDY`, a level (60_exceptions.md R293); no delivery step consumes it. -/
def irqRdy (cts : Word) : Bool := flag .ctsRdyst cts && flag .ctsRdyie cts

/-- `IO2F` as an output (10_state.md R59). -/
def io2Force (prtCfg : Word) : Bool := flag .prtIo2f prtCfg

/-- The device whose chip select software holds, from `UMA_CTS` (R57). -/
def heldDev (cts : Word) : Option Nat :=
  if flag .ctsSwCs cts then none else some (getField .ctsDevNum cts).toNat

/-- `cs_raw(d)` outside the engine step: true is level 1, released (R57). -/
def csRaw (cts : Word) (d : Nat) : Bool := !(heldDev cts == some d)

/-- The level chip select `d` is forced to, if it is: `d < 2` and `FCS_EN[d] = 1` (R57). -/
def csForced (prtCfg : Word) (d : Nat) : Option Bool :=
  if d < 2 ∧ fieldBit .prtFcsEn d prtCfg then some (fieldBit .prtFcsVal d prtCfg) else none

/-- `CS_pin(d)`, given `cs_raw(d)` (R57). -/
def csPinOf (prtCfg : Word) (d : Nat) (raw : Bool) : Bool :=
  match csForced prtCfg d with
  | some v => v
  | none => raw

/-- `CS_pin(d)` outside the engine step (R57, 44_chip_select.md R229). -/
def csPin (prtCfg cts : Word) (d : Nat) : Bool := csPinOf prtCfg d (csRaw cts d)

/-- The four chip selects. -/
def devices : List Nat := [0, 1, 2, 3]

/-- Wire events of a change of the pin levels from `before` to `after`: the rising chip selects first, then the falling
ones (R57; the order is that of 95_test_vectors.md T54). -/
def pinEvents (before after : List Bool) : List WireEvent :=
  (devices.filter fun d => !(before.getD d true) && after.getD d true).map .csHigh
    ++ (devices.filter fun d => before.getD d true && !(after.getD d true)).map .csLow

/-- The four pin levels. -/
def pinLevels (prtCfg cts : Word) : List Bool := devices.map (csPin prtCfg cts)

/-- `FRAME` after a write of `UMA_CTS` (R50, R57): it follows the held device and restarts with `NONE` when that changes. -/
def frameWritten (old new : Word) (fr : Frame) : Frame :=
  if heldDev old = heldDev new then fr
  else match heldDev new with
    | none => .closed
    | some d => .opened d none

/-- Some chip select is forced to the active level (R57, 44_chip_select.md R229). -/
def forcedActive (prtCfg : Word) : Bool := csForced prtCfg 0 == some false || csForced prtCfg 1 == some false

/-- A bits-per-clock code has a meaning where its phase is present (30_encoding.md R106). -/
def codeLegal (size code : Nat) : Bool := size == 0 || code ≤ 2

/-- Legality of the ten `UMA_CFG` fields at the trigger (30_encoding.md R106). -/
def legalDescr (l : Descr) : Bool :=
  codeLegal l.cmdsiz l.cmbpck && codeLegal l.addsiz l.adbpck && codeLegal l.wdatsiz l.wdbpck
    && codeLegal l.dbsiz l.dbpck && codeLegal l.rdatsiz l.rdbpck
    && (l.addsiz == 0 || l.addsiz == 3 || l.addsiz == 4) && l.wdatsiz ≤ Config.burstMax && l.rdatsiz ≤ Config.burstMax

end Sys2Proof.Machine
end

