-- ==== Sys2Proof/Machine/Ops.lean ====
section
/-! DEFINITION. The named operations over the registers of one instance (10_state.md section 4, 40_register_access.md), the
host's register-bus primitives, the sequencer's moves (10_state.md R55), the outcomes of a request (00_scope.md R16), and
taking and leaving the violation interrupt (60_exceptions.md R291, R298). -/

namespace Sys2Proof.Machine

/-- Outcome of an instruction. -/
abbrev Out := Host.Outcome State Fault Refusal

/-! ### One instance -/

/-- Word of a register in a register file. -/
def wordAt (x : Vector Word 46) (r : Reg) : Word := x[regIndex r]

/-- A register file with one word stored. -/
def putWordAt (x : Vector Word 46) (r : Reg) (v : Word) : Vector Word 46 := x.set (regIndex r).val v (regIndex r).isLt

/-- Stored word of a register. -/
def Fiu.rd (b : Fiu) (r : Reg) : Word := wordAt b.regs r

/-- Store a word. -/
def Fiu.setReg (b : Fiu) (r : Reg) (v : Word) : Fiu := { b with regs := putWordAt b.regs r v }

/-- Value of a stored field. -/
def Fiu.get (b : Fiu) (f : Field) : Word := getField f (b.rd (fieldReg f))

/-- `ENG ≠ Idle`. -/
def Fiu.busy (b : Fiu) : Bool :=
  match b.eng with
  | .idle => false
  | .busy _ _ => true

/-- `UNMODELLED <- r` (R58). -/
def Fiu.mark (b : Fiu) (r : Unmodelled) : Fiu := { b with unmodelled := some r }

/-- `FOURB[dev]` (R49). -/
def Fiu.fourbOf (b : Fiu) (dev : Nat) : Bool := if h : dev < 4 then b.fourb[dev] else false

/-- `FOURB[dev] <- v` (R49). -/
def Fiu.setFourb (b : Fiu) (dev : Nat) (v : Bool) : Fiu :=
  if h : dev < 4 then { b with fourb := b.fourb.set dev v h } else b

/-- A bus read (R35, R36 (c), R140): the stored word, whose reserved bits are 0; a draw for `UMA_DR0..3` while the engine
is not idle. -/
def Fiu.busRead (b : Fiu) (inst : Nat) (r : Reg) : Word × Fiu :=
  match r with
  | .umaDr _ => if b.busy then (Config.drawWord inst b.draws, { b with draws := b.draws + 1 }) else (b.rd r, b)
  | _ => (b.rd r, b)

/-- The descriptor the trigger latches (R48). -/
def Fiu.latch (b : Fiu) : Descr where
  dev := (b.get .ctsDevNum).toNat
  held := !(flag .ctsSwCs (b.rd .umaCts))
  cmdsiz := (b.get .cfgCmdsiz).toNat
  addsiz := (b.get .cfgAddsiz).toNat
  wdatsiz := (b.get .cfgWdatsiz).toNat
  dbsiz := (b.get .cfgDbsiz).toNat
  rdatsiz := (b.get .cfgRdatsiz).toNat
  cmbpck := (b.get .cfgCmbpck).toNat
  adbpck := (b.get .cfgAdbpck).toNat
  wdbpck := (b.get .cfgWdbpck).toNat
  dbpck := (b.get .cfgDbpck).toNat
  rdbpck := (b.get .cfgRdbpck).toNat
  cmd := (b.get .cmdCmd).setWidth 8
  addr := b.get .addrAddr
  wdata := unpackBytes [b.rd (.umaDw 0), b.rd (.umaDw 1), b.rd (.umaDw 2), b.rd (.umaDw 3)] 16

/-- The trigger (R48), legality of `UMA_CFG` before the forced-active check (60_exceptions.md R294). -/
def Fiu.trigger (b : Fiu) : Fiu :=
  if !legalDescr b.latch then b.mark .illegalUmaCfg
  else if forcedActive (b.rd .prtCfg) then b.mark .forcedActiveCs
  else { b.setReg .umaCts (putField .ctsExecDone 1#32 (b.rd .umaCts)) with eng := .busy b.latch false }

/-- Store `UMA_CTS`, with the frame and pin consequences (R57). -/
def Fiu.setCts (b : Fiu) (new : Word) : Fiu :=
  { b.setReg .umaCts new with
    frame := frameWritten (b.rd .umaCts) new b.frame
    wire := b.wire ++ pinEvents (pinLevels (b.rd .prtCfg) (b.rd .umaCts)) (pinLevels (b.rd .prtCfg) new) }

/-- A bus write of `UMA_CTS`: R34 when idle, R36 (b) when busy. -/
def Fiu.writeCts (b : Fiu) (v : Word) : Fiu :=
  let new := ctsWritten (b.rd .umaCts) v
  match b.eng with
  | .busy l dist => { b.setCts new with eng := .busy l (dist || csRaw (b.rd .umaCts) l.dev != csRaw new l.dev) }
  | .idle => if flag .ctsExecDone v then (b.setCts new).trigger else b.setCts new

/-- A bus write of `PRT_CFG` through its filter (R37), with the pin consequences of the force fields (R57). -/
def Fiu.writePrtCfg (b : Fiu) (v : Word) : Fiu :=
  let new := prtCfgWritten (b.rd .prtCfg) v
  { b.setReg .prtCfg new with
    wire := b.wire ++ pinEvents (pinLevels (b.rd .prtCfg) (b.rd .umaCts)) (pinLevels new (b.rd .umaCts)) }

/-- `PRT_CFG.LCK = 1` (R46, 60_exceptions.md R296). -/
def Fiu.locked (b : Fiu) : Bool := flag .prtLck (b.rd .prtCfg)

/-- A bus write (40_register_access.md R141 and the rules of 10_state.md it names). Reserved bits of `v` are dropped (R41). -/
def Fiu.busWrite (b : Fiu) (r : Reg) (v : Word) : Fiu :=
  match r with
  | .umaCts => b.writeCts v
  | .prtCfg => b.writePrtCfg v
  | .prtSts => b.setReg .prtSts (stsWritten (b.rd .prtSts) v)
  | .prtRange n =>
      if b.locked || flag (.rngRlck n) (b.rd (.prtRange n)) then b
      else b.setReg (.prtRange n) (v &&& regMask (.prtRange n))
  | .prtCmd n => if b.locked then b else b.setReg (.prtCmd n) (v &&& regMask (.prtCmd n))
  | .umaDr _ => b
  | .drdCfg => b.setReg .drdCfg (v &&& regMask .drdCfg)
  | .dwrCfg => b.setReg .dwrCfg (v &&& regMask .dwrCfg)
  | .umaCfg => if b.busy then b.mark .busyWrite else b.setReg .umaCfg (v &&& regMask .umaCfg)
  | .umaCmd => if b.busy then b.mark .busyWrite else b.setReg .umaCmd (v &&& regMask .umaCmd)
  | .umaAddr => if b.busy then b.mark .busyWrite else b.setReg .umaAddr (v &&& regMask .umaAddr)
  | .umaDw k => if b.busy then b.mark .busyWrite else b.setReg (.umaDw k) (v &&& regMask (.umaDw k))

/-- `IRQ_VIOL` of the instance (60_exceptions.md R288). -/
def Fiu.irqViol (b : Fiu) : Bool := Machine.irqViol (b.rd .prtCfg) (b.rd .prtSts)

/-- `IRQ_RDY` of the instance (60_exceptions.md R293). -/
def Fiu.irqRdy (b : Fiu) : Bool := Machine.irqRdy (b.rd .umaCts)

/-- `register_and_enable(provider, line, handler, polarity, priority)`: its whole effect in the model is
`HANDLER <- handler` (60_exceptions.md R290). -/
def Fiu.registerAndEnable (b : Fiu) (_line : IrqLine) (handler : Nat) : Fiu := { b with handler := some handler }

/-! ### The machine's instances -/

/-- Instance `i` of the instances. -/
def fiuAt (x : Vector Fiu Config.nFiu) (i : Nat) : Fiu := if h : i < Config.nFiu then x[i] else resetFiu

/-- The instances with instance `i` replaced. -/
def putFiuAt (x : Vector Fiu Config.nFiu) (i : Nat) (b : Fiu) : Vector Fiu Config.nFiu :=
  if h : i < Config.nFiu then x.set i b h else x

/-- Instance `i`. -/
def State.fiu (s : State) (i : Nat) : Fiu := fiuAt s.fius i

/-- Replace instance `i`. -/
def State.setFiu (s : State) (i : Nat) (b : Fiu) : State := { s with fius := putFiuAt s.fius i b }

/-- The first instance's mark, if any: no claim holds past it (R58). -/
def State.mark? (s : State) : Option Unmodelled := s.fius.toList.findSome? (·.unmodelled)

/-- The instance whose violation handler is running, if any (R53). -/
def State.handling (s : State) : Option Nat := (List.range Config.nFiu).find? (fun i => (s.fiu i).inHandler)

/-! ### The host's register-bus primitives -/

/-- `RD(REG)`: one bus read (R140). -/
def State.hostRead (s : State) (inst : Nat) (r : Reg) : Word × State :=
  let p := (s.fiu inst).busRead inst r
  (p.1, { s.setFiu inst p.2 with trace := s.trace ++ [⟨inst, false, r, p.1⟩] })

/-- `WR(REG, v)`: one bus write (R141); a write the filters ignore still counts as one. -/
def State.hostWrite (s : State) (inst : Nat) (r : Reg) (v : Word) : State :=
  { s.setFiu inst ((s.fiu inst).busWrite r v) with trace := s.trace ++ [⟨inst, true, r, v⟩] }

/-- `RDF(REG.F)` (R142). -/
def State.rdf (s : State) (inst : Nat) (f : Field) : Word × State :=
  let p := s.hostRead inst (fieldReg f)
  (getField f p.1, p.2)

/-- `WRF(REG.F, v)`: a read and a write of the register in one atomic step (R143, R144). -/
def State.wrf (s : State) (inst : Nat) (f : Field) (v : Word) : State :=
  let p := s.hostRead inst (fieldReg f)
  p.2.hostWrite inst (fieldReg f) (putField f v p.1)

/-! ### The sequencer -/

/-- Position of the operation the host is executing: the handler's while one runs, else `SEQ`, which is kept meanwhile
(60_exceptions.md R297 (d)). -/
def State.cur (s : State) : Seq := if s.handling.isSome then s.hseq else s.seq

/-- Move that position. -/
def State.setCur (s : State) (q : Seq) : State := if s.handling.isSome then { s with hseq := q } else { s with seq := q }

/-- Position before the first step. -/
def startPos : Pos := ⟨.start, 0, [], [], 0#32, none, 0⟩

/-- Where instruction `i` stands: at its start when the sequencer is idle, where it was when it is the running one. -/
def State.posOf (s : State) (i : Instr) : Option Pos :=
  match s.cur with
  | .idle => some startPos
  | .run j p => if j = i then some p else none

/-- `SEQ.step <- label`: the request continues at `p`. -/
def goTo (i : Instr) (p : Pos) (s : State) : Out := .next (s.setCur (.run i p))

/-- `return`: the request ends with a result. -/
def finish (res : Result) (s : State) : Out := .next { s.setCur .idle with result := some res }

/-- `raise Halt(reason)`: the request ends without a result (60_exceptions.md R283, R297 (c)). -/
def raiseHalt (r : HaltReason) (s : State) : Out := .next { s.setCur .idle with halted := some r }

/-- Not a step of this state. -/
def notEnabled : Out := .refused .notEnabled

/-- Operations a violation handler may perform (60_exceptions.md R292): `get_violation_status`, `get_read_mode`,
`get_four_byte_addressing`, reads of any register or field, a write of `PRT_STS`. A raw write that is narrow, misaligned or at an
offset without a register is none of them, DESIGN CHOICE (notes/assumptions/23.md). -/
def handlerPermits (i : Instr) : Bool :=
  match i with
  | .getViolationStatus _ _ | .getReadMode _ | .getFourByteAddressing _ _ => true
  | .regRead .host _ _ _ | .fieldRead _ _ | .poll _ => true
  | .regWrite .host _ o .word _ => regOfOffset o == some .prtSts
  | .prtSts .host _ _ => true
  | .drdCfg .host _ .read | .dwrCfg .host _ .read | .umaCfg .host _ .read | .umaCts .host _ .read
  | .umaCmd .host _ .read | .umaAddr .host _ .read | .prtCfg .host _ .read
  | .umaDw0 .host _ .read | .umaDw1 .host _ .read | .umaDw2 .host _ .read | .umaDw3 .host _ .read
  | .umaDr0 .host _ .read | .umaDr1 .host _ .read | .umaDr2 .host _ .read | .umaDr3 .host _ .read
  | .prtCmd0 .host _ .read | .prtCmd1 .host _ .read | .prtCmd2 .host _ .read | .prtCmd3 .host _ .read
  | .prtCmd4 .host _ .read | .prtCmd5 .host _ .read | .prtCmd6 .host _ .read | .prtCmd7 .host _ .read
  | .prtCmd8 .host _ .read | .prtCmd9 .host _ .read | .prtCmd10 .host _ .read | .prtCmd11 .host _ .read
  | .prtCmd12 .host _ .read | .prtCmd13 .host _ .read
  | .prtRange0 .host _ .read | .prtRange1 .host _ .read | .prtRange2 .host _ .read | .prtRange3 .host _ .read
  | .prtRange4 .host _ .read | .prtRange5 .host _ .read | .prtRange6 .host _ .read | .prtRange7 .host _ .read
  | .prtRange8 .host _ .read | .prtRange9 .host _ .read | .prtRange10 .host _ .read | .prtRange11 .host _ .read
  | .prtRange12 .host _ .read | .prtRange13 .host _ .read | .prtRange14 .host _ .read | .prtRange15 .host _ .read => true
  | _ => false

/-- One step of the host agent executing instruction `i` (00_scope.md R10): a fault past an `UNMODELLED` mark, no step
while `HALTED` (60_exceptions.md R284), the re-entrancy mark for an operation outside the handler contract (R292), no step
of a second request (R303); else `body` at the instruction's position. The order makes `HandlerReentrancy` the mark of a handler's
narrow, misaligned or unmapped raw write (20_memory.md R74, R81), DESIGN CHOICE (notes/assumptions/23.md). An operation outside the
contract is not performed, so it adds nothing to the bus trace of 40_register_access.md R148, DESIGN CHOICE
(notes/assumptions/24.md). -/
def hostStep (i : Instr) (s : State) (body : Pos → Out) : Out :=
  match s.mark? with
  | some r => .fault (.unmodelled r)
  | none =>
    if s.halted.isSome then notEnabled
    else
      match s.handling, handlerPermits i with
      | some j, false => .next (s.setFiu j ((s.fiu j).mark .handlerReentrancy))
      | _, _ =>
        match s.posOf i with
        | none => notEnabled
        | some p => body p

/-- A step of an agent other than the host: a fault past a mark, else `body`. -/
def agentStep (s : State) (body : Out) : Out :=
  match s.mark? with
  | some r => .fault (.unmodelled r)
  | none => body

/-- Bus access number `k` (from 0) of a request whose rule is a fixed list of register accesses, ending with `res`. -/
def straightAt (i : Instr) (p : Pos) (s : State) (steps : List (State → State)) (res : Result) (k : Nat) : Out :=
  match steps[k]? with
  | none => if k = 0 then finish res s else notEnabled
  | some f => if k + 1 < steps.length then goTo i { p with label := .s (k + 2) 0 } (f s) else finish res (f s)

/-- A request whose rule is, after validation, a fixed list of register accesses: label `s n 0` is its `n`-th access. -/
def straight (i : Instr) (p : Pos) (s : State) (steps : List (State → State)) (res : Result) : Out :=
  match p.label with
  | .start => straightAt i p s steps res 0
  | .s (n + 2) 0 => straightAt i p s steps res (n + 1)
  | _ => notEnabled

/-! ### The supervisor's wait (46_supervisor.md R271) -/

/-- `SUP` of an instance set. -/
def State.setSup (s : State) (inst : Nat) (q : Sup) : State := s.setFiu inst { s.fiu inst with sup := q }

/-- `POLL()` (R272): one bus read of `UMA_CTS.EXEC_DONE`; true when it read 1. -/
def State.pollBit (s : State) (inst : Nat) : Bool × State :=
  let p := s.rdf inst .ctsExecDone
  (p.1 == 1#32, p.2)

/-- One turn of the poll loop P1 or P2: the state after it and, when the wait is over, its status. -/
def State.waitPoll (s : State) (inst : Nat) : Option (Option Status × State) :=
  match (s.fiu inst).sup with
  | .off => none
  | .unbounded =>
      let p := s.pollBit inst
      if p.1 then some (none, p.2) else some (some .ok, p.2.setSup inst .off)
  | .bounded 0 => some (some .timeout, s.setSup inst .off)
  | .bounded (n + 1) =>
      let p := s.pollBit inst
      if p.1 then some (none, p.2.setSup inst (.bounded n)) else some (some .ok, p.2.setSup inst .off)

/-- Entry of a wait, S1: `SUP` set from the timeout, then the first turn of the loop. -/
def State.waitEnter (s : State) (inst : Nat) (timeout : Word) : Option (Option Status × State) :=
  (s.setSup inst (if timeout = 0#32 then .unbounded else .bounded (pollBudget timeout))).waitPoll inst

/-- Continue a request after a turn of a wait: `stay` while it goes on, `cont` with its status when it is over. -/
def afterWait (w : Option (Option Status × State)) (stay : State → Out) (cont : Status → State → Out) : Out :=
  match w with
  | none => notEnabled
  | some (none, s) => stay s
  | some (some st, s) => cont st s

/-! ### Taking and leaving the violation interrupt -/

/-- What a handler number performs when delivered (environment data); a number with no code performs nothing. -/
def State.codeOf (s : State) (h : Nat) : List (List Byte) :=
  match s.handlerCode.find? (fun p => p.1 == h) with
  | some p => p.2
  | none => []

/-- `IRQ_DELIVER(i)` is enabled (R291): `IRQ_VIOL = 1`, a handler registered, no handler running, not halted. -/
def State.irqEnabled (s : State) (inst : Nat) : Bool :=
  instOk inst && (s.fiu inst).irqViol && (s.fiu inst).handler.isSome && s.handling.isNone && s.halted.isNone

/-- Entry (R291, R297 (d)): `IN_HANDLER <- true`; the interrupted request's `SEQ` is kept; the handler's operations are
about to run. -/
def State.irqEnter (s : State) (inst : Nat) : State :=
  { s.setFiu inst { s.fiu inst with inHandler := true } with
    hseq := .idle
    hprog := s.codeOf ((s.fiu inst).handler.getD 0) }

/-- Return (R291, R298): `IN_HANDLER <- false`; the interrupted request continues from the step it was at. -/
def State.irqReturn (s : State) (inst : Nat) : State :=
  s.setFiu inst { s.fiu inst with inHandler := false }

/-! ### Reset (70_reset_and_hazards.md R310) -/

/-- Wire events of a reset (R310, R61): the abandoned transaction, the chip selects that were low, the marker. -/
def Fiu.resetEvents (b : Fiu) : List WireEvent :=
  (match b.eng with
    | .idle => []
    | .busy l _ => [WireEvent.disturbed l])
    ++ ((devices.filter fun d => !(csPin (b.rd .prtCfg) (b.rd .umaCts) d)).map WireEvent.csHigh) ++ [WireEvent.reset]

/-- One instance after `RESET`: registers of R60 with the unspecified fields drawn, hidden state of R61; the wire log goes
on and `UNMODELLED` is kept (R58). -/
def Fiu.reset (b : Fiu) (inst : Nat) : Fiu where
  regs := resetRegs fun k => Config.drawWord inst (b.draws + k)
  eng := .idle
  fourb := Vector.replicate 4 false
  frame := .closed
  wire := b.wire ++ b.resetEvents
  handler := none
  inHandler := false
  sup := .off
  unmodelled := b.unmodelled
  draws := b.draws + 46

/-- `RESET`: every instance at once, the sequencer idle, `HALTED` cleared (R61, R310). Operations that the environment supplied
and the host has not issued yet stay in `prog`, with `sched` and `handlerCode`, and are issued after the reset, DESIGN CHOICE
(notes/assumptions/26.md). -/
def State.doReset (s : State) : State :=
  { s with
    fius := s.fius.mapFinIdx fun i b _ => b.reset i
    seq := .idle
    halted := none
    hseq := .idle
    hprog := [] }

end Sys2Proof.Machine
end

