-- ==== Sys2Proof/Machine/Registers.lean ====
section
/-! DEFINITION. Group REG (30_encoding.md R120): one raw 32-bit bus access to a register, by the host (40_register_access.md
R140, R141) or by another bus master (20_memory.md R95). The read and write behaviour of each register is `Fiu.busRead` and
`Fiu.busWrite`. -/

namespace Sys2Proof.Machine

/-- A bus access by the host, a host step (R140, R141): a read ends with the word, a write with no status. -/
def hostAccess (i : Instr) (inst : Nat) (r : Reg) (a : Access) (s : State) : Out :=
  hostStep i s fun p =>
    if !instOk inst then raiseHalt .instanceIndex s
    else
      match p.label, a with
      | .start, .read =>
          let w := s.hostRead inst r
          finish (.word w.1) w.2
      | .start, .write v => finish .done (s.hostWrite inst r v)
      | _, _ => notEnabled

/-- A bus access by another master (R95): the same rules of the register block; it is no host step, so neither the sequencer
nor the host's bus trace sees it. -/
def otherAccess (inst : Nat) (r : Reg) (a : Access) (s : State) : Out :=
  agentStep s <|
    if instOk inst then
      match a with
      | .read =>
          let w := (s.fiu inst).busRead inst r
          .next { s.setFiu inst w.2 with otherRead := some w.1 }
      | .write v => .next (s.setFiu inst ((s.fiu inst).busWrite r v))
    else notEnabled

/-- One bus access to register `r`; `i` is the instruction that performs it. -/
def regAccess (i : Instr) (r : Reg) (m : Master) (inst : Nat) (a : Access) (s : State) : Out :=
  match m with
  | .host => hostAccess i inst r a s
  | .other => otherAccess inst r a s

/-- One bus access to `drdCfg` (10_state.md R28, R42). -/
def execDrdCfg (m : Master) (inst : Nat) (a : Access) (s : State) : Out := regAccess (.drdCfg m inst a) .drdCfg m inst a s

/-- One bus access to `dwrCfg` (10_state.md R29, R42). -/
def execDwrCfg (m : Master) (inst : Nat) (a : Access) (s : State) : Out := regAccess (.dwrCfg m inst a) .dwrCfg m inst a s

/-- One bus access to `umaCfg` (10_state.md R26, R36, R42). -/
def execUmaCfg (m : Master) (inst : Nat) (a : Access) (s : State) : Out := regAccess (.umaCfg m inst a) .umaCfg m inst a s

/-- One bus access to `umaCts` (10_state.md R27, R34, R36). -/
def execUmaCts (m : Master) (inst : Nat) (a : Access) (s : State) : Out := regAccess (.umaCts m inst a) .umaCts m inst a s

/-- One bus access to `umaCmd` (10_state.md R22, R36, R42). -/
def execUmaCmd (m : Master) (inst : Nat) (a : Access) (s : State) : Out := regAccess (.umaCmd m inst a) .umaCmd m inst a s

/-- One bus access to `umaAddr` (10_state.md R23, R36, R42). -/
def execUmaAddr (m : Master) (inst : Nat) (a : Access) (s : State) : Out := regAccess (.umaAddr m inst a) .umaAddr m inst a s

/-- One bus access to `prtCfg` (10_state.md R30, R37). -/
def execPrtCfg (m : Master) (inst : Nat) (a : Access) (s : State) : Out := regAccess (.prtCfg m inst a) .prtCfg m inst a s

/-- One bus access to `prtSts` (10_state.md R31, R40). -/
def execPrtSts (m : Master) (inst : Nat) (a : Access) (s : State) : Out := regAccess (.prtSts m inst a) .prtSts m inst a s

/-- One bus access to `umaDw0` (10_state.md R24, R36, R42). -/
def execUmaDw0 (m : Master) (inst : Nat) (a : Access) (s : State) : Out := regAccess (.umaDw0 m inst a) (.umaDw 0) m inst a s

/-- One bus access to `umaDw1` (10_state.md R24, R36, R42). -/
def execUmaDw1 (m : Master) (inst : Nat) (a : Access) (s : State) : Out := regAccess (.umaDw1 m inst a) (.umaDw 1) m inst a s

/-- One bus access to `umaDw2` (10_state.md R24, R36, R42). -/
def execUmaDw2 (m : Master) (inst : Nat) (a : Access) (s : State) : Out := regAccess (.umaDw2 m inst a) (.umaDw 2) m inst a s

/-- One bus access to `umaDw3` (10_state.md R24, R36, R42). -/
def execUmaDw3 (m : Master) (inst : Nat) (a : Access) (s : State) : Out := regAccess (.umaDw3 m inst a) (.umaDw 3) m inst a s

/-- One bus access to `umaDr0` (10_state.md R25, R36). -/
def execUmaDr0 (m : Master) (inst : Nat) (a : Access) (s : State) : Out := regAccess (.umaDr0 m inst a) (.umaDr 0) m inst a s

/-- One bus access to `umaDr1` (10_state.md R25, R36). -/
def execUmaDr1 (m : Master) (inst : Nat) (a : Access) (s : State) : Out := regAccess (.umaDr1 m inst a) (.umaDr 1) m inst a s

/-- One bus access to `umaDr2` (10_state.md R25, R36). -/
def execUmaDr2 (m : Master) (inst : Nat) (a : Access) (s : State) : Out := regAccess (.umaDr2 m inst a) (.umaDr 2) m inst a s

/-- One bus access to `umaDr3` (10_state.md R25, R36). -/
def execUmaDr3 (m : Master) (inst : Nat) (a : Access) (s : State) : Out := regAccess (.umaDr3 m inst a) (.umaDr 3) m inst a s

/-- One bus access to `prtCmd0` (10_state.md R33, R39). -/
def execPrtCmd0 (m : Master) (inst : Nat) (a : Access) (s : State) : Out := regAccess (.prtCmd0 m inst a) (.prtCmd 0) m inst a s

/-- One bus access to `prtCmd1` (10_state.md R33, R39). -/
def execPrtCmd1 (m : Master) (inst : Nat) (a : Access) (s : State) : Out := regAccess (.prtCmd1 m inst a) (.prtCmd 1) m inst a s

/-- One bus access to `prtCmd2` (10_state.md R33, R39). -/
def execPrtCmd2 (m : Master) (inst : Nat) (a : Access) (s : State) : Out := regAccess (.prtCmd2 m inst a) (.prtCmd 2) m inst a s

/-- One bus access to `prtCmd3` (10_state.md R33, R39). -/
def execPrtCmd3 (m : Master) (inst : Nat) (a : Access) (s : State) : Out := regAccess (.prtCmd3 m inst a) (.prtCmd 3) m inst a s

/-- One bus access to `prtCmd4` (10_state.md R33, R39). -/
def execPrtCmd4 (m : Master) (inst : Nat) (a : Access) (s : State) : Out := regAccess (.prtCmd4 m inst a) (.prtCmd 4) m inst a s

/-- One bus access to `prtCmd5` (10_state.md R33, R39). -/
def execPrtCmd5 (m : Master) (inst : Nat) (a : Access) (s : State) : Out := regAccess (.prtCmd5 m inst a) (.prtCmd 5) m inst a s

/-- One bus access to `prtCmd6` (10_state.md R33, R39). -/
def execPrtCmd6 (m : Master) (inst : Nat) (a : Access) (s : State) : Out := regAccess (.prtCmd6 m inst a) (.prtCmd 6) m inst a s

/-- One bus access to `prtCmd7` (10_state.md R33, R39). -/
def execPrtCmd7 (m : Master) (inst : Nat) (a : Access) (s : State) : Out := regAccess (.prtCmd7 m inst a) (.prtCmd 7) m inst a s

/-- One bus access to `prtCmd8` (10_state.md R33, R39). -/
def execPrtCmd8 (m : Master) (inst : Nat) (a : Access) (s : State) : Out := regAccess (.prtCmd8 m inst a) (.prtCmd 8) m inst a s

/-- One bus access to `prtCmd9` (10_state.md R33, R39). -/
def execPrtCmd9 (m : Master) (inst : Nat) (a : Access) (s : State) : Out := regAccess (.prtCmd9 m inst a) (.prtCmd 9) m inst a s

/-- One bus access to `prtCmd10` (10_state.md R33, R39). -/
def execPrtCmd10 (m : Master) (inst : Nat) (a : Access) (s : State) : Out := regAccess (.prtCmd10 m inst a) (.prtCmd 10) m inst a s

/-- One bus access to `prtCmd11` (10_state.md R33, R39). -/
def execPrtCmd11 (m : Master) (inst : Nat) (a : Access) (s : State) : Out := regAccess (.prtCmd11 m inst a) (.prtCmd 11) m inst a s

/-- One bus access to `prtCmd12` (10_state.md R33, R39). -/
def execPrtCmd12 (m : Master) (inst : Nat) (a : Access) (s : State) : Out := regAccess (.prtCmd12 m inst a) (.prtCmd 12) m inst a s

/-- One bus access to `prtCmd13` (10_state.md R33, R39). -/
def execPrtCmd13 (m : Master) (inst : Nat) (a : Access) (s : State) : Out := regAccess (.prtCmd13 m inst a) (.prtCmd 13) m inst a s

/-- One bus access to `prtRange0` (10_state.md R32, R38). -/
def execPrtRange0 (m : Master) (inst : Nat) (a : Access) (s : State) : Out := regAccess (.prtRange0 m inst a) (.prtRange 0) m inst a s

/-- One bus access to `prtRange1` (10_state.md R32, R38). -/
def execPrtRange1 (m : Master) (inst : Nat) (a : Access) (s : State) : Out := regAccess (.prtRange1 m inst a) (.prtRange 1) m inst a s

/-- One bus access to `prtRange2` (10_state.md R32, R38). -/
def execPrtRange2 (m : Master) (inst : Nat) (a : Access) (s : State) : Out := regAccess (.prtRange2 m inst a) (.prtRange 2) m inst a s

/-- One bus access to `prtRange3` (10_state.md R32, R38). -/
def execPrtRange3 (m : Master) (inst : Nat) (a : Access) (s : State) : Out := regAccess (.prtRange3 m inst a) (.prtRange 3) m inst a s

/-- One bus access to `prtRange4` (10_state.md R32, R38). -/
def execPrtRange4 (m : Master) (inst : Nat) (a : Access) (s : State) : Out := regAccess (.prtRange4 m inst a) (.prtRange 4) m inst a s

/-- One bus access to `prtRange5` (10_state.md R32, R38). -/
def execPrtRange5 (m : Master) (inst : Nat) (a : Access) (s : State) : Out := regAccess (.prtRange5 m inst a) (.prtRange 5) m inst a s

/-- One bus access to `prtRange6` (10_state.md R32, R38). -/
def execPrtRange6 (m : Master) (inst : Nat) (a : Access) (s : State) : Out := regAccess (.prtRange6 m inst a) (.prtRange 6) m inst a s

/-- One bus access to `prtRange7` (10_state.md R32, R38). -/
def execPrtRange7 (m : Master) (inst : Nat) (a : Access) (s : State) : Out := regAccess (.prtRange7 m inst a) (.prtRange 7) m inst a s

/-- One bus access to `prtRange8` (10_state.md R32, R38). -/
def execPrtRange8 (m : Master) (inst : Nat) (a : Access) (s : State) : Out := regAccess (.prtRange8 m inst a) (.prtRange 8) m inst a s

/-- One bus access to `prtRange9` (10_state.md R32, R38). -/
def execPrtRange9 (m : Master) (inst : Nat) (a : Access) (s : State) : Out := regAccess (.prtRange9 m inst a) (.prtRange 9) m inst a s

/-- One bus access to `prtRange10` (10_state.md R32, R38). -/
def execPrtRange10 (m : Master) (inst : Nat) (a : Access) (s : State) : Out := regAccess (.prtRange10 m inst a) (.prtRange 10) m inst a s

/-- One bus access to `prtRange11` (10_state.md R32, R38). -/
def execPrtRange11 (m : Master) (inst : Nat) (a : Access) (s : State) : Out := regAccess (.prtRange11 m inst a) (.prtRange 11) m inst a s

/-- One bus access to `prtRange12` (10_state.md R32, R38). -/
def execPrtRange12 (m : Master) (inst : Nat) (a : Access) (s : State) : Out := regAccess (.prtRange12 m inst a) (.prtRange 12) m inst a s

/-- One bus access to `prtRange13` (10_state.md R32, R38). -/
def execPrtRange13 (m : Master) (inst : Nat) (a : Access) (s : State) : Out := regAccess (.prtRange13 m inst a) (.prtRange 13) m inst a s

/-- One bus access to `prtRange14` (10_state.md R32, R38). -/
def execPrtRange14 (m : Master) (inst : Nat) (a : Access) (s : State) : Out := regAccess (.prtRange14 m inst a) (.prtRange 14) m inst a s

/-- One bus access to `prtRange15` (10_state.md R32, R38). -/
def execPrtRange15 (m : Master) (inst : Nat) (a : Access) (s : State) : Out := regAccess (.prtRange15 m inst a) (.prtRange 15) m inst a s

end Sys2Proof.Machine
end

