-- ==== Sys2Proof/Machine/Bus.lean ====
section
/-! DEFINITION. The four register-bus primitives (40_register_access.md R140 to R147). `REG_READ` and `REG_WRITE` are by
offset and width, as a bus sees them (30_encoding.md R116); `FIELD_READ` and `FIELD_WRITE` are the host's substrate. -/

namespace Sys2Proof.Machine

/-! ### The blocks in the address space (20_memory.md R85) -/

/-- Bytes from the start of a block to the end of its last register. -/
def blockSpan : Nat := allRegs.foldl (fun n r => max n (cfg.offset r + 4)) 0

/-- No two of the blocks that start at `start 0`, `start 1`, ... overlap. -/
def blocksApart (start : Nat → Nat) : Bool :=
  (List.range Config.nFiu).all fun i => (List.range Config.nFiu).all fun j =>
    i == j || start i + blockSpan ≤ start j || start j + blockSpan ≤ start i

/-- `BASE(i)` (R85): the OPEN parameter where its blocks do not overlap, as the rule says they do not, so every choice the rule
admits is covered; a choice that it does not admit is replaced by one that it does (notes/assumptions/25.md). -/
def blockBase (inst : Nat) : Nat := if blocksApart Config.base then Config.base inst else inst * blockSpan

/-- The bus address of an offset of an instance's block (30_encoding.md R116). -/
def busAddress (inst offset : Nat) : Nat := blockBase inst + offset

/-- The instance and register at a bus address. -/
def regAtAddress (a : Nat) : Option (Nat × Reg) :=
  ((List.range Config.nFiu).flatMap fun i => allRegs.map fun r => (i, r)).find? fun p => busAddress p.1 (cfg.offset p.2) == a

/-! ### Raw accesses -/

/-- What a raw access of a width at an offset means: an access that is not an aligned 32-bit word has no meaning (20_memory.md
R74), nor has one at an offset with no register (R81), in that order; else it is an access to the register there. -/
def rawTarget (offset : Nat) (sz : AccessSize) : Except Unmodelled Reg :=
  if sz ≠ .word ∨ offset % 4 ≠ 0 then .error .narrowRegisterAccess
  else
    match regOfOffset offset with
    | some r => .ok r
    | none => .error .unmappedOffset

/-- `UNMODELLED <- r` by a raw access of master `m` (10_state.md R58); a host operation ends with it. Such an access reaches no
register and is not in the bus trace of 40_register_access.md R148, DESIGN CHOICE (notes/assumptions/24.md). -/
def markAccess (i : Instr) (m : Master) (inst : Nat) (r : Unmodelled) (s : State) : Out :=
  match m with
  | .host =>
      hostStep i s fun _ =>
        if !instOk inst then raiseHalt .instanceIndex s else finish .done (s.setFiu inst ((s.fiu inst).mark r))
  | .other => agentStep s <| if instOk inst then .next (s.setFiu inst ((s.fiu inst).mark r)) else notEnabled

/-- A raw access by offset and width. -/
def rawAccess (i : Instr) (m : Master) (inst offset : Nat) (sz : AccessSize) (a : Access) (s : State) : Out :=
  match rawTarget offset sz with
  | .ok r => regAccess i r m inst a s
  | .error e => markAccess i m inst e s

/-- `REG_READ` (R140). -/
def execRegRead (m : Master) (inst offset : Nat) (sz : AccessSize) (s : State) : Out :=
  rawAccess (.regRead m inst offset sz) m inst offset sz .read s

/-- `REG_WRITE` (R141). -/
def execRegWrite (m : Master) (inst offset : Nat) (sz : AccessSize) (v : Word) (s : State) : Out :=
  rawAccess (.regWrite m inst offset sz v) m inst offset sz (.write v) s

/-- `FIELD_READ` (R142). -/
def execFieldRead (inst : Nat) (f : Field) (s : State) : Out :=
  hostStep (.fieldRead inst f) s fun p =>
    if !instOk inst then raiseHalt .instanceIndex s
    else
      match p.label with
      | .start =>
          let w := s.rdf inst f
          finish (.word w.1) w.2
      | _ => notEnabled

/-- `FIELD_WRITE` (R143, R144): the read and the write of the register are one step. -/
def execFieldWrite (inst : Nat) (f : Field) (v : Word) (s : State) : Out :=
  hostStep (.fieldWrite inst f v) s fun p =>
    if !instOk inst then raiseHalt .instanceIndex s
    else
      match p.label with
      | .start => finish .done (s.wrf inst f v)
      | _ => notEnabled

end Sys2Proof.Machine
end

