-- ==== Sys2Proof/Machine/ChipSelect.lean ====
section
/-! DEFINITION. Chip-select and addressing-mode multiplexer (44_chip_select.md): `select_chip`, `set_four_byte_addressing`,
`get_four_byte_addressing`, `select_chip_by_address`. -/

namespace Sys2Proof.Machine

/-- `select_chip` (R221). -/
def execSelectChip (inst dev : Nat) (s : State) : Out :=
  let i := Instr.selectChip inst dev
  hostStep i s fun p =>
    if !instOk inst then raiseHalt .instanceIndex s
    else if !devOk inst dev then raiseHalt .deviceIndex s
    else straight i p s [(·.wrf inst .ctsDevNum (nat32 dev))] (.status .ok)

/-- `set_four_byte_addressing` (R223): both `ADDSIZ` fields, then the device's flag. -/
def execSetFourByteAddressing (inst dev : Nat) (enabled : Bool) (s : State) : Out :=
  let i := Instr.setFourByteAddressing inst dev enabled
  hostStep i s fun p =>
    if !instOk inst then raiseHalt .instanceIndex s
    else if !devOk inst dev then raiseHalt .deviceIndex s
    else
      straight i p s
        [ (·.wrf inst .drdAddsiz (bool32 enabled)),
          fun s => let s1 := s.wrf inst .dwrAddsiz (bool32 enabled)
                   s1.setFiu inst ((s1.fiu inst).setFourb dev enabled) ]
        (.status .ok)

/-- `get_four_byte_addressing` (R225): the instance-wide direct-read field; the device is only validated. -/
def execGetFourByteAddressing (inst dev : Nat) (s : State) : Out :=
  let i := Instr.getFourByteAddressing inst dev
  hostStep i s fun p =>
    if !instOk inst then raiseHalt .instanceIndex s
    else if !devOk inst dev then raiseHalt .deviceIndex s
    else
      match p.label with
      | .start =>
          let r := s.rdf inst .drdAddsiz
          finish (.flag (r.1 == 1#32)) r.2
      | _ => notEnabled

/-- `select_chip_by_address` (R228). -/
def execSelectChipByAddress (inst dev : Nat) (addr : Word) (s : State) : Out :=
  let i := Instr.selectChipByAddress inst dev addr
  hostStep i s fun p =>
    if !instOk inst then raiseHalt .instanceIndex s
    else if !devOk inst dev then raiseHalt .deviceIndex s
    else
      straight i p s
        (if addr.toNat < Config.flashSize inst dev then
          [(·.wrf inst .ctsDevNum (nat32 dev)), (·.wrf inst .ctsSwCs 0#32)]
        else [(·.wrf inst .ctsSwCs 1#32)])
        (.status .ok)

end Sys2Proof.Machine
end

