-- ==== Sys2Proof/Machine/DirectAccess.lean ====
section
/-! DEFINITION. Direct-access configuration (41_direct_access.md): `configure_direct`, `configure_command`,
`set_dummy_cycles`, `get_read_mode`. -/

namespace Sys2Proof.Machine

/-- `configure_direct` (R151). -/
def execConfigureDirect (inst flashSize : Nat) (mode : ReadMode) (readBurst writeBurst : Nat) (s : State) : Out :=
  let i := Instr.configureDirect inst flashSize mode readBurst writeBurst
  hostStep i s fun p =>
    if !instOk inst then raiseHalt .instanceIndex s
    else if 3 < readBurst ∨ 3 < writeBurst then finish (.status .paramError) s
    else
      let a4 := bool32 (16 * 2 ^ 20 < flashSize)
      straight i p s
        [ (·.wrf inst .drdAddsiz a4),
          (·.wrf inst .dwrAddsiz a4),
          (·.wrf inst .drdAcctype (nat32 (cfg.readModeCode mode).1)),
          (·.wrf inst .drdDbw (nat32 (cfg.readModeCode mode).2)),
          (·.wrf inst .drdRBurst (nat32 readBurst)),
          (·.wrf inst .dwrWBurst (nat32 writeBurst)) ]
        (.status .ok)

/-- `configure_command` (R153): a command byte of 0 leaves its register alone. -/
def execConfigureCommand (inst : Nat) (readCmd writeCmd : Byte) (s : State) : Out :=
  let i := Instr.configureCommand inst readCmd writeCmd
  hostStep i s fun p =>
    if !instOk inst then raiseHalt .instanceIndex s
    else
      straight i p s
        ((if readCmd = 0#8 then [] else [(·.wrf inst .drdRdcmd (readCmd.setWidth 32))])
          ++ (if writeCmd = 0#8 then [] else [(·.wrf inst .dwrWrcmd (writeCmd.setWidth 32))]))
        (.status .ok)

/-- `set_dummy_cycles` (R154): the multiple-of-8 assertion comes before the range check. -/
def execSetDummyCycles (inst cycles : Nat) (s : State) : Out :=
  let i := Instr.setDummyCycles inst cycles
  hostStep i s fun p =>
    if !instOk inst then raiseHalt .instanceIndex s
    else if cycles % 8 ≠ 0 then raiseHalt .dummyCyclesNotMultipleOf8 s
    else if 3 < cycles / 8 then finish (.status .paramError) s
    else straight i p s [(·.wrf inst .drdDbw (nat32 (cycles / 8)))] (.status .ok)

/-- `get_read_mode` (R156): two field reads, and the mode their values spell. -/
def execGetReadMode (inst : Nat) (s : State) : Out :=
  let i := Instr.getReadMode inst
  hostStep i s fun p =>
    if !instOk inst then raiseHalt .instanceIndex s
    else
      match p.label with
      | .start =>
          let r := s.rdf inst .drdAcctype
          goTo i { p with label := .s 2 0, first := r.1 } r.2
      | .s 2 0 =>
          let r := s.rdf inst .drdDbw
          finish (.mode (modeOfPair p.first r.1)) r.2
      | _ => notEnabled

end Sys2Proof.Machine
end

