-- ==== Sys2Proof/Machine/Enforcer.lean ====
section
/-! DEFINITION. The enforcer (45_protection.md section 2): `PRT_CHECK`, the verdict on a latched transaction, a pure function
of `PRT_CFG`, `PRT_RANGE`, `PRT_CMD`, `FRAME` and the descriptor. The forbid table is a parameter (R247). -/

namespace Sys2Proof.Machine

/-- A whitelist slot: which register and which entry of it (10_state.md R33). -/
def slotReg (s : Fin Config.nCmdSlot) : Fin 14 := ⟨s.val / 2, by have h : s.val < 28 := s.isLt; omega⟩

/-- Entry A for an even slot, B for an odd one (10_state.md R33). -/
def slotHalf (s : Fin Config.nCmdSlot) : Half := if s.val % 2 = 0 then .a else .b

/-- The slots. -/
def allSlots : List (Fin Config.nCmdSlot) := List.finRange Config.nCmdSlot

/-- `Entry(s).CMD`. -/
def Fiu.entCmd (b : Fiu) (s : Fin Config.nCmdSlot) : Word := b.get (.entCmd (slotReg s) (slotHalf s))

/-- The 3-bit code `RNGSEL ++ FRBDC` of a slot (R239, R246). -/
def Fiu.entCode (b : Fiu) (s : Fin Config.nCmdSlot) : Nat :=
  4 * (b.get (.entRngsel (slotReg s) (slotHalf s))).toNat + (b.get (.entFrbdc (slotReg s) (slotHalf s))).toNat

/-- The address as sent: the low `8*addsiz` bits (R248). -/
def sentAddr (l : Descr) : Nat := l.addr.toNat % 2 ^ (8 * l.addsiz)

/-- `InRange(r, d, L)` (R248): `d < 2`, the range applies to chip select `d`, and the 16 KiB unit of the start address lies
between its bounds, both inclusive. -/
def Fiu.inRange (b : Fiu) (r : Fin 16) (l : Descr) : Bool :=
  let u := sentAddr l >>> Config.rangeShift
  l.dev < 2 && fieldBit (.rngCsuse r) l.dev (b.rd (.prtRange r))
    && (b.get (.rngStrt r)).toNat ≤ u && u ≤ (b.get (.rngLast r)).toNat

/-- `Permits(e, L)` for the entry of slot `s` (R246). -/
def Fiu.permits (table : Nat → Disposition) (b : Fiu) (s : Fin Config.nCmdSlot) (l : Descr) : Bool :=
  (b.get (.entCmbpck (slotReg s) (slotHalf s))).toNat == l.cmbpck
    && match table (b.entCode s) with
      | .alwaysAllowed => true
      | .alwaysForbidden => false
      | .outsideForbidden rs =>
          l.addsiz == (if flag (.entAddsz (slotReg s) (slotHalf s)) (b.rd (.prtCmd (slotReg s))) then 4 else 3)
            && l.adbpck == (b.get (.entAdbpck (slotReg s) (slotHalf s))).toNat
            && rs.any (fun r => b.inRange r l)

/-- `default_verdict()` (R245). -/
def Fiu.defaultVerdict (b : Fiu) : Verdict := if flag .prtOcalwd (b.rd .prtCfg) then .allow else .reject

/-- `no_command_verdict(L)` (R244): the verdict of the open frame it continues, else the default. -/
def Fiu.noCommandVerdict (b : Fiu) (l : Descr) : Verdict :=
  match l.held, b.frame with
  | true, .opened d (some v) => if d = l.dev then v else b.defaultVerdict
  | _, _ => b.defaultVerdict

/-- The slots whose command byte is the transaction's: the set `M` of R243. -/
def Fiu.matching (b : Fiu) (l : Descr) : List (Fin Config.nCmdSlot) :=
  allSlots.filter (fun s => b.entCmd s == l.cmd.setWidth 32)

/-- `PRT_CHECK(i, L)` (R243). -/
def Fiu.prtCheck (table : Nat → Disposition) (b : Fiu) (l : Descr) : Verdict :=
  if !(flag .prtPen (b.rd .prtCfg)) then .allow
  else if l.cmdsiz = 0 then b.noCommandVerdict l
  else if (b.matching l).isEmpty then b.defaultVerdict
  else if (b.matching l).any (fun s => b.permits table s l) then .allow
  else .reject

/-- `PRT_CHECK` as a step of its own: the verdict on the latched transaction is observed, nothing else changes (R243); with
no transaction latched there is nothing to judge. -/
def execPrtCheck (inst : Nat) (s : State) : Out :=
  agentStep s <|
    if instOk inst then
      match (s.fiu inst).eng with
      | .idle => notEnabled
      | .busy l _ => .next { s with result := some (.verdict ((s.fiu inst).prtCheck cfg.forbidTable l)) }
    else notEnabled

end Sys2Proof.Machine
end

