-- ==== Sys2Proof/Machine/Engine.lean ====
section
/-! DEFINITION. The transaction engine (42_uma_engine.md section 2): `ENGINE_COMPLETE` and its parts `drive(L)` (R173 to
R176), `reject(L)` (R177) and the disturbed completion (R178). -/

namespace Sys2Proof.Machine

/-- `cs_raw(d)` while the engine drives `l` (10_state.md R57): the automatic frame of a transaction that is not held pulls
its own chip select low. -/
def Fiu.rawDriving (b : Fiu) (l : Descr) (d : Nat) : Bool :=
  csRaw (b.rd .umaCts) d && !(d == l.dev && !l.held)

/-- Pin levels while the engine drives `l`. -/
def Fiu.levelsDriving (b : Fiu) (l : Descr) : List Bool :=
  devices.map fun d => csPinOf (b.rd .prtCfg) d (b.rawDriving l d)

/-- A device answers: its pin is low and it exists (R176, R230, 30_encoding.md R107 (c)). -/
def Fiu.selected (b : Fiu) (inst : Nat) (l : Descr) : Bool :=
  !(csPinOf (b.rd .prtCfg) l.dev (b.rawDriving l l.dev)) && devOk inst l.dev

/-- Event of a phase that carries bytes; an empty phase is absent (R174). -/
def phaseEvent (kind : PhaseKind) (code : Nat) (bytes : List Byte) : List WireEvent :=
  if bytes.isEmpty then [] else [.phase kind (codeBits code) bytes]

/-- The phases before the read phase, in the order of R174. -/
def outPhases (l : Descr) : List WireEvent :=
  phaseEvent .cmd l.cmbpck (if l.cmdsiz = 1 then [l.cmd] else [])
    ++ phaseEvent .addr l.adbpck (addrBytes l.addr l.addsiz)
    ++ (if l.dbsiz = 0 then [] else [.dummy (codeBits l.dbpck) l.dbsiz])
    ++ phaseEvent .wdata l.wdbpck (l.wdata.take l.wdatsiz)

/-- Wire log when the read phase begins: an automatic frame's `CsLow` and the phases before it (R173, R174). -/
def Fiu.wireBeforeRead (b : Fiu) (l : Descr) : List WireEvent :=
  b.wire ++ pinEvents (pinLevels (b.rd .prtCfg) (b.rd .umaCts)) (b.levelsDriving l) ++ outPhases l

/-- The bytes of the read phase: the oracle's for a selected device (10_state.md R52), else draws (R176). -/
def Fiu.readPhase (b : Fiu) (inst : Nat) (l : Descr) : List Byte :=
  (List.range l.rdatsiz).map fun j =>
    if b.selected inst l then Config.devByte inst l.dev (b.wireBeforeRead l) b.draws j
    else Config.drawByte inst (b.draws + j)

/-- The sixteen bytes of the read buffer after the phase: the bytes read, then draws (R176). -/
def Fiu.readBuffer (b : Fiu) (inst : Nat) (l : Descr) : List Byte :=
  b.readPhase inst l ++ (List.range (16 - l.rdatsiz)).map fun j => Config.drawByte inst (b.draws + l.rdatsiz + j)

/-- Store the four words of the read buffer. -/
def Fiu.setReadBuffer (b : Fiu) (w0 w1 w2 w3 : Word) : Fiu :=
  (((b.setReg (.umaDr 0) w0).setReg (.umaDr 1) w1).setReg (.umaDr 2) w2).setReg (.umaDr 3) w3

/-- The whole read buffer drawn (R177, R178). -/
def Fiu.drawReadBuffer (b : Fiu) (inst : Nat) : Fiu :=
  { b.setReadBuffer (Config.drawWord inst b.draws) (Config.drawWord inst (b.draws + 1))
      (Config.drawWord inst (b.draws + 2)) (Config.drawWord inst (b.draws + 3)) with
    draws := b.draws + 4 }

/-- `drive(L)` (R173 to R176). -/
def Fiu.drive (b : Fiu) (inst : Nat) (l : Descr) : Fiu :=
  let buf := b.readBuffer inst l
  { b.setReadBuffer (packWord buf 0) (packWord buf 1) (packWord buf 2) (packWord buf 3) with
    wire := b.wireBeforeRead l ++ phaseEvent .rdata l.rdbpck (b.readPhase inst l)
      ++ pinEvents (b.levelsDriving l) (pinLevels (b.rd .prtCfg) (b.rd .umaCts))
    draws := b.draws + 16 }

/-- `reject(L)` (R177): nothing reaches the pins; `VIOL <- 1`; the read buffer is drawn. -/
def Fiu.rejectTx (b : Fiu) (inst : Nat) : Fiu :=
  let b1 := b.drawReadBuffer inst
  b1.setReg .prtSts (putField .stsViol 1#32 (b1.rd .prtSts))

/-- A disturbed transaction ends (R178): no verdict, the read buffer drawn. -/
def Fiu.disturbedEnd (b : Fiu) (inst : Nat) (l : Descr) : Fiu :=
  let b1 := b.drawReadBuffer inst
  { b1 with wire := b1.wire ++ [.disturbed l] }

/-- `FRAME` after a verdict (45_protection.md R249). -/
def frameVerdict (l : Descr) (v : Verdict) (fr : Frame) : Frame :=
  match l.held, fr with
  | true, .opened d w => if d = l.dev then .opened d (some v) else .opened d w
  | _, fr => fr

/-- The end of every transaction: `RDYST <- 1`, `EXEC_DONE <- 0`, `ENG <- Idle` (R170). -/
def Fiu.endTx (b : Fiu) : Fiu :=
  { b.setReg .umaCts (putField .ctsExecDone 0#32 (putField .ctsRdyst 1#32 (b.rd .umaCts))) with eng := .idle }

/-- A transaction that was not disturbed: the verdict, then `drive` or `reject`, then the frame (R170). -/
def Fiu.judged (b : Fiu) (inst : Nat) (l : Descr) : Fiu :=
  let v := b.prtCheck cfg.forbidTable l
  let b1 := match v with
    | .allow => b.drive inst l
    | .reject => b.rejectTx inst
  { b1 with frame := frameVerdict l v b1.frame }

/-- `ENGINE_COMPLETE` on the instance's state (R170), for the latched `l`. -/
def Fiu.complete (b : Fiu) (inst : Nat) (l : Descr) (dist : Bool) : Fiu :=
  (if dist then b.disturbedEnd inst l else b.judged inst l).endTx

/-- `ENGINE_COMPLETE(i)` (R170): enabled exactly when `ENG = Busy(L, disturbed)`, halted host or not (R284). -/
def execEngineComplete (inst : Nat) (s : State) : Out :=
  agentStep s <|
    if instOk inst then
      match (s.fiu inst).eng with
      | .idle => notEnabled
      | .busy l dist => .next (s.setFiu inst ((s.fiu inst).complete inst l dist))
    else notEnabled

end Sys2Proof.Machine
end

