-- ==== Sys2Proof/Machine/Interrupt.lean ====
section
/-! DEFINITION. `IRQ_DELIVER` (60_exceptions.md R291, R297 (d), R298): entry into the violation handler, and the end of its
operation sequence. -/

namespace Sys2Proof.Machine

/-- The handler of `inst` has run all its operations and the host is not halted: the return of R291 and R298 is due. -/
def State.irqReturnDue (s : State) (inst : Nat) : Bool :=
  s.handling == some inst && s.hprog.isEmpty && s.hseq == .idle && s.halted.isNone

/-- `IRQ_DELIVER(i)` (R291): `IN_HANDLER <- true` where delivery is enabled; at the end of the handler's operations
`IN_HANDLER <- false` and the interrupted request resumes. -/
def execIrqDeliver (inst : Nat) (s : State) : Out :=
  agentStep s <|
    if s.irqEnabled inst then .next (s.irqEnter inst)
    else if s.irqReturnDue inst then .next (s.irqReturn inst)
    else notEnabled

end Sys2Proof.Machine
end

