-- ==== Sys2Proof/Machine/Protection.lean ====
section
/-! DEFINITION. Programming and reading the protection tables (45_protection.md sections 1 and 3): `set_protection_range`,
`set_protection_command`, `configure_protection`, `get_violation_status`. None of them looks at the lock (R235). -/

namespace Sys2Proof.Machine

/-- `set_protection_range` (R236): three field writes; `RLCK` is written back as read. -/
def execSetProtectionRange (inst index : Nat) (start stop : Word) (csMask : BitVec 2) (s : State) : Out :=
  let i := Instr.setProtectionRange inst index start stop csMask
  hostStep i s fun p =>
    if !instOk inst then raiseHalt .instanceIndex s
    else if h : index < 16 then
      straight i p s
        [ (·.wrf inst (.rngStrt ⟨index, h⟩) (start13 start)),
          (·.wrf inst (.rngLast ⟨index, h⟩) (last13 stop)),
          (·.wrf inst (.rngCsuse ⟨index, h⟩) (csMask.setWidth 32)) ]
        (.status .ok)
    else finish (.status .paramError) s

/-- `set_protection_command` (R238): one 16-bit entry of register `slot >> 1`. -/
def execSetProtectionCommand (inst slot code : Nat) (cmd : Byte) (addrBytes addrBits cmdBits : Nat) (s : State) : Out :=
  let i := Instr.setProtectionCommand inst slot code cmd addrBytes addrBits cmdBits
  hostStep i s fun p =>
    if !instOk inst then raiseHalt .instanceIndex s
    else if h : slot / 2 < 14 then
      if addrBytes ≠ 3 ∧ addrBytes ≠ 4 then finish (.status .paramError) s
      else
        match widthOfBits addrBits, widthOfBits cmdBits with
        | some wa, some wc =>
            if 7 < code then finish (.status .paramError) s
            else
              straight i p s
                [(·.wrf inst (.entry ⟨slot / 2, h⟩ (if slot % 2 = 0 then .a else .b)) (packEntry code cmd addrBytes wa wc))]
                (.status .ok)
        | _, _ => finish (.status .paramError) s
    else finish (.status .paramError) s

/-- Step S1 of `configure_protection` with a handler: `VIE` set and the handler registered (R240, 60_exceptions.md R290). -/
def registerHandler (inst handler : Nat) (s : State) : State :=
  let s1 := s.wrf inst .prtVie 1#32
  s1.setFiu inst ((s1.fiu inst).registerAndEnable (Config.violIrq inst) handler)

/-- `configure_protection` (R240, R241): the order S1 to S8. -/
def execConfigureProtection (inst : Nat) (lock enable : Bool) (deviceSize : Nat) (csEnable0 csEnable1 csForce0 csForce1 : Bool)
    (io2Force otherAllowed : Bool) (handler : Option Nat) (s : State) : Out :=
  let i := Instr.configureProtection inst lock enable deviceSize csEnable0 csEnable1 csForce0 csForce1 io2Force otherAllowed
    handler
  hostStep i s fun p =>
    if !instOk inst then raiseHalt .instanceIndex s
    else if 7 < devsiz deviceSize then finish (.status .paramError) s
    else
      straight i p s
        ((match handler with
          | some h => [registerHandler inst h]
          | none => [])
          ++ [ (·.wrf inst .prtDevsiz (nat32 (devsiz deviceSize))),
               (·.wrf inst .prtFcsVal (pair32 csForce1 csForce0)),
               (·.wrf inst .prtFcsEn (pair32 csEnable1 csEnable0)),
               (·.wrf inst .prtIo2f (bool32 io2Force)),
               (·.wrf inst .prtOcalwd (bool32 otherAllowed)),
               (·.wrf inst .prtPen (bool32 enable)),
               (·.wrf inst .prtLck (bool32 lock)) ])
        (.status .ok)

/-- `get_violation_status` (R261, R262): the read, and with `clear` the plain word write of `VIOL`, as two steps. -/
def execGetViolationStatus (inst : Nat) (clear : Bool) (s : State) : Out :=
  let i := Instr.getViolationStatus inst clear
  hostStep i s fun p =>
    if !instOk inst then raiseHalt .instanceIndex s
    else
      match p.label with
      | .start =>
          let r := s.rdf inst .stsViol
          if clear then goTo i { p with label := .s 2 0, first := r.1 } r.2 else finish (.flag (r.1 == 1#32)) r.2
      | .s 2 0 =>
          if clear then finish (.flag (p.first == 1#32)) (s.hostWrite inst .prtSts (fieldMask .stsViol)) else notEnabled
      | _ => notEnabled

end Sys2Proof.Machine
end

