-- ==== Sys2Proof/Machine/Reset.lean ====
section
/-! DEFINITION. `RESET` (70_reset_and_hazards.md R310, 60_exceptions.md R300). -/

namespace Sys2Proof.Machine

/-- `RESET` (R310): enabled in every state, past a mark and while halted too. -/
def execReset (s : State) : Out := .next s.doReset

end Sys2Proof.Machine
end

