-- ==== Sys2Proof/Machine/Supervisor.lean ====
section
/-! DEFINITION. The busy/timeout supervisor (46_supervisor.md): `wait_ready` and `POLL`. -/

namespace Sys2Proof.Machine

/-- `wait_ready` (R271, R273): each step is one turn of the poll loop. -/
def execWaitReady (inst : Nat) (timeout : Word) (s : State) : Out :=
  let i := Instr.waitReady inst timeout
  hostStep i s fun p =>
    if !instOk inst then raiseHalt .instanceIndex s
    else
      match p.label with
      | .start => afterWait (s.waitEnter inst timeout) (goTo i { p with label := .sp 1 }) fun st => finish (.status st)
      | .sp 1 => afterWait (s.waitPoll inst) (goTo i p) fun st => finish (.status st)
      | _ => notEnabled

/-- `POLL(i)` (R272): one sample of the done bit, one bus read. -/
def execPoll (inst : Nat) (s : State) : Out :=
  hostStep (.poll inst) s fun p =>
    if !instOk inst then raiseHalt .instanceIndex s
    else
      match p.label with
      | .start =>
          let r := s.pollBit inst
          finish (.flag r.1) r.2
      | _ => notEnabled

end Sys2Proof.Machine
end

