-- ==== Sys2Proof/Machine/Uma.lean ====
section
/-! DEFINITION. The two single-burst UMA requests (42_uma_engine.md sections 4 and 5): `uma_read` (R185, R186, R192) and
`uma_write` (R188 to R191). -/

namespace Sys2Proof.Machine

/-- Next label after the wait of a harvest of `n` bytes: the first `UMA_DR` read, if one is due (R186). -/
def harvestDue (n k : Nat) : Bool := k < 4 && 4 * k + 1 ≤ n

/-- Index of a data register. -/
def dataIndex (k : Nat) : Fin 4 := ⟨k % 4, Nat.mod_lt _ (by decide)⟩

/-- `uma_read` (R185). -/
def execUmaRead (inst dev : Nat) (cmd : Byte) (addr : Word) (ap : AddressPresent) (size : Nat) (timeout : Word) (s : State) :
    Out :=
  let i := Instr.umaRead inst dev cmd addr ap size timeout
  -- S7 over: `OK` goes on to the harvest S8, `TIMEOUT` ends the request with no `UMA_DR` read
  let harvest : Pos → Status → State → Out := fun p st s =>
    match st with
    | .ok => if harvestDue size 0 then goTo i { p with label := .s 8 0 } s else finish (.data .ok []) s
    | st => finish (.data st []) s
  hostStep i s fun p =>
    if !instOk inst then raiseHalt .instanceIndex s
    else if !devOk inst dev then raiseHalt .deviceIndex s
    else if Config.burstMax < size then finish (.data .paramError []) s
    else
      match p.label with
      | .start =>
          goTo i { p with label := .s 3 0, asz := resolveAddsiz ((s.fiu inst).fourbOf dev) ap }
            (s.wrf inst .ctsDevNum (nat32 dev))
      | .s 3 0 => goTo i { p with label := .s 4 0 } (s.hostWrite inst .umaAddr addr)
      | .s 4 0 => goTo i { p with label := .s 5 0 } (s.hostWrite inst .umaCmd (cmd.setWidth 32))
      | .s 5 0 =>
          let r := s.rdf inst .drdAcctype
          goTo i { p with label := .s 5 1, first := r.1 } r.2
      | .s 5 1 =>
          let r := s.rdf inst .drdDbw
          goTo i { p with label := .s 5 2, mode := modeOfPair p.first r.1 } r.2
      | .s 5 2 => goTo i { p with label := .s 6 0 } (s.hostWrite inst .umaCfg (readCfg p.mode p.asz size))
      | .s 6 0 => goTo i { p with label := .s 7 0 } (s.wrf inst .ctsExecDone 1#32)
      | .s 7 0 => afterWait (s.waitEnter inst timeout) (goTo i { p with label := .sp 7 }) (harvest p)
      | .sp 7 => afterWait (s.waitPoll inst) (goTo i p) (harvest p)
      | .s 8 k =>
          let r := s.hostRead inst (.umaDr (dataIndex k))
          let ws := p.words ++ [r.1]
          if harvestDue size (k + 1) then goTo i { p with label := .s 8 (k + 1), words := ws } r.2
          else finish (.data .ok (unpackBytes ws size)) r.2
      | _ => notEnabled

/-- `uma_write` (R188). -/
def execUmaWrite (inst dev : Nat) (cmd : Byte) (addr : Word) (ap : AddressPresent) (size : Nat) (timeout : Word)
    (data : List Byte) (s : State) : Out :=
  let i := Instr.umaWrite inst dev cmd addr ap size timeout data
  hostStep i s fun p =>
    if !instOk inst then raiseHalt .instanceIndex s
    else if !devOk inst dev then raiseHalt .deviceIndex s
    else if Config.burstMax < size then finish (.status .paramError) s
    else
      match p.label with
      | .start =>
          goTo i { p with label := .s 3 0, asz := resolveAddsiz ((s.fiu inst).fourbOf dev) ap }
            (s.wrf inst .ctsDevNum (nat32 dev))
      | .s 3 0 => goTo i { p with label := .s 4 0 } (s.hostWrite inst .umaAddr addr)
      | .s 4 0 => goTo i { p with label := .s 5 0 } (s.hostWrite inst .umaCmd (cmd.setWidth 32))
      | .s 5 0 =>
          let r := s.rdf inst .drdAcctype
          goTo i { p with label := .s 5 1, first := r.1 } r.2
      | .s 5 1 =>
          let r := s.rdf inst .drdDbw
          goTo i { p with label := .s 5 2, mode := modeOfPair p.first r.1 } r.2
      | .s 5 2 => goTo i { p with label := .s 6 0 } (s.hostWrite inst .umaCfg (writeCfg p.mode p.asz size))
      | .s 6 k =>
          goTo i { p with label := if k < 3 then .s 6 (k + 1) else .s 7 0 }
            (s.hostWrite inst (.umaDw (dataIndex k)) (packWord (data.take size) k))
      | .s 7 0 => goTo i { p with label := .s 8 0 } (s.wrf inst .ctsRdyst 1#32)
      | .s 8 0 => goTo i { p with label := .s 9 0 } s
      | .s 9 0 => goTo i { p with label := .s 10 0 } (s.wrf inst .ctsExecDone 1#32)
      | .s 10 0 => afterWait (s.waitEnter inst timeout) (goTo i { p with label := .sp 10 }) fun st => finish (.status st)
      | .sp 10 => afterWait (s.waitPoll inst) (goTo i p) fun st => finish (.status st)
      | _ => notEnabled

end Sys2Proof.Machine
end

