-- ==== Sys2Proof/Machine/UmaChunked.lean ====
section
/-! DEFINITION. The chunked UMA requests (43_uma_chunked.md): `uma_ioctl` (R201 to R208) and `page_write` (R210 to R213). -/

namespace Sys2Proof.Machine

/-- The legal operands of `uma_ioctl` beyond the assertions: V3 to V5 of R201, with the four widths. -/
def ioctlWidths (addrSize cmdBits addrBits wrBits rdBits dummyBytes : Nat) : Option (Width × Width × Width × Width) :=
  match widthOfBits cmdBits, widthOfBits addrBits, widthOfBits wrBits, widthOfBits rdBits with
  | some wc, some wa, some ww, some wr =>
      if (addrSize = 0 ∨ addrSize = 3 ∨ addrSize = 4) ∧ dummyBytes ≤ 7 then some (wc, wa, ww, wr) else none
  | _, _, _, _ => none

/-- `uma_ioctl` (R201 to R208). `offset` and the harvested bytes stand in the position; `size`, `hold` and the dummy width
are functions of the operands (S2). -/
def execUmaIoctl (inst dev : Nat) (cmd : Byte) (addr : Word) (addrSize readSize writeSize : Nat)
    (cmdBits addrBits wrBits rdBits : Nat) (timeout : Word) (dummyBytes : Nat) (writeBuf : List Byte) (s : State) : Out :=
  let i := Instr.umaIoctl inst dev cmd addr addrSize readSize writeSize cmdBits addrBits wrBits rdBits timeout dummyBytes
    writeBuf
  let hold := ioctlHold readSize writeSize
  -- FAIL (R206): release a chip select the request has asserted, then return the status
  let failed : Bool → Pos → State → Out := fun asserted p s =>
    if asserted then goTo i { p with label := .fail } s else finish (.data .timeout p.acc) s
  -- L8: `offset` advanced, then the next chunk or END
  let chunkDone : Pos → State → Out := fun p s =>
    let q := { p with offset := p.offset + Config.burstMax, words := [] }
    if q.offset < ioctlSize readSize writeSize then goTo i { q with label := .l 1 0 } s
    else if hold then goTo i { q with label := .fin } s
    else finish (.data .ok q.acc) s
  -- L1 over
  let issue : Pos → Status → State → Out := fun p st s =>
    match st with
    | .ok =>
        if p.offset = 0 then goTo i { p with label := if hold then .l 2 0 else .l 3 0 } s
        else goTo i { p with label := .l 3 2 } s
    | _ => failed (hold && p.offset != 0) p s
  -- L6 over
  let harvest : Pos → Status → State → Out := fun p st s =>
    match st with
    | .ok => if harvestDue (clampChunk readSize p.offset) 0 then goTo i { p with label := .l 7 0 } s else chunkDone p s
    | _ => failed hold p s
  hostStep i s fun p =>
    if !instOk inst then raiseHalt .instanceIndex s
    else if !devOk inst dev then raiseHalt .deviceIndex s
    else
      match ioctlWidths addrSize cmdBits addrBits wrBits rdBits dummyBytes with
      | none => finish (.data .paramError []) s
      | some (wc, wa, ww, wr) =>
        match p.label with
        | .start => goTo i { p with label := .l 1 0 } (s.wrf inst .ctsDevNum (nat32 dev))
        | .l 1 0 => afterWait (s.waitEnter inst timeout) (goTo i { p with label := .lp 1 }) (issue p)
        | .lp 1 => afterWait (s.waitPoll inst) (goTo i p) (issue p)
        | .l 2 0 => goTo i { p with label := .l 3 0 } (s.wrf inst .ctsSwCs 0#32)
        | .l 3 0 => goTo i { p with label := .l 3 1 } (s.hostWrite inst .umaAddr addr)
        | .l 3 1 => goTo i { p with label := .l 3 2 } (s.hostWrite inst .umaCmd (cmd.setWidth 32))
        | .l 3 2 =>
            goTo i { p with label := if 0 < clampChunk writeSize p.offset then .l 4 0 else .l 5 0 }
              (s.hostWrite inst .umaCfg
                (chunkCfg p.offset addrSize (clampChunk writeSize p.offset) dummyBytes (clampChunk readSize p.offset) wc wa ww wr))
        | .l 4 k =>
            goTo i { p with label := if k < 3 then .l 4 (k + 1) else .l 5 0 }
              (s.hostWrite inst (.umaDw (dataIndex k))
                (packWord ((writeBuf.drop p.offset).take (clampChunk writeSize p.offset)) k))
        | .l 5 0 => goTo i { p with label := .l 6 0 } (s.wrf inst .ctsExecDone 1#32)
        | .l 6 0 => afterWait (s.waitEnter inst timeout) (goTo i { p with label := .lp 6 }) (harvest p)
        | .lp 6 => afterWait (s.waitPoll inst) (goTo i p) (harvest p)
        | .l 7 k =>
            let r := s.hostRead inst (.umaDr (dataIndex k))
            let ws := p.words ++ [r.1]
            if harvestDue (clampChunk readSize p.offset) (k + 1) then goTo i { p with label := .l 7 (k + 1), words := ws } r.2
            else chunkDone { p with acc := p.acc ++ unpackBytes ws (clampChunk readSize p.offset) } r.2
        | .fin => finish (.data .ok p.acc) (s.wrf inst .ctsSwCs 1#32)
        | .fail => finish (.data .timeout p.acc) (s.wrf inst .ctsSwCs 1#32)
        | _ => notEnabled

/-- `page_write` (R210 to R213). -/
def execPageWrite (inst dev : Nat) (cmd : Byte) (addr : Word) (size : Nat) (timeout : Word) (data : List Byte) (s : State) :
    Out :=
  let i := Instr.pageWrite inst dev cmd addr size timeout data
  -- L5 over: L6, which advances `offset`, then the next chunk or END; or the failure exit (R213)
  let chunkDone : Pos → Status → State → Out := fun p st s =>
    match st with
    | .ok =>
        let q := { p with offset := p.offset + Config.burstMax }
        if q.offset < size then goTo i { q with label := .l 1 2 } s else goTo i { q with label := .fin } s
    | _ => goTo i { p with label := .fail } s
  hostStep i s fun p =>
    if !instOk inst then raiseHalt .instanceIndex s
    else if !devOk inst dev then raiseHalt .deviceIndex s
    else
      match p.label with
      | .start =>
          goTo i { p with label := .s 3 0, asz := resolveAddsiz ((s.fiu inst).fourbOf dev) .auto }
            (s.wrf inst .ctsDevNum (nat32 dev))
      | .s 3 0 =>
          let r := s.rdf inst .drdAcctype
          goTo i { p with label := .s 3 1, first := r.1 } r.2
      | .s 3 1 =>
          let r := s.rdf inst .drdDbw
          goTo i { p with label := .s 4 0, mode := modeOfPair p.first r.1 } r.2
      | .s 4 0 => goTo i { p with label := .l 1 0 } (s.wrf inst .ctsSwCs 0#32)
      | .l 1 0 => goTo i { p with label := .l 1 1 } (s.hostWrite inst .umaAddr addr)
      | .l 1 1 => goTo i { p with label := .l 1 2 } (s.hostWrite inst .umaCmd (cmd.setWidth 32))
      | .l 1 2 =>
          goTo i { p with label := .l 2 0 }
            (s.hostWrite inst .umaCfg
              (if p.offset = 0 then writeCfg p.mode p.asz (clampChunk size 0)
                else writeContCfg p.mode (clampChunk size p.offset)))
      | .l 2 k =>
          goTo i { p with label := if k < 3 then .l 2 (k + 1) else .l 3 0 }
            (s.hostWrite inst (.umaDw (dataIndex k)) (packWord ((data.drop p.offset).take (clampChunk size p.offset)) k))
      | .l 3 0 => goTo i { p with label := .l 3 1 } (s.wrf inst .ctsRdyst 1#32)
      | .l 3 1 => goTo i { p with label := .l 4 0 } s
      | .l 4 0 => goTo i { p with label := .l 5 0 } (s.wrf inst .ctsExecDone 1#32)
      | .l 5 0 => afterWait (s.waitEnter inst timeout) (goTo i { p with label := .lp 5 }) (chunkDone p)
      | .lp 5 => afterWait (s.waitPoll inst) (goTo i p) (chunkDone p)
      | .fin => finish (.status .ok) (s.wrf inst .ctsSwCs 1#32)
      | .fail => finish (.status .timeout) (s.wrf inst .ctsSwCs 1#32)
      | _ => notEnabled

end Sys2Proof.Machine
end

