-- ==== Sys2Proof/Machine/Dispatch.lean ====
section
/-! DEFINITION. The meaning of an instruction: one arm per constructor of `Instr`, each one direct call. `exec i s` is one
step: the step of instruction `i` that the sequencer position of `s` names (00_scope.md R10, notes/assumptions/1.md). -/

namespace Sys2Proof.Machine

/-- One step of instruction `i`. -/
def exec (i : Instr) (s : State) : Host.Outcome State Fault Refusal :=
  match i with
  | .configureDirect inst flashSize mode readBurst writeBurst => Sys2Proof.Machine.execConfigureDirect inst flashSize mode readBurst writeBurst s
  | .configureCommand inst readCmd writeCmd => Sys2Proof.Machine.execConfigureCommand inst readCmd writeCmd s
  | .getReadMode inst => Sys2Proof.Machine.execGetReadMode inst s
  | .setDummyCycles inst cycles => Sys2Proof.Machine.execSetDummyCycles inst cycles s
  | .umaRead inst dev cmd addr ap size timeout => Sys2Proof.Machine.execUmaRead inst dev cmd addr ap size timeout s
  | .umaWrite inst dev cmd addr ap size timeout data => Sys2Proof.Machine.execUmaWrite inst dev cmd addr ap size timeout data s
  | .umaIoctl inst dev cmd addr addrSize readSize writeSize cmdBits addrBits wrBits rdBits timeout dummyBytes writeBuf => Sys2Proof.Machine.execUmaIoctl inst dev cmd addr addrSize readSize writeSize cmdBits addrBits wrBits rdBits timeout dummyBytes writeBuf s
  | .pageWrite inst dev cmd addr size timeout data => Sys2Proof.Machine.execPageWrite inst dev cmd addr size timeout data s
  | .selectChip inst dev => Sys2Proof.Machine.execSelectChip inst dev s
  | .setFourByteAddressing inst dev enabled => Sys2Proof.Machine.execSetFourByteAddressing inst dev enabled s
  | .getFourByteAddressing inst dev => Sys2Proof.Machine.execGetFourByteAddressing inst dev s
  | .selectChipByAddress inst dev addr => Sys2Proof.Machine.execSelectChipByAddress inst dev addr s
  | .setProtectionRange inst index start stop csMask => Sys2Proof.Machine.execSetProtectionRange inst index start stop csMask s
  | .setProtectionCommand inst slot code cmd addrBytes addrBits cmdBits => Sys2Proof.Machine.execSetProtectionCommand inst slot code cmd addrBytes addrBits cmdBits s
  | .configureProtection inst lock enable deviceSize csEnable0 csEnable1 csForce0 csForce1 io2Force otherAllowed handler => Sys2Proof.Machine.execConfigureProtection inst lock enable deviceSize csEnable0 csEnable1 csForce0 csForce1 io2Force otherAllowed handler s
  | .getViolationStatus inst clear => Sys2Proof.Machine.execGetViolationStatus inst clear s
  | .waitReady inst timeout => Sys2Proof.Machine.execWaitReady inst timeout s
  | .drdCfg m inst a => Sys2Proof.Machine.execDrdCfg m inst a s
  | .dwrCfg m inst a => Sys2Proof.Machine.execDwrCfg m inst a s
  | .umaCfg m inst a => Sys2Proof.Machine.execUmaCfg m inst a s
  | .umaCts m inst a => Sys2Proof.Machine.execUmaCts m inst a s
  | .umaCmd m inst a => Sys2Proof.Machine.execUmaCmd m inst a s
  | .umaAddr m inst a => Sys2Proof.Machine.execUmaAddr m inst a s
  | .prtCfg m inst a => Sys2Proof.Machine.execPrtCfg m inst a s
  | .prtSts m inst a => Sys2Proof.Machine.execPrtSts m inst a s
  | .umaDw0 m inst a => Sys2Proof.Machine.execUmaDw0 m inst a s
  | .umaDw1 m inst a => Sys2Proof.Machine.execUmaDw1 m inst a s
  | .umaDw2 m inst a => Sys2Proof.Machine.execUmaDw2 m inst a s
  | .umaDw3 m inst a => Sys2Proof.Machine.execUmaDw3 m inst a s
  | .umaDr0 m inst a => Sys2Proof.Machine.execUmaDr0 m inst a s
  | .umaDr1 m inst a => Sys2Proof.Machine.execUmaDr1 m inst a s
  | .umaDr2 m inst a => Sys2Proof.Machine.execUmaDr2 m inst a s
  | .umaDr3 m inst a => Sys2Proof.Machine.execUmaDr3 m inst a s
  | .prtCmd0 m inst a => Sys2Proof.Machine.execPrtCmd0 m inst a s
  | .prtCmd1 m inst a => Sys2Proof.Machine.execPrtCmd1 m inst a s
  | .prtCmd2 m inst a => Sys2Proof.Machine.execPrtCmd2 m inst a s
  | .prtCmd3 m inst a => Sys2Proof.Machine.execPrtCmd3 m inst a s
  | .prtCmd4 m inst a => Sys2Proof.Machine.execPrtCmd4 m inst a s
  | .prtCmd5 m inst a => Sys2Proof.Machine.execPrtCmd5 m inst a s
  | .prtCmd6 m inst a => Sys2Proof.Machine.execPrtCmd6 m inst a s
  | .prtCmd7 m inst a => Sys2Proof.Machine.execPrtCmd7 m inst a s
  | .prtCmd8 m inst a => Sys2Proof.Machine.execPrtCmd8 m inst a s
  | .prtCmd9 m inst a => Sys2Proof.Machine.execPrtCmd9 m inst a s
  | .prtCmd10 m inst a => Sys2Proof.Machine.execPrtCmd10 m inst a s
  | .prtCmd11 m inst a => Sys2Proof.Machine.execPrtCmd11 m inst a s
  | .prtCmd12 m inst a => Sys2Proof.Machine.execPrtCmd12 m inst a s
  | .prtCmd13 m inst a => Sys2Proof.Machine.execPrtCmd13 m inst a s
  | .prtRange0 m inst a => Sys2Proof.Machine.execPrtRange0 m inst a s
  | .prtRange1 m inst a => Sys2Proof.Machine.execPrtRange1 m inst a s
  | .prtRange2 m inst a => Sys2Proof.Machine.execPrtRange2 m inst a s
  | .prtRange3 m inst a => Sys2Proof.Machine.execPrtRange3 m inst a s
  | .prtRange4 m inst a => Sys2Proof.Machine.execPrtRange4 m inst a s
  | .prtRange5 m inst a => Sys2Proof.Machine.execPrtRange5 m inst a s
  | .prtRange6 m inst a => Sys2Proof.Machine.execPrtRange6 m inst a s
  | .prtRange7 m inst a => Sys2Proof.Machine.execPrtRange7 m inst a s
  | .prtRange8 m inst a => Sys2Proof.Machine.execPrtRange8 m inst a s
  | .prtRange9 m inst a => Sys2Proof.Machine.execPrtRange9 m inst a s
  | .prtRange10 m inst a => Sys2Proof.Machine.execPrtRange10 m inst a s
  | .prtRange11 m inst a => Sys2Proof.Machine.execPrtRange11 m inst a s
  | .prtRange12 m inst a => Sys2Proof.Machine.execPrtRange12 m inst a s
  | .prtRange13 m inst a => Sys2Proof.Machine.execPrtRange13 m inst a s
  | .prtRange14 m inst a => Sys2Proof.Machine.execPrtRange14 m inst a s
  | .prtRange15 m inst a => Sys2Proof.Machine.execPrtRange15 m inst a s
  | .regRead m inst offset sz => Sys2Proof.Machine.execRegRead m inst offset sz s
  | .regWrite m inst offset sz v => Sys2Proof.Machine.execRegWrite m inst offset sz v s
  | .fieldRead inst f => Sys2Proof.Machine.execFieldRead inst f s
  | .fieldWrite inst f v => Sys2Proof.Machine.execFieldWrite inst f v s
  | .engineComplete inst => Sys2Proof.Machine.execEngineComplete inst s
  | .prtCheck inst => Sys2Proof.Machine.execPrtCheck inst s
  | .poll inst => Sys2Proof.Machine.execPoll inst s
  | .irqDeliver inst => Sys2Proof.Machine.execIrqDeliver inst s
  | .reset => Sys2Proof.Machine.execReset s

end Sys2Proof.Machine
end

