-- ==== Sys2Proof/Machine/Fetch.lean ====
section
/-! DEFINITION. What takes the place of instruction fetch (10_state.md R55: the block fetches no instructions): the host agent
takes its next operation from the records the environment supplies, another agent's step comes with its turn. -/

namespace Sys2Proof.Machine

/-- Steps of the host agent (00_scope.md R15): the requests, the host's own bus accesses, `POLL`. All others are steps of
the engine, of the interrupt delivery, of the resetter or of another bus master. -/
def isHostInstr (i : Instr) : Bool :=
  match i with
  | .engineComplete _ | .prtCheck _ | .irqDeliver _ | .reset => false
  | .regRead .other _ _ _ | .regWrite .other _ _ _ _ => false
  | .drdCfg .other _ _ | .dwrCfg .other _ _ | .umaCfg .other _ _ | .umaCts .other _ _ | .umaCmd .other _ _
  | .umaAddr .other _ _ | .prtCfg .other _ _ | .prtSts .other _ _
  | .umaDw0 .other _ _ | .umaDw1 .other _ _ | .umaDw2 .other _ _ | .umaDw3 .other _ _
  | .umaDr0 .other _ _ | .umaDr1 .other _ _ | .umaDr2 .other _ _ | .umaDr3 .other _ _
  | .prtCmd0 .other _ _ | .prtCmd1 .other _ _ | .prtCmd2 .other _ _ | .prtCmd3 .other _ _ | .prtCmd4 .other _ _
  | .prtCmd5 .other _ _ | .prtCmd6 .other _ _ | .prtCmd7 .other _ _ | .prtCmd8 .other _ _ | .prtCmd9 .other _ _
  | .prtCmd10 .other _ _ | .prtCmd11 .other _ _ | .prtCmd12 .other _ _ | .prtCmd13 .other _ _
  | .prtRange0 .other _ _ | .prtRange1 .other _ _ | .prtRange2 .other _ _ | .prtRange3 .other _ _
  | .prtRange4 .other _ _ | .prtRange5 .other _ _ | .prtRange6 .other _ _ | .prtRange7 .other _ _
  | .prtRange8 .other _ _ | .prtRange9 .other _ _ | .prtRange10 .other _ _ | .prtRange11 .other _ _
  | .prtRange12 .other _ _ | .prtRange13 .other _ _ | .prtRange14 .other _ _ | .prtRange15 .other _ _ => false
  | _ => true

/-- What the host agent does at its next turn. -/
inductive HostNext where
  /-- it has no step: halted (60_exceptions.md R284), or idle with nothing left to issue -/
  | pass
  /-- the next step of the operation it is executing, or the end of the handler -/
  | resume (i : Instr)
  /-- it issues the operation of this record; the state has the record taken out -/
  | issue (record : List Byte) (s : State)

/-- The host's next step: the handler's operations while one runs, else the request's (R55, R291, R298). -/
def State.hostNext (s : State) : HostNext :=
  if s.halted.isSome then .pass
  else
    match s.handling with
    | some j =>
      match s.hseq, s.hprog with
      | .run i _, _ => .resume i
      | .idle, [] => .resume (.irqDeliver j)
      | .idle, r :: rest => .issue r { s with hprog := rest }
    | none =>
      match s.seq, s.prog with
      | .run i _, _ => .resume i
      | .idle, [] => .pass
      | .idle, r :: rest => .issue r { s with prog := rest }

/-- The host's turn. -/
def hostTurn (s : State) : Out :=
  match s.mark? with
  | some r => .fault (.unmodelled r)
  | none =>
    match s.hostNext with
    | .pass => .next s
    | .resume i => exec i s
    | .issue record s1 =>
      match decodeRecord record with
      | .error e => .refused (.undecodable e)
      | .ok i => if isHostInstr i then exec i s1 else .refused .wrongAgent

/-- A turn that is not enabled in this state is passed over. -/
def passIfNotEnabled (s : State) (o : Out) : Out :=
  match o with
  | .refused .notEnabled => .next s
  | o => o

/-- Another agent's turn. -/
def agentTurn (record : List Byte) (s : State) : Out :=
  match decodeRecord record with
  | .error e => .refused (.undecodable e)
  | .ok i => if isHostInstr i then .refused .wrongAgent else passIfNotEnabled s (exec i s)

/-- `s` with a record as the next operation of the host, which is idle, at the host's turn. -/
def State.withHostRecord (s : State) (record : List Byte) : State :=
  let s1 := { s.setCur .idle with sched := .host :: s.sched }
  if s.handling.isSome then { s1 with hprog := record :: s1.hprog } else { s1 with prog := record :: s1.prog }

end Sys2Proof.Machine
end

