-- ==== Sys2Proof/Machine/Step.lean ====
section
/-! DEFINITION. One step of the machine: the next turn of the schedule is taken, and its agent steps. -/

namespace Sys2Proof.Machine

/-- One step (00_scope.md R10, R15; 60_exceptions.md R295): the host's when the schedule is used up. -/
def step (s : State) : Host.Outcome State Fault Refusal :=
  match s.sched with
  | [] => hostTurn s
  | .host :: rest => hostTurn { s with sched := rest }
  | .agent record :: rest => agentTurn record { s with sched := rest }

/-- The state whose next step runs the instruction of an opcode-table word as a host operation. -/
def State.withFetchWord (s : State) (nbits w : Nat) : State := s.withHostRecord (tableRecord nbits w)

end Sys2Proof.Machine
end

