-- ==== Sys2Proof/Safety.lean ====
section
/-! DEFINITION. The terms claims use: when the host may begin a request, several steps of one request in a row, the
invariants of an instance, and what a step leaves alone. -/

namespace Sys2Proof.Machine

/-! ### Where the host stands -/

/-- No mark is set, the host is not halted and no violation handler runs. -/
abbrev State.Live (s : State) : Prop := s.mark? = none ∧ s.halted = none ∧ s.handling = none

/-- The host may begin an operation: the machine is live and the sequencer idle. -/
abbrev State.Ready (s : State) : Prop := s.Live ∧ s.seq = .idle

/-- The host stands inside instruction `i` at position `p`. -/
abbrev State.At (s : State) (i : Instr) (p : Pos) : Prop := s.Live ∧ s.seq = .run i p

/-- The wait whose entry has label `entry` and whose poll loop has label `poll` is out at position `p`: its bound permits no poll, or
no poll is left (46_supervisor.md R271, R273). -/
abbrev State.TimesOut (s : State) (inst : Nat) (timeout : Word) (p : Pos) (entry poll : Label) : Prop :=
  p.label = entry ∧ timeout ≠ 0#32 ∧ timeout.toNat < Config.pollPeriodUs ∨ p.label = poll ∧ (s.fiu inst).sup = .bounded 0

/-- `n` steps of instruction `i` with no other agent between them, stopping at the first fault or refusal. -/
def execN (n : Nat) (i : Instr) (s : State) : Out :=
  match n with
  | 0 => .next s
  | n + 1 =>
    match exec i s with
    | .next t => execN n i t
    | o => o

/-- The next state, where there is one. -/
def nextOf (o : Out) : Option State :=
  match o with
  | .next t => some t
  | _ => none

/-- A fault or a refusal, where there is one. -/
def stopOf (o : Out) : Option (Fault ⊕ Refusal) :=
  match o with
  | .next _ => none
  | .fault r => some (.inl r)
  | .refused r => some (.inr r)

/-! ### Fields of a stored register -/

/-- Value of a one-bit field of an instance. -/
def Fiu.bit (b : Fiu) (f : Field) : Bool := flag f (b.rd (fieldReg f))

/-! ### Invariants of an instance -/

/-- Reserved bits read as 0 (10_state.md R41). -/
abbrev Fiu.ReservedZero (b : Fiu) : Prop := ∀ r ∈ allRegs, b.rd r &&& ~~~(regMask r) = 0#32

/-- `EXEC_DONE = 1` if and only if `ENG ≠ Idle` (R43). -/
abbrev Fiu.DoneBit (b : Fiu) : Prop := b.bit .ctsExecDone = b.busy

/-- The device of an open frame. -/
def frameDev (fr : Frame) : Option Nat :=
  match fr with
  | .closed => none
  | .opened d _ => some d

/-- A frame is open exactly for the device whose chip select software holds (R50, R57). -/
abbrev Fiu.FrameHeld (b : Fiu) : Prop := frameDev b.frame = heldDev (b.rd .umaCts)

/-- A latched descriptor is one the trigger arms (R48, 30_encoding.md R106), and until it is disturbed the chip select of its
device stands where it stood at the trigger (R36 (b), R57). -/
def Fiu.latchOk (b : Fiu) : Bool :=
  match b.eng with
  | .idle => true
  | .busy l dist => legalDescr l && l.dev < 4 && l.wdata.length == 16 && (dist || csRaw (b.rd .umaCts) l.dev == !l.held)

/-- The invariant of one instance. -/
abbrev Fiu.Inv (b : Fiu) : Prop := b.ReservedZero ∧ b.DoneBit ∧ b.FrameHeld ∧ b.latchOk = true

/-- The invariant of the machine. -/
abbrev State.Inv (s : State) : Prop := ∀ k < Config.nFiu, (s.fiu k).Inv

/-! ### What the rules say, in the terms of the state -/

/-- Two fields share no bit. -/
def fieldsApart (f g : Field) : Bool :=
  decide (fieldLo f + fieldWidth f ≤ fieldLo g ∨ fieldLo g + fieldWidth g ≤ fieldLo f)

/-- `width(code)` (00_scope.md R14). -/
def widthOfCode (code : Nat) : Nat :=
  match code with
  | 0 => 1
  | 1 => 2
  | 2 => 4
  | _ => 0

/-- The descriptor R48 latches, for device `dev`, held or not: the ten fields of `UMA_CFG`, the command byte, the address and
the sixteen bytes of `UMA_DW0..3`. -/
def descrOf (b : Fiu) (dev : Nat) (held : Bool) : Descr where
  dev := dev
  held := held
  cmdsiz := (getField .cfgCmdsiz (b.rd .umaCfg)).toNat
  addsiz := (getField .cfgAddsiz (b.rd .umaCfg)).toNat
  wdatsiz := (getField .cfgWdatsiz (b.rd .umaCfg)).toNat
  dbsiz := (getField .cfgDbsiz (b.rd .umaCfg)).toNat
  rdatsiz := (getField .cfgRdatsiz (b.rd .umaCfg)).toNat
  cmbpck := (getField .cfgCmbpck (b.rd .umaCfg)).toNat
  adbpck := (getField .cfgAdbpck (b.rd .umaCfg)).toNat
  wdbpck := (getField .cfgWdbpck (b.rd .umaCfg)).toNat
  dbpck := (getField .cfgDbpck (b.rd .umaCfg)).toNat
  rdbpck := (getField .cfgRdbpck (b.rd .umaCfg)).toNat
  cmd := (b.rd .umaCmd).setWidth 8
  addr := b.rd .umaAddr
  wdata := (List.range 16).map fun j => wordByte (b.rd (.umaDw (dataIndex (j / 4)))) (j % 4)

/-- The sizes and widths `UMA_CFG` may hold at a trigger (30_encoding.md R106). -/
def LegalDescr (l : Descr) : Prop :=
  (l.cmdsiz ≠ 0 → l.cmbpck ≤ 2) ∧ (l.addsiz ≠ 0 → l.adbpck ≤ 2) ∧ (l.wdatsiz ≠ 0 → l.wdbpck ≤ 2)
    ∧ (l.dbsiz ≠ 0 → l.dbpck ≤ 2) ∧ (l.rdatsiz ≠ 0 → l.rdbpck ≤ 2)
    ∧ (l.addsiz = 0 ∨ l.addsiz = 3 ∨ l.addsiz = 4) ∧ l.wdatsiz ≤ 16 ∧ l.rdatsiz ≤ 16

/-- The phases of a transaction in the order of R174, with `r` the bytes of its read phase. -/
def phasesOf (l : Descr) (r : List Byte) : List WireEvent :=
  (if l.cmdsiz = 1 then [.phase .cmd (widthOfCode l.cmbpck) [l.cmd]] else [])
    ++ (if l.addsiz = 3 then
          [.phase .addr (widthOfCode l.adbpck)
            [l.addr.extractLsb' 16 8, l.addr.extractLsb' 8 8, l.addr.extractLsb' 0 8]]
        else if l.addsiz = 4 then
          [.phase .addr (widthOfCode l.adbpck)
            [l.addr.extractLsb' 24 8, l.addr.extractLsb' 16 8, l.addr.extractLsb' 8 8, l.addr.extractLsb' 0 8]]
        else [])
    ++ (if l.dbsiz = 0 then [] else [.dummy (widthOfCode l.dbpck) l.dbsiz])
    ++ (if l.wdatsiz = 0 then [] else [.phase .wdata (widthOfCode l.wdbpck) (l.wdata.take l.wdatsiz)])
    ++ (if l.rdatsiz = 0 then [] else [.phase .rdata (widthOfCode l.rdbpck) r])

/-- Byte `j` of the read buffer `UMA_DR0..3` (10_state.md R25). -/
def Fiu.readByte (b : Fiu) (j : Nat) : Byte := wordByte (b.rd (.umaDr (dataIndex (j / 4)))) (j % 4)

/-- Byte `j` of the write buffer `UMA_DW0..3` (10_state.md R24). -/
def Fiu.writeByte (b : Fiu) (j : Nat) : Byte := wordByte (b.rd (.umaDw (dataIndex (j / 4)))) (j % 4)

/-- No chip select is forced (10_state.md R57). -/
abbrev Fiu.NoForce (b : Fiu) : Prop := getField .prtFcsEn (b.rd .prtCfg) = 0#32

/-- Field of the whitelist entry of slot `n`: entry A or B of `PRT_CMD(n / 2)` (10_state.md R33). -/
def Fiu.slotField (b : Fiu) (n : Fin Config.nCmdSlot) (f : Fin 14 → Half → Field) : Nat :=
  (b.get (f ⟨n.val / 2, by have h : n.val < 28 := n.isLt; omega⟩ (if n.val % 2 = 0 then .a else .b))).toNat

/-- The address lies in range `r` for the device (45_protection.md R248). -/
def Fiu.InRange (b : Fiu) (r : Fin 16) (l : Descr) : Prop :=
  (l.dev = 0 ∧ (b.get (.rngCsuse r)).getLsbD 0 = true ∨ l.dev = 1 ∧ (b.get (.rngCsuse r)).getLsbD 1 = true)
    ∧ (b.get (.rngStrt r)).toNat ≤ l.addr.toNat % 2 ^ (8 * l.addsiz) / 2 ^ 14
    ∧ l.addr.toNat % 2 ^ (8 * l.addsiz) / 2 ^ 14 ≤ (b.get (.rngLast r)).toNat

/-- The entry of slot `n` permits the transaction (45_protection.md R246 with the default table of R247): the command width
agrees and the forbid code is 0, or it is 1 or 2 and the address has the entry's size and width and lies in range
`2 * RNGSEL + (FRBDC - 1)`. -/
def Fiu.Permits (b : Fiu) (n : Fin Config.nCmdSlot) (l : Descr) : Prop :=
  b.slotField n .entCmbpck = l.cmbpck
    ∧ (b.slotField n .entFrbdc = 0
      ∨ (b.slotField n .entFrbdc = 1 ∨ b.slotField n .entFrbdc = 2)
        ∧ l.addsiz = (if b.slotField n .entAddsz = 1 then 4 else 3)
        ∧ l.adbpck = b.slotField n .entAdbpck
        ∧ ∃ r : Fin 16, r.val = 2 * b.slotField n .entRngsel + (b.slotField n .entFrbdc - 1) ∧ b.InRange r l)

/-- What the operands of a request outside their legal sets give (60_exceptions.md R282, in the order of R294): a halt, or
`PARAM_ERROR`; nothing where the operands are legal. -/
def operandFailure (i : Instr) : Option (HaltReason ⊕ Result) :=
  let status (inst : Nat) (bad : Bool) : Option (HaltReason ⊕ Result) :=
    if Config.nFiu ≤ inst then some (.inl .instanceIndex)
    else if bad then some (.inr (.status .paramError)) else none
  let device (inst dev : Nat) (bad : Bool) (res : Result) : Option (HaltReason ⊕ Result) :=
    if Config.nFiu ≤ inst then some (.inl .instanceIndex)
    else if 4 ≤ dev then some (.inl .deviceIndex)
    else if bad then some (.inr res) else none
  let badBits (n : Nat) : Bool := n != 1 && n != 2 && n != 4
  match i with
  | .configureDirect inst _ _ rb wb => status inst (3 < rb || 3 < wb)
  | .configureCommand inst _ _ => status inst false
  | .getReadMode inst => status inst false
  | .setDummyCycles inst cycles =>
      if Config.nFiu ≤ inst then some (.inl .instanceIndex)
      else if cycles % 8 ≠ 0 then some (.inl .dummyCyclesNotMultipleOf8)
      else if 3 < cycles / 8 then some (.inr (.status .paramError)) else none
  | .umaRead inst dev _ _ _ size _ => device inst dev (16 < size) (.data .paramError [])
  | .umaWrite inst dev _ _ _ size _ _ => device inst dev (16 < size) (.status .paramError)
  | .umaIoctl inst dev _ _ asz _ _ cb ab wb rb _ dummy _ =>
      device inst dev
        (badBits cb || badBits ab || badBits wb || badBits rb || (asz != 0 && asz != 3 && asz != 4) || 7 < dummy)
        (.data .paramError [])
  | .pageWrite inst dev _ _ _ _ _ => device inst dev false .done
  | .selectChip inst dev => device inst dev false .done
  | .setFourByteAddressing inst dev _ => device inst dev false .done
  | .getFourByteAddressing inst dev => device inst dev false .done
  | .selectChipByAddress inst dev _ => device inst dev false .done
  | .setProtectionRange inst index _ _ _ => status inst (16 ≤ index)
  | .setProtectionCommand inst slot code _ aby ab cb =>
      status inst (14 ≤ slot / 2 || (aby != 3 && aby != 4) || badBits ab || badBits cb || 7 < code)
  | .configureProtection inst _ _ size _ _ _ _ _ _ _ => status inst (4 ^ 7 * 2 ^ 20 < size)
  | .getViolationStatus inst _ => status inst false
  | .waitReady inst _ => status inst false
  | _ => none

/-! ### The instance of an instruction and the first access of a request -/

/-- The instance an instruction names (00_scope.md R7). -/
def instanceOf (i : Instr) : Option Nat :=
  match i with
  | .configureDirect inst _ _ _ _ | .configureCommand inst _ _ | .getReadMode inst | .setDummyCycles inst _ => some inst
  | .umaRead inst _ _ _ _ _ _ | .umaWrite inst _ _ _ _ _ _ _ | .umaIoctl inst _ _ _ _ _ _ _ _ _ _ _ _ _ => some inst
  | .pageWrite inst _ _ _ _ _ _ | .selectChip inst _ | .setFourByteAddressing inst _ _ => some inst
  | .getFourByteAddressing inst _ | .selectChipByAddress inst _ _ | .setProtectionRange inst _ _ _ _ => some inst
  | .setProtectionCommand inst _ _ _ _ _ _ | .configureProtection inst _ _ _ _ _ _ _ _ _ _ => some inst
  | .getViolationStatus inst _ | .waitReady inst _ => some inst
  | .drdCfg _ inst _ | .dwrCfg _ inst _ | .umaCfg _ inst _ | .umaCts _ inst _ | .umaCmd _ inst _ | .umaAddr _ inst _
  | .prtCfg _ inst _ | .prtSts _ inst _
  | .umaDw0 _ inst _ | .umaDw1 _ inst _ | .umaDw2 _ inst _ | .umaDw3 _ inst _
  | .umaDr0 _ inst _ | .umaDr1 _ inst _ | .umaDr2 _ inst _ | .umaDr3 _ inst _
  | .prtCmd0 _ inst _ | .prtCmd1 _ inst _ | .prtCmd2 _ inst _ | .prtCmd3 _ inst _ | .prtCmd4 _ inst _
  | .prtCmd5 _ inst _ | .prtCmd6 _ inst _ | .prtCmd7 _ inst _ | .prtCmd8 _ inst _ | .prtCmd9 _ inst _
  | .prtCmd10 _ inst _ | .prtCmd11 _ inst _ | .prtCmd12 _ inst _ | .prtCmd13 _ inst _
  | .prtRange0 _ inst _ | .prtRange1 _ inst _ | .prtRange2 _ inst _ | .prtRange3 _ inst _ | .prtRange4 _ inst _
  | .prtRange5 _ inst _ | .prtRange6 _ inst _ | .prtRange7 _ inst _ | .prtRange8 _ inst _ | .prtRange9 _ inst _
  | .prtRange10 _ inst _ | .prtRange11 _ inst _ | .prtRange12 _ inst _ | .prtRange13 _ inst _ | .prtRange14 _ inst _
  | .prtRange15 _ inst _ => some inst
  | .regRead _ inst _ _ | .regWrite _ inst _ _ _ | .fieldRead inst _ | .fieldWrite inst _ _ => some inst
  | .engineComplete inst | .prtCheck inst | .poll inst | .irqDeliver inst => some inst
  | .reset => none

/-- The field access that is the first step of a request with legal operands, as the field primitive that performs it; nothing where
the request makes no access (`configure_command` with two zero bytes) or begins with a turn of a wait. -/
def firstAccess (i : Instr) : Option Instr :=
  match i with
  | .configureDirect inst size _ _ _ => some (.fieldWrite inst .drdAddsiz (if 2 ^ 24 < size then 1#32 else 0#32))
  | .configureCommand inst r w =>
      if r ≠ 0#8 then some (.fieldWrite inst .drdRdcmd (r.setWidth 32))
      else if w ≠ 0#8 then some (.fieldWrite inst .dwrWrcmd (w.setWidth 32)) else none
  | .getReadMode inst => some (.fieldRead inst .drdAcctype)
  | .setDummyCycles inst cycles => some (.fieldWrite inst .drdDbw (BitVec.ofNat 32 (cycles / 8)))
  | .umaRead inst dev _ _ _ _ _ => some (.fieldWrite inst .ctsDevNum (BitVec.ofNat 32 dev))
  | .umaWrite inst dev _ _ _ _ _ _ => some (.fieldWrite inst .ctsDevNum (BitVec.ofNat 32 dev))
  | .umaIoctl inst dev _ _ _ _ _ _ _ _ _ _ _ _ => some (.fieldWrite inst .ctsDevNum (BitVec.ofNat 32 dev))
  | .pageWrite inst dev _ _ _ _ _ => some (.fieldWrite inst .ctsDevNum (BitVec.ofNat 32 dev))
  | .selectChip inst dev => some (.fieldWrite inst .ctsDevNum (BitVec.ofNat 32 dev))
  | .setFourByteAddressing inst _ en => some (.fieldWrite inst .drdAddsiz (if en then 1#32 else 0#32))
  | .getFourByteAddressing inst _ => some (.fieldRead inst .drdAddsiz)
  | .selectChipByAddress inst dev addr =>
      if addr.toNat < Config.flashSize inst dev then some (.fieldWrite inst .ctsDevNum (BitVec.ofNat 32 dev))
      else some (.fieldWrite inst .ctsSwCs 1#32)
  | .setProtectionRange inst index start _ _ =>
      if h : index < 16 then some (.fieldWrite inst (.rngStrt ⟨index, h⟩) (start.extractLsb' 14 13 |>.setWidth 32)) else none
  | .setProtectionCommand inst slot code cmd addrBytes addrBits cmdBits =>
      match widthOfBits addrBits, widthOfBits cmdBits with
      | some wa, some wc =>
          if h : slot / 2 < 14 then
            some (.fieldWrite inst (.entry ⟨slot / 2, h⟩ (if slot % 2 = 0 then .a else .b)) (packEntry code cmd addrBytes wa wc))
          else none
      | _, _ => none
  | .configureProtection inst _ _ size _ _ _ _ _ _ handler =>
      some (if handler.isSome then .fieldWrite inst .prtVie 1#32 else .fieldWrite inst .prtDevsiz (BitVec.ofNat 32 (devsiz size)))
  | .getViolationStatus inst _ => some (.fieldRead inst .stsViol)
  | _ => none

/-- The handler that the first step of a request registers, and in which instance (60_exceptions.md R290). -/
def registersHandler (i : Instr) : Option (Nat × Nat) :=
  match i with
  | .configureProtection inst _ _ _ _ _ _ _ _ _ (some h) => some (inst, h)
  | _ => none

/-- A request whose rule has one step after validation. -/
def isOneStep (i : Instr) : Bool :=
  match i with
  | .configureCommand _ r w => r == 0#8 || w == 0#8
  | .setDummyCycles _ _ | .selectChip _ _ | .getFourByteAddressing _ _ | .setProtectionCommand _ _ _ _ _ _ _ => true
  | .selectChipByAddress inst dev addr => !(addr.toNat < Config.flashSize inst dev)
  | .getViolationStatus _ clear => !clear
  | _ => false

/-! ### Requests with the engine stepping between -/

/-- `n` steps of instruction `i` of instance `inst`, the engine of the instance completing its transaction before each step
that finds it busy. One of the interleavings of 20_memory.md R88. -/
def execPrompt (n : Nat) (inst : Nat) (i : Instr) (s : State) : Out :=
  match n with
  | 0 => .next s
  | n + 1 =>
    match (if (s.fiu inst).busy then exec (.engineComplete inst) s else .next s) with
    | .next u =>
      match exec i u with
      | .next t => execPrompt n inst i t
      | o => o
    | o => o

/-! ### Frames -/

/-- The instance with `IN_HANDLER` set to `x`. -/
def Fiu.withInHandler (b : Fiu) (x : Bool) : Fiu := { b with inHandler := x }

/-- Every register but `r` keeps its word. -/
abbrev Fiu.SameButReg (r : Reg) (b c : Fiu) : Prop := ∀ q, q ≠ r → c.rd q = b.rd q

/-- Everything of an instance but its registers is the same. -/
abbrev Fiu.SameHidden (b c : Fiu) : Prop :=
  c.eng = b.eng ∧ c.fourb = b.fourb ∧ c.frame = b.frame ∧ c.wire = b.wire ∧ c.handler = b.handler
    ∧ c.inHandler = b.inHandler ∧ c.sup = b.sup ∧ c.unmodelled = b.unmodelled ∧ c.draws = b.draws

/-- Every instance but `inst` is the same. -/
abbrev State.SameOthers (inst : Nat) (s t : State) : Prop := ∀ k, k ≠ inst → t.fiu k = s.fiu k

/-- What the environment supplies and where the handler stands are the same: an operation of the host that ends changes none
of it. -/
abbrev State.SameEnv (s t : State) : Prop :=
  t.hseq = s.hseq ∧ t.hprog = s.hprog ∧ t.handlerCode = s.handlerCode ∧ t.prog = s.prog ∧ t.sched = s.sched
    ∧ t.otherRead = s.otherRead

/-- The operation of the host ended with result `res` in state `t`. -/
abbrev State.Ended (s t : State) (res : Result) : Prop :=
  t.seq = .idle ∧ t.halted = none ∧ t.result = some res ∧ s.SameEnv t

end Sys2Proof.Machine
end

