-- ==== Sys2Proof/Certificates/Slice0/Obligations.lean ====
section
/-! DEFINITION. The statements for the provers. Where a statement names a numbered rule R<n>, the rule is of spec/. `Ready` says
that the host may begin an operation; `Ended` that it ended with a result (Safety.lean). -/

open Sys2Proof Sys2Proof.Machine

/-! ### The register block (10_state.md sections 2 to 5, 40_register_access.md) -/

/-- R35: a host read of any of the 46 registers (the 46 instructions `Instr.ofReg r` of group REG, `DRD_CFG` to
`PRT_RANGE15`) completes, ends with the stored word, whose reserved bits are 0, and changes no register and nothing else but
the draw counter and the bus trace; only the word read from `UMA_DR0..3` while the engine is busy is left open. -/
def Obligations.RegisterReadHasNoSideEffect : Prop :=
  ∀ (s : State) (r : Reg) (inst : Nat), s.Ready → inst < Config.nFiu → (s.fiu inst).ReservedZero →
    ∃ t w, exec (Instr.ofReg r .host inst .read) s = .next t ∧ s.Ended t (.word w)
      ∧ ((s.fiu inst).eng = .idle ∨ (∀ k, r ≠ .umaDr k) → w = (s.fiu inst).rd r ∧ t.fiu inst = s.fiu inst)
      ∧ w &&& ~~~(regMask r) = 0#32
      ∧ (∃ d, t.fiu inst = { s.fiu inst with draws := d })
      ∧ s.SameOthers inst t ∧ t.trace = s.trace ++ [⟨inst, false, r, w⟩]

/-- R42: a host write of `DRD_CFG`, `DWR_CFG`, and, with the engine idle, of `UMA_CFG`, `UMA_CMD`, `UMA_ADDR`, `UMA_DW0..3`
completes and stores the written value in every field, whatever the locks; reserved bits stay 0 and nothing else changes. -/
def Obligations.PlainRegisterWriteStores : Prop :=
  ∀ (s : State) (r : Reg) (inst : Nat) (v : Word), s.Ready → inst < Config.nFiu →
    (r = .drdCfg ∨ r = .dwrCfg ∨ (s.fiu inst).eng = .idle ∧
      (r = .umaCfg ∨ r = .umaCmd ∨ r = .umaAddr ∨ ∃ k, r = .umaDw k)) →
    ∃ t, exec (Instr.ofReg r .host inst (.write v)) s = .next t ∧ s.Ended t .done
      ∧ (∀ f, fieldReg f = r → getField f ((t.fiu inst).rd r) = getField f v)
      ∧ (t.fiu inst).rd r &&& ~~~(regMask r) = 0#32
      ∧ (s.fiu inst).SameButReg r (t.fiu inst) ∧ (s.fiu inst).SameHidden (t.fiu inst)
      ∧ s.SameOthers inst t ∧ t.trace = s.trace ++ [⟨inst, true, r, v⟩]

/-- R25: a host write of `UMA_DR0..3` completes and changes nothing of the block. -/
def Obligations.ReadDataIgnoresWrites : Prop :=
  ∀ (s : State) (k : Fin 4) (inst : Nat) (v : Word), s.Ready → inst < Config.nFiu →
    ∃ t, exec (Instr.ofReg (.umaDr k) .host inst (.write v)) s = .next t ∧ s.Ended t .done ∧ t.fius = s.fius
      ∧ t.trace = s.trace ++ [⟨inst, true, .umaDr k, v⟩]

/-- R34 with the frame consequence of R57 and the ready request of R53 and R293: a host write of `UMA_CTS` to an idle engine
completes; `DEV_NUM`, `SW_CS` and `RDYIE` take the written values, `RDYST` is cleared by a 1, the ready interrupt request is up
exactly where `RDYST` and `RDYIE` are then both 1, and with `EXEC_DONE = 0` nothing is triggered. -/
def Obligations.ControlWriteWhileIdle : Prop :=
  ∀ (s : State) (inst : Nat) (v : Word), s.Ready → inst < Config.nFiu → (s.fiu inst).eng = .idle →
    ∃ t, exec (.umaCts .host inst (.write v)) s = .next t ∧ s.Ended t .done
      ∧ s.SameOthers inst t ∧ t.trace = s.trace ++ [⟨inst, true, .umaCts, v⟩]
      ∧ (s.fiu inst).SameButReg .umaCts (t.fiu inst)
      ∧ (t.fiu inst).get .ctsDevNum = getField .ctsDevNum v
      ∧ (t.fiu inst).get .ctsSwCs = getField .ctsSwCs v
      ∧ (t.fiu inst).get .ctsRdyie = getField .ctsRdyie v
      ∧ (t.fiu inst).bit .ctsRdyst = ((s.fiu inst).bit .ctsRdyst && !(flag .ctsRdyst v))
      ∧ (t.fiu inst).irqRdy = ((s.fiu inst).bit .ctsRdyst && !(flag .ctsRdyst v) && flag .ctsRdyie v)
      ∧ (heldDev ((t.fiu inst).rd .umaCts) = heldDev ((s.fiu inst).rd .umaCts) → (t.fiu inst).frame = (s.fiu inst).frame)
      ∧ (heldDev ((t.fiu inst).rd .umaCts) ≠ heldDev ((s.fiu inst).rd .umaCts) →
          (heldDev ((t.fiu inst).rd .umaCts) = none → (t.fiu inst).frame = .closed)
          ∧ ∀ d, heldDev ((t.fiu inst).rd .umaCts) = some d → (t.fiu inst).frame = .opened d none)
      ∧ (flag .ctsExecDone v = false →
          (t.fiu inst).eng = .idle ∧ (t.fiu inst).get .ctsExecDone = (s.fiu inst).get .ctsExecDone
            ∧ (t.fiu inst).unmodelled = (s.fiu inst).unmodelled)
      ∧ (t.fiu inst).fourb = (s.fiu inst).fourb ∧ (t.fiu inst).handler = (s.fiu inst).handler
      ∧ (t.fiu inst).inHandler = (s.fiu inst).inHandler ∧ (t.fiu inst).sup = (s.fiu inst).sup
      ∧ (t.fiu inst).draws = (s.fiu inst).draws

/-- R48, R106, R57, R294: a host write of `UMA_CTS` with `EXEC_DONE = 1` to an idle engine latches the descriptor with the
`DEV_NUM` and `SW_CS` just written, sets `EXEC_DONE` and starts the engine, where the ten fields of `UMA_CFG` are legal and no
chip select is forced active; an illegal field gives the mark `IllegalUmaCfg`, else a forced-active chip select gives the mark
`ForcedActiveCs`, and the engine stays idle. That all of it is latched at the trigger is the spec's own decision D10, and that a
forced-active chip select stops the trigger its decision D19. -/
def Obligations.TriggerLatchesDescriptor : Prop :=
  ∀ (s : State) (inst : Nat) (v : Word), s.Ready → inst < Config.nFiu → (s.fiu inst).eng = .idle →
    flag .ctsExecDone v = true →
    ∃ t, exec (.umaCts .host inst (.write v)) s = .next t ∧ s.Ended t .done ∧
      let l := descrOf (s.fiu inst) (getField .ctsDevNum v).toNat (!(flag .ctsSwCs v))
      (LegalDescr l → ¬ (∃ k < 2, csForced ((s.fiu inst).rd .prtCfg) k = some false) →
        (t.fiu inst).eng = .busy l false ∧ (t.fiu inst).bit .ctsExecDone = true
          ∧ (t.fiu inst).unmodelled = (s.fiu inst).unmodelled)
      ∧ (¬ LegalDescr l → (t.fiu inst).unmodelled = some .illegalUmaCfg ∧ (t.fiu inst).eng = .idle)
      ∧ (LegalDescr l → (∃ k < 2, csForced ((s.fiu inst).rd .prtCfg) k = some false) →
          (t.fiu inst).unmodelled = some .forcedActiveCs ∧ (t.fiu inst).eng = .idle)

/-- R36 (a), (b) with the frame consequence of R57: while the engine is busy a host write of a transaction register sets the mark
`BusyWrite` and changes nothing else; a write of `UMA_CTS` is accepted, never triggers and never clears `EXEC_DONE`, the frame
follows the chip select that software holds, and the transaction is disturbed exactly when the chip select of its device changes
level. -/
def Obligations.WritesWhileBusy : Prop :=
  ∀ (s : State) (inst : Nat) (v : Word) (l : Descr) (dist : Bool), s.Ready → inst < Config.nFiu →
    (s.fiu inst).eng = .busy l dist →
    (∀ r, (r = .umaCfg ∨ r = .umaCmd ∨ r = .umaAddr ∨ ∃ k, r = .umaDw k) →
      ∃ t, exec (Instr.ofReg r .host inst (.write v)) s = .next t ∧ s.Ended t .done
        ∧ t.fiu inst = { s.fiu inst with unmodelled := some .busyWrite } ∧ s.SameOthers inst t)
    ∧ ∃ t, exec (.umaCts .host inst (.write v)) s = .next t ∧ s.Ended t .done ∧ s.SameOthers inst t
        ∧ (s.fiu inst).SameButReg .umaCts (t.fiu inst)
        ∧ (t.fiu inst).get .ctsDevNum = getField .ctsDevNum v
        ∧ (t.fiu inst).get .ctsSwCs = getField .ctsSwCs v
        ∧ (t.fiu inst).get .ctsRdyie = getField .ctsRdyie v
        ∧ (t.fiu inst).bit .ctsRdyst = ((s.fiu inst).bit .ctsRdyst && !(flag .ctsRdyst v))
        ∧ (t.fiu inst).get .ctsExecDone = (s.fiu inst).get .ctsExecDone
        ∧ (t.fiu inst).eng =
            .busy l (dist || csRaw ((t.fiu inst).rd .umaCts) l.dev != csRaw ((s.fiu inst).rd .umaCts) l.dev)
        ∧ (heldDev ((t.fiu inst).rd .umaCts) = heldDev ((s.fiu inst).rd .umaCts) → (t.fiu inst).frame = (s.fiu inst).frame)
        ∧ (heldDev ((t.fiu inst).rd .umaCts) ≠ heldDev ((s.fiu inst).rd .umaCts) →
            (heldDev ((t.fiu inst).rd .umaCts) = none → (t.fiu inst).frame = .closed)
            ∧ ∀ d, heldDev ((t.fiu inst).rd .umaCts) = some d → (t.fiu inst).frame = .opened d none)
        ∧ (t.fiu inst).unmodelled = (s.fiu inst).unmodelled

/-- R57, R51: a host write of `UMA_CTS` or `PRT_CFG` logs one event for each chip-select pin whose level it changes and no
other event: `CsLow` for a fall, `CsHigh` for a rise. -/
def Obligations.PinChangesAreLogged : Prop :=
  ∀ (s : State) (r : Reg) (inst : Nat) (v : Word), s.Ready → inst < Config.nFiu → r = .umaCts ∨ r = .prtCfg →
    ∃ t ev, exec (Instr.ofReg r .host inst (.write v)) s = .next t
      ∧ (t.fiu inst).wire = (s.fiu inst).wire ++ ev ∧ ev.Nodup
      ∧ ∀ e, e ∈ ev ↔ ∃ d < 4,
          (e = .csLow d ∧ csPin ((s.fiu inst).rd .prtCfg) ((s.fiu inst).rd .umaCts) d = true
            ∧ csPin ((t.fiu inst).rd .prtCfg) ((t.fiu inst).rd .umaCts) d = false)
          ∨ (e = .csHigh d ∧ csPin ((s.fiu inst).rd .prtCfg) ((s.fiu inst).rd .umaCts) d = false
            ∧ csPin ((t.fiu inst).rd .prtCfg) ((t.fiu inst).rd .umaCts) d = true)

/-- R229: the level of chip select `d` outside the engine step, from the fields: forced where `d < 2` and `FCS_EN[d] = 1`,
else low exactly where `SW_CS = 0` and `DEV_NUM = d`. -/
def Obligations.ChipSelectMultiplexer : Prop :=
  ∀ (prt cts : Word) (d : Nat), d < 4 →
    csPin prt cts d =
      if d < 2 ∧ (getField .prtFcsEn prt).getLsbD d = true then (getField .prtFcsVal prt).getLsbD d
      else !(decide (getField .ctsSwCs cts = 0#32) && decide (getField .ctsDevNum cts = BitVec.ofNat 32 d))

/-- R37: a host write of `PRT_CFG` completes; locked, it changes no field; else the force fields of a chip select with
`FCS_LCK[k] = 1` keep their values and every other field takes its value in `v`. That the lock freezes exactly these three force
fields is the spec's own reading, decision D17. -/
def Obligations.ProtectionConfigWriteFilter : Prop :=
  ∀ (s : State) (inst : Nat) (v : Word), s.Ready → inst < Config.nFiu →
    ∃ t, exec (.prtCfg .host inst (.write v)) s = .next t ∧ s.Ended t .done ∧ s.SameOthers inst t
      ∧ t.trace = s.trace ++ [⟨inst, true, .prtCfg, v⟩]
      ∧ ((s.fiu inst).bit .prtLck = true → t.fiu inst = s.fiu inst)
      ∧ ((s.fiu inst).bit .prtLck = false →
          (∀ k < 2, ∀ f, f = .prtFcsLck ∨ f = .prtFcsEn ∨ f = .prtFcsVal →
            ((t.fiu inst).get f).getLsbD k =
              if ((s.fiu inst).get .prtFcsLck).getLsbD k = true then ((s.fiu inst).get f).getLsbD k
              else (getField f v).getLsbD k)
          ∧ (∀ f, f = .prtLck ∨ f = .prtPen ∨ f = .prtVie ∨ f = .prtIo2f ∨ f = .prtDevsiz ∨ f = .prtOcalwd →
              (t.fiu inst).get f = getField f v))
      ∧ (s.fiu inst).SameButReg .prtCfg (t.fiu inst)
      ∧ (∃ ev, t.fiu inst = { s.fiu inst with regs := (t.fiu inst).regs, wire := (s.fiu inst).wire ++ ev })

/-- R38: a host write of `PRT_RANGE(n)` completes; it is ignored where `PRT_CFG.LCK = 1` or `RLCK = 1`, else all four fields
take the written values. The filter is the spec's own decision D17. -/
def Obligations.RangeWriteFilter : Prop :=
  ∀ (s : State) (inst : Nat) (n : Fin 16) (v : Word), s.Ready → inst < Config.nFiu →
    ∃ t, exec (Instr.ofReg (.prtRange n) .host inst (.write v)) s = .next t ∧ s.Ended t .done ∧ s.SameOthers inst t
      ∧ t.trace = s.trace ++ [⟨inst, true, .prtRange n, v⟩]
      ∧ ((s.fiu inst).bit .prtLck = true ∨ (s.fiu inst).bit (.rngRlck n) = true → t.fiu inst = s.fiu inst)
      ∧ ((s.fiu inst).bit .prtLck = false → (s.fiu inst).bit (.rngRlck n) = false →
          ∀ f, fieldReg f = .prtRange n → (t.fiu inst).get f = getField f v)
      ∧ (s.fiu inst).SameButReg (.prtRange n) (t.fiu inst) ∧ (s.fiu inst).SameHidden (t.fiu inst)

/-- R39: a host write of `PRT_CMD(n)` completes; it is ignored where `PRT_CFG.LCK = 1`, else both entries take the written
values. That the lock covers the command entries is derived by the spec, decision D17. -/
def Obligations.WhitelistWriteFilter : Prop :=
  ∀ (s : State) (inst : Nat) (n : Fin 14) (v : Word), s.Ready → inst < Config.nFiu →
    ∃ t, exec (Instr.ofReg (.prtCmd n) .host inst (.write v)) s = .next t ∧ s.Ended t .done ∧ s.SameOthers inst t
      ∧ t.trace = s.trace ++ [⟨inst, true, .prtCmd n, v⟩]
      ∧ ((s.fiu inst).bit .prtLck = true → t.fiu inst = s.fiu inst)
      ∧ ((s.fiu inst).bit .prtLck = false → ∀ f, fieldReg f = .prtCmd n → (t.fiu inst).get f = getField f v)
      ∧ (s.fiu inst).SameButReg (.prtCmd n) (t.fiu inst) ∧ (s.fiu inst).SameHidden (t.fiu inst)

/-- R40, R289: a host write of `PRT_STS` completes in every lock state: `VIOL` is cleared by a 1 and kept by a 0, and where
it becomes 0 the violation interrupt request is withdrawn. -/
def Obligations.ViolationStatusWrite : Prop :=
  ∀ (s : State) (inst : Nat) (v : Word), s.Ready → inst < Config.nFiu →
    ∃ t, exec (.prtSts .host inst (.write v)) s = .next t ∧ s.Ended t .done ∧ s.SameOthers inst t
      ∧ t.trace = s.trace ++ [⟨inst, true, .prtSts, v⟩]
      ∧ (t.fiu inst).bit .stsViol = ((s.fiu inst).bit .stsViol && !(flag .stsViol v))
      ∧ (flag .stsViol v = true → (t.fiu inst).irqViol = false)
      ∧ (s.fiu inst).SameButReg .prtSts (t.fiu inst) ∧ (s.fiu inst).SameHidden (t.fiu inst)

/-- R95: another bus master's access to any register completes, also while the host is halted, inside a request or in a violation
handler; it leaves every instance as the host's own access, outside a handler, leaves it from the same instances, and touches
neither the sequencer nor the host's bus trace nor the host's result. That another master acts at any of these times and stays out
of the host's trace is read by inference: log entry 15. -/
def Obligations.OtherMastersFollowTheSameRules : Prop :=
  ∀ (s h : State) (r : Reg) (inst : Nat) (a : Access), s.mark? = none → inst < Config.nFiu → h.Ready →
    (∀ k, h.fiu k = (s.fiu k).withInHandler false) →
    ∃ t u, exec (Instr.ofReg r .other inst a) s = .next t ∧ exec (Instr.ofReg r .host inst a) h = .next u
      ∧ (∀ k, t.fiu k = (u.fiu k).withInHandler (s.fiu k).inHandler) ∧ (a = .read → ∃ w, t.otherRead = some w ∧ u.result = some (.word w))
      ∧ t = { s with fius := t.fius, otherRead := t.otherRead }

/-- R116, R74, R81, R85: `REG_READ` and `REG_WRITE` complete, by the host and by another master (R95): an aligned word access at a
register's offset is the access to that register; any other width or alignment sets the mark `NarrowRegisterAccess`; an aligned
word access where no register stands sets the mark `UnmappedOffset`. The bus address of a register is that of no other register of
any instance: where the blocks start and how long they are is log entry 25. The offsets are the replaceable defaults of log entry 9;
which mark an access that is both misaligned and unmapped sets is log entry 11, and that a marking access is not in the host's bus
trace log entry 24. -/
def Obligations.RawAccessByOffset : Prop :=
  ∀ (inst : Nat), inst < Config.nFiu →
    (∀ r, regAtAddress (busAddress inst (regOffset r)) = some (inst, r))
    ∧ ∀ (s : State) (m : Master) (offset : Nat) (sz : AccessSize) (v : Word), s.mark? = none → (m = .host → s.Ready) →
      ∃ t u, exec (.regRead m inst offset sz) s = .next t ∧ exec (.regWrite m inst offset sz v) s = .next u
        ∧ (∀ r, sz = .word → offset = regOffset r →
            exec (Instr.ofReg r m inst .read) s = .next t ∧ exec (Instr.ofReg r m inst (.write v)) s = .next u)
        ∧ (sz ≠ .word ∨ offset % 4 ≠ 0 →
            t.fiu inst = { s.fiu inst with unmodelled := some .narrowRegisterAccess } ∧ u = t ∧ t.trace = s.trace)
        ∧ (sz = .word → offset % 4 = 0 → (∀ r, offset ≠ regOffset r) →
            t.fiu inst = { s.fiu inst with unmodelled := some .unmappedOffset } ∧ u = t ∧ t.trace = s.trace)
        ∧ s.SameOthers inst t ∧ s.SameOthers inst u

/-- R142: `FIELD_READ` completes with the field of the word it reads, moved to bit 0; one bus read, and nothing else changes but
the draw counter. The word read is the stored one, save from `UMA_DR0..3` while the engine is busy. -/
def Obligations.FieldReadExtracts : Prop :=
  ∀ (s : State) (inst : Nat) (f : Field), s.Ready → inst < Config.nFiu →
    ∃ (t : State) (w : Word), exec (.fieldRead inst f) s = .next t
      ∧ s.Ended t (.word ((w >>> fieldLo f) &&& BitVec.ofNat 32 (2 ^ fieldWidth f - 1)))
      ∧ ((s.fiu inst).eng = .idle ∨ (∀ k, fieldReg f ≠ .umaDr k) → w = (s.fiu inst).rd (fieldReg f) ∧ t.fius = s.fius)
      ∧ (∃ d, t.fiu inst = { s.fiu inst with draws := d }) ∧ s.SameOthers inst t
      ∧ t.trace = s.trace ++ [⟨inst, false, fieldReg f, w⟩]

/-- R143, R144, R147: `FIELD_WRITE` completes in one step: it leaves every instance as a write of the word it read, with the field
replaced by `v` truncated to the field's width, leaves it; the trace grows by one read and one write. On `UMA_DR0..3` the write is
ignored. On a field of a locked protection register it counts two bus accesses and changes nothing of the block. -/
def Obligations.FieldWriteIsReadModifyWrite : Prop :=
  ∀ (s : State) (inst : Nat) (f : Field) (v : Word), s.Ready → inst < Config.nFiu →
    (∀ new : Word, (s.fiu inst).eng = .idle ∨ (∀ k, fieldReg f ≠ .umaDr k) →
      (∀ j < 32, new.getLsbD j =
        if fieldLo f ≤ j ∧ j < fieldLo f + fieldWidth f then v.getLsbD (j - fieldLo f)
        else ((s.fiu inst).rd (fieldReg f)).getLsbD j) →
      ∃ t u, exec (.fieldWrite inst f v) s = .next t
        ∧ exec (Instr.ofReg (fieldReg f) .host inst (.write new)) s = .next u
        ∧ s.Ended t .done ∧ t.fius = u.fius
        ∧ t.trace = s.trace ++ [⟨inst, false, fieldReg f, (s.fiu inst).rd (fieldReg f)⟩, ⟨inst, true, fieldReg f, new⟩])
    ∧ (∀ k, fieldReg f = .umaDr k → ∃ t, exec (.fieldWrite inst f v) s = .next t ∧ s.Ended t .done
        ∧ (∃ d, t.fiu inst = { s.fiu inst with draws := d }) ∧ s.SameOthers inst t ∧ t.trace.length = s.trace.length + 2)
    ∧ ((s.fiu inst).bit .prtLck = true →
        (fieldReg f = .prtCfg ∨ (∃ n, fieldReg f = .prtRange n) ∨ ∃ n, fieldReg f = .prtCmd n) →
        ∃ t, exec (.fieldWrite inst f v) s = .next t ∧ s.Ended t .done ∧ t.fius = s.fius
          ∧ t.trace.length = s.trace.length + 2)

/-- R145, R146: a `FIELD_WRITE` to a field of `UMA_CTS` other than `RDYST` leaves `RDYST` 0; on an idle engine one to a field
other than `EXEC_DONE` triggers nothing, and while the engine is busy none triggers, ends or re-latches the transaction. -/
def Obligations.ControlFieldWriteHazards : Prop :=
  ∀ (s : State) (inst : Nat) (f : Field) (v : Word), s.Ready → inst < Config.nFiu → (s.fiu inst).DoneBit →
    fieldReg f = .umaCts →
    ∃ t, exec (.fieldWrite inst f v) s = .next t
      ∧ (f ≠ .ctsRdyst → (t.fiu inst).bit .ctsRdyst = false)
      ∧ ((s.fiu inst).eng = .idle → f ≠ .ctsExecDone →
          (t.fiu inst).eng = .idle ∧ (t.fiu inst).bit .ctsExecDone = false)
      ∧ (∀ l dist, (s.fiu inst).eng = .busy l dist → (∃ dist', (t.fiu inst).eng = .busy l dist')
          ∧ (t.fiu inst).bit .ctsExecDone = true)

/-! ### The model's records and the machine's step -/

/-- The decoder reads back what the encoder writes, for every well-formed instruction and whatever follows it. The record layout
is the model's own (log entry 2). -/
def Obligations.DecodeOfEncode : Prop :=
  ∀ (i : Instr) (rest : List Byte), i.WellFormed = true → decode (encode i ++ rest) = .ok (i, rest)

/-- Request ids and register offsets of the opcode table are read as the instructions they stand for (R114, R84); the low 12 bits
of a register's word select it (R120). The record layout is the model's own (log entry 2). -/
def Obligations.TableWordsDecode : Prop :=
  decodeTableWord 8 0x02 = some (.getReadMode 0) ∧ decodeTableWord 8 0x10 = some (.waitReady 0 0#32)
    ∧ decodeTableWord 16 0x00C = some (.umaCts .host 0 .read) ∧ decodeTableWord 16 0x0BC = some (.prtRange15 .host 0 .read)
    ∧ decodeTableWord 16 0x100C = some (.umaCts .host 0 .read)
    ∧ decodeRecord [3, 0, 2, 0] = .ok (.engineComplete 2) ∧ decodeRecord [2, 0, 1, 0, 1, 0x34, 0, 0] = .ok (.regRead .other 1 0x34 .word)

/-- A turn of the host runs the decoded next operation, or the operation the host is inside, of the request or of the violation
handler; the turn and the record are used up. The program, the schedule and the records are the model's choice, log entry 3, and so
is the handler's return as a turn of `IRQ_DELIVER`, log entry 8. -/
def Obligations.HostTurnRunsTheDecodedInstruction : Prop :=
  ∀ (s : State) (rest : List Turn), s.sched = .host :: rest ∨ s.sched = [] ∧ rest = [] → s.mark? = none →
    s.halted = none →
    (∀ i record more, decodeRecord record = .ok i → isHostInstr i = true → s.handling = none → s.seq = .idle →
      s.prog = record :: more → step s = exec i { s with sched := rest, prog := more })
    ∧ (∀ i p, s.handling = none → s.seq = .run i p → step s = exec i { s with sched := rest })
    ∧ (∀ i j record more, decodeRecord record = .ok i → isHostInstr i = true → s.handling = some j → s.hseq = .idle →
      s.hprog = record :: more → step s = exec i { s with sched := rest, hprog := more })
    ∧ (∀ i j p, s.handling = some j → s.hseq = .run i p → step s = exec i { s with sched := rest })
    ∧ (∀ j, s.handling = some j → s.hseq = .idle → s.hprog = [] → step s = exec (.irqDeliver j) { s with sched := rest })
    ∧ (s.handling = none → s.seq = .idle → s.prog = [] → step s = .next { s with sched := rest })

/-- A turn of another agent runs the decoded step where it is enabled and is passed over where it is not. Turns, records and the
passing over are the model's choice, log entry 3. -/
def Obligations.AgentTurnRunsTheDecodedStep : Prop :=
  ∀ (s : State) (rest : List Turn) (record : List Byte) (i : Instr), s.sched = .agent record :: rest →
    decodeRecord record = .ok i → isHostInstr i = false →
    (∀ t, exec i { s with sched := rest } = .next t → step s = .next t)
    ∧ (∀ e, exec i { s with sched := rest } = .fault e → step s = .fault e)
    ∧ (exec i { s with sched := rest } = .refused .notEnabled → step s = .next { s with sched := rest })

/-! ### Reset (70_reset_and_hazards.md) -/

/-- R311: the state after reset, in every instance. -/
def Obligations.ResetState : Prop :=
  State.reset.seq = .idle ∧ ∀ k < Config.nFiu,
    let b := State.reset.fiu k
    b.bit .prtPen = false ∧ b.bit .prtLck = false ∧ b.get .prtFcsLck = 0#32 ∧ (∀ n, b.bit (.rngRlck n) = false)
      ∧ b.bit .stsViol = false ∧ b.bit .prtVie = false ∧ b.bit .ctsRdyie = false ∧ b.handler = none
      ∧ b.eng = .idle ∧ b.bit .ctsExecDone = false ∧ b.bit .ctsSwCs = true ∧ b.get .ctsDevNum = 0#32
      ∧ b.get .prtFcsEn = 0#32 ∧ (∀ d < 4, csPin (b.rd .prtCfg) (b.rd .umaCts) d = true)
      ∧ modeOfPair (b.get .drdAcctype) (b.get .drdDbw) = some .normal
      ∧ b.get .drdAddsiz = 0#32 ∧ b.get .dwrAddsiz = 0#32 ∧ (∀ d < 4, b.fourbOf d = false)

/-- R310 with R60, R61, R58: `RESET` completes in every state, past a mark and while halted too: every field takes its reset
value where the table has one, the hidden state is cleared, the wire log goes on with the abandoned transaction, the chip
selects that were low and the marker, and the mark is kept. The values of `ACCTYPE` and `DBW` are those of `NORMAL` under the
replaceable default of R112, log entry 9. That the trace and the last result are kept is log entry 21; that the program, the
schedule and the handlers' code are kept is log entry 26, and that the rest of a running handler is dropped log entry 8. -/
def Obligations.ResetStep : Prop :=
  ∀ s : State, ∃ t, exec .reset s = .next t ∧ t.seq = .idle ∧ t.halted = none ∧ t.hseq = .idle ∧ t.hprog = []
    ∧ t.trace = s.trace ∧ t.prog = s.prog ∧ t.sched = s.sched ∧ t.handlerCode = s.handlerCode ∧ t.result = s.result
    ∧ ∀ k < Config.nFiu,
      (t.fiu k).eng = .idle ∧ (∀ d, (t.fiu k).fourbOf d = false) ∧ (t.fiu k).frame = .closed ∧ (t.fiu k).handler = none
        ∧ (t.fiu k).inHandler = false ∧ (t.fiu k).sup = .off ∧ (t.fiu k).unmodelled = (s.fiu k).unmodelled
        ∧ (t.fiu k).rd .prtCfg = 0#32 ∧ (t.fiu k).rd .prtSts = 0#32 ∧ (∀ n, (t.fiu k).rd (.prtRange n) = 0#32)
        ∧ (∀ n, (t.fiu k).rd (.prtCmd n) = 0#32)
        ∧ (t.fiu k).get .ctsSwCs = 1#32
        ∧ (∀ f, f = .ctsExecDone ∨ f = .ctsDevNum ∨ f = .ctsRdyst ∨ f = .ctsRdyie ∨ f = .drdAcctype ∨ f = .drdDbw
            ∨ f = .drdAddsiz ∨ f = .dwrAddsiz → (t.fiu k).get f = 0#32)
        ∧ ∃ hi : List WireEvent, hi.Nodup
            ∧ (∀ e, e ∈ hi ↔ ∃ d < 4, e = .csHigh d ∧ csPin ((s.fiu k).rd .prtCfg) ((s.fiu k).rd .umaCts) d = false)
            ∧ ((s.fiu k).eng = .idle → (t.fiu k).wire = (s.fiu k).wire ++ hi ++ [.reset])
            ∧ (∀ l dist, (s.fiu k).eng = .busy l dist → (t.fiu k).wire = (s.fiu k).wire ++ [.disturbed l] ++ hi ++ [.reset])

/-! ### Invariants -/

/-- The reset state has the invariant. -/
def Obligations.ResetInvariant : Prop := State.reset.Inv

/-- Every step of the machine keeps, in every instance: reserved bits 0 (R41), `EXEC_DONE = 1` exactly while a transaction runs
(R43), the frame open exactly for the chip select software holds (R50, R57), and a latched transaction legal, its chip select
standing where it stood at the trigger until the transaction is disturbed (R48, R106, R36). -/
def Obligations.StepKeepsInvariant : Prop := ∀ s t : State, s.Inv → step s = .next t → t.Inv

/-- R43, R172: no step but `ENGINE_COMPLETE` and `RESET` ends a running transaction or latches another in its place. -/
def Obligations.NoAbortInFlight : Prop :=
  ∀ (s t : State) (i : Instr) (inst : Nat) (l : Descr) (dist : Bool), inst < Config.nFiu → exec i s = .next t →
    (s.fiu inst).eng = .busy l dist → i ≠ .engineComplete inst → i ≠ .reset → ∃ dist', (t.fiu inst).eng = .busy l dist'

/-- R296, R37, R38, R39: on a locked instance every step but `RESET` leaves `PRT_CFG`, every `PRT_RANGE(n)` and every `PRT_CMD(n)`
as they are; a range with `RLCK = 1` and a chip select's force fields with `FCS_LCK[k] = 1` are kept on an unlocked one. -/
def Obligations.LocksAreOneWay : Prop :=
  ∀ (s t : State) (i : Instr) (inst : Nat), inst < Config.nFiu → exec i s = .next t → i ≠ .reset →
    ((s.fiu inst).bit .prtLck = true →
      (t.fiu inst).rd .prtCfg = (s.fiu inst).rd .prtCfg ∧ (∀ n, (t.fiu inst).rd (.prtRange n) = (s.fiu inst).rd (.prtRange n))
        ∧ ∀ n, (t.fiu inst).rd (.prtCmd n) = (s.fiu inst).rd (.prtCmd n))
    ∧ (∀ n, (s.fiu inst).bit (.rngRlck n) = true → (t.fiu inst).rd (.prtRange n) = (s.fiu inst).rd (.prtRange n))
    ∧ (∀ k < 2, ((s.fiu inst).get .prtFcsLck).getLsbD k = true →
        ∀ f, f = .prtFcsLck ∨ f = .prtFcsEn ∨ f = .prtFcsVal →
          ((t.fiu inst).get f).getLsbD k = ((s.fiu inst).get f).getLsbD k)

/-- R152: among the requests only `configure_direct` and `set_dummy_cycles` change the read mode: a step of any other request, of
the engine or of the interrupt delivery leaves `ACCTYPE` and `DBW` of every instance. -/
def Obligations.ReadModeChangers : Prop :=
  ∀ (s t : State) (i : Instr) (k : Nat), exec i s = .next t → k < Config.nFiu →
    ((∃ inst r w, i = .configureCommand inst r w) ∨ (∃ inst, i = .getReadMode inst)
      ∨ (∃ inst dev c a ap n tm, i = .umaRead inst dev c a ap n tm) ∨ (∃ inst dev c a ap n tm d, i = .umaWrite inst dev c a ap n tm d)
      ∨ (∃ inst dev c a z rs ws cb ab wb rb tm du buf, i = .umaIoctl inst dev c a z rs ws cb ab wb rb tm du buf)
      ∨ (∃ inst dev c a n tm d, i = .pageWrite inst dev c a n tm d) ∨ (∃ inst dev, i = .selectChip inst dev)
      ∨ (∃ inst dev en, i = .setFourByteAddressing inst dev en) ∨ (∃ inst dev, i = .getFourByteAddressing inst dev)
      ∨ (∃ inst dev a, i = .selectChipByAddress inst dev a) ∨ (∃ inst n a z m, i = .setProtectionRange inst n a z m)
      ∨ (∃ inst n c b x y z, i = .setProtectionCommand inst n c b x y z)
      ∨ (∃ inst l e z a b c d x y h, i = .configureProtection inst l e z a b c d x y h)
      ∨ (∃ inst c, i = .getViolationStatus inst c) ∨ (∃ inst tm, i = .waitReady inst tm)
      ∨ (∃ inst, i = .engineComplete inst) ∨ (∃ inst, i = .prtCheck inst) ∨ (∃ inst, i = .poll inst)
      ∨ (∃ inst, i = .irqDeliver inst)) →
    (t.fiu k).get .drdAcctype = (s.fiu k).get .drdAcctype ∧ (t.fiu k).get .drdDbw = (s.fiu k).get .drdDbw

/-- R51: the wire log only grows. -/
def Obligations.WireLogOnlyGrows : Prop :=
  ∀ (s t : State) (k : Nat), step s = .next t → k < Config.nFiu → ∃ ev, (t.fiu k).wire = (s.fiu k).wire ++ ev

/-- R7: a step changes at most one instance, `RESET` apart, and the one it changes is the one the instruction names, or, for an
operation that a violation handler may not perform (R292), the one whose handler runs, which gets the mark `HandlerReentrancy`
(in which instance that mark is set is log entry 8). -/
def Obligations.InstancesAreIndependent : Prop :=
  ∀ (s t : State) (i : Instr), exec i s = .next t → i ≠ .reset →
    ∃ inst, s.SameOthers inst t ∧ (instanceOf i = some inst
      ∨ s.handling = some inst ∧ t = s.setFiu inst { s.fiu inst with unmodelled := some .handlerReentrancy })

/-! ### The transaction engine (42_uma_engine.md) and the enforcer (45_protection.md) -/

/-- R170, R171, R53, R293: `ENGINE_COMPLETE` is enabled exactly while the engine is busy, halted host or not, and then completes: `ENG`
is `Idle`, `EXEC_DONE` 0, `RDYST` 1, the ready interrupt request up exactly where `RDYIE = 1`; only `UMA_CTS`, the read buffer,
`PRT_STS`, the frame, the wire log and the draw counter may change, and the host is told nothing. -/
def Obligations.EngineCompletes : Prop :=
  ∀ (s : State) (inst : Nat), s.mark? = none → inst < Config.nFiu →
    ((s.fiu inst).eng = .idle → exec (.engineComplete inst) s = .refused .notEnabled)
    ∧ ∀ l dist, (s.fiu inst).eng = .busy l dist → ∃ t, exec (.engineComplete inst) s = .next t
        ∧ (t.fiu inst).eng = .idle ∧ (t.fiu inst).bit .ctsExecDone = false ∧ (t.fiu inst).bit .ctsRdyst = true
        ∧ (t.fiu inst).irqRdy = (s.fiu inst).bit .ctsRdyie
        ∧ (∀ f, f = .ctsDevNum ∨ f = .ctsSwCs ∨ f = .ctsRdyie → (t.fiu inst).get f = (s.fiu inst).get f)
        ∧ (∀ r, r ≠ .umaCts → r ≠ .prtSts → (∀ k, r ≠ .umaDr k) → (t.fiu inst).rd r = (s.fiu inst).rd r)
        ∧ (t.fiu inst).fourb = (s.fiu inst).fourb ∧ (t.fiu inst).handler = (s.fiu inst).handler
        ∧ (t.fiu inst).inHandler = (s.fiu inst).inHandler ∧ (t.fiu inst).sup = (s.fiu inst).sup
        ∧ (t.fiu inst).unmodelled = (s.fiu inst).unmodelled
        ∧ s.SameOthers inst t ∧ t = { s with fius := t.fius }

/-- R173 to R176, R230: an allowed transaction is driven: its phases in order, inside a `CsLow`/`CsHigh` pair of its own where
the chip select is not held and not forced, else with no chip-select event; the read bytes are stored in the read buffer,
and are the device's where its chip select is not forced. `PRT_STS` is unchanged. -/
def Obligations.EngineDrivesAllowedTransaction : Prop :=
  ∀ (s : State) (inst : Nat) (l : Descr), s.mark? = none → inst < Config.nFiu → (s.fiu inst).eng = .busy l false →
    (s.fiu inst).latchOk = true → (s.fiu inst).prtCheck cfg.forbidTable l = .allow →
    ∃ t r, exec (.engineComplete inst) s = .next t ∧ r.length = l.rdatsiz
      ∧ (∀ j < l.rdatsiz, (t.fiu inst).readByte j = r.getD j 0#8)
      ∧ (t.fiu inst).rd .prtSts = (s.fiu inst).rd .prtSts
      ∧ (l.held = true ∨ (csForced ((s.fiu inst).rd .prtCfg) l.dev).isSome = true →
          (t.fiu inst).wire = (s.fiu inst).wire ++ phasesOf l r)
      ∧ (l.held = false → csForced ((s.fiu inst).rd .prtCfg) l.dev = none →
          (t.fiu inst).wire = (s.fiu inst).wire ++ [.csLow l.dev] ++ phasesOf l r ++ [.csHigh l.dev])
      ∧ (csForced ((s.fiu inst).rd .prtCfg) l.dev = none →
          ∃ choice, r = (List.range l.rdatsiz).map
            (Config.devByte inst l.dev
              ((s.fiu inst).wire ++ (if l.held then [] else [.csLow l.dev]) ++ phasesOf { l with rdatsiz := 0 } []) choice))

/-- R177, R250, R285, R288: a rejected transaction drives nothing and sets `VIOL`; the violation request rises where `VIE = 1`. -/
def Obligations.EngineRejectsForbiddenTransaction : Prop :=
  ∀ (s : State) (inst : Nat) (l : Descr), s.mark? = none → inst < Config.nFiu → (s.fiu inst).eng = .busy l false →
    (s.fiu inst).prtCheck cfg.forbidTable l = .reject →
    ∃ t, exec (.engineComplete inst) s = .next t ∧ (t.fiu inst).wire = (s.fiu inst).wire
      ∧ (t.fiu inst).bit .stsViol = true ∧ (t.fiu inst).irqViol = (s.fiu inst).bit .prtVie
      ∧ (t.fiu inst).get .ctsSwCs = (s.fiu inst).get .ctsSwCs

/-- R178: a disturbed transaction ends with the event `Disturbed(L)`, no verdict and no violation. -/
def Obligations.EngineEndsDisturbedTransaction : Prop :=
  ∀ (s : State) (inst : Nat) (l : Descr), s.mark? = none → inst < Config.nFiu → (s.fiu inst).eng = .busy l true →
    ∃ t, exec (.engineComplete inst) s = .next t ∧ (t.fiu inst).wire = (s.fiu inst).wire ++ [.disturbed l]
      ∧ (t.fiu inst).rd .prtSts = (s.fiu inst).rd .prtSts ∧ (t.fiu inst).frame = (s.fiu inst).frame

/-- R243 to R246, R248, R251 with the default table of R247: the verdict of `PRT_CHECK` on the latched transaction, and nothing but the
observed verdict changes. The algorithm is the spec's own decision D14; the table is its replaceable default, decision D15 and log
entry 9; `PRT_CHECK` as a step of its own that records the verdict is log entry 13. -/
def Obligations.EnforcerVerdict : Prop :=
  ∀ (s : State) (inst : Nat) (l : Descr) (dist : Bool), s.mark? = none → inst < Config.nFiu →
    (s.fiu inst).eng = .busy l dist →
    ∃ v, exec (.prtCheck inst) s = .next { s with result := some (.verdict v) }
      ∧ ((s.fiu inst).bit .prtPen = false → v = .allow)
      ∧ ((s.fiu inst).bit .prtPen = true → l.cmdsiz = 0 → l.held = true →
          ∀ w, (s.fiu inst).frame = .opened l.dev (some w) → v = w)
      ∧ ((s.fiu inst).bit .prtPen = true → l.cmdsiz = 0 →
          (l.held = false ∨ ∀ w, (s.fiu inst).frame ≠ .opened l.dev (some w)) →
          (v = .allow ↔ (s.fiu inst).bit .prtOcalwd = true))
      ∧ ((s.fiu inst).bit .prtPen = true → l.cmdsiz ≠ 0 → (∀ n, (s.fiu inst).slotField n .entCmd ≠ l.cmd.toNat) →
          (v = .allow ↔ (s.fiu inst).bit .prtOcalwd = true))
      ∧ ((s.fiu inst).bit .prtPen = true → l.cmdsiz ≠ 0 → (∃ n, (s.fiu inst).slotField n .entCmd = l.cmd.toNat) →
          (v = .allow ↔ ∃ n, (s.fiu inst).slotField n .entCmd = l.cmd.toNat ∧ (s.fiu inst).Permits n l))

/-- R249, R243: `ENGINE_COMPLETE` acts on the verdict `PRT_CHECK` gives, and that verdict becomes the verdict of the open frame of a
held transaction; a transaction that is not held leaves the frame. -/
def Obligations.FrameRemembersVerdict : Prop :=
  ∀ (s : State) (inst : Nat) (l : Descr) (v : Verdict), s.mark? = none → inst < Config.nFiu →
    (s.fiu inst).eng = .busy l false → exec (.prtCheck inst) s = .next { s with result := some (.verdict v) } →
    ∃ t, exec (.engineComplete inst) s = .next t
      ∧ (v = .reject → (t.fiu inst).bit .stsViol = true) ∧ (v = .allow → (t.fiu inst).rd .prtSts = (s.fiu inst).rd .prtSts)
      ∧ (l.held = true → frameDev (s.fiu inst).frame = some l.dev → (t.fiu inst).frame = .opened l.dev (some v))
      ∧ (l.held = false → (t.fiu inst).frame = (s.fiu inst).frame)

/-! ### Direct access (41_direct_access.md) -/

/-- R151: `configure_direct` with legal bursts completes in six steps: both `ADDSIZ` fields say whether the size is above 16 MiB,
`ACCTYPE` and `DBW` spell the mode, the burst codes are stored; the command bytes, every other register and everything else of
the instance are unchanged. The spelling is the replaceable default of R112, log entry 9. -/
def Obligations.ConfigureDirect : Prop :=
  ∀ (s : State) (inst size : Nat) (mode : ReadMode) (rb wb : Nat), s.Ready → inst < Config.nFiu → rb ≤ 3 → wb ≤ 3 →
    ∃ t, execN 6 (.configureDirect inst size mode rb wb) s = .next t ∧ s.Ended t (.status .ok) ∧ s.SameOthers inst t
      ∧ (t.fiu inst).get .drdAddsiz = (if 16 * 2 ^ 20 < size then 1#32 else 0#32)
      ∧ (t.fiu inst).get .dwrAddsiz = (if 16 * 2 ^ 20 < size then 1#32 else 0#32)
      ∧ (t.fiu inst).get .drdAcctype = BitVec.ofNat 32 (readModePair mode).1
      ∧ (t.fiu inst).get .drdDbw = BitVec.ofNat 32 (readModePair mode).2
      ∧ (t.fiu inst).get .drdRBurst = BitVec.ofNat 32 rb ∧ (t.fiu inst).get .dwrWBurst = BitVec.ofNat 32 wb
      ∧ (t.fiu inst).get .drdRdcmd = (s.fiu inst).get .drdRdcmd ∧ (t.fiu inst).get .dwrWrcmd = (s.fiu inst).get .dwrWrcmd
      ∧ (∀ q, q ≠ .drdCfg → q ≠ .dwrCfg → (t.fiu inst).rd q = (s.fiu inst).rd q) ∧ (s.fiu inst).SameHidden (t.fiu inst)
      ∧ t.trace.length = s.trace.length + 12

/-- R153: `configure_command` completes: a command byte other than 0 is stored with one read and one write of its register, a 0 leaves
its register alone and unaccessed; no other field and nothing else of the instance changes. -/
def Obligations.ConfigureCommand : Prop :=
  ∀ (s : State) (inst : Nat) (r w : Byte), s.Ready → inst < Config.nFiu →
    ∃ t, execN (if r ≠ 0#8 ∧ w ≠ 0#8 then 2 else 1) (.configureCommand inst r w) s = .next t ∧ s.Ended t (.status .ok)
      ∧ s.SameOthers inst t
      ∧ (r ≠ 0#8 → (t.fiu inst).get .drdRdcmd = r.setWidth 32) ∧ (r = 0#8 → (t.fiu inst).rd .drdCfg = (s.fiu inst).rd .drdCfg)
      ∧ (w ≠ 0#8 → (t.fiu inst).get .dwrWrcmd = w.setWidth 32) ∧ (w = 0#8 → (t.fiu inst).rd .dwrCfg = (s.fiu inst).rd .dwrCfg)
      ∧ (∀ f, f ≠ .drdRdcmd → f ≠ .dwrWrcmd → (t.fiu inst).get f = (s.fiu inst).get f)
      ∧ (s.fiu inst).SameHidden (t.fiu inst)
      ∧ ∃ ev, t.trace = s.trace ++ ev ∧ ev.length = (if r = 0#8 then 0 else 2) + (if w = 0#8 then 0 else 2)
          ∧ ∀ e ∈ ev, e.inst = inst ∧ (e.reg = .drdCfg ∧ r ≠ 0#8 ∨ e.reg = .dwrCfg ∧ w ≠ 0#8)

/-- R154: `set_dummy_cycles` with a multiple of 8 of at most 24 cycles completes: `DBW` is the byte count, nothing else of the
instance changes. -/
def Obligations.SetDummyCycles : Prop :=
  ∀ (s : State) (inst cycles : Nat), s.Ready → inst < Config.nFiu → cycles % 8 = 0 → cycles ≤ 24 →
    ∃ t, exec (.setDummyCycles inst cycles) s = .next t ∧ s.Ended t (.status .ok) ∧ s.SameOthers inst t
      ∧ (t.fiu inst).get .drdDbw = BitVec.ofNat 32 (cycles / 8)
      ∧ (∀ f, f ≠ .drdDbw → (t.fiu inst).get f = (s.fiu inst).get f) ∧ (s.fiu inst).SameHidden (t.fiu inst)

/-- R156: `get_read_mode` completes in two reads with the mode that `ACCTYPE` and `DBW` spell, or `UNDEFINED_MODE` where they spell
none, and changes nothing of the block. The spelling is the replaceable default of R112, log entry 9. -/
def Obligations.GetReadMode : Prop :=
  ∀ (s : State) (inst : Nat), s.Ready → inst < Config.nFiu →
    ∃ t x, execN 2 (.getReadMode inst) s = .next t ∧ s.Ended t (.mode x) ∧ t.fius = s.fius
      ∧ t.trace.length = s.trace.length + 2
      ∧ (∀ m, (s.fiu inst).get .drdAcctype = BitVec.ofNat 32 (readModePair m).1 →
          (s.fiu inst).get .drdDbw = BitVec.ofNat 32 (readModePair m).2 → x = some m)
      ∧ ((∀ m, ¬ ((s.fiu inst).get .drdAcctype = BitVec.ofNat 32 (readModePair m).1
          ∧ (s.fiu inst).get .drdDbw = BitVec.ofNat 32 (readModePair m).2)) → x = none)

/-! ### Chip select and addressing mode (44_chip_select.md) -/

/-- R221: `select_chip` completes: `DEV_NUM` is the device, `SW_CS` and `RDYIE` are kept, a pending `RDYST` is cleared, nothing is
triggered or ended, and no other register changes. -/
def Obligations.SelectChip : Prop :=
  ∀ (s : State) (inst dev : Nat), s.Ready → inst < Config.nFiu → dev < 4 → (s.fiu inst).DoneBit →
    ∃ t, exec (.selectChip inst dev) s = .next t ∧ s.Ended t (.status .ok) ∧ s.SameOthers inst t
      ∧ (t.fiu inst).get .ctsDevNum = BitVec.ofNat 32 dev
      ∧ (∀ f, f = .ctsSwCs ∨ f = .ctsRdyie ∨ f = .ctsExecDone → (t.fiu inst).get f = (s.fiu inst).get f)
      ∧ (t.fiu inst).bit .ctsRdyst = false ∧ (t.fiu inst).busy = (s.fiu inst).busy
      ∧ (s.fiu inst).SameButReg .umaCts (t.fiu inst) ∧ (t.fiu inst).unmodelled = (s.fiu inst).unmodelled
      ∧ (t.fiu inst).fourb = (s.fiu inst).fourb

/-- R223, R225: `set_four_byte_addressing` completes in two steps: both `ADDSIZ` fields and the device's flag say whether it is
enabled; no other field, no other device's flag and nothing else changes. `get_four_byte_addressing` completes with whether
the instance's direct-read field is 1, and changes nothing of the block. -/
def Obligations.FourByteAddressing : Prop :=
  ∀ (s : State) (inst dev : Nat) (enabled : Bool), s.Ready → inst < Config.nFiu → dev < 4 →
    (∃ t, execN 2 (.setFourByteAddressing inst dev enabled) s = .next t ∧ s.Ended t (.status .ok) ∧ s.SameOthers inst t
      ∧ (t.fiu inst).get .drdAddsiz = (if enabled then 1#32 else 0#32)
      ∧ (t.fiu inst).get .dwrAddsiz = (if enabled then 1#32 else 0#32)
      ∧ (t.fiu inst).fourbOf dev = enabled ∧ (∀ d, d ≠ dev → (t.fiu inst).fourbOf d = (s.fiu inst).fourbOf d)
      ∧ (∀ f, f ≠ .drdAddsiz → f ≠ .dwrAddsiz → (t.fiu inst).get f = (s.fiu inst).get f)
      ∧ (t.fiu inst).eng = (s.fiu inst).eng ∧ (t.fiu inst).wire = (s.fiu inst).wire
      ∧ (t.fiu inst).frame = (s.fiu inst).frame ∧ (t.fiu inst).handler = (s.fiu inst).handler
      ∧ (t.fiu inst).inHandler = (s.fiu inst).inHandler ∧ (t.fiu inst).sup = (s.fiu inst).sup
      ∧ (t.fiu inst).draws = (s.fiu inst).draws ∧ (t.fiu inst).unmodelled = (s.fiu inst).unmodelled)
    ∧ ∃ t, exec (.getFourByteAddressing inst dev) s = .next t
        ∧ s.Ended t (.flag (decide ((s.fiu inst).get .drdAddsiz = 1#32))) ∧ t.fius = s.fius

/-- R228: `select_chip_by_address` completes: an address below the configured device size selects the device and asserts its chip
select, in two steps; any other releases the chip select and leaves `DEV_NUM`, in one step. -/
def Obligations.SelectChipByAddress : Prop :=
  ∀ (s : State) (inst dev : Nat) (addr : Word), s.Ready → inst < Config.nFiu → dev < 4 → (s.fiu inst).DoneBit →
    ∃ t, execN (if addr.toNat < Config.flashSize inst dev then 2 else 1) (.selectChipByAddress inst dev addr) s = .next t
      ∧ s.Ended t (.status .ok) ∧ s.SameOthers inst t
      ∧ (addr.toNat < Config.flashSize inst dev →
          (t.fiu inst).get .ctsDevNum = BitVec.ofNat 32 dev ∧ (t.fiu inst).bit .ctsSwCs = false)
      ∧ (Config.flashSize inst dev ≤ addr.toNat →
          (t.fiu inst).get .ctsDevNum = (s.fiu inst).get .ctsDevNum ∧ (t.fiu inst).bit .ctsSwCs = true)
      ∧ (t.fiu inst).busy = (s.fiu inst).busy ∧ (s.fiu inst).SameButReg .umaCts (t.fiu inst)
      ∧ (t.fiu inst).unmodelled = (s.fiu inst).unmodelled ∧ (t.fiu inst).fourb = (s.fiu inst).fourb

/-! ### Programming the protection tables (45_protection.md) -/

/-- R236 with the conversions of R12: `set_protection_range` with a legal index completes in three steps. With no lock standing
the start, last and chip-select fields take the converted operands, `RLCK` is kept and no other register changes; with the
instance or the range locked nothing of the block changes. -/
def Obligations.SetProtectionRange : Prop :=
  ∀ (s : State) (inst : Nat) (n : Fin 16) (start stop : Word) (mask : BitVec 2), s.Ready → inst < Config.nFiu →
    ∃ t, execN 3 (.setProtectionRange inst n.val start stop mask) s = .next t ∧ s.Ended t (.status .ok) ∧ s.SameOthers inst t
      ∧ ((s.fiu inst).bit .prtLck = false → (s.fiu inst).bit (.rngRlck n) = false →
          (t.fiu inst).get (.rngStrt n) = (start.extractLsb' 14 13).setWidth 32
          ∧ (t.fiu inst).get (.rngLast n) = ((stop - 0x3FFF#32).extractLsb' 14 13).setWidth 32
          ∧ (t.fiu inst).get (.rngCsuse n) = mask.setWidth 32 ∧ (t.fiu inst).bit (.rngRlck n) = false)
      ∧ ((s.fiu inst).bit .prtLck = true ∨ (s.fiu inst).bit (.rngRlck n) = true → t.fius = s.fius)
      ∧ (s.fiu inst).SameButReg (.prtRange n) (t.fiu inst) ∧ (s.fiu inst).SameHidden (t.fiu inst)
      ∧ t.trace.length = s.trace.length + 6

/-- R238, R239: `set_protection_command` with legal operands completes in one step. On an unlocked instance the entry of the slot
takes the operands, the code's bit 2 in the range select and its bits 1:0 in the forbid code, and the sibling entry is kept; on
a locked one nothing of the block changes. -/
def Obligations.SetProtectionCommand : Prop :=
  ∀ (s : State) (inst : Nat) (n : Fin Config.nCmdSlot) (code : Nat) (cmd : Byte) (addrBytes addrBits cmdBits : Nat), s.Ready →
    inst < Config.nFiu → code ≤ 7 → addrBytes = 3 ∨ addrBytes = 4 → addrBits = 1 ∨ addrBits = 2 ∨ addrBits = 4 →
    cmdBits = 1 ∨ cmdBits = 2 ∨ cmdBits = 4 →
    ∃ t, exec (.setProtectionCommand inst n.val code cmd addrBytes addrBits cmdBits) s = .next t
      ∧ s.Ended t (.status .ok) ∧ s.SameOthers inst t
      ∧ ((s.fiu inst).bit .prtLck = false →
          (t.fiu inst).slotField n .entCmd = cmd.toNat ∧ (t.fiu inst).slotField n .entFrbdc = code % 4
          ∧ (t.fiu inst).slotField n .entRngsel = code / 4
          ∧ (t.fiu inst).slotField n .entAddsz = (if addrBytes = 4 then 1 else 0)
          ∧ 2 ^ (t.fiu inst).slotField n .entCmbpck = cmdBits ∧ 2 ^ (t.fiu inst).slotField n .entAdbpck = addrBits
          ∧ ∀ m, m ≠ n → (t.fiu inst).slotField m .entry = (s.fiu inst).slotField m .entry)
      ∧ ((s.fiu inst).bit .prtLck = true → t.fius = s.fius)
      ∧ (∀ q, (∀ k, q ≠ .prtCmd k) → (t.fiu inst).rd q = (s.fiu inst).rd q) ∧ (s.fiu inst).SameHidden (t.fiu inst)

/-- R240, R241 with R13: `configure_protection` with a size of at most 16 GiB completes, in seven steps, or eight with a handler. On
an unlocked instance with no force lock the fields take the operands, `DEVSIZ` is the least class that holds the size, and `VIE` is
set where there is a handler, else kept; on a locked one no register changes. The handler is registered in both. -/
def Obligations.ConfigureProtection : Prop :=
  ∀ (s : State) (inst : Nat) (lock enable : Bool) (size : Nat) (e0 e1 v0 v1 io2 oca : Bool) (h : Option Nat), s.Ready →
    inst < Config.nFiu → size ≤ 4 ^ 7 * 2 ^ 20 →
    ∃ t, execN (if h.isSome then 8 else 7) (.configureProtection inst lock enable size e0 e1 v0 v1 io2 oca h) s = .next t
      ∧ s.Ended t (.status .ok) ∧ s.SameOthers inst t
      ∧ ((s.fiu inst).bit .prtLck = false → (s.fiu inst).get .prtFcsLck = 0#32 →
          (t.fiu inst).bit .prtLck = lock ∧ (t.fiu inst).bit .prtPen = enable
          ∧ size ≤ 4 ^ ((t.fiu inst).get .prtDevsiz).toNat * 2 ^ 20
          ∧ (∀ k < ((t.fiu inst).get .prtDevsiz).toNat, 4 ^ k * 2 ^ 20 < size)
          ∧ ((t.fiu inst).get .prtFcsEn).getLsbD 0 = e0 ∧ ((t.fiu inst).get .prtFcsEn).getLsbD 1 = e1
          ∧ ((t.fiu inst).get .prtFcsVal).getLsbD 0 = v0 ∧ ((t.fiu inst).get .prtFcsVal).getLsbD 1 = v1
          ∧ (t.fiu inst).bit .prtIo2f = io2 ∧ (t.fiu inst).bit .prtOcalwd = oca
          ∧ (t.fiu inst).bit .prtVie = (h.isSome || (s.fiu inst).bit .prtVie) ∧ (t.fiu inst).get .prtFcsLck = 0#32)
      ∧ ((s.fiu inst).bit .prtLck = true → (t.fiu inst).regs = (s.fiu inst).regs)
      ∧ (∀ n, h = some n → (t.fiu inst).handler = some n) ∧ (h = none → (t.fiu inst).handler = (s.fiu inst).handler)
      ∧ (s.fiu inst).SameButReg .prtCfg (t.fiu inst) ∧ (t.fiu inst).eng = (s.fiu inst).eng
      ∧ (t.fiu inst).unmodelled = (s.fiu inst).unmodelled

/-- R261: `get_violation_status` completes with the violation bit it read: without `clear` in one step that changes nothing of the
block; with `clear` in two, the second clearing the bit, whatever the lock. -/
def Obligations.GetViolationStatus : Prop :=
  ∀ (s : State) (inst : Nat), s.Ready → inst < Config.nFiu →
    (∃ t, exec (.getViolationStatus inst false) s = .next t ∧ s.Ended t (.flag ((s.fiu inst).bit .stsViol)) ∧ t.fius = s.fius)
    ∧ ∃ u t, exec (.getViolationStatus inst true) s = .next u ∧ u.fius = s.fius
        ∧ exec (.getViolationStatus inst true) u = .next t ∧ s.Ended t (.flag ((s.fiu inst).bit .stsViol))
        ∧ (t.fiu inst).bit .stsViol = false ∧ (s.fiu inst).SameButReg .prtSts (t.fiu inst)
        ∧ (s.fiu inst).SameHidden (t.fiu inst) ∧ s.SameOthers inst t
        ∧ t.trace = s.trace ++ [⟨inst, false, .prtSts, (s.fiu inst).rd .prtSts⟩, ⟨inst, true, .prtSts, 1#32⟩]

/-! ### The supervisor (46_supervisor.md) -/

/-- R272: `POLL` completes with the done bit, which is 1 exactly while the engine is busy, and changes nothing of the block. -/
def Obligations.PollSamplesDoneBit : Prop :=
  ∀ (s : State) (inst : Nat), s.Ready → inst < Config.nFiu → (s.fiu inst).DoneBit →
    ∃ t, exec (.poll inst) s = .next t ∧ s.Ended t (.flag (s.fiu inst).busy) ∧ t.fius = s.fius

/-- R271, R273: `wait_ready` on an idle engine completes with `OK` after one poll; a bound that permits no poll gives `TIMEOUT`
without polling; with the engine busy throughout, the bounded form gives `TIMEOUT` after exactly `timeout / POLL_PERIOD_US` polls and
leaves the block as it is, and the unbounded form goes on polling. -/
def Obligations.WaitReady : Prop :=
  ∀ (s : State) (inst : Nat) (timeout : Word), s.Ready → inst < Config.nFiu → (s.fiu inst).DoneBit →
    ((s.fiu inst).eng = .idle → timeout = 0#32 ∨ Config.pollPeriodUs ≤ timeout.toNat →
      ∃ t, exec (.waitReady inst timeout) s = .next t ∧ s.Ended t (.status .ok) ∧ s.SameOthers inst t
        ∧ t.fiu inst = { s.fiu inst with sup := .off } ∧ t.trace.length = s.trace.length + 1)
    ∧ (timeout ≠ 0#32 → timeout.toNat < Config.pollPeriodUs →
      ∃ t, exec (.waitReady inst timeout) s = .next t ∧ s.Ended t (.status .timeout) ∧ s.SameOthers inst t
        ∧ t.fiu inst = { s.fiu inst with sup := .off } ∧ t.trace = s.trace)
    ∧ ((s.fiu inst).eng ≠ .idle → timeout ≠ 0#32 →
      ∃ t, execN (timeout.toNat / Config.pollPeriodUs + 1) (.waitReady inst timeout) s = .next t
        ∧ s.Ended t (.status .timeout) ∧ s.SameOthers inst t ∧ t.fiu inst = { s.fiu inst with sup := .off }
        ∧ t.trace.length = s.trace.length + timeout.toNat / Config.pollPeriodUs)
    ∧ ((s.fiu inst).eng ≠ .idle → timeout = 0#32 →
      ∀ n, ∃ t p, execN (n + 1) (.waitReady inst timeout) s = .next t ∧ t.At (.waitReady inst timeout) p
        ∧ t.fiu inst = { s.fiu inst with sup := .unbounded } ∧ t.trace.length = s.trace.length + (n + 1))

/-! ### UMA requests (42_uma_engine.md, 43_uma_chunked.md) -/

/-- R185, R186, R192, R271, R273, R179, R180: `uma_read` of at most 16 bytes on an idle engine arms, in seven steps, the transaction its
operands and the read mode give. When the engine has completed and the wait bound permits a poll, the request completes with the
first `size` bytes of the read buffer, after one poll and one read of each data register that holds a byte. When the engine does not
complete, a bounded request ends with `TIMEOUT` and no data after `timeout / POLL_PERIOD_US` polls, with no poll where the bound is
below one period, and leaves the transaction running. `PHASE_WIDTH` is the replaceable default of R180, log entry 9; the numbers of
steps are those of log entry 1. -/
def Obligations.UmaRead : Prop :=
  ∀ (s : State) (inst dev : Nat) (cmd : Byte) (addr : Word) (ap : AddressPresent) (size : Nat) (timeout : Word), s.Ready →
    inst < Config.nFiu → dev < 4 → size ≤ 16 → (s.fiu inst).eng = .idle → (s.fiu inst).DoneBit →
    (∀ k < 2, csForced ((s.fiu inst).rd .prtCfg) k ≠ some false) →
    let i := Instr.umaRead inst dev cmd addr ap size timeout
    let w := widthCode (modeWidth (modeOfPair ((s.fiu inst).get .drdAcctype) ((s.fiu inst).get .drdDbw)))
    ∃ u, execN 7 i s = .next u
      ∧ (u.fiu inst).eng = .busy
          { dev := dev, held := !((s.fiu inst).bit .ctsSwCs), cmdsiz := 1
            addsiz := if ap = .absent then 0 else if (s.fiu inst).fourbOf dev then 4 else 3
            wdatsiz := 0, dbsiz := 0, rdatsiz := size, cmbpck := w, adbpck := w, wdbpck := 0, dbpck := 0, rdbpck := w
            cmd := cmd, addr := addr, wdata := (List.range 16).map (s.fiu inst).writeByte } false
      ∧ (∀ q, q ≠ .umaCts → q ≠ .umaAddr → q ≠ .umaCmd → q ≠ .umaCfg → (u.fiu inst).rd q = (s.fiu inst).rd q)
      ∧ (u.fiu inst).unmodelled = (s.fiu inst).unmodelled ∧ (u.fiu inst).fourb = (s.fiu inst).fourb ∧ s.SameOthers inst u
      ∧ (timeout = 0#32 ∨ Config.pollPeriodUs ≤ timeout.toNat →
          ∃ v t bytes, exec (.engineComplete inst) u = .next v ∧ execN (1 + (size + 3) / 4) i v = .next t
            ∧ s.Ended t (.data .ok bytes) ∧ bytes.length = size ∧ (∀ j < size, bytes.getD j 0#8 = (v.fiu inst).readByte j)
            ∧ t.fiu inst = { v.fiu inst with sup := .off } ∧ s.SameOthers inst t)
      ∧ (timeout ≠ 0#32 →
          ∃ t, execN (timeout.toNat / Config.pollPeriodUs + 1) i u = .next t ∧ s.Ended t (.data .timeout [])
            ∧ t.fiu inst = { u.fiu inst with sup := .off } ∧ s.SameOthers inst t
            ∧ t.trace.length = u.trace.length + timeout.toNat / Config.pollPeriodUs)

/-- R188, R189, R190, R191, R192, R271, R273: `uma_write` of at most 16 bytes on an idle engine arms, in thirteen steps, the transaction its
operands and the read mode give, without a command phase in `SPI_X` mode; the write buffer holds the data, zero padded, and `RDYST`
is clear. When the engine has completed and the wait bound permits a poll, the next poll completes the request with `OK`. When the
engine does not complete, a bounded request ends with `TIMEOUT` after `timeout / POLL_PERIOD_US` polls, with no poll where the bound
is below one period, and leaves the transaction running. `PHASE_WIDTH` is the replaceable default of R180, log entry 9; the numbers
of steps are those of log entry 1. -/
def Obligations.UmaWrite : Prop :=
  ∀ (s : State) (inst dev : Nat) (cmd : Byte) (addr : Word) (ap : AddressPresent) (size : Nat) (timeout : Word)
    (data : List Byte), s.Ready → inst < Config.nFiu → dev < 4 → size ≤ 16 → data.length = size →
    (s.fiu inst).eng = .idle → (s.fiu inst).DoneBit → (∀ k < 2, csForced ((s.fiu inst).rd .prtCfg) k ≠ some false) →
    let i := Instr.umaWrite inst dev cmd addr ap size timeout data
    let m := modeOfPair ((s.fiu inst).get .drdAcctype) ((s.fiu inst).get .drdDbw)
    let w := widthCode (modeWidth m)
    ∃ u, execN 13 i s = .next u
      ∧ (u.fiu inst).eng = .busy
          { dev := dev, held := !((s.fiu inst).bit .ctsSwCs), cmdsiz := if m = some .spiX then 0 else 1
            addsiz := if ap = .absent then 0 else if (s.fiu inst).fourbOf dev then 4 else 3
            wdatsiz := size, dbsiz := 0, rdatsiz := 0, cmbpck := if m = some .spiX then 0 else w, adbpck := w, wdbpck := w
            dbpck := 0, rdbpck := 0, cmd := cmd, addr := addr, wdata := data ++ List.replicate (16 - size) 0#8 } false
      ∧ (∀ j < 16, (u.fiu inst).writeByte j = data.getD j 0#8) ∧ (u.fiu inst).bit .ctsRdyst = false
      ∧ (∀ q, q ≠ .umaCts → q ≠ .umaAddr → q ≠ .umaCmd → q ≠ .umaCfg → (∀ k, q ≠ .umaDw k) →
          (u.fiu inst).rd q = (s.fiu inst).rd q)
      ∧ (u.fiu inst).unmodelled = (s.fiu inst).unmodelled ∧ (u.fiu inst).fourb = (s.fiu inst).fourb ∧ s.SameOthers inst u
      ∧ (timeout = 0#32 ∨ Config.pollPeriodUs ≤ timeout.toNat →
          ∃ v t, exec (.engineComplete inst) u = .next v ∧ exec i v = .next t ∧ s.Ended t (.status .ok)
            ∧ t.fiu inst = { v.fiu inst with sup := .off } ∧ s.SameOthers inst t)
      ∧ (timeout ≠ 0#32 →
          ∃ t, execN (timeout.toNat / Config.pollPeriodUs + 1) i u = .next t ∧ s.Ended t (.status .timeout)
            ∧ t.fiu inst = { u.fiu inst with sup := .off } ∧ s.SameOthers inst t
            ∧ t.trace.length = u.trace.length + timeout.toNat / Config.pollPeriodUs)

/-- R201 to R205, R208: `uma_ioctl` of at most 16 bytes in each direction on an idle engine waits once, arms the transaction its
operands give as one chunk, with the dummy phase at the address width, and, when the engine has completed, completes with the
read bytes. The write data registers are written only where there is data. The dummy phase at the address width is the replaceable
default of `IOCTL_DBPCK`, decision D25 and log entry 9. -/
def Obligations.UmaIoctlOneChunk : Prop :=
  ∀ (s : State) (inst dev : Nat) (cmd : Byte) (addr : Word) (asz rs ws cb ab wb rb : Nat) (timeout : Word) (dummy : Nat)
    (buf : List Byte), s.Ready → inst < Config.nFiu → dev < 4 → rs ≤ 16 → ws ≤ 16 → buf.length = ws → dummy ≤ 7 →
    asz = 0 ∨ asz = 3 ∨ asz = 4 → (∀ n, n = cb ∨ n = ab ∨ n = wb ∨ n = rb → n = 1 ∨ n = 2 ∨ n = 4) →
    (s.fiu inst).eng = .idle → (s.fiu inst).DoneBit → (∀ k < 2, csForced ((s.fiu inst).rd .prtCfg) k ≠ some false) →
    timeout = 0#32 ∨ Config.pollPeriodUs ≤ timeout.toNat →
    let i := Instr.umaIoctl inst dev cmd addr asz rs ws cb ab wb rb timeout dummy buf
    ∃ u v t bytes, execN (if ws = 0 then 6 else 10) i s = .next u
      ∧ (u.fiu inst).eng = .busy
          { dev := dev, held := !((s.fiu inst).bit .ctsSwCs), cmdsiz := 1, addsiz := asz, wdatsiz := ws, dbsiz := dummy
            rdatsiz := rs, cmbpck := Nat.log2 cb, adbpck := Nat.log2 ab, wdbpck := Nat.log2 wb, dbpck := Nat.log2 ab
            rdbpck := Nat.log2 rb, cmd := cmd, addr := addr
            wdata := if ws = 0 then (List.range 16).map (s.fiu inst).writeByte else buf ++ List.replicate (16 - ws) 0#8 } false
      ∧ (∀ q, q ≠ .umaCts → q ≠ .umaAddr → q ≠ .umaCmd → q ≠ .umaCfg → ws = 0 ∨ (∀ k, q ≠ .umaDw k) →
          (u.fiu inst).rd q = (s.fiu inst).rd q)
      ∧ (u.fiu inst).unmodelled = (s.fiu inst).unmodelled ∧ s.SameOthers inst u
      ∧ exec (.engineComplete inst) u = .next v ∧ execN (1 + (rs + 3) / 4) i v = .next t
      ∧ s.Ended t (.data .ok bytes) ∧ bytes.length = rs ∧ (∀ j < rs, bytes.getD j 0#8 = (v.fiu inst).readByte j)
      ∧ t.fiu inst = { v.fiu inst with sup := .off } ∧ s.SameOthers inst t

/-- R204, R205, R206, R207, R213: inside `uma_ioctl` and `page_write`. A continuation chunk of `uma_ioctl` is configured with no
command, no address and no dummy bytes and with what is left of each direction, at most 16 bytes. A transfer of more than 16 bytes
asserts the chip select before its first chunk: the replaceable default of `IOCTL_HOLDS_CS`, decision D25 and log entry 9. Where a
wait times out after the chip select was asserted, at its entry or in its poll loop, the next step releases it and the request ends
with `TIMEOUT`; where it was not asserted, the request ends at once. The position labels are the model's, log entry 1. -/
def Obligations.ChunkedRequestSteps : Prop :=
  ∀ (s : State) (p : Pos) (inst dev : Nat) (cmd : Byte) (addr : Word) (asz rs ws cb ab wb rb : Nat) (timeout : Word) (dummy : Nat)
    (buf : List Byte), inst < Config.nFiu → dev < 4 → dummy ≤ 7 → asz = 0 ∨ asz = 3 ∨ asz = 4 →
    (∀ n, n = cb ∨ n = ab ∨ n = wb ∨ n = rb → n = 1 ∨ n = 2 ∨ n = 4) → (s.fiu inst).DoneBit →
    let i := Instr.umaIoctl inst dev cmd addr asz rs ws cb ab wb rb timeout dummy buf
    let j := Instr.pageWrite inst dev cmd addr ws timeout buf
    (s.At i p → p.label = .l 3 2 → p.offset ≠ 0 → (s.fiu inst).eng = .idle →
      ∃ t, exec i s = .next t ∧ (s.fiu inst).SameButReg .umaCfg (t.fiu inst)
        ∧ (t.fiu inst).get .cfgCmdsiz = 0#32 ∧ (t.fiu inst).get .cfgAddsiz = 0#32 ∧ (t.fiu inst).get .cfgDbsiz = 0#32
        ∧ ((t.fiu inst).get .cfgWdatsiz).toNat = min (ws - p.offset) 16
        ∧ ((t.fiu inst).get .cfgRdatsiz).toNat = min (rs - p.offset) 16)
    ∧ (s.At i p → p.label = .lp 1 → p.offset = 0 → (s.fiu inst).eng = .idle →
        (s.fiu inst).sup = .unbounded ∨ (∃ n, (s.fiu inst).sup = .bounded (n + 1)) →
        ∃ t, exec i s = .next t ∧ t.At i { p with label := if 16 < max rs ws then .l 2 0 else .l 3 0 })
    ∧ (s.At i p → p.label = .l 2 0 → ∃ t, exec i s = .next t ∧ (t.fiu inst).bit .ctsSwCs = false
        ∧ t.At i { p with label := .l 3 0 })
    ∧ (s.At i p → s.TimesOut inst timeout p (.l 6 0) (.lp 6) ∨ s.TimesOut inst timeout p (.l 1 0) (.lp 1) ∧ p.offset ≠ 0 →
        16 < max rs ws →
        ∃ u t, exec i s = .next u ∧ (u.fiu inst).rd .umaCts = (s.fiu inst).rd .umaCts ∧ exec i u = .next t
          ∧ (t.fiu inst).bit .ctsSwCs = true ∧ s.Ended t (.data .timeout p.acc))
    ∧ (s.At i p → s.TimesOut inst timeout p (.l 6 0) (.lp 6) ∧ max rs ws ≤ 16
          ∨ s.TimesOut inst timeout p (.l 1 0) (.lp 1) ∧ (max rs ws ≤ 16 ∨ p.offset = 0) →
        ∃ t, exec i s = .next t ∧ (t.fiu inst).regs = (s.fiu inst).regs ∧ s.Ended t (.data .timeout p.acc))
    ∧ (s.At j p → s.TimesOut inst timeout p (.l 5 0) (.lp 5) →
        ∃ u t, exec j s = .next u ∧ (u.fiu inst).rd .umaCts = (s.fiu inst).rd .umaCts ∧ exec j u = .next t
          ∧ (t.fiu inst).bit .ctsSwCs = true ∧ (t.fiu inst).busy = (s.fiu inst).busy ∧ s.Ended t (.status .timeout))

/-- R210, R211, R212, R214, R117: `page_write` of any size, with protection off, no chip select forced or held, and the engine completing each
transaction before the next poll, completes with `OK` and drives one frame: the chip select falls once, the command and the address
are sent once, write-data phase `k` carries bytes `16k` to `min(16k + 15, size - 1)` of the data (R117), and the chip select rises once.
`PHASE_WIDTH` is the replaceable default of R180, log entry 9. -/
def Obligations.PageWriteDrivesOneFrame : Prop :=
  ∀ (s : State) (inst dev : Nat) (cmd : Byte) (addr : Word) (timeout : Word) (data : List Byte), s.Ready →
    inst < Config.nFiu → dev < 4 → (s.fiu inst).eng = .idle → (s.fiu inst).DoneBit → (s.fiu inst).NoForce →
    (s.fiu inst).bit .ctsSwCs = true → (s.fiu inst).bit .prtPen = false →
    timeout = 0#32 ∨ Config.pollPeriodUs ≤ timeout.toNat →
    let m := modeOfPair ((s.fiu inst).get .drdAcctype) ((s.fiu inst).get .drdDbw)
    let w := widthBits (modeWidth m)
    ∃ (n : Nat) (t : State), execPrompt n inst (.pageWrite inst dev cmd addr data.length timeout data) s = .next t
      ∧ s.Ended t (.status .ok) ∧ s.SameOthers inst t
      ∧ (t.fiu inst).wire = (s.fiu inst).wire ++ [.csLow dev]
          ++ (if m = some .spiX then [] else [.phase .cmd w [cmd]])
          ++ [.phase .addr w (addrBytes addr (if (s.fiu inst).fourbOf dev then 4 else 3))]
          ++ ((List.range ((data.length + 15) / 16)).map fun k => .phase .wdata w ((data.drop (16 * k)).take 16))
          ++ [.csHigh dev]
      ∧ (t.fiu inst).eng = .idle ∧ (t.fiu inst).bit .ctsSwCs = true ∧ (t.fiu inst).frame = .closed

/-- R201 to R205, R207, R208: `uma_ioctl` of more than 16 bytes, with protection off, no chip select forced or held, and the engine
completing each transaction before the next poll, completes with the bytes it read and drives one frame: the chip select falls once,
the command, the address and the dummy bytes are sent once, each chunk of 16 bytes writes and then reads its part of either
direction, the bytes it reads standing in order in the result, and the chip select rises once. That the chip select is held and the
dummy bytes have the address width are the replaceable defaults of `IOCTL_HOLDS_CS` and `IOCTL_DBPCK`, decision D25 and log entry 9. -/
def Obligations.UmaIoctlDrivesOneFrame : Prop :=
  ∀ (s : State) (inst dev : Nat) (cmd : Byte) (addr : Word) (asz rs ws cb ab wb rb : Nat) (timeout : Word) (dummy : Nat)
    (buf : List Byte), s.Ready → inst < Config.nFiu → dev < 4 → 16 < max rs ws → buf.length = ws → dummy ≤ 7 →
    asz = 0 ∨ asz = 3 ∨ asz = 4 → (∀ n, n = cb ∨ n = ab ∨ n = wb ∨ n = rb → n = 1 ∨ n = 2 ∨ n = 4) →
    (s.fiu inst).eng = .idle → (s.fiu inst).DoneBit → (s.fiu inst).NoForce →
    (s.fiu inst).bit .ctsSwCs = true → (s.fiu inst).bit .prtPen = false →
    timeout = 0#32 ∨ Config.pollPeriodUs ≤ timeout.toNat →
    ∃ (n : Nat) (t : State) (bytes : List Byte),
      execPrompt n inst (.umaIoctl inst dev cmd addr asz rs ws cb ab wb rb timeout dummy buf) s = .next t
      ∧ s.Ended t (.data .ok bytes) ∧ bytes.length = rs ∧ s.SameOthers inst t
      ∧ (t.fiu inst).wire = (s.fiu inst).wire ++ [.csLow dev] ++ [.phase .cmd cb [cmd]]
          ++ (if asz = 0 then [] else [.phase .addr ab (addrBytes addr asz)])
          ++ (if dummy = 0 then [] else [.dummy ab dummy])
          ++ ((List.range ((max rs ws + 15) / 16)).flatMap fun k =>
              (if 16 * k < ws then [.phase .wdata wb ((buf.drop (16 * k)).take 16)] else [])
                ++ (if 16 * k < rs then [.phase .rdata rb ((bytes.drop (16 * k)).take 16)] else []))
          ++ [.csHigh dev]
      ∧ (t.fiu inst).eng = .idle ∧ (t.fiu inst).bit .ctsSwCs = true ∧ (t.fiu inst).frame = .closed

/-! ### Errors, halts and interrupts (60_exceptions.md) -/

/-- R148, R282, R283, R294: a request with operands outside their legal sets completes in one step with the halt or the status of the
table of R282, the assertions before the ranges; no register of any instance is accessed and the bus trace is unchanged. The table
and the order are the spec's own decision D23. -/
def Obligations.IllegalOperandsTouchNothing : Prop :=
  ∀ (s : State) (i : Instr), s.Ready →
    (∀ r, operandFailure i = some (.inl r) → exec i s = .next { s with halted := some r })
    ∧ (∀ res, operandFailure i = some (.inr res) → exec i s = .next { s with result := some res })

/-- The first step of a request with legal operands completes, and is the field access its rule begins with: it leaves every instance
and the bus trace as that access leaves them, but for the handler that `configure_protection` registers in it. A request that has no
further step ends with a result; every other stands at a later step of its own with nothing harvested and the result as it was. The
host is not halted and the environment is unchanged. That validation and the first access are one step is log entry 1. `wait_ready`,
whose first step is a turn of a wait, and `configure_command` with two zero bytes have no such access. -/
def Obligations.RequestsBeginWithTheirFirstAccess : Prop :=
  ∀ (s : State) (i f : Instr), s.Ready → operandFailure i = none → firstAccess i = some f →
    ∃ t u, exec i s = .next t ∧ exec f s = .next u ∧ t.halted = none ∧ s.SameEnv t ∧ t.trace = u.trace
      ∧ (registersHandler i = none → t.fius = u.fius)
      ∧ (∀ k h, registersHandler i = some (k, h) → u.SameOthers k t ∧ t.fiu k = { u.fiu k with handler := some h })
      ∧ (isOneStep i = true → t.seq = .idle ∧ t.result.isSome = true)
      ∧ (isOneStep i = false → (∃ p, t.seq = .run i p ∧ p.label ≠ .start ∧ p.offset = 0 ∧ p.acc = []) ∧ t.result = s.result)

/-- R291, R297 (d), R298: `IRQ_DELIVER` where the violation request is up, a handler is registered, none runs and the host is not
halted, completes: the handler's operations are due and the interrupted request keeps its position; at the end of its operations
the delivery ends and the request continues from where it was. Elsewhere it is not enabled: with no request up, no handler, a halted
host, a handler that still has operations, or a handler of another instance. That `IRQ_DELIVER` also performs the return, and that one
handler runs at a time over all instances, is log entry 8. -/
def Obligations.InterruptEntryAndReturn : Prop :=
  ∀ (s : State) (inst : Nat), s.mark? = none → inst < Config.nFiu →
    (∀ h, (s.fiu inst).irqViol = true → (s.fiu inst).handler = some h → s.handling = none → s.halted = none →
      ∃ t, exec (.irqDeliver inst) s = .next t ∧ t.handling = some inst ∧ t.hprog = s.codeOf h ∧ t.hseq = .idle
        ∧ t = { s with fius := t.fius, hprog := t.hprog, hseq := t.hseq }
        ∧ t.fiu inst = { s.fiu inst with inHandler := true } ∧ s.SameOthers inst t)
    ∧ (s.handling = some inst → s.hprog = [] → s.hseq = .idle → s.halted = none →
      ∃ t, exec (.irqDeliver inst) s = .next t ∧ t = { s with fius := t.fius }
        ∧ t.fiu inst = { s.fiu inst with inHandler := false } ∧ s.SameOthers inst t)
    ∧ (s.handling = none → (s.fiu inst).irqViol = false ∨ (s.fiu inst).handler = none →
      exec (.irqDeliver inst) s = .refused .notEnabled)
    ∧ (s.halted ≠ none → exec (.irqDeliver inst) s = .refused .notEnabled)
    ∧ (∀ j, s.handling = some j → j ≠ inst ∨ s.hprog ≠ [] ∨ s.hseq ≠ .idle →
      exec (.irqDeliver inst) s = .refused .notEnabled)

/-- R292: inside a handler a UMA request, a wait, a chip selection or any write of a `UMA_*` register, the read-data registers among
them, as a register access, by offset or of a field, sets the mark `HandlerReentrancy` and changes nothing else; `get_violation_status`,
`get_read_mode`, `get_four_byte_addressing`, a read of a register, by name or by offset, or of a field, and a write of `PRT_STS`, by
name or by offset, complete as they do outside, and the interrupted request keeps its position. The model's choices: the mark is set
in the instance whose handler runs (log entry 8); the contract comes before validation, so illegal operands and instances neither
halt nor return a status there, and before R74 and R81 for a raw write, while a raw read gets their mark (log entries 11 and 23);
a marking access is not in the bus trace (log entry 24). The offsets are the defaults of log entry 9. -/
def Obligations.HandlerContract : Prop :=
  ∀ (s : State) (j : Nat), s.mark? = none → s.halted = none → s.handling = some j → s.hseq = .idle →
    (∀ i, (∃ k d c a ap n tm, i = .umaRead k d c a ap n tm) ∨ (∃ k d c a ap n tm b, i = .umaWrite k d c a ap n tm b)
        ∨ (∃ k d c a z rs ws cb ab wb rb tm du b, i = .umaIoctl k d c a z rs ws cb ab wb rb tm du b)
        ∨ (∃ k d c a n tm b, i = .pageWrite k d c a n tm b) ∨ (∃ k tm, i = .waitReady k tm) ∨ (∃ k d, i = .selectChip k d)
        ∨ (∃ k d a, i = .selectChipByAddress k d a)
        ∨ (∃ k v r, i = Instr.ofReg r .host k (.write v)
            ∧ (r = .umaCts ∨ r = .umaCfg ∨ r = .umaCmd ∨ r = .umaAddr ∨ (∃ n, r = .umaDw n) ∨ ∃ n, r = .umaDr n))
        ∨ (∃ k v r, i = .regWrite .host k (regOffset r) .word v
            ∧ (r = .umaCts ∨ r = .umaCfg ∨ r = .umaCmd ∨ r = .umaAddr ∨ (∃ n, r = .umaDw n) ∨ ∃ n, r = .umaDr n))
        ∨ (∃ k v f, i = .fieldWrite k f v ∧ (fieldReg f = .umaCts ∨ fieldReg f = .umaCfg ∨ fieldReg f = .umaCmd
            ∨ fieldReg f = .umaAddr ∨ (∃ n, fieldReg f = .umaDw n) ∨ ∃ n, fieldReg f = .umaDr n))
        ∨ (∃ k o sz v, i = .regWrite .host k o sz v ∧ (sz ≠ .word ∨ o % 4 ≠ 0 ∨ ∀ r, o ≠ regOffset r)) →
      ∃ t, exec i s = .next t ∧ t = { s with fius := t.fius } ∧ s.SameOthers j t
        ∧ t.fiu j = { s.fiu j with unmodelled := some .handlerReentrancy })
    ∧ (∀ k r, k < Config.nFiu → ∃ t w, exec (Instr.ofReg r .host k .read) s = .next t
        ∧ exec (.regRead .host k (regOffset r) .word) s = .next t ∧ t.result = some (.word w)
        ∧ s.SameOthers k t ∧ t.trace = s.trace ++ [⟨k, false, r, w⟩] ∧ (∃ d, t.fiu k = { s.fiu k with draws := d })
        ∧ ((s.fiu k).busy = false ∨ (∀ n, r ≠ .umaDr n) → w = (s.fiu k).rd r ∧ t.fius = s.fius)
        ∧ t.seq = s.seq ∧ t.hseq = .idle ∧ t.handling = some j)
    ∧ (∀ k v, k < Config.nFiu → ∃ t, exec (.prtSts .host k (.write v)) s = .next t
        ∧ exec (.regWrite .host k (regOffset .prtSts) .word v) s = .next t ∧ t.seq = s.seq ∧ t.hseq = .idle ∧ t.handling = some j
        ∧ (t.fiu k).bit .stsViol = ((s.fiu k).bit .stsViol && !(flag .stsViol v)) ∧ s.SameOthers k t
        ∧ t.trace = s.trace ++ [⟨k, true, .prtSts, v⟩]
        ∧ (s.fiu k).SameButReg .prtSts (t.fiu k) ∧ (s.fiu k).SameHidden (t.fiu k))
    ∧ (∀ k o sz u, k < Config.nFiu → (sz ≠ .word ∨ o % 4 ≠ 0) ∧ u = .narrowRegisterAccess
          ∨ sz = .word ∧ o % 4 = 0 ∧ (∀ r, o ≠ regOffset r) ∧ u = .unmappedOffset →
        ∃ t, exec (.regRead .host k o sz) s = .next t ∧ s.SameOthers k t ∧ t.seq = s.seq ∧ t.hseq = .idle ∧ t.trace = s.trace
          ∧ t.fiu k = { s.fiu k with unmodelled := some u })
    ∧ (∀ k f, k < Config.nFiu → (s.fiu k).busy = false ∨ (∀ n, fieldReg f ≠ .umaDr n) →
        ∃ t, exec (.fieldRead k f) s = .next t ∧ t.result = some (.word ((s.fiu k).get f)) ∧ t.fius = s.fius
          ∧ t.seq = s.seq ∧ t.hseq = .idle)
    ∧ (∀ k dev, k < Config.nFiu → dev < 4 →
        ∃ t, exec (.getFourByteAddressing k dev) s = .next t ∧ t.fius = s.fius ∧ t.seq = s.seq ∧ t.hseq = .idle
          ∧ t.result = some (.flag (decide ((s.fiu k).get .drdAddsiz = 1#32))))
    ∧ (∀ k, k < Config.nFiu →
        ∃ t, execN 2 (.getReadMode k) s = .next t ∧ t.fius = s.fius ∧ t.seq = s.seq ∧ t.hseq = .idle
          ∧ t.result = some (.mode (modeOfPair ((s.fiu k).get .drdAcctype) ((s.fiu k).get .drdDbw))))
    ∧ (∀ k, k < Config.nFiu →
        ∃ t, exec (.getViolationStatus k false) s = .next t ∧ t.fius = s.fius ∧ t.seq = s.seq ∧ t.hseq = .idle
          ∧ t.result = some (.flag ((s.fiu k).bit .stsViol)))
    ∧ (∀ k, k < Config.nFiu →
        ∃ t, execN 2 (.getViolationStatus k true) s = .next t ∧ s.SameOthers k t ∧ t.seq = s.seq ∧ t.hseq = .idle
          ∧ t.result = some (.flag ((s.fiu k).bit .stsViol)) ∧ (t.fiu k).bit .stsViol = false
          ∧ (s.fiu k).SameButReg .prtSts (t.fiu k) ∧ (s.fiu k).SameHidden (t.fiu k))

/-- R284, R58: while halted the host has no step and no handler is delivered; past an `UNMODELLED` mark every step but `RESET`
stops with the mark's reason. That a mark of any instance stops every agent, and that the step after the marking one is the first to
stop, are read by inference: log entries 4 and 7. -/
def Obligations.HaltedAndUnmodelledStops : Prop :=
  ∀ (s : State) (i : Instr),
    (s.mark? = none → s.halted ≠ none → isHostInstr i = true ∨ (∃ k, i = .irqDeliver k) →
      exec i s = .refused .notEnabled)
    ∧ (∀ r, s.mark? = some r → i ≠ .reset → exec i s = .fault (.unmodelled r))
end

