-- ==== Sys2Proof/Laws/State.lean ====
section
/-! SUPPORT. One lemma per field per update of an instance and of the machine, so that no proof unfolds a record update. -/

namespace Sys2Proof.Machine

/-! ### Register numbers -/

/-- The place of a register is its place in the list of all registers. -/
theorem allRegs_regIndex (r : Reg) : allRegs[(regIndex r).val]? = some r := by
  cases r <;> first | rfl | (rename_i k; revert k; decide)

/-- Different registers have different places. -/
theorem regIndex_inj {r q : Reg} (h : regIndex r = regIndex q) : r = q := by
  have h1 := allRegs_regIndex r
  rw [h, allRegs_regIndex q] at h1
  exact (Option.some.inj h1).symm

/-- Every register is in the list of all registers. -/
theorem mem_allRegs (r : Reg) : r ∈ allRegs := List.mem_of_getElem? (allRegs_regIndex r)

/-! ### Updates of an instance

Every update of an instance is a record update: unfolding `Fiu.rd` and `Fiu.setReg` turns a goal into one about `wordAt` and
`putWordAt`, whose laws come first. -/

@[simp] theorem wordAt_putWordAt_same (x : Vector Word 46) (r : Reg) (v : Word) : wordAt (putWordAt x r v) r = v := by
  simp [wordAt, putWordAt]

theorem wordAt_putWordAt_ne (x : Vector Word 46) {r q : Reg} (v : Word) (h : q ≠ r) :
    wordAt (putWordAt x r v) q = wordAt x q := by
  have : (regIndex r).val ≠ (regIndex q).val := fun e => h (regIndex_inj (Fin.ext e)).symm
  simp [wordAt, putWordAt, this]

/-- Reading a register file after a store. -/
theorem wordAt_putWordAt (x : Vector Word 46) (r q : Reg) (v : Word) :
    wordAt (putWordAt x r v) q = if q = r then v else wordAt x q := by
  split
  · rename_i h; subst h; simp
  · rename_i h; exact wordAt_putWordAt_ne x v h

@[simp] theorem Fiu.rd_setReg_same (b : Fiu) (r : Reg) (v : Word) : (b.setReg r v).rd r = v := by
  simp [Fiu.rd, Fiu.setReg]

theorem Fiu.rd_setReg_ne (b : Fiu) {r q : Reg} (v : Word) (h : q ≠ r) : (b.setReg r v).rd q = b.rd q :=
  wordAt_putWordAt_ne _ _ h

/-- Reading a register after a store. -/
theorem Fiu.rd_setReg (b : Fiu) (r q : Reg) (v : Word) : (b.setReg r v).rd q = if q = r then v else b.rd q :=
  wordAt_putWordAt _ _ _ _

@[simp] theorem Fiu.setReg_regs (b : Fiu) (r : Reg) (v : Word) : (b.setReg r v).regs = putWordAt b.regs r v := rfl
@[simp] theorem Fiu.setReg_eng (b : Fiu) (r : Reg) (v : Word) : (b.setReg r v).eng = b.eng := rfl
@[simp] theorem Fiu.setReg_fourb (b : Fiu) (r : Reg) (v : Word) : (b.setReg r v).fourb = b.fourb := rfl
@[simp] theorem Fiu.setReg_frame (b : Fiu) (r : Reg) (v : Word) : (b.setReg r v).frame = b.frame := rfl
@[simp] theorem Fiu.setReg_wire (b : Fiu) (r : Reg) (v : Word) : (b.setReg r v).wire = b.wire := rfl
@[simp] theorem Fiu.setReg_handler (b : Fiu) (r : Reg) (v : Word) : (b.setReg r v).handler = b.handler := rfl
@[simp] theorem Fiu.setReg_inHandler (b : Fiu) (r : Reg) (v : Word) : (b.setReg r v).inHandler = b.inHandler := rfl
@[simp] theorem Fiu.setReg_sup (b : Fiu) (r : Reg) (v : Word) : (b.setReg r v).sup = b.sup := rfl
@[simp] theorem Fiu.setReg_unmodelled (b : Fiu) (r : Reg) (v : Word) : (b.setReg r v).unmodelled = b.unmodelled := rfl
@[simp] theorem Fiu.setReg_draws (b : Fiu) (r : Reg) (v : Word) : (b.setReg r v).draws = b.draws := rfl

/-- The registers of an instance are its `regs` field alone. -/
theorem Fiu.rd_congr {b c : Fiu} (h : c.regs = b.regs) (r : Reg) : c.rd r = b.rd r := by simp [Fiu.rd, h]

@[simp] theorem Fiu.mark_regs (b : Fiu) (m : Unmodelled) : (b.mark m).regs = b.regs := rfl
@[simp] theorem Fiu.rd_mark (b : Fiu) (m : Unmodelled) (r : Reg) : (b.mark m).rd r = b.rd r := rfl
@[simp] theorem Fiu.mark_eng (b : Fiu) (m : Unmodelled) : (b.mark m).eng = b.eng := rfl
@[simp] theorem Fiu.mark_fourb (b : Fiu) (m : Unmodelled) : (b.mark m).fourb = b.fourb := rfl
@[simp] theorem Fiu.mark_frame (b : Fiu) (m : Unmodelled) : (b.mark m).frame = b.frame := rfl
@[simp] theorem Fiu.mark_wire (b : Fiu) (m : Unmodelled) : (b.mark m).wire = b.wire := rfl
@[simp] theorem Fiu.mark_handler (b : Fiu) (m : Unmodelled) : (b.mark m).handler = b.handler := rfl
@[simp] theorem Fiu.mark_inHandler (b : Fiu) (m : Unmodelled) : (b.mark m).inHandler = b.inHandler := rfl
@[simp] theorem Fiu.mark_sup (b : Fiu) (m : Unmodelled) : (b.mark m).sup = b.sup := rfl
@[simp] theorem Fiu.mark_unmodelled (b : Fiu) (m : Unmodelled) : (b.mark m).unmodelled = some m := rfl
@[simp] theorem Fiu.mark_draws (b : Fiu) (m : Unmodelled) : (b.mark m).draws = b.draws := rfl

theorem Fiu.busy_eq {b c : Fiu} (h : c.eng = b.eng) : c.busy = b.busy := by simp [Fiu.busy, h]

@[simp] theorem Fiu.setReg_busy (b : Fiu) (r : Reg) (v : Word) : (b.setReg r v).busy = b.busy := rfl
@[simp] theorem Fiu.mark_busy (b : Fiu) (m : Unmodelled) : (b.mark m).busy = b.busy := rfl

/-! ### Updates of the machine -/

@[simp] theorem fiuAt_putFiuAt_same (x : Vector Fiu Config.nFiu) {k : Nat} (b : Fiu) (h : k < Config.nFiu) :
    fiuAt (putFiuAt x k b) k = b := by
  simp [fiuAt, putFiuAt, h]

theorem fiuAt_putFiuAt_ne (x : Vector Fiu Config.nFiu) {k j : Nat} (b : Fiu) (h : j ≠ k) :
    fiuAt (putFiuAt x k b) j = fiuAt x j := by
  by_cases hk : k < Config.nFiu
  · by_cases hj : j < Config.nFiu
    · simp [fiuAt, putFiuAt, hk, hj, Ne.symm h]
    · simp [fiuAt, hj]
  · simp [putFiuAt, hk]

/-- Of two stores in one instance the later counts. -/
@[simp] theorem putFiuAt_putFiuAt (x : Vector Fiu Config.nFiu) (k : Nat) (b c : Fiu) :
    putFiuAt (putFiuAt x k b) k c = putFiuAt x k c := by
  by_cases hk : k < Config.nFiu <;> simp [putFiuAt, hk]

/-- Replacing an instance by itself changes nothing. -/
@[simp] theorem putFiuAt_self (x : Vector Fiu Config.nFiu) (k : Nat) : putFiuAt x k (fiuAt x k) = x := by
  by_cases hk : k < Config.nFiu <;> simp [putFiuAt, fiuAt, hk]

@[simp] theorem State.fiu_setFiu_same (s : State) {k : Nat} (b : Fiu) (h : k < Config.nFiu) : (s.setFiu k b).fiu k = b := by
  simp [State.fiu, State.setFiu, h]

theorem State.fiu_setFiu_ne (s : State) {k j : Nat} (b : Fiu) (h : j ≠ k) : (s.setFiu k b).fiu j = s.fiu j :=
  fiuAt_putFiuAt_ne _ _ h

/-- Replacing an instance by itself changes nothing. -/
theorem State.setFiu_self (s : State) (k : Nat) : s.setFiu k (s.fiu k) = s := by
  simp [State.setFiu, State.fiu]

/-- Of two stores in one instance the later counts. -/
theorem State.setFiu_setFiu (s : State) (k : Nat) (b c : Fiu) : (s.setFiu k b).setFiu k c = s.setFiu k c := by
  simp [State.setFiu]

@[simp] theorem State.setFiu_seq (s : State) (k : Nat) (b : Fiu) : (s.setFiu k b).seq = s.seq := rfl
@[simp] theorem State.setFiu_halted (s : State) (k : Nat) (b : Fiu) : (s.setFiu k b).halted = s.halted := rfl
@[simp] theorem State.setFiu_hseq (s : State) (k : Nat) (b : Fiu) : (s.setFiu k b).hseq = s.hseq := rfl
@[simp] theorem State.setFiu_hprog (s : State) (k : Nat) (b : Fiu) : (s.setFiu k b).hprog = s.hprog := rfl
@[simp] theorem State.setFiu_handlerCode (s : State) (k : Nat) (b : Fiu) : (s.setFiu k b).handlerCode = s.handlerCode := rfl
@[simp] theorem State.setFiu_prog (s : State) (k : Nat) (b : Fiu) : (s.setFiu k b).prog = s.prog := rfl
@[simp] theorem State.setFiu_sched (s : State) (k : Nat) (b : Fiu) : (s.setFiu k b).sched = s.sched := rfl
@[simp] theorem State.setFiu_result (s : State) (k : Nat) (b : Fiu) : (s.setFiu k b).result = s.result := rfl
@[simp] theorem State.setFiu_otherRead (s : State) (k : Nat) (b : Fiu) : (s.setFiu k b).otherRead = s.otherRead := rfl
@[simp] theorem State.setFiu_trace (s : State) (k : Nat) (b : Fiu) : (s.setFiu k b).trace = s.trace := rfl

/-- An instance is read from the `fius` field alone. -/
theorem State.fiu_congr {s t : State} (h : t.fius = s.fius) (k : Nat) : t.fiu k = s.fiu k := by simp [State.fiu, h]

@[simp] theorem State.fiu_setCur (s : State) (q : Seq) (k : Nat) : (s.setCur q).fiu k = s.fiu k := by
  unfold State.setCur; split <;> rfl
@[simp] theorem State.setCur_halted (s : State) (q : Seq) : (s.setCur q).halted = s.halted := by
  unfold State.setCur; split <;> rfl
@[simp] theorem State.setCur_hprog (s : State) (q : Seq) : (s.setCur q).hprog = s.hprog := by
  unfold State.setCur; split <;> rfl
@[simp] theorem State.setCur_handlerCode (s : State) (q : Seq) : (s.setCur q).handlerCode = s.handlerCode := by
  unfold State.setCur; split <;> rfl
@[simp] theorem State.setCur_prog (s : State) (q : Seq) : (s.setCur q).prog = s.prog := by
  unfold State.setCur; split <;> rfl
@[simp] theorem State.setCur_sched (s : State) (q : Seq) : (s.setCur q).sched = s.sched := by
  unfold State.setCur; split <;> rfl
@[simp] theorem State.setCur_result (s : State) (q : Seq) : (s.setCur q).result = s.result := by
  unfold State.setCur; split <;> rfl
@[simp] theorem State.setCur_otherRead (s : State) (q : Seq) : (s.setCur q).otherRead = s.otherRead := by
  unfold State.setCur; split <;> rfl
@[simp] theorem State.setCur_trace (s : State) (q : Seq) : (s.setCur q).trace = s.trace := by
  unfold State.setCur; split <;> rfl

/-! ### Marks and handlers, from the instances -/

/-- No mark is set exactly when no instance has one. -/
theorem State.mark?_none (s : State) : s.mark? = none ↔ ∀ k < Config.nFiu, (s.fiu k).unmodelled = none := by
  simp only [State.mark?, List.findSome?_eq_none_iff, State.fiu, fiuAt]
  constructor
  · intro h k hk
    simp only [hk, dite_true]
    exact h _ (by simp)
  · intro h b hb
    obtain ⟨k, hk, rfl⟩ := List.getElem_of_mem hb
    have hk' : k < Config.nFiu := by simpa using hk
    simpa [hk'] using h k hk'

/-- No handler runs exactly when no instance is in its handler. -/
theorem State.handling_none (s : State) : s.handling = none ↔ ∀ k < Config.nFiu, (s.fiu k).inHandler = false := by
  simp [State.handling]

/-- The instance whose handler runs is in its handler. -/
theorem State.handling_some {s : State} {k : Nat} (h : s.handling = some k) :
    k < Config.nFiu ∧ (s.fiu k).inHandler = true := by
  have h1 := List.find?_some h
  have h2 := List.mem_of_find?_eq_some h
  exact ⟨by simpa using h2, by simpa using h1⟩

/-- Which handler runs depends on the instances' `IN_HANDLER` alone. -/
theorem State.handling_congr {s t : State} (h : ∀ k < Config.nFiu, (t.fiu k).inHandler = (s.fiu k).inHandler) :
    t.handling = s.handling := by
  have := h 0 (by decide); have := h 1 (by decide); have := h 2 (by decide); have := h 3 (by decide)
  simp_all [State.handling, Config.nFiu, List.range_succ, List.find?]

/-- Storing an instance with the same `IN_HANDLER` keeps which handler runs. -/
theorem State.handling_setFiu (s : State) (k : Nat) (b : Fiu) (h : b.inHandler = (s.fiu k).inHandler) :
    (s.setFiu k b).handling = s.handling := by
  apply State.handling_congr
  intro j hj
  by_cases e : j = k
  · subst e; simpa [hj] using h
  · rw [State.fiu_setFiu_ne _ _ e]

theorem State.cur_live {s : State} (h : s.handling = none) : s.cur = s.seq := by simp [State.cur, h]

theorem State.setCur_live {s : State} (h : s.handling = none) (q : Seq) : s.setCur q = { s with seq := q } := by
  simp [State.setCur, h]

end Sys2Proof.Machine
end

