-- ==== Sys2Proof/Laws/Bits.lean ====
section
/-! SUPPORT. The laws of fields and masks: each of `lowMask`, `fieldMask`, `getField`, `putField` bit by bit, and what follows:
a field reads what was put in it and every other field is kept (40_register_access.md R142, R143). -/

namespace Sys2Proof.Machine

/-- A field is one of its register's fields. -/
theorem mem_regFields (f : Field) : f ∈ regFields (fieldReg f) := by
  cases f <;> first | (simp [regFields, fieldReg]; done) | (rename_i h; cases h <;> simp [regFields, fieldReg])

/-- A register's fields lie in it. -/
theorem fieldReg_of_mem {r : Reg} {f : Field} (h : f ∈ regFields r) : fieldReg f = r := by
  cases r <;> simp only [regFields, List.mem_cons, List.not_mem_nil, or_false] at h <;>
    (repeat' (rcases h with h | h)) <;> rfl

/-- All fields. -/
def allFields : List Field := allRegs.flatMap regFields

/-- Every field is in the list of all fields. -/
theorem mem_allFields (f : Field) : f ∈ allFields :=
  List.mem_flatMap.2 ⟨fieldReg f, mem_allRegs _, mem_regFields f⟩

set_option maxRecDepth 4000 in
/-- Every field lies in its register and has a bit. -/
theorem field_fits (f : Field) : fieldLo f + fieldWidth f ≤ 32 ∧ 0 < fieldWidth f := by
  have h : ∀ f ∈ allFields, fieldLo f + fieldWidth f ≤ 32 ∧ 0 < fieldWidth f := by decide
  exact h f (mem_allFields f)

/-- A mask as a number. -/
theorem lowMask_eq {n : Nat} (h : n ≤ 32) : lowMask n = BitVec.ofNat 32 (2 ^ n - 1) := by
  interval_cases n <;> rfl

/-- The bits of a mask. -/
theorem getLsbD_lowMask {n : Nat} (h : n ≤ 32) (i : Nat) : (lowMask n).getLsbD i = decide (i < n) := by
  rw [lowMask_eq h, BitVec.getLsbD_ofNat, Nat.testBit_two_pow_sub_one]
  by_cases hi : i < n
  · simp [hi]; omega
  · simp [hi]

/-- The bits of a field's mask. -/
theorem getLsbD_fieldMask (f : Field) (i : Nat) :
    (fieldMask f).getLsbD i = decide (fieldLo f ≤ i ∧ i < fieldLo f + fieldWidth f) := by
  have ⟨h, _⟩ := field_fits f
  rw [fieldMask, BitVec.getLsbD_shiftLeft, getLsbD_lowMask (by omega)]
  by_cases h1 : fieldLo f ≤ i
  · by_cases h2 : i < fieldLo f + fieldWidth f
    · simp [h1, h2]; omega
    · simp [h1, h2]; omega
  · simp [h1]

/-- The bits of a field's value. -/
theorem getLsbD_getField (f : Field) (w : Word) (i : Nat) :
    (getField f w).getLsbD i = (decide (i < fieldWidth f) && w.getLsbD (fieldLo f + i)) := by
  have ⟨h, _⟩ := field_fits f
  rw [getField, BitVec.getLsbD_and, getLsbD_lowMask (by omega), BitVec.getLsbD_ushiftRight, Bool.and_comm]

/-- The bits of a word with a field put in. -/
theorem getLsbD_putField (f : Field) (v w : Word) (i : Nat) :
    (putField f v w).getLsbD i =
      if fieldLo f ≤ i ∧ i < fieldLo f + fieldWidth f then v.getLsbD (i - fieldLo f) else w.getLsbD i := by
  have ⟨h, _⟩ := field_fits f
  rw [putField, BitVec.getLsbD_or, BitVec.getLsbD_and, BitVec.getLsbD_not, getLsbD_fieldMask, BitVec.getLsbD_shiftLeft,
    BitVec.getLsbD_and, getLsbD_lowMask (by omega)]
  by_cases h1 : fieldLo f ≤ i ∧ i < fieldLo f + fieldWidth f
  · have : i < 32 := by omega
    have h3 : i - fieldLo f < fieldWidth f := by omega
    simp [h1, this, h3]
  · by_cases h2 : i < 32
    · have : ¬ (fieldLo f ≤ i ∧ i - fieldLo f < fieldWidth f) := by omega
      simp only [h1, h2, decide_true, decide_false, Bool.not_false, Bool.and_true, Bool.true_and, if_false]
      by_cases h4 : i < fieldLo f
      · simp [h4]
      · have : ¬ i - fieldLo f < fieldWidth f := by omega
        simp [this]
    · have : w.getLsbD i = false := BitVec.getLsbD_of_ge _ _ (by omega)
      simp [h1, h2, this]

/-- A field reads what was put in it, truncated to its width (R142, R143). -/
theorem getField_putField_same (f : Field) (v w : Word) : getField f (putField f v w) = v &&& lowMask (fieldWidth f) := by
  have ⟨h, _⟩ := field_fits f
  apply BitVec.eq_of_getLsbD_eq
  intro i hi
  rw [getLsbD_getField, getLsbD_putField, BitVec.getLsbD_and, getLsbD_lowMask (by omega)]
  by_cases h1 : i < fieldWidth f
  · simp [h1]
  · simp [h1]

/-- A field that shares no bit with the one put in is kept. -/
theorem getField_putField_apart {f g : Field} (hd : fieldsApart f g = true) (v w : Word) :
    getField g (putField f v w) = getField g w := by
  simp only [fieldsApart, decide_eq_true_eq] at hd
  apply BitVec.eq_of_getLsbD_eq
  intro i hi
  rw [getLsbD_getField, getLsbD_getField, getLsbD_putField]
  by_cases h1 : i < fieldWidth g
  · have : ¬ (fieldLo f ≤ fieldLo g + i ∧ fieldLo g + i < fieldLo f + fieldWidth f) := by omega
    simp [h1, this]
  · simp [h1]

/-- A value fits its field. -/
theorem getField_and_lowMask (f : Field) (w : Word) : getField f w &&& lowMask (fieldWidth f) = getField f w := by
  have ⟨h, _⟩ := field_fits f
  apply BitVec.eq_of_getLsbD_eq
  intro i hi
  rw [BitVec.getLsbD_and, getLsbD_lowMask (by omega), getLsbD_getField]
  by_cases h1 : i < fieldWidth f <;> simp [h1]

/-- A field of a masked word is kept where the mask covers the field. -/
theorem getField_and_of_mask {f : Field} {m : Word} (hm : fieldMask f &&& m = fieldMask f) (w : Word) :
    getField f (w &&& m) = getField f w := by
  apply BitVec.eq_of_getLsbD_eq
  intro i hi
  rw [getLsbD_getField, getLsbD_getField, BitVec.getLsbD_and]
  by_cases h1 : i < fieldWidth f
  · have h2 := congrArg (·.getLsbD (fieldLo f + i)) hm
    simp only [BitVec.getLsbD_and, getLsbD_fieldMask] at h2
    have h3 : fieldLo f ≤ fieldLo f + i ∧ fieldLo f + i < fieldLo f + fieldWidth f := by omega
    simp only [h3, and_self, decide_true, Bool.true_and] at h2
    simp [h1, h2]
  · simp [h1]

/-- A field of a masked word is 0 where the mask misses the field. -/
theorem getField_and_of_apart {f : Field} {m : Word} (hm : fieldMask f &&& m = 0#32) (w : Word) :
    getField f (w &&& m) = 0#32 := by
  apply BitVec.eq_of_getLsbD_eq
  intro i hi
  rw [getLsbD_getField, BitVec.getLsbD_and]
  by_cases h1 : i < fieldWidth f
  · have h2 := congrArg (·.getLsbD (fieldLo f + i)) hm
    simp only [BitVec.getLsbD_and, getLsbD_fieldMask] at h2
    have h3 : fieldLo f ≤ fieldLo f + i ∧ fieldLo f + i < fieldLo f + fieldWidth f := by omega
    simp only [h3, and_self, decide_true, Bool.true_and, BitVec.getLsbD_zero] at h2
    simp [h2]
  · simp [h1]

/-- A field of a disjunction. -/
theorem getField_or (f : Field) (v w : Word) : getField f (v ||| w) = getField f v ||| getField f w := by
  apply BitVec.eq_of_getLsbD_eq
  intro i hi
  simp only [getLsbD_getField, BitVec.getLsbD_or]
  by_cases h1 : i < fieldWidth f <;> simp [h1]

/-- The field's own bits put back: reading a field and writing it back changes nothing. -/
theorem putField_getField (f : Field) (w : Word) : putField f (getField f w) w = w := by
  apply BitVec.eq_of_getLsbD_eq
  intro i hi
  rw [getLsbD_putField]
  split
  · rename_i h
    rw [getLsbD_getField]
    have : i - fieldLo f < fieldWidth f := by omega
    simp [this, show fieldLo f + (i - fieldLo f) = i by omega]
  · rfl

/-! ### Reserved bits -/

set_option maxRecDepth 4000 in
/-- A field lies in its register's mask. -/
theorem fieldMask_sub_regMask (f : Field) : fieldMask f &&& ~~~(regMask (fieldReg f)) = 0#32 := by
  have h : ∀ f ∈ allFields, fieldMask f &&& ~~~(regMask (fieldReg f)) = 0#32 := by decide
  exact h f (mem_allFields f)

/-- Putting a field in keeps reserved bits 0 (10_state.md R41). -/
theorem putField_reserved {f : Field} {m : Word} (hm : fieldMask f &&& ~~~m = 0#32) (v : Word) {w : Word}
    (hw : w &&& ~~~m = 0#32) : putField f v w &&& ~~~m = 0#32 := by
  apply BitVec.eq_of_getLsbD_eq
  intro i hi
  have h1 := congrArg (·.getLsbD i) hm
  have h2 := congrArg (·.getLsbD i) hw
  simp only [BitVec.getLsbD_and, BitVec.getLsbD_not, getLsbD_fieldMask, BitVec.getLsbD_zero] at h1 h2 ⊢
  rw [getLsbD_putField]
  split
  · rename_i h; simp only [h, and_self, decide_true, Bool.true_and] at h1; simp [h1]
  · exact h2

/-- A masked word has the reserved bits 0. -/
theorem and_mask_reserved (w m : Word) : (w &&& m) &&& ~~~m = 0#32 := by
  apply BitVec.eq_of_getLsbD_eq
  intro i hi
  simp [hi]

/-- Each value of a register's reset word has its reserved bits 0 (R41, R60). -/
theorem resetWord_reserved (r : Reg) (d : Word) : resetWord r d &&& ~~~(regMask r) = 0#32 := by
  have key : ∀ (l : List Field), (∀ f ∈ l, fieldMask f &&& ~~~(regMask r) = 0#32) → ∀ w : Word,
      w &&& ~~~(regMask r) = 0#32 →
      (l.foldl (fun w f => match resetOf f with
        | some v => putField f (BitVec.ofNat 32 v) w
        | none => putField f (getField f d) w) w) &&& ~~~(regMask r) = 0#32 := by
    intro l
    induction l with
    | nil => intro _ w hw; exact hw
    | cons f l ih =>
      intro hl w hw
      refine ih (fun g hg => hl g (List.mem_cons_of_mem _ hg)) _ ?_
      have hf := hl f (List.mem_cons_self ..)
      dsimp only
      split
      · exact putField_reserved hf _ hw
      · exact putField_reserved hf _ hw
  refine key _ ?_ _ (by simp)
  intro f hf
  rw [← fieldReg_of_mem hf]
  exact fieldMask_sub_regMask f

/-- A register whose fields all have a reset value draws nothing (R60). -/
theorem resetWord_drawless {r : Reg} (h : ∀ f ∈ regFields r, (resetOf f).isSome = true) (d : Word) :
    resetWord r d = resetWord r 0#32 := by
  have key : ∀ (l : List Field), (∀ f ∈ l, (resetOf f).isSome = true) → ∀ w : Word,
      l.foldl (fun w f => match resetOf f with
        | some v => putField f (BitVec.ofNat 32 v) w
        | none => putField f (getField f d) w) w
      = l.foldl (fun w f => match resetOf f with
        | some v => putField f (BitVec.ofNat 32 v) w
        | none => putField f (getField f 0#32) w) w := by
    intro l
    induction l with
    | nil => intro _ _; rfl
    | cons f l ih =>
      intro hl w
      simp only [List.foldl_cons]
      rw [ih fun g hg => hl g (List.mem_cons_of_mem _ hg)]
      have := hl f (List.mem_cons_self ..)
      cases hf : resetOf f with
      | none => simp [hf] at this
      | some v => rfl
  exact key _ h _

end Sys2Proof.Machine
end

