-- ==== Sys2Proof/Laws/Bus.lean ====
section
/-! SUPPORT. Where the register blocks stand in the address space (20_memory.md R85): what `blockBase` can be; and what a raw access
by offset and width means (R74, R81, R84). -/

namespace Sys2Proof.Machine

/-- What `blocksApart` says. -/
theorem blocksApart_iff (start : Nat → Nat) :
    blocksApart start = true ↔ ∀ i < Config.nFiu, ∀ j < Config.nFiu, i ≠ j →
      start i + blockSpan ≤ start j ∨ start j + blockSpan ≤ start i := by
  simp only [blocksApart, List.all_eq_true, List.mem_range, Bool.or_eq_true, beq_iff_eq, decide_eq_true_eq]
  constructor
  · intro h i hi j hj hne
    rcases h i hi j hj with (h | h) | h
    · exact absurd h hne
    · exact .inl h
    · exact .inr h
  · intro h i hi j hj
    by_cases hne : i = j
    · exact .inl (.inl hne)
    · rcases h i hi j hj hne with h | h
      · exact .inl (.inr h)
      · exact .inr h

/-- The blocks of two instances do not overlap. -/
theorem blockBase_apart {i j : Nat} (hi : i < Config.nFiu) (hj : j < Config.nFiu) (hne : i ≠ j) :
    blockBase i + blockSpan ≤ blockBase j ∨ blockBase j + blockSpan ≤ blockBase i := by
  unfold blockBase
  split
  · next h => exact (blocksApart_iff _).1 h i hi j hj hne
  · rcases Nat.lt_or_gt_of_ne hne with h | h
    · have := Nat.mul_le_mul_right blockSpan (Nat.succ_le_of_lt h)
      rw [Nat.succ_mul] at this
      exact .inl this
    · have := Nat.mul_le_mul_right blockSpan (Nat.succ_le_of_lt h)
      rw [Nat.succ_mul] at this
      exact .inr this

/-- Every choice of `BASE` whose blocks do not overlap is the one the model takes. -/
theorem blockBase_eq (h : blocksApart Config.base = true) (i : Nat) : blockBase i = Config.base i := by
  simp [blockBase, h]

set_option maxRecDepth 4000 in
/-- Every register lies inside its block. -/
theorem offset_lt_blockSpan (r : Reg) : cfg.offset r + 4 ≤ blockSpan := by
  have : ∀ r ∈ allRegs, cfg.offset r + 4 ≤ blockSpan := by decide
  exact this r (mem_allRegs r)

/-! ### Raw accesses -/

/-- Registers are word aligned. -/
theorem regOffset_mod_four (r : Reg) : regOffset r % 4 = 0 := by
  cases r <;> simp [regOffset]

/-- No register stands at an offset that is no register's. -/
theorem regOfOffset_eq_none {o : Nat} (h : ∀ r, o ≠ regOffset r) : regOfOffset o = none := by
  simp only [regOfOffset, List.find?_eq_none]
  intro r _
  simpa using fun e => h r (Eq.symm e)

/-- A word access at a register's offset is an access to that register. -/
theorem rawTarget_register (r : Reg) : rawTarget (regOffset r) .word = .ok r := by
  have : ∀ r ∈ allRegs, regOfOffset (regOffset r) = some r := by decide
  simp [rawTarget, regOffset_mod_four, this r (mem_allRegs r)]

/-- Any other access has no meaning, the width and the alignment first. -/
theorem rawTarget_error {o : Nat} {sz : AccessSize} (h : sz ≠ .word ∨ o % 4 ≠ 0 ∨ ∀ r, o ≠ regOffset r) :
    rawTarget o sz = .error (if sz ≠ .word ∨ o % 4 ≠ 0 then .narrowRegisterAccess else .unmappedOffset) := by
  unfold rawTarget
  split
  · rfl
  · next hc => rw [regOfOffset_eq_none (h.resolve_left (fun e => hc (.inl e)) |>.resolve_left fun e => hc (.inr e))]

/-- Of the raw writes a violation handler may perform the word write of `PRT_STS` only (60_exceptions.md R292). -/
theorem handlerPermits_regWrite (inst o : Nat) (sz : AccessSize) (v : Word) :
    handlerPermits (.regWrite .host inst o sz v) = (sz == .word && regOfOffset o == some .prtSts) := by
  cases sz <;> rfl

/-- A raw write with no meaning is outside the handler's contract. -/
theorem handlerPermits_meaningless {o : Nat} {sz : AccessSize} (h : sz ≠ .word ∨ o % 4 ≠ 0 ∨ ∀ r, o ≠ regOffset r) (inst : Nat)
    (v : Word) : handlerPermits (.regWrite .host inst o sz v) = false := by
  rw [handlerPermits_regWrite, Bool.and_eq_false_iff]
  by_cases hs : sz = .word
  · right
    simp only [beq_eq_false_iff_ne]
    intro e
    have hf := List.find?_some e
    have ho : o = regOffset .prtSts := (beq_iff_eq.1 hf).symm
    rcases h with h | h | h
    · exact h hs
    · exact h (ho ▸ regOffset_mod_four _)
    · exact h _ ho
  · exact .inl (by simpa using hs)

end Sys2Proof.Machine
end

