-- ==== Sys2Proof/Laws/Decode.lean ====
section
/-! SUPPORT. Each operand of a record is read back as it was written. -/

namespace Sys2Proof

theorem readNat_putNat (n v : Nat) (rest : List Byte) : readNat n (putNat n v ++ rest) = some (v % 256 ^ n, rest) := by
  induction n generalizing v with
  | zero => simp [putNat, readNat, Nat.mod_one]
  | succ n ih =>
    simp only [putNat, List.cons_append, readNat, ih]
    have : (BitVec.ofNat 8 v).toNat + 256 * (v / 256 % 256 ^ n) = v % 256 ^ (n + 1) := by
      rw [BitVec.toNat_ofNat, Nat.pow_succ 256 n, Nat.mul_comm (256 ^ n) 256, Nat.mod_mul]
    rw [this]

theorem withNat_putNat (n : Nat) {v : Nat} (h : v < 256 ^ n) (rest : List Byte) (k : Nat → List Byte → Decoded) :
    withNat n (putNat n v ++ rest) k = k v rest := by
  simp [withNat, readNat_putNat, Nat.mod_eq_of_lt h]

@[simp] theorem withByte_cons (b : Byte) (rest : List Byte) (k : Byte → List Byte → Decoded) :
    withByte (b :: rest) k = k b rest := by
  have h := withNat_putNat 1 (v := b.toNat) (by have := b.isLt; omega) rest fun v rest => k (BitVec.ofNat 8 v) rest
  have e : putNat 1 b.toNat = [b] := by simp [putNat]
  rw [e] at h
  simpa [withByte] using h

@[simp] theorem withWord_putWord (w : Word) (rest : List Byte) (k : Word → List Byte → Decoded) :
    withWord (putWord w ++ rest) k = k w rest := by
  have h := withNat_putNat 4 (v := w.toNat) (by have := w.isLt; omega) rest fun v rest => k (BitVec.ofNat 32 v) rest
  simpa [withWord, putWord] using h

@[simp] theorem withBool_putBool (b : Bool) (rest : List Byte) (k : Bool → List Byte → Decoded) :
    withBool (putBool b ++ rest) k = k b rest := by
  cases b <;> simp [withBool, putBool, withNat, readNat]

@[simp] theorem withBytes_append (d rest : List Byte) (k : List Byte → List Byte → Decoded) :
    withBytes d.length (d ++ rest) k = k d rest := by
  simp [withBytes]

theorem withCode_putNat {α : Type} (f : Nat → Option α) {n : Nat} {a : α} (hn : n < 256) (h : f n = some a)
    (rest : List Byte) (k : α → List Byte → Decoded) : withCode f (putNat 1 n ++ rest) k = k a rest := by
  simp [withCode, withNat_putNat 1 (v := n) (by omega), h]

@[simp] theorem withMode_put (m : ReadMode) (rest : List Byte) (k : ReadMode → List Byte → Decoded) :
    withCode modeOfCode (putNat 1 (modeCode m) ++ rest) k = k m rest :=
  withCode_putNat _ (by cases m <;> decide) (by cases m <;> rfl) _ _

@[simp] theorem withSize_put (z : AccessSize) (rest : List Byte) (k : AccessSize → List Byte → Decoded) :
    withCode sizeOfCode (putNat 1 (sizeCode z) ++ rest) k = k z rest :=
  withCode_putNat _ (by cases z <;> decide) (by cases z <;> rfl) _ _

@[simp] theorem withBits2_put (m : BitVec 2) (rest : List Byte) (k : BitVec 2 → List Byte → Decoded) :
    withCode bits2OfCode (putNat 1 m.toNat ++ rest) k = k m rest :=
  withCode_putNat _ (by have := m.isLt; omega) (by simp [bits2OfCode, m.isLt]) _ _

@[simp] theorem withAccess_put (a : Access) (rest : List Byte) (k : Access → List Byte → Decoded) :
    withAccess (putAccess a ++ rest) k = k a rest := by
  cases a <;> simp [withAccess, putAccess]

theorem withHandler_put {h : Option Nat} (hh : ∀ n, h = some n → n < 2 ^ 16) (rest : List Byte)
    (k : Option Nat → List Byte → Decoded) : withHandler (putHandler h ++ rest) k = k h rest := by
  cases h with
  | none => simp [withHandler, putHandler]
  | some n => simp [withHandler, putHandler, withNat_putNat 2 (v := n) (by have := hh n rfl; omega)]

@[simp] theorem withField_put (f : Field) (rest : List Byte) (k : Field → List Byte → Decoded) :
    withField (putFieldRef f ++ rest) k = k f rest := by
  have h1 : ∀ r, Machine.allRegs.idxOf r < 256 ∧ Machine.allRegs[Machine.allRegs.idxOf r]? = some r := by
    intro r
    have hm := List.idxOf_lt_length_of_mem (Machine.mem_allRegs r)
    have hl : Machine.allRegs.length = 46 := by decide
    refine ⟨by omega, ?_⟩
    rw [List.getElem?_eq_getElem hm, List.getElem_idxOf]
  have h2 : (Machine.regFields (Machine.fieldReg f)).idxOf f < 256
      ∧ (Machine.regFields (Machine.fieldReg f))[(Machine.regFields (Machine.fieldReg f)).idxOf f]? = some f := by
    have hm := List.idxOf_lt_length_of_mem (Machine.mem_regFields f)
    have hl : ∀ r, (Machine.regFields r).length < 256 := by intro r; cases r <;> simp [Machine.regFields]
    have := hl (Machine.fieldReg f)
    refine ⟨by omega, ?_⟩
    rw [List.getElem?_eq_getElem hm, List.getElem_idxOf]
  unfold withField putFieldRef
  rw [List.append_assoc, withNat_putNat 1 (by have := (h1 (Machine.fieldReg f)).1; omega),
    withNat_putNat 1 (by have := h2.1; omega)]
  simp only [(h1 _).2, h2.2]

@[simp] theorem masterOfCode_masterCode (m : Master) : masterOfCode (masterCode m) = m := by cases m <;> rfl

@[simp] theorem apOfCode_apCode (a : AddressPresent) : apOfCode (apCode a) = a := by cases a <;> rfl

/-- Every register is found by its offset (20_memory.md R84). -/
theorem regOfOffset_offset (r : Reg) : Machine.regOfOffset (Machine.cfg.offset r) = some r := by
  have : ∀ r ∈ Machine.allRegs, Machine.regOfOffset (Machine.cfg.offset r) = some r := by decide
  exact this r (Machine.mem_allRegs r)

/-- Every offset has at most the 12 bits that select a register (30_encoding.md R120). -/
theorem offset_lt (r : Reg) : Machine.cfg.offset r < 2 ^ 12 := by
  have : ∀ r ∈ Machine.allRegs, Machine.cfg.offset r < 2 ^ 12 := by decide
  exact this r (Machine.mem_allRegs r)

@[simp] theorem decode_zero (rest : List Byte) : decode (0#8 :: rest) = decodeReq rest := rfl
@[simp] theorem decode_one (rest : List Byte) : decode (1#8 :: rest) = decodeReg rest := rfl
@[simp] theorem decode_two (rest : List Byte) : decode (2#8 :: rest) = decodeBus rest := rfl
@[simp] theorem decode_three (rest : List Byte) : decode (3#8 :: rest) = decodeInt rest := rfl

/-- The decoder of group REG reads back every register instruction. -/
theorem decode_encodeReg (r : Reg) (m : Master) {inst : Nat} (hi : inst < 2 ^ 16) (a : Access) (rest : List Byte) :
    decode (encodeReg r m inst a ++ rest) = .ok (Instr.ofReg r m inst a, rest) := by
  unfold encodeReg
  rw [List.cons_append, decode_one]
  simp only [List.append_assoc, decodeReg]
  rw [withNat_putNat 2 (Nat.lt_trans (offset_lt r) (by decide)), Nat.mod_eq_of_lt (offset_lt r), regOfOffset_offset]
  simp only [withBool_putBool]
  rw [withNat_putNat 2 (by omega)]
  simp

end Sys2Proof
end

