-- ==== Sys2Proof/Laws/Ops.lean ====
section
/-! SUPPORT. One lemma for each shared operation, saying once what it can do: the bus primitives, the sequencer's moves, the
step of the host and of another agent, fixed lists of accesses, and the wait. -/

namespace Sys2Proof.Machine

/-! ### Bus accesses of one instance -/

/-- A bus read has no effect on an instance but a draw (10_state.md R35). -/
theorem Fiu.busRead_snd (b : Fiu) (inst : Nat) (r : Reg) : ∃ d, (b.busRead inst r).2 = { b with draws := d } := by
  unfold Fiu.busRead
  split
  · split
    · exact ⟨_, rfl⟩
    · exact ⟨b.draws, rfl⟩
  · exact ⟨b.draws, rfl⟩

/-- A bus read of a register whose value is not a draw gives the stored word and changes nothing (R35). -/
theorem Fiu.busRead_stored {b : Fiu} {r : Reg} (h : b.busy = false ∨ ∀ k, r ≠ .umaDr k) (inst : Nat) :
    b.busRead inst r = (b.rd r, b) := by
  unfold Fiu.busRead
  split
  · rename_i k
    rcases h with h | h
    · simp [h]
    · exact absurd rfl (h k)
  · rfl

/-- A bus read looks at no `IN_HANDLER`. -/
theorem Fiu.busRead_withInHandler (b : Fiu) (x : Bool) (inst : Nat) (r : Reg) :
    (b.withInHandler x).busRead inst r = ((b.busRead inst r).1, Fiu.withInHandler (b.busRead inst r).2 x) := by
  cases r with
  | umaDr k =>
    show (if b.busy = true then _ else _) = _
    unfold Fiu.busRead
    by_cases h : b.busy = true <;> simp only [h, if_true] <;> rfl
  | _ => rfl

/-- Nor does the trigger. -/
theorem Fiu.trigger_withInHandler (b : Fiu) (x : Bool) : (b.withInHandler x).trigger = b.trigger.withInHandler x := by
  unfold Fiu.trigger
  by_cases h1 : (!legalDescr b.latch) = true
  · rw [if_pos h1, if_pos (show (!legalDescr (Fiu.latch (b.withInHandler x))) = true from h1)]; rfl
  · rw [if_neg h1, if_neg (show ¬ (!legalDescr (Fiu.latch (b.withInHandler x))) = true from h1)]
    by_cases h2 : forcedActive (b.rd .prtCfg) = true
    · rw [if_pos h2, if_pos (show forcedActive (Fiu.rd (b.withInHandler x) .prtCfg) = true from h2)]; rfl
    · rw [if_neg h2, if_neg (show ¬ forcedActive (Fiu.rd (b.withInHandler x) .prtCfg) = true from h2)]; rfl

theorem Fiu.ite_withInHandler (x c : Bool) (y z : Fiu) :
    (if c = true then y.withInHandler x else z.withInHandler x) = Fiu.withInHandler (if c = true then y else z) x := by
  cases c <;> rfl

/-- A bus write looks at no `IN_HANDLER`. -/
theorem Fiu.busWrite_withInHandler (b : Fiu) (x : Bool) (r : Reg) (v : Word) :
    (b.withInHandler x).busWrite r v = Fiu.withInHandler (b.busWrite r v) x := by
  cases r with
  | umaCts =>
    show (b.withInHandler x).writeCts v = Fiu.withInHandler (b.writeCts v) x
    cases he : b.eng with
    | busy l d =>
      have he' : (b.withInHandler x).eng = .busy l d := he
      simp only [Fiu.writeCts, he, he']; rfl
    | idle =>
      have he' : (b.withInHandler x).eng = .idle := he
      simp only [Fiu.writeCts, he, he']
      show (if flag .ctsExecDone v = true then Fiu.trigger (Fiu.withInHandler (b.setCts (ctsWritten (b.rd .umaCts) v)) x)
        else Fiu.withInHandler (b.setCts (ctsWritten (b.rd .umaCts) v)) x) = _
      rw [Fiu.trigger_withInHandler, Fiu.ite_withInHandler]
  | prtRange n =>
    exact Fiu.ite_withInHandler x (b.locked || flag (.rngRlck n) (b.rd (.prtRange n))) b (b.setReg (.prtRange n) (v &&& regMask (.prtRange n)))
  | prtCmd n => exact Fiu.ite_withInHandler x b.locked b (b.setReg (.prtCmd n) (v &&& regMask (.prtCmd n)))
  | umaCfg => exact Fiu.ite_withInHandler x b.busy (b.mark .busyWrite) (b.setReg .umaCfg (v &&& regMask .umaCfg))
  | umaCmd => exact Fiu.ite_withInHandler x b.busy (b.mark .busyWrite) (b.setReg .umaCmd (v &&& regMask .umaCmd))
  | umaAddr => exact Fiu.ite_withInHandler x b.busy (b.mark .busyWrite) (b.setReg .umaAddr (v &&& regMask .umaAddr))
  | umaDw k => exact Fiu.ite_withInHandler x b.busy (b.mark .busyWrite) (b.setReg (.umaDw k) (v &&& regMask (.umaDw k)))
  | _ => rfl

/-- A bus write changes neither the addressing flags, the handler, `IN_HANDLER`, `SUP` nor the draw counter. -/
theorem Fiu.busWrite_hidden (b : Fiu) (r : Reg) (v : Word) :
    (b.busWrite r v).fourb = b.fourb ∧ (b.busWrite r v).handler = b.handler
      ∧ (b.busWrite r v).inHandler = b.inHandler ∧ (b.busWrite r v).sup = b.sup ∧ (b.busWrite r v).draws = b.draws := by
  have htrig : ∀ b : Fiu, b.trigger.fourb = b.fourb ∧ b.trigger.handler = b.handler ∧ b.trigger.inHandler = b.inHandler
      ∧ b.trigger.sup = b.sup ∧ b.trigger.draws = b.draws := by
    intro b
    unfold Fiu.trigger
    split
    · simp
    · split <;> simp
  have hcts : (b.writeCts v).fourb = b.fourb ∧ (b.writeCts v).handler = b.handler
      ∧ (b.writeCts v).inHandler = b.inHandler ∧ (b.writeCts v).sup = b.sup ∧ (b.writeCts v).draws = b.draws := by
    unfold Fiu.writeCts
    split
    · simp [Fiu.setCts]
    · split
      · have := htrig (b.setCts (ctsWritten (b.rd .umaCts) v))
        simpa [Fiu.setCts] using this
      · simp [Fiu.setCts]
  cases r <;> simp only [Fiu.busWrite] <;> first
    | exact hcts
    | (split <;> simp)
    | simp [Fiu.writePrtCfg]

/-- A plain register stores the written bits that are not reserved (R41, R42). -/
theorem Fiu.busWrite_drdCfg (b : Fiu) (v : Word) : b.busWrite .drdCfg v = b.setReg .drdCfg (v &&& regMask .drdCfg) := rfl

/-- See `busWrite_drdCfg`. -/
theorem Fiu.busWrite_dwrCfg (b : Fiu) (v : Word) : b.busWrite .dwrCfg v = b.setReg .dwrCfg (v &&& regMask .dwrCfg) := rfl

/-- See `busWrite_drdCfg`, with the engine idle. -/
theorem Fiu.busWrite_uma {b : Fiu} (h : b.busy = false) {r : Reg}
    (hr : r = .umaCfg ∨ r = .umaCmd ∨ r = .umaAddr ∨ ∃ k, r = .umaDw k) (v : Word) :
    b.busWrite r v = b.setReg r (v &&& regMask r) := by
  rcases hr with rfl | rfl | rfl | ⟨k, rfl⟩ <;> simp [Fiu.busWrite, h]

/-- A write of a transaction register while the engine is busy sets the mark and nothing else (R36 (a)). -/
theorem Fiu.busWrite_uma_busy {b : Fiu} (h : b.busy = true) {r : Reg}
    (hr : r = .umaCfg ∨ r = .umaCmd ∨ r = .umaAddr ∨ ∃ k, r = .umaDw k) (v : Word) :
    b.busWrite r v = b.mark .busyWrite := by
  rcases hr with rfl | rfl | rfl | ⟨k, rfl⟩ <;> simp [Fiu.busWrite, h]

/-- A write of a protection range where neither lock stands (R38). -/
theorem Fiu.busWrite_prtRange {b : Fiu} {n : Fin 16} (h1 : b.bit .prtLck = false) (h2 : b.bit (.rngRlck n) = false)
    (v : Word) : b.busWrite (.prtRange n) v = b.setReg (.prtRange n) (v &&& regMask (.prtRange n)) := by
  unfold Fiu.bit fieldReg at h1 h2
  unfold Fiu.busWrite Fiu.locked
  dsimp only
  rw [h1, h2]
  rfl

/-- A write of a protection range with a lock set is ignored (R38). -/
theorem Fiu.busWrite_prtRange_locked {b : Fiu} {n : Fin 16} (h : b.bit .prtLck = true ∨ b.bit (.rngRlck n) = true)
    (v : Word) : b.busWrite (.prtRange n) v = b := by
  unfold Fiu.bit fieldReg at h
  unfold Fiu.busWrite Fiu.locked
  dsimp only
  rcases h with h | h
  · rw [h]; rfl
  · rw [h, Bool.or_true]; rfl

/-- A write of a whitelist register on an unlocked instance (R39). -/
theorem Fiu.busWrite_prtCmd {b : Fiu} {n : Fin 14} (h1 : b.bit .prtLck = false) (v : Word) :
    b.busWrite (.prtCmd n) v = b.setReg (.prtCmd n) (v &&& regMask (.prtCmd n)) := by
  unfold Fiu.bit fieldReg at h1
  unfold Fiu.busWrite Fiu.locked
  dsimp only
  rw [h1]
  rfl

/-- A write of a whitelist register on a locked instance is ignored (R39). -/
theorem Fiu.busWrite_prtCmd_locked {b : Fiu} {n : Fin 14} (h : b.bit .prtLck = true) (v : Word) :
    b.busWrite (.prtCmd n) v = b := by
  unfold Fiu.bit fieldReg at h
  unfold Fiu.busWrite Fiu.locked
  dsimp only
  rw [h]
  rfl

/-! ### Bus accesses of the host -/

/-- `RD` of a register whose value is not a draw. -/
theorem State.hostRead_stored {s : State} {inst : Nat} {r : Reg}
    (h : (s.fiu inst).busy = false ∨ ∀ k, r ≠ .umaDr k) :
    s.hostRead inst r =
      ((s.fiu inst).rd r, { s with trace := s.trace ++ [⟨inst, false, r, (s.fiu inst).rd r⟩] }) := by
  simp [State.hostRead, Fiu.busRead_stored h, State.setFiu_self]

/-- `RDF` of a register whose value is not a draw (R142). -/
theorem State.rdf_stored {s : State} {inst : Nat} {f : Field}
    (h : (s.fiu inst).busy = false ∨ ∀ k, fieldReg f ≠ .umaDr k) :
    s.rdf inst f =
      ((s.fiu inst).get f, { s with trace := s.trace ++ [⟨inst, false, fieldReg f, (s.fiu inst).rd (fieldReg f)⟩] }) := by
  simp [State.rdf, State.hostRead_stored h, Fiu.get]

/-- The word a `WRF` writes (R143). -/
def Fiu.rmw (b : Fiu) (f : Field) (v : Word) : Word := putField f v (b.rd (fieldReg f))

/-- `WRF` is a read and a write of the register (R143). -/
theorem State.wrf_stored {s : State} {inst : Nat} {f : Field}
    (h : (s.fiu inst).busy = false ∨ ∀ k, fieldReg f ≠ .umaDr k) (v : Word) :
    s.wrf inst f v =
      { s.setFiu inst ((s.fiu inst).busWrite (fieldReg f) ((s.fiu inst).rmw f v)) with
        trace := s.trace ++ [⟨inst, false, fieldReg f, (s.fiu inst).rd (fieldReg f)⟩,
          ⟨inst, true, fieldReg f, (s.fiu inst).rmw f v⟩] } := by
  simp [State.wrf, State.hostRead_stored h, State.hostWrite, Fiu.rmw, State.setFiu, State.fiu]

/-- What `WRF` leaves in the instance it addresses. -/
theorem State.fiu_wrf {s : State} {inst : Nat} {f : Field} (hi : inst < Config.nFiu)
    (h : (s.fiu inst).busy = false ∨ ∀ k, fieldReg f ≠ .umaDr k) (v : Word) :
    (s.wrf inst f v).fiu inst = (s.fiu inst).busWrite (fieldReg f) ((s.fiu inst).rmw f v) := by
  simp [State.wrf_stored h, State.fiu, State.setFiu, hi]

/-- What `WR` leaves in the instance it addresses. -/
theorem State.fiu_hostWrite {s : State} {inst : Nat} (hi : inst < Config.nFiu) (r : Reg) (v : Word) :
    (s.hostWrite inst r v).fiu inst = (s.fiu inst).busWrite r v := by
  simp [State.hostWrite, State.fiu, State.setFiu, hi]

/-- `t` differs from `s` only in instance `inst` and the bus trace, which has grown. -/
def State.Touched (inst : Nat) (s t : State) : Prop :=
  (∃ b ev, t = { s.setFiu inst b with trace := s.trace ++ ev })

/-- Where no register is touched, the machine is touched trivially. -/
theorem State.Touched.refl (inst : Nat) (s : State) : State.Touched inst s s :=
  ⟨s.fiu inst, [], by simp [State.setFiu_self]⟩

/-- Touching the same instance twice. -/
theorem State.Touched.trans {inst : Nat} {s t u : State} (h1 : State.Touched inst s t) (h2 : State.Touched inst t u) :
    State.Touched inst s u := by
  obtain ⟨b, ev, rfl⟩ := h1
  obtain ⟨c, ew, rfl⟩ := h2
  refine ⟨c, ev ++ ew, ?_⟩
  simp [State.setFiu]

theorem State.touched_hostRead (s : State) (inst : Nat) (r : Reg) : State.Touched inst s (s.hostRead inst r).2 :=
  ⟨_, _, rfl⟩

theorem State.touched_hostWrite (s : State) (inst : Nat) (r : Reg) (v : Word) :
    State.Touched inst s (s.hostWrite inst r v) := ⟨_, _, rfl⟩

theorem State.touched_wrf (s : State) (inst : Nat) (f : Field) (v : Word) : State.Touched inst s (s.wrf inst f v) :=
  (State.touched_hostRead s inst _).trans (State.touched_hostWrite _ inst _ _)

theorem State.touched_rdf (s : State) (inst : Nat) (f : Field) : State.Touched inst s (s.rdf inst f).2 :=
  State.touched_hostRead s inst _

theorem State.touched_setFiu (s : State) (inst : Nat) (b : Fiu) : State.Touched inst s (s.setFiu inst b) :=
  ⟨b, [], by simp [State.setFiu]⟩

/-- What a touch leaves alone. -/
theorem State.Touched.rest {inst : Nat} {s t : State} (h : State.Touched inst s t) :
    s.SameOthers inst t ∧ t.seq = s.seq ∧ t.halted = s.halted ∧ t.hseq = s.hseq ∧ t.hprog = s.hprog
      ∧ t.handlerCode = s.handlerCode ∧ t.prog = s.prog ∧ t.sched = s.sched ∧ t.result = s.result
      ∧ t.otherRead = s.otherRead := by
  obtain ⟨b, ev, rfl⟩ := h
  refine ⟨fun k hk => ?_, ?_⟩
  · exact State.fiu_setFiu_ne s b hk
  · simp

/-- A touch that keeps `IN_HANDLER` keeps which handler runs. -/
theorem State.Touched.handling {inst : Nat} {s t : State} (h : State.Touched inst s t)
    (hb : (t.fiu inst).inHandler = (s.fiu inst).inHandler) : t.handling = s.handling := by
  apply State.handling_congr
  intro k hk
  by_cases e : k = inst
  · subst e; exact hb
  · rw [h.rest.1 k e]

/-- A touch that sets no mark and keeps `IN_HANDLER` leaves the machine live. -/
theorem State.Touched.live {inst : Nat} {s t : State} (h : State.Touched inst s t) (hs : s.Live)
    (hb : (t.fiu inst).inHandler = (s.fiu inst).inHandler)
    (hm : (t.fiu inst).unmodelled = (s.fiu inst).unmodelled) : t.Live := by
  refine ⟨?_, ?_, ?_⟩
  · rw [State.mark?_none]
    intro k hk
    have := (State.mark?_none s).1 hs.1 k hk
    by_cases e : k = inst
    · subst e; rw [hm]; exact this
    · rw [h.rest.1 k e]; exact this
  · rw [h.rest.2.2.1]; exact hs.2.1
  · rw [h.handling hb]; exact hs.2.2

/-- `WRF` keeps `IN_HANDLER`. -/
theorem State.wrf_inHandler (s : State) {inst : Nat} (hi : inst < Config.nFiu) (f : Field) (v : Word) :
    ((s.wrf inst f v).fiu inst).inHandler = (s.fiu inst).inHandler := by
  have h1 := (Fiu.busWrite_hidden ((s.fiu inst).busRead inst (fieldReg f)).2 (fieldReg f)
    (putField f v ((s.fiu inst).busRead inst (fieldReg f)).1)).2.2.1
  have h2 : ((s.fiu inst).busRead inst (fieldReg f)).2.inHandler = (s.fiu inst).inHandler := by
    obtain ⟨d, hd⟩ := Fiu.busRead_snd (s.fiu inst) inst (fieldReg f)
    rw [hd]
  rw [h2] at h1
  simpa [State.wrf, State.hostRead, State.hostWrite, State.fiu, State.setFiu, hi] using h1

/-! ### The host's step -/

/-- A host step where the host may begin an operation. -/
theorem hostStep_ready {s : State} (h : s.Ready) (i : Instr) (body : Pos → Out) : hostStep i s body = body startPos := by
  obtain ⟨⟨h1, h2, h3⟩, h4⟩ := h
  simp [hostStep, h1, h2, h3, State.posOf, State.cur, h4]

/-- A host step inside the running request. -/
theorem hostStep_at {s : State} {i : Instr} {p : Pos} (h : s.At i p) (body : Pos → Out) : hostStep i s body = body p := by
  obtain ⟨⟨h1, h2, h3⟩, h4⟩ := h
  simp [hostStep, h1, h2, h3, State.posOf, State.cur, h4]

/-- Past a mark no host step has a meaning (10_state.md R58). -/
theorem hostStep_marked {s : State} {r : Unmodelled} (h : s.mark? = some r) (i : Instr) (body : Pos → Out) :
    hostStep i s body = .fault (.unmodelled r) := by
  simp [hostStep, h]

/-- While halted the host has no step (60_exceptions.md R284). -/
theorem hostStep_halted {s : State} (h : s.mark? = none) (hh : s.halted.isSome = true) (i : Instr) (body : Pos → Out) :
    hostStep i s body = .refused .notEnabled := by
  simp [hostStep, h, hh, notEnabled]

/-- All a host step can do: fault past a mark, refuse, mark a handler that breaks its contract, or its body. -/
theorem hostStep_cases (i : Instr) (s : State) (body : Pos → Out) :
    (∃ r, s.mark? = some r ∧ hostStep i s body = .fault (.unmodelled r))
    ∨ (s.mark? = none ∧ (hostStep i s body = .refused .notEnabled
      ∨ (∃ j, s.handling = some j ∧ handlerPermits i = false ∧ s.halted = none
          ∧ hostStep i s body = .next (s.setFiu j ((s.fiu j).mark .handlerReentrancy)))
      ∨ (∃ p, s.posOf i = some p ∧ s.halted = none ∧ hostStep i s body = body p))) := by
  unfold hostStep notEnabled
  cases hm : s.mark? with
  | some r => exact .inl ⟨r, rfl, rfl⟩
  | none =>
    refine .inr ⟨rfl, ?_⟩
    cases hh : s.halted with
    | some r => exact .inl rfl
    | none =>
      cases hd : s.handling with
      | none =>
        cases hp : s.posOf i with
        | none => exact .inl (by simp)
        | some p => exact .inr (.inr ⟨p, rfl, rfl, by simp⟩)
      | some j =>
        cases hq : handlerPermits i with
        | false => exact .inr (.inl ⟨j, rfl, rfl, rfl, rfl⟩)
        | true =>
          cases hp : s.posOf i with
          | none => exact .inl (by simp)
          | some p => exact .inr (.inr ⟨p, rfl, rfl, by simp⟩)

/-- A handler's operation outside its contract sets the mark in the handler's instance (60_exceptions.md R292). -/
theorem hostStep_forbidden {s : State} {j : Nat} {i : Instr} (hm : s.mark? = none) (hh : s.halted = none)
    (hj : s.handling = some j) (hp : handlerPermits i = false) (body : Pos → Out) :
    hostStep i s body = .next (s.setFiu j ((s.fiu j).mark .handlerReentrancy)) := by
  simp [hostStep, hm, hh, hj, hp]

/-- A handler's first step of an operation of its contract is the body's. -/
theorem hostStep_permitted {s : State} {j : Nat} {i : Instr} (hm : s.mark? = none) (hh : s.halted = none)
    (hj : s.handling = some j) (hq : s.hseq = .idle) (hp : handlerPermits i = true) (body : Pos → Out) :
    hostStep i s body = body startPos := by
  simp [hostStep, hm, hh, hj, hp, State.posOf, State.cur, hq]

/-- `return` of a handler's operation: the interrupted request keeps its position (R297 (d)). -/
theorem finish_handling {s : State} {j : Nat} (h : s.handling = some j) (res : Result) :
    finish res s = .next { s with hseq := .idle, result := some res } := by
  simp [finish, State.setCur, h]

/-- `return` in a machine with no handler running. -/
theorem finish_live {s : State} (h : s.handling = none) (res : Result) :
    finish res s = .next { s with seq := .idle, result := some res } := by
  simp [finish, State.setCur_live h]

/-- `raise Halt` in a machine with no handler running. -/
theorem raiseHalt_live {s : State} (h : s.handling = none) (r : HaltReason) :
    raiseHalt r s = .next { s with seq := .idle, halted := some r } := by
  simp [raiseHalt, State.setCur_live h]

/-- The move to the next position in a machine with no handler running. -/
theorem goTo_live {s : State} (h : s.handling = none) (i : Instr) (p : Pos) :
    goTo i p s = .next { s with seq := .run i p } := by
  simp [goTo, State.setCur_live h]

/-! ### Several steps -/

/-- Steps in a row, first `n`, then `m`. -/
theorem execN_add (n m : Nat) (i : Instr) {s t : State} (h : execN n i s = .next t) :
    execN (n + m) i s = execN m i t := by
  induction n generalizing s with
  | zero =>
    simp only [execN, Host.Outcome.next.injEq] at h
    subst h
    simp
  | succ n ih =>
    rw [Nat.add_right_comm]
    simp only [execN] at h ⊢
    split at h
    · exact ih h
    · exact absurd h (by simp_all)

/-- One step. -/
theorem execN_one (i : Instr) (s : State) : execN 1 i s = exec i s := by
  simp only [execN]
  split <;> simp_all

/-- A first step, then the others. -/
theorem execN_cons {n : Nat} {i : Instr} {s t : State} (h : exec i s = .next t) : execN (n + 1) i s = execN n i t := by
  simp [execN, h]

/-- `seq` and `result` do not tell whether the machine is live. -/
theorem State.live_with_seq {s : State} (h : s.Live) (q : Seq) : State.Live { s with seq := q } := h

/-- The states a fixed list of accesses goes through are live. -/
def liveThrough (s : State) (steps : List (State → State)) : Prop :=
  match steps with
  | [] => True
  | f :: rest => (f s).Live ∧ liveThrough (f s) rest

/-- The state after a fixed list of accesses. -/
def applyAll (steps : List (State → State)) (s : State) : State := steps.foldl (fun s f => f s) s

/-- An access is blind to the sequencer. -/
def SeqBlind (f : State → State) : Prop := ∀ s q, f { s with seq := q } = { f s with seq := q }

theorem seqBlind_wrf (inst : Nat) (f : Field) (v : Word) : SeqBlind (·.wrf inst f v) := by
  intro s q
  simp [State.wrf, State.hostRead, State.hostWrite, State.setFiu, State.fiu]

theorem seqBlind_hostWrite (inst : Nat) (r : Reg) (v : Word) : SeqBlind (·.hostWrite inst r v) := by
  intro s q
  simp [State.hostWrite, State.setFiu, State.fiu]

/-- A request that is a fixed list of accesses performs them one step each and ends with its result. -/
theorem execN_straight {i : Instr} {steps : List (State → State)} {res : Result}
    (hx : ∀ s p, s.Live → (s.Ready ∧ p = startPos ∨ s.At i p) → exec i s = straight i p s steps res)
    (hb : ∀ f ∈ steps, SeqBlind f) (hne : steps ≠ [])
    {s : State} (hs : s.Ready) (hl : liveThrough s steps) :
    execN steps.length i s = .next { applyAll steps s with seq := .idle, result := some res } := by
  -- from position `k` on: the remaining accesses are performed and the request ends
  have key : ∀ (rest : List (State → State)) (k : Nat) (p : Pos) (s : State), steps.drop k = rest → rest ≠ [] →
      s.Live → liveThrough s rest →
      (s.Ready ∧ p = startPos ∧ k = 0 ∨ s.At i p ∧ p.label = .s (k + 1) 0 ∧ 0 < k) →
      execN rest.length i s = .next { applyAll rest s with seq := .idle, result := some res } := by
    intro rest
    induction rest with
    | nil => intro _ _ _ _ h; exact absurd rfl h
    | cons f rest ih =>
      intro k p s hd _ hlive hthr hpos
      have hk : steps[k]? = some f := by
        rw [← List.head?_drop, hd]; rfl
      have hlen : k < steps.length := by
        by_contra hc
        rw [List.getElem?_eq_none (by omega)] at hk
        exact absurd hk (by simp)
      have hrest : steps.drop (k + 1) = rest := by
        rw [← List.drop_drop, hd]; rfl
      have hst : exec i s = straightAt i p s steps res k := by
        rcases hpos with ⟨hr, rfl, rfl⟩ | ⟨ha, hp, hk0⟩
        · rw [hx s startPos hlive (.inl ⟨hr, rfl⟩)]; simp [straight, startPos]
        · rw [hx s p hlive (.inr ha)]
          obtain ⟨k, rfl⟩ : ∃ j, k = j + 1 := ⟨k - 1, by omega⟩
          simp [straight, hp]
      have hfl : (f s).Live := hthr.1
      rw [straightAt, hk] at hst
      dsimp only at hst
      have hblind := hb f (List.mem_of_getElem? hk)
      cases rest with
      | nil =>
        have : ¬ k + 1 < steps.length := by
          have := congrArg List.length hrest
          simp at this; omega
        rw [if_neg this, finish_live hfl.2.2] at hst
        simpa [applyAll, execN_one] using hst
      | cons g rest =>
        have : k + 1 < steps.length := by
          have := congrArg List.length hrest
          simp at this; omega
        rw [if_pos this, goTo_live hfl.2.2] at hst
        rw [List.length_cons, execN_cons hst]
        have hcongr : ∀ (l : List (State → State)) (u : State) (q : Seq), (∀ f ∈ l, SeqBlind f) →
            liveThrough u l → liveThrough { u with seq := q } l ∧
              applyAll l { u with seq := q } = { applyAll l u with seq := q } := by
          intro l
          induction l with
          | nil => intro u q _ _; exact ⟨trivial, rfl⟩
          | cons h l ihl =>
            intro u q hbl hthr
            have e := hbl h (List.mem_cons_self ..) u q
            obtain ⟨h1, h2⟩ := ihl (h u) q (fun x hx => hbl x (List.mem_cons_of_mem _ hx)) hthr.2
            simp only [liveThrough, applyAll, List.foldl_cons] at h1 h2 ⊢
            rw [e]
            exact ⟨⟨hthr.1, h1⟩, h2⟩
        have hsub : ∀ x ∈ g :: rest, SeqBlind x := fun x hx =>
          hb x (List.mem_of_mem_drop (by rw [hrest]; exact hx))
        obtain ⟨ht, ha⟩ := hcongr (g :: rest) (f s) (.run i { p with label := .s (k + 2) 0 }) hsub hthr.2
        rw [ih (k + 1) { p with label := .s (k + 2) 0 } { f s with seq := .run i { p with label := .s (k + 2) 0 } } hrest
          (by simp) hfl ht (.inr ⟨⟨hfl, rfl⟩, rfl, by omega⟩), ha]
        simp [applyAll]
  exact key steps 0 startPos s (by simp) hne hs.1 hl (.inl ⟨hs, rfl, rfl⟩)

end Sys2Proof.Machine
end

