-- ==== Sys2Proof/Laws/Exec.lean ====
section
/-! SUPPORT. What one bus access of the host does where the host may begin an operation, and the register instructions as bus
accesses. -/

namespace Sys2Proof.Machine

/-- The register instruction of the host for `r` is one bus access to `r` (30_encoding.md R120). -/
theorem exec_ofReg_host (r : Reg) (inst : Nat) (a : Access) (s : State) :
    exec (Instr.ofReg r .host inst a) s = hostAccess (Instr.ofReg r .host inst a) inst r a s := by
  cases r with
  | umaDw k => fin_cases k <;> rfl
  | umaDr k => fin_cases k <;> rfl
  | prtCmd k => fin_cases k <;> rfl
  | prtRange k => fin_cases k <;> rfl
  | _ => rfl

/-- The register instruction of another master for `r` is one bus access to `r` (20_memory.md R95). -/
theorem exec_ofReg_other (r : Reg) (inst : Nat) (a : Access) (s : State) :
    exec (Instr.ofReg r .other inst a) s = otherAccess inst r a s := by
  cases r with
  | umaDw k => fin_cases k <;> rfl
  | umaDr k => fin_cases k <;> rfl
  | prtCmd k => fin_cases k <;> rfl
  | prtRange k => fin_cases k <;> rfl
  | _ => rfl

/-- A read keeps which handler runs. -/
theorem handling_hostRead (s : State) (inst : Nat) (r : Reg) : (s.hostRead inst r).2.handling = s.handling := by
  by_cases hi : inst < Config.nFiu
  · apply (State.touched_hostRead s inst r).handling
    obtain ⟨d, hd⟩ := Fiu.busRead_snd (s.fiu inst) inst r
    simp [State.hostRead, State.fiu, State.setFiu, hi]
    simpa [State.fiu] using congrArg Fiu.inHandler hd
  · apply State.handling_congr
    intro k hk
    rw [(State.touched_hostRead s inst r).rest.1 k (by omega)]

/-- A write keeps which handler runs. -/
theorem handling_hostWrite (s : State) (inst : Nat) (r : Reg) (v : Word) :
    (s.hostWrite inst r v).handling = s.handling := by
  by_cases hi : inst < Config.nFiu
  · apply (State.touched_hostWrite s inst r v).handling
    rw [State.fiu_hostWrite hi]
    exact (Fiu.busWrite_hidden _ _ _).2.2.1
  · apply State.handling_congr
    intro k hk
    rw [(State.touched_hostWrite s inst r v).rest.1 k (by omega)]

/-- A field write keeps which handler runs. -/
theorem handling_wrf (s : State) (inst : Nat) (f : Field) (v : Word) : (s.wrf inst f v).handling = s.handling := by
  rw [State.wrf, handling_hostWrite, handling_hostRead]

/-- A bus read by the host where it may begin an operation. -/
theorem hostAccess_read {s : State} (h : s.Ready) {inst : Nat} (hi : inst < Config.nFiu) (i : Instr) (r : Reg) :
    hostAccess i inst r .read s =
      .next { (s.hostRead inst r).2 with seq := .idle, result := some (.word (s.hostRead inst r).1) } := by
  have ht : (s.hostRead inst r).2.handling = none := by rw [handling_hostRead]; exact h.1.2.2
  simp [hostAccess, hostStep_ready h, instOk, hi, startPos, finish_live ht]

/-- A bus write by the host where it may begin an operation. -/
theorem hostAccess_write {s : State} (h : s.Ready) {inst : Nat} (hi : inst < Config.nFiu) (i : Instr) (r : Reg) (v : Word) :
    hostAccess i inst r (.write v) s = .next { s.hostWrite inst r v with seq := .idle, result := some .done } := by
  have ht : (s.hostWrite inst r v).handling = none := by rw [handling_hostWrite]; exact h.1.2.2
  simp [hostAccess, hostStep_ready h, instOk, hi, startPos, finish_live ht]

/-- A register read instruction of the host. -/
theorem exec_read {s : State} (h : s.Ready) {inst : Nat} (hi : inst < Config.nFiu) (r : Reg) :
    exec (Instr.ofReg r .host inst .read) s =
      .next { (s.hostRead inst r).2 with seq := .idle, result := some (.word (s.hostRead inst r).1) } := by
  rw [exec_ofReg_host, hostAccess_read h hi]

/-- A register write instruction of the host. -/
theorem exec_write {s : State} (h : s.Ready) {inst : Nat} (hi : inst < Config.nFiu) (r : Reg) (v : Word) :
    exec (Instr.ofReg r .host inst (.write v)) s =
      .next { s.hostWrite inst r v with seq := .idle, result := some .done } := by
  rw [exec_ofReg_host, hostAccess_write h hi]

/-- The instance a register write instruction of the host leaves, and the rest of the machine. -/
theorem exec_write_spec {s : State} (h : s.Ready) {inst : Nat} (hi : inst < Config.nFiu) (r : Reg) (v : Word) :
    ∃ t, exec (Instr.ofReg r .host inst (.write v)) s = .next t ∧ s.Ended t .done
      ∧ t.fiu inst = (s.fiu inst).busWrite r v ∧ s.SameOthers inst t ∧ t.trace = s.trace ++ [⟨inst, true, r, v⟩] := by
  refine ⟨_, exec_write h hi r v, ?_, ?_, ?_, ?_⟩
  · have := h.1.2.1
    simp [State.Ended, State.SameEnv, State.hostWrite, this]
  · simp [State.hostWrite, State.fiu, State.setFiu, hi]
  · intro k hk
    simp [State.hostWrite, State.fiu, State.setFiu, fiuAt_putFiuAt_ne _ _ hk]
  · simp [State.hostWrite]

/-- A bus read by another master. -/
theorem exec_read_other {s : State} (hm : s.mark? = none) {inst : Nat} (hi : inst < Config.nFiu) (r : Reg) :
    exec (Instr.ofReg r .other inst .read) s =
      .next { s.setFiu inst ((s.fiu inst).busRead inst r).2 with otherRead := some ((s.fiu inst).busRead inst r).1 } := by
  rw [exec_ofReg_other]
  simp [otherAccess, agentStep, hm, instOk, hi]

/-- A bus write by another master. -/
theorem exec_write_other {s : State} (hm : s.mark? = none) {inst : Nat} (hi : inst < Config.nFiu) (r : Reg) (v : Word) :
    exec (Instr.ofReg r .other inst (.write v)) s = .next (s.setFiu inst ((s.fiu inst).busWrite r v)) := by
  rw [exec_ofReg_other]
  simp [otherAccess, agentStep, hm, instOk, hi]

/-- A field-write instruction of the host. -/
theorem exec_fieldWrite {s : State} (h : s.Ready) {inst : Nat} (hi : inst < Config.nFiu) (f : Field) (v : Word) :
    exec (.fieldWrite inst f v) s = .next { s.wrf inst f v with seq := .idle, result := some .done } := by
  have ht : (s.wrf inst f v).handling = none := by rw [handling_wrf]; exact h.1.2.2
  simp [exec, execFieldWrite, hostStep_ready h, instOk, hi, startPos, finish_live ht]

end Sys2Proof.Machine
end

