-- ==== Sys2Proof/Laws/Flags.lean ====
section
/-! SUPPORT. The flag computations, field by field: `UMA_CTS` (10_state.md R34), `PRT_STS` (R40), `PRT_CFG` (R37), and what a
bus write leaves in the hidden state. -/

namespace Sys2Proof.Machine

/-- A one-bit field is the bit it stands at. -/
theorem flag_eq_bit {f : Field} (h : fieldWidth f = 1) (w : Word) : flag f w = w.getLsbD (fieldLo f) := by
  have e : getField f w = if w.getLsbD (fieldLo f) then 1#32 else 0#32 := by
    apply BitVec.eq_of_getLsbD_eq
    intro i hi
    rw [getLsbD_getField, h]
    by_cases h0 : i = 0
    · subst h0
      simp only [Nat.zero_lt_one, decide_true, Nat.add_zero, Bool.true_and]
      split <;> simp_all
    · have h1 : ¬ i < 1 := by omega
      have h2 : (1#32).getLsbD i = false := by simp; omega
      simp only [h1, decide_false, Bool.false_and]
      split <;> simp [h2]
  rw [flag, e]
  split <;> simp_all

/-- A flag put in. -/
theorem flag_putField_same {f : Field} (h : fieldWidth f = 1) (v w : Word) : flag f (putField f v w) = v.getLsbD 0 := by
  rw [flag_eq_bit h, getLsbD_putField]
  simp [h]

/-- A flag that shares no bit with the field put in is kept. -/
theorem flag_putField_apart {f g : Field} (hd : fieldsApart f g = true) (v w : Word) :
    flag g (putField f v w) = flag g w := by
  rw [flag, flag, getField_putField_apart hd]

/-- Every field is covered by its register's mask. -/
theorem fieldMask_and_regMask (f : Field) : fieldMask f &&& regMask (fieldReg f) = fieldMask f := by
  have h := fieldMask_sub_regMask f
  apply BitVec.eq_of_getLsbD_eq
  intro i hi
  have := congrArg (·.getLsbD i) h
  simp [hi] at this ⊢
  tauto

/-- A field of a register is kept when the reserved bits are dropped (10_state.md R41). -/
theorem getField_and_regMask {f : Field} {r : Reg} (h : fieldReg f = r) (w : Word) :
    getField f (w &&& regMask r) = getField f w := by
  subst h
  exact getField_and_of_mask (fieldMask_and_regMask f) w

/-- The fields of `UMA_CTS` after a write (R34, R36 (b)). -/
theorem ctsWritten_fields (old v : Word) :
    getField .ctsDevNum (ctsWritten old v) = getField .ctsDevNum v
    ∧ getField .ctsSwCs (ctsWritten old v) = getField .ctsSwCs v
    ∧ getField .ctsRdyie (ctsWritten old v) = getField .ctsRdyie v
    ∧ getField .ctsExecDone (ctsWritten old v) = getField .ctsExecDone old
    ∧ flag .ctsRdyst (ctsWritten old v) = (flag .ctsRdyst old && !(flag .ctsRdyst v)) := by
  unfold ctsWritten
  refine ⟨?_, ?_, ?_, ?_, ?_⟩
  · simp only [getField_or, BitVec.and_assoc]
    rw [getField_and_of_mask (by decide), getField_and_of_apart (by decide), ← BitVec.and_assoc,
      getField_and_of_apart (by decide)]; simp
  · simp only [getField_or, BitVec.and_assoc]
    rw [getField_and_of_mask (by decide), getField_and_of_apart (by decide), ← BitVec.and_assoc,
      getField_and_of_apart (by decide)]; simp
  · simp only [getField_or, BitVec.and_assoc]
    rw [getField_and_of_mask (by decide), getField_and_of_apart (by decide), ← BitVec.and_assoc,
      getField_and_of_apart (by decide)]; simp
  · simp only [getField_or, BitVec.and_assoc]
    rw [getField_and_of_apart (by decide), getField_and_of_mask (by decide), ← BitVec.and_assoc,
      getField_and_of_apart (by decide)]; simp
  · simp only [flag_eq_bit (f := .ctsRdyst) (by decide), BitVec.getLsbD_or, BitVec.getLsbD_and, BitVec.getLsbD_not,
      getLsbD_fieldMask]
    simp [fieldLo, fieldWidth, fieldLayout]

/-- The reserved bits of `UMA_CTS` stay 0. -/
theorem ctsWritten_reserved (old v : Word) : ctsWritten old v &&& ~~~(regMask .umaCts) = 0#32 := by
  unfold ctsWritten
  apply BitVec.eq_of_getLsbD_eq
  intro i hi
  have hm : ∀ f, fieldReg f = .umaCts → (fieldMask f).getLsbD i = true → (regMask .umaCts).getLsbD i = true := by
    intro f hf h
    have := congrArg (·.getLsbD i) (fieldMask_sub_regMask f)
    rw [hf] at this
    simp only [BitVec.getLsbD_and, BitVec.getLsbD_not, hi, decide_true, Bool.true_and, BitVec.getLsbD_zero, h] at this
    simpa using this
  have h1 := hm .ctsDevNum rfl
  have h2 := hm .ctsSwCs rfl
  have h3 := hm .ctsRdyie rfl
  have h4 := hm .ctsExecDone rfl
  have h5 := hm .ctsRdyst rfl
  simp only [BitVec.getLsbD_or, BitVec.getLsbD_and, BitVec.getLsbD_not, hi, decide_true, Bool.true_and,
    BitVec.getLsbD_zero]
  cases hR : (regMask .umaCts).getLsbD i
  · simp [hR] at h1 h2 h3 h4 h5
    simp [h1, h2, h3, h4, h5]
  · simp

/-- `VIOL` after a write of `PRT_STS` (R40). -/
theorem stsWritten_viol (old v : Word) : flag .stsViol (stsWritten old v) = (flag .stsViol old && !(flag .stsViol v)) := by
  simp only [flag_eq_bit (f := .stsViol) (by decide), stsWritten, BitVec.getLsbD_and, BitVec.getLsbD_not,
    getLsbD_fieldMask]
  simp [fieldLo, fieldWidth, fieldLayout]

/-- The trigger: what becomes of the engine, the mark and `EXEC_DONE`; nothing else changes (R48, R294). -/
theorem Fiu.trigger_cases (b : Fiu) :
    (legalDescr b.latch = false ∧ b.trigger = b.mark .illegalUmaCfg)
    ∨ (legalDescr b.latch = true ∧ forcedActive (b.rd .prtCfg) = true ∧ b.trigger = b.mark .forcedActiveCs)
    ∨ (legalDescr b.latch = true ∧ forcedActive (b.rd .prtCfg) = false
        ∧ b.trigger = { b.setReg .umaCts (putField .ctsExecDone 1#32 (b.rd .umaCts)) with eng := .busy b.latch false }) := by
  unfold Fiu.trigger
  cases h1 : legalDescr b.latch <;> cases h2 : forcedActive (b.rd .prtCfg) <;> simp

/-- The force fields after a write of `PRT_CFG` (R37). -/
theorem prtCfgWritten_force (k : Nat) (hk : k < 2) (f : Field) (hf : f = .prtFcsLck ∨ f = .prtFcsEn ∨ f = .prtFcsVal) (old v : Word)
   (hl : flag .prtLck old = false) :
   (getField f (prtCfgWritten old v)).getLsbD k = if (getField .prtFcsLck old).getLsbD k = true then (getField f old).getLsbD k else (getField f v).getLsbD k := by
  have k22 : (getField .prtFcsLck old).getLsbD 0 = old.getLsbD 22 := by rw [getLsbD_getField]; rfl
  have k23 : (getField .prtFcsLck old).getLsbD 1 = old.getLsbD 23 := by rw [getLsbD_getField]; rfl
  unfold prtCfgWritten fcsKept fieldBit
  rw [k22, k23]
  simp only [hl, Bool.false_eq_true, if_false]
  interval_cases k <;> rcases hf with rfl | rfl | rfl <;> (try rw [k22]) <;> (try rw [k23]) <;>
    cases h22 : old.getLsbD 22 <;> cases h23 : old.getLsbD 23 <;>
    simp only [getLsbD_getField, BitVec.getLsbD_or, BitVec.getLsbD_and, BitVec.getLsbD_not, fieldLo, fieldWidth, fieldLayout, h22, h23, fcsBits] <;>
    simp <;> intro _ <;> decide

/-- The other fields after a write of an unlocked `PRT_CFG` (R37). -/
theorem prtCfgWritten_plain (f : Field) (hf : f = .prtLck ∨ f = .prtPen ∨ f = .prtVie ∨ f = .prtIo2f ∨ f = .prtDevsiz ∨ f = .prtOcalwd) (old v : Word)
   (hl : flag .prtLck old = false) : getField f (prtCfgWritten old v) = getField f v := by
  unfold prtCfgWritten
  simp only [hl, Bool.false_eq_true, if_false]
  have hreg : fieldReg f = .prtCfg := by rcases hf with rfl | rfl | rfl | rfl | rfl | rfl <;> rfl
  have hk : fieldMask f &&& fcsKept old = 0#32 := by
    unfold fcsKept
    rcases hf with rfl | rfl | rfl | rfl | rfl | rfl <;> split <;> split <;> decide
  have hk2 : fieldMask f &&& ~~~(fcsKept old) = fieldMask f := by
    unfold fcsKept
    rcases hf with rfl | rfl | rfl | rfl | rfl | rfl <;> split <;> split <;> decide
  rw [getField_or, getField_and_of_mask hk2, getField_and_regMask hreg, getField_and_of_apart hk]
  simp

end Sys2Proof.Machine
end

