-- ==== Sys2Proof/Laws/Moves.lean ====
section
/-! SUPPORT. What one step of an instruction can do, said once: it changes at most one instance, and that one by a sequence of
`Fiu.Move`s. Statements about every instruction are proved from `exec_moves`. -/

namespace Sys2Proof.Machine

/-- What an instruction other than `RESET` can do to an instance. `ec` allows the end of a transaction, `md` a write that may
change the read mode. -/
inductive Fiu.Move (inst : Nat) (ec md : Bool) : Fiu → Fiu → Prop where
  | refl (b : Fiu) : Move inst ec md b b
  | trans {b c d : Fiu} : Move inst ec md b c → Move inst ec md c d → Move inst ec md b d
  | draw (b : Fiu) (n : Nat) : Move inst ec md b { b with draws := n }
  | write (b : Fiu) (r : Reg) (v : Word) (h : md = true ∨ r ≠ .drdCfg) : Move inst ec md b (b.busWrite r v)
  | drd (b : Fiu) (f : Field) (v : Word) (hr : fieldReg f = .drdCfg) (h : md = true ∨ f ≠ .drdAcctype ∧ f ≠ .drdDbw) :
      Move inst ec md b (b.busWrite .drdCfg (putField f v (b.rd .drdCfg)))
  | sup (b : Fiu) (q : Sup) : Move inst ec md b { b with sup := q }
  | handler (b : Fiu) (h : Option Nat) : Move inst ec md b { b with handler := h }
  | inHandler (b : Fiu) (h : Bool) : Move inst ec md b { b with inHandler := h }
  | fourb (b : Fiu) (v : Vector Bool 4) : Move inst ec md b { b with fourb := v }
  | mark (b : Fiu) (r : Unmodelled) : Move inst ec md b (b.mark r)
  | complete (b : Fiu) (l : Descr) (dist : Bool) (he : ec = true) (h : b.eng = .busy l dist) :
      Move inst ec md b (b.complete inst l dist)

/-- At most instance `inst` has changed, by moves. -/
def State.Moves (inst : Nat) (ec md : Bool) (s t : State) : Prop :=
  s.SameOthers inst t ∧ Fiu.Move inst ec md (s.fiu inst) (t.fiu inst)

variable {inst : Nat} {ec md : Bool} {s t u : State}

theorem State.Moves.of_fius (h : t.fius = s.fius) : State.Moves inst ec md s t :=
  ⟨fun k _ => State.fiu_congr h k, by rw [State.fiu_congr h]; exact .refl _⟩

theorem State.Moves.refl (s : State) : State.Moves inst ec md s s := .of_fius rfl

theorem State.Moves.trans (h1 : State.Moves inst ec md s t) (h2 : State.Moves inst ec md t u) :
    State.Moves inst ec md s u :=
  ⟨fun k hk => (h2.1 k hk).trans (h1.1 k hk), h1.2.trans h2.2⟩

theorem State.Moves.then_fius (h1 : State.Moves inst ec md s t) (h2 : u.fius = t.fius) : State.Moves inst ec md s u :=
  h1.trans (.of_fius h2)

/-- Replacing the instance by a moved one. -/
theorem State.moves_setFiu {b : Fiu} (h : Fiu.Move inst ec md (s.fiu inst) b) : State.Moves inst ec md s (s.setFiu inst b) := by
  refine ⟨fun k hk => State.fiu_setFiu_ne s b hk, ?_⟩
  by_cases hi : inst < Config.nFiu
  · simpa [State.fiu, State.setFiu, hi] using h
  · have : (s.setFiu inst b).fiu inst = s.fiu inst := by simp [State.fiu, fiuAt, hi]
    rw [this]; exact .refl _

theorem State.moves_hostRead (s : State) (inst : Nat) (r : Reg) : State.Moves inst ec md s (s.hostRead inst r).2 := by
  obtain ⟨d, hd⟩ := Fiu.busRead_snd (s.fiu inst) inst r
  have h := State.moves_setFiu (s := s) (inst := inst) (ec := ec) (md := md) (Fiu.Move.draw (s.fiu inst) d)
  rw [← hd] at h
  exact h.then_fius rfl

theorem State.moves_rdf (s : State) (inst : Nat) (f : Field) : State.Moves inst ec md s (s.rdf inst f).2 :=
  State.moves_hostRead s inst _

theorem State.moves_hostWrite (s : State) (inst : Nat) (r : Reg) (v : Word) (h : md = true ∨ r ≠ .drdCfg) :
    State.Moves inst ec md s (s.hostWrite inst r v) :=
  (State.moves_setFiu (Fiu.Move.write (s.fiu inst) r v h)).then_fius rfl

/-- `WRF`: the read-modify-write of a field. -/
theorem State.moves_wrf (s : State) (inst : Nat) (f : Field) (v : Word)
    (h : md = true ∨ f ≠ .drdAcctype ∧ f ≠ .drdDbw) : State.Moves inst ec md s (s.wrf inst f v) := by
  by_cases hr : fieldReg f = .drdCfg
  · rw [State.wrf_stored (.inr fun k => by rw [hr]; simp) v]
    have hm := Fiu.Move.drd (inst := inst) (ec := ec) (s.fiu inst) f v hr h
    rw [hr]
    have e : (s.fiu inst).rmw f v = putField f v ((s.fiu inst).rd .drdCfg) := by rw [Fiu.rmw, hr]
    rw [e]
    exact (State.moves_setFiu hm).then_fius rfl
  · exact (State.moves_hostRead s inst _).trans (State.moves_hostWrite _ inst _ _ (.inr hr))

theorem State.moves_waitPoll {x : Option Status} (h : s.waitPoll inst = some (x, t)) : State.Moves inst ec md s t := by
  have hp : State.Moves inst ec md s (s.pollBit inst).2 := State.moves_rdf s inst _
  have hs : ∀ (u : State) (q : Sup), State.Moves inst ec md u (u.setSup inst q) := fun u q =>
    State.moves_setFiu (Fiu.Move.sup _ q)
  unfold State.waitPoll at h
  split at h
  · simp at h
  · dsimp only at h
    split at h <;> simp only [Option.some.injEq, Prod.mk.injEq] at h <;> obtain ⟨-, rfl⟩ := h
    · exact hp
    · exact hp.trans (hs _ _)
  · simp only [Option.some.injEq, Prod.mk.injEq] at h
    obtain ⟨-, rfl⟩ := h
    exact hs _ _
  · dsimp only at h
    split at h <;> simp only [Option.some.injEq, Prod.mk.injEq] at h <;> obtain ⟨-, rfl⟩ := h
    · exact hp.trans (hs _ _)
    · exact hp.trans (hs _ _)

theorem State.moves_waitEnter {x : Option Status} {timeout : Word} (h : s.waitEnter inst timeout = some (x, t)) :
    State.Moves inst ec md s t :=
  (State.moves_setFiu (Fiu.Move.sup (s.fiu inst) _)).trans (State.moves_waitPoll h)

/-! ### The outcomes of a request -/

theorem moves_finish {res : Result} (h : State.Moves inst ec md s u) (e : finish res u = .next t) :
    State.Moves inst ec md s t := by
  simp only [finish, Host.Outcome.next.injEq] at e
  exact h.then_fius (by rw [← e]; simp [State.setCur]; split <;> rfl)

theorem moves_goTo {i : Instr} {p : Pos} (h : State.Moves inst ec md s u) (e : goTo i p u = .next t) :
    State.Moves inst ec md s t := by
  simp only [goTo, Host.Outcome.next.injEq] at e
  exact h.then_fius (by rw [← e]; simp [State.setCur]; split <;> rfl)

theorem moves_raiseHalt {r : HaltReason} (e : raiseHalt r s = .next t) : State.Moves inst ec md s t := by
  simp only [raiseHalt, Host.Outcome.next.injEq] at e
  exact State.Moves.of_fius (by rw [← e]; simp [State.setCur]; split <;> rfl)

theorem not_notEnabled {P : Prop} (e : notEnabled = .next t) : P := by simp [notEnabled] at e

theorem moves_straight {i : Instr} {p : Pos} {steps : List (State → State)} {res : Result}
    (hs : ∀ f ∈ steps, ∀ s, State.Moves inst ec md s (f s)) (e : straight i p s steps res = .next t) :
    State.Moves inst ec md s t := by
  have key : ∀ k, straightAt i p s steps res k = .next t → State.Moves inst ec md s t := by
    intro k e
    unfold straightAt at e
    split at e
    · split at e
      · exact moves_finish (.refl s) e
      · exact not_notEnabled e
    · rename_i f hf
      have := hs f (List.mem_of_getElem? hf) s
      split at e
      · exact moves_goTo this e
      · exact moves_finish this e
  unfold straight at e
  split at e
  · exact key _ e
  · exact key _ e
  · exact not_notEnabled e

theorem moves_afterWait {w : Option (Option Status × State)} {stay : State → Out} {cont : Status → State → Out}
    (hw : ∀ x v, w = some (x, v) → State.Moves inst ec md s v)
    (h1 : ∀ v t, stay v = .next t → State.Moves inst ec md v t)
    (h2 : ∀ st v t, cont st v = .next t → State.Moves inst ec md v t) (e : afterWait w stay cont = .next t) :
    State.Moves inst ec md s t := by
  unfold afterWait at e
  split at e
  · exact not_notEnabled e
  · exact (hw _ _ rfl).trans (h1 _ _ e)
  · exact (hw _ _ rfl).trans (h2 _ _ _ e)

/-- What a step changes: the instance the instruction names, by moves, or, for an operation that a violation handler may not perform,
the instance whose handler runs, by its mark; the second never where a transaction may end. -/
def StepMoves (i : Instr) (ec md : Bool) (s t : State) : Prop :=
  ∃ k, State.Moves k ec md s t ∧ (instanceOf i = some k
    ∨ ec = false ∧ s.handling = some k ∧ t = s.setFiu k ((s.fiu k).mark .handlerReentrancy))

theorem stepMoves_host {i : Instr} {body : Pos → Out} (hi : instanceOf i = some inst)
    (h : ∀ p t, body p = .next t → State.Moves inst false md s t) (e : hostStep i s body = .next t) : StepMoves i false md s t := by
  rcases hostStep_cases i s body with ⟨r, -, h2⟩ | ⟨-, h2 | ⟨j, hj, -, -, h2⟩ | ⟨p, -, -, h2⟩⟩
  · rw [h2] at e; simp at e
  · rw [h2] at e; simp at e
  · rw [h2] at e
    simp only [Host.Outcome.next.injEq] at e
    subst e
    exact ⟨j, State.moves_setFiu (.mark _ _), .inr ⟨rfl, hj, rfl⟩⟩
  · rw [h2] at e
    exact ⟨inst, h p t e, .inl hi⟩

theorem stepMoves_agent {i : Instr} {body : Out} (hi : instanceOf i = some inst)
    (h : ∀ t, body = .next t → State.Moves inst ec md s t) (e : agentStep s body = .next t) : StepMoves i ec md s t := by
  unfold agentStep at e
  split at e
  · simp at e
  · exact ⟨inst, h t e, .inl hi⟩

theorem stepMoves_access {i : Instr} {r : Reg} {m : Master} {a : Access} (hi : instanceOf i = some inst)
    (h : md = true ∨ r ≠ .drdCfg ∨ a = .read) (e : regAccess i r m inst a s = .next t) : StepMoves i false md s t := by
  cases m
  · refine stepMoves_host hi (fun p t e => ?_) e
    split at e
    · exact moves_raiseHalt e
    · split at e
      · exact moves_finish (State.moves_hostRead ..) e
      · refine moves_finish (State.moves_hostWrite _ _ _ _ ?_) e
        simpa using h
      · exact not_notEnabled e
  · refine stepMoves_agent hi (fun t e => ?_) e
    split at e
    · split at e
      · simp only [Host.Outcome.next.injEq] at e
        subst e
        obtain ⟨d, hd⟩ := Fiu.busRead_snd (s.fiu inst) inst r
        refine (State.moves_setFiu (b := ((s.fiu inst).busRead inst r).2) ?_).then_fius rfl
        rw [hd]; exact .draw _ _
      · simp only [Host.Outcome.next.injEq] at e
        subst e
        refine State.moves_setFiu (.write _ _ _ ?_)
        simpa using h
    · exact not_notEnabled e

theorem stepMoves_raw {i : Instr} {m : Master} {a : Access} {o : Nat} {z : AccessSize} (hi : instanceOf i = some inst)
    (h : md = true ∨ a = .read) (e : rawAccess i m inst o z a s = .next t) : StepMoves i false md s t := by
  unfold rawAccess at e
  split at e
  · exact stepMoves_access hi (by tauto) e
  · unfold markAccess at e
    split at e
    · refine stepMoves_host hi (fun p t e => ?_) e
      split at e
      · exact moves_raiseHalt e
      · exact moves_finish (State.moves_setFiu (.mark _ _)) e
    · refine stepMoves_agent hi (fun t e => ?_) e
      split at e
      · simp only [Host.Outcome.next.injEq] at e
        subst e
        exact State.moves_setFiu (.mark _ _)
      · exact not_notEnabled e

/-- `ENGINE_COMPLETE` of some instance. -/
def endsTx (i : Instr) : Bool :=
  match i with
  | .engineComplete _ => true
  | _ => false

/-- Instructions that may write the two fields that spell the read mode: `configure_direct`, `set_dummy_cycles`, the register
instruction of `DRD_CFG` and the raw and field writes (41_direct_access.md R152). -/
def writesMode (i : Instr) : Bool :=
  match i with
  | .configureDirect .. | .setDummyCycles .. | .drdCfg .. | .regWrite .. | .fieldWrite .. => true
  | _ => false


section Requests

/-- Field writes of the requests that keep the read mode. -/
theorem keep_wrf {k : Nat} {f : Field} {v : Word} {s : State} (h : f ≠ .drdAcctype ∧ f ≠ .drdDbw) :
    State.Moves k false false s (s.wrf k f v) := State.moves_wrf s k f v (.inr h)

/-- Register writes of the requests that keep the read mode. -/
theorem keep_write {k : Nat} {r : Reg} {v : Word} {s : State} (h : r ≠ .drdCfg) :
    State.Moves k false false s (s.hostWrite k r v) := State.moves_hostWrite s k r v (.inr h)

theorem umaRead_moves {dev : Nat} {cmd : Byte} {addr : Word} {ap : AddressPresent} {size : Nat} {timeout : Word}
    (e : execUmaRead inst dev cmd addr ap size timeout s = .next t) :
    StepMoves (.umaRead inst dev cmd addr ap size timeout) false false s t := by
  unfold execUmaRead at e
  extract_lets i harvest at e
  have hh : ∀ (p : Pos) st v t, harvest p st v = .next t → State.Moves inst false false v t := by
    intro p st v t e
    cases st
    · change (if _ then _ else _) = _ at e
      split at e
      · exact moves_goTo (.refl v) e
      · exact moves_finish (.refl v) e
    · exact moves_finish (.refl v) e
    · exact moves_finish (.refl v) e
  have hg : ∀ (p : Pos) v t, goTo i p v = .next t → State.Moves inst false false v t := fun p v t e => moves_goTo (.refl v) e
  refine stepMoves_host rfl (fun p t e => ?_) e
  clear_value harvest
  repeat' (split at e)
  · exact moves_raiseHalt e
  · exact moves_raiseHalt e
  · exact moves_finish (.refl s) e
  · exact moves_goTo (keep_wrf (by decide)) e
  · exact moves_goTo (keep_write (by decide)) e
  · exact moves_goTo (keep_write (by decide)) e
  · exact moves_goTo (State.moves_rdf ..) e
  · exact moves_goTo (State.moves_rdf ..) e
  · exact moves_goTo (keep_write (by decide)) e
  · exact moves_goTo (keep_wrf (by decide)) e
  · exact moves_afterWait (fun x v h => State.moves_waitEnter h) (hg _) (hh _) e
  · exact moves_afterWait (fun x v h => State.moves_waitPoll h) (hg _) (hh _) e
  · exact moves_goTo (State.moves_hostRead ..) e
  · exact moves_finish (State.moves_hostRead ..) e
  · exact not_notEnabled e

theorem umaWrite_moves {dev : Nat} {cmd : Byte} {addr : Word} {ap : AddressPresent} {size : Nat} {timeout : Word}
    {data : List Byte} (e : execUmaWrite inst dev cmd addr ap size timeout data s = .next t) :
    StepMoves (.umaWrite inst dev cmd addr ap size timeout data) false false s t := by
  unfold execUmaWrite at e
  extract_lets i at e
  have hf : ∀ st v t, finish (.status st) v = .next t → State.Moves inst false false v t :=
    fun st v t e => moves_finish (.refl v) e
  have hg : ∀ (p : Pos) v t, goTo i p v = .next t → State.Moves inst false false v t := fun p v t e => moves_goTo (.refl v) e
  refine stepMoves_host rfl (fun p t e => ?_) e
  repeat' (split at e)
  · exact moves_raiseHalt e
  · exact moves_raiseHalt e
  · exact moves_finish (.refl s) e
  · exact moves_goTo (keep_wrf (by decide)) e
  · exact moves_goTo (keep_write (by decide)) e
  · exact moves_goTo (keep_write (by decide)) e
  · exact moves_goTo (State.moves_rdf ..) e
  · exact moves_goTo (State.moves_rdf ..) e
  · exact moves_goTo (keep_write (by decide)) e
  · exact moves_goTo (keep_write (by simp)) e
  · exact moves_goTo (keep_write (by simp)) e
  · exact moves_goTo (keep_wrf (by decide)) e
  · exact moves_goTo (.refl s) e
  · exact moves_goTo (keep_wrf (by decide)) e
  · exact moves_afterWait (fun x v h => State.moves_waitEnter h) (hg _) hf e
  · exact moves_afterWait (fun x v h => State.moves_waitPoll h) (hg _) hf e
  · exact not_notEnabled e

theorem umaIoctl_moves {dev : Nat} {cmd : Byte} {addr : Word} {asz rs ws cb ab wb rb : Nat} {timeout : Word} {dummy : Nat}
    {buf : List Byte} (e : execUmaIoctl inst dev cmd addr asz rs ws cb ab wb rb timeout dummy buf s = .next t) :
    StepMoves (.umaIoctl inst dev cmd addr asz rs ws cb ab wb rb timeout dummy buf) false false s t := by
  unfold execUmaIoctl at e
  extract_lets i hold failed chunkDone issue harvest at e
  have hg : ∀ (p : Pos) v t, goTo i p v = .next t → State.Moves inst false false v t := fun p v t e => moves_goTo (.refl v) e
  have hf : ∀ res v t, finish res v = .next t → State.Moves inst false false v t := fun st v t e => moves_finish (.refl v) e
  have h1 : ∀ b p v t, failed b p v = .next t → State.Moves inst false false v t := by
    intro b p v t e
    cases b
    · exact hf _ _ _ e
    · exact hg _ _ _ e
  have h2 : ∀ p v t, chunkDone p v = .next t → State.Moves inst false false v t := by
    intro p v t e
    simp only [chunkDone] at e
    repeat' (split at e)
    · exact hg _ _ _ e
    · exact hg _ _ _ e
    · exact hf _ _ _ e
  have h3 : ∀ p st v t, issue p st v = .next t → State.Moves inst false false v t := by
    intro p st v t e
    simp only [issue] at e
    clear_value failed
    repeat' (split at e)
    all_goals first | exact hg _ _ _ e | exact h1 _ _ _ _ e
  have h4 : ∀ p st v t, harvest p st v = .next t → State.Moves inst false false v t := by
    intro p st v t e
    simp only [harvest] at e
    clear_value failed chunkDone
    repeat' (split at e)
    all_goals first | exact hg _ _ _ e | exact h2 _ _ _ e | exact h1 _ _ _ _ e
  refine stepMoves_host rfl (fun p t e => ?_) e
  clear_value hold failed chunkDone issue harvest
  split at e
  · exact moves_raiseHalt e
  split at e
  · exact moves_raiseHalt e
  split at e
  · exact moves_finish (.refl s) e
  split at e
  · exact moves_goTo (keep_wrf (by decide)) e
  · exact moves_afterWait (fun x v h => State.moves_waitEnter h) (hg _) (h3 _) e
  · exact moves_afterWait (fun x v h => State.moves_waitPoll h) (hg _) (h3 _) e
  · exact moves_goTo (keep_wrf (by decide)) e
  · exact moves_goTo (keep_write (by decide)) e
  · exact moves_goTo (keep_write (by decide)) e
  · exact moves_goTo (keep_write (by decide)) e
  · exact moves_goTo (keep_write (by simp)) e
  · exact moves_goTo (keep_wrf (by decide)) e
  · exact moves_afterWait (fun x v h => State.moves_waitEnter h) (hg _) (h4 _) e
  · exact moves_afterWait (fun x v h => State.moves_waitPoll h) (hg _) (h4 _) e
  · dsimp only at e
    split at e
    · exact moves_goTo (State.moves_hostRead ..) e
    · exact (State.moves_hostRead ..).trans (h2 _ _ _ e)
  · exact moves_finish (keep_wrf (by decide)) e
  · exact moves_finish (keep_wrf (by decide)) e
  · exact not_notEnabled e

theorem pageWrite_moves {dev : Nat} {cmd : Byte} {addr : Word} {size : Nat} {timeout : Word} {data : List Byte}
    (e : execPageWrite inst dev cmd addr size timeout data s = .next t) :
    StepMoves (.pageWrite inst dev cmd addr size timeout data) false false s t := by
  unfold execPageWrite at e
  extract_lets i chunkDone at e
  have hg : ∀ (p : Pos) v t, goTo i p v = .next t → State.Moves inst false false v t := fun p v t e => moves_goTo (.refl v) e
  have h2 : ∀ p st v t, chunkDone p st v = .next t → State.Moves inst false false v t := by
    intro p st v t e
    simp only [chunkDone] at e
    repeat' (split at e)
    · exact hg _ _ _ e
    · exact hg _ _ _ e
    · exact hg _ _ _ e
  refine stepMoves_host rfl (fun p t e => ?_) e
  clear_value chunkDone
  split at e
  · exact moves_raiseHalt e
  split at e
  · exact moves_raiseHalt e
  split at e
  · exact moves_goTo (keep_wrf (by decide)) e
  · exact moves_goTo (State.moves_rdf ..) e
  · exact moves_goTo (State.moves_rdf ..) e
  · exact moves_goTo (keep_wrf (by decide)) e
  · exact moves_goTo (keep_write (by decide)) e
  · exact moves_goTo (keep_write (by decide)) e
  · exact moves_goTo (keep_write (by decide)) e
  · exact moves_goTo (keep_write (by simp)) e
  · exact moves_goTo (keep_wrf (by decide)) e
  · exact moves_goTo (.refl s) e
  · exact moves_goTo (keep_wrf (by decide)) e
  · exact moves_afterWait (fun x v h => State.moves_waitEnter h) (hg _) (h2 _) e
  · exact moves_afterWait (fun x v h => State.moves_waitPoll h) (hg _) (h2 _) e
  · exact moves_finish (keep_wrf (by decide)) e
  · exact moves_finish (keep_wrf (by decide)) e
  · exact not_notEnabled e

theorem configureDirect_moves {fs : Nat} {m : ReadMode} {rb wb : Nat} (e : execConfigureDirect inst fs m rb wb s = .next t) :
    StepMoves (.configureDirect inst fs m rb wb) false true s t := by
  refine stepMoves_host rfl (fun p t e => ?_) e
  split at e
  · exact moves_raiseHalt e
  split at e
  · exact moves_finish (.refl s) e
  refine moves_straight (fun f hf s => ?_) e
  simp only [List.mem_cons, List.not_mem_nil, or_false] at hf
  rcases hf with rfl | rfl | rfl | rfl | rfl | rfl <;> exact State.moves_wrf _ _ _ _ (.inl rfl)

theorem configureCommand_moves {r w : Byte} (e : execConfigureCommand inst r w s = .next t) :
    StepMoves (.configureCommand inst r w) false false s t := by
  refine stepMoves_host rfl (fun p t e => ?_) e
  split at e
  · exact moves_raiseHalt e
  refine moves_straight (fun f hf s => ?_) e
  simp only [List.mem_append] at hf
  rcases hf with hf | hf <;> split at hf <;> simp only [List.not_mem_nil, List.mem_singleton] at hf <;> subst hf <;>
    exact keep_wrf (by decide)

theorem getReadMode_moves (e : execGetReadMode inst s = .next t) : StepMoves (.getReadMode inst) false false s t := by
  refine stepMoves_host rfl (fun p t e => ?_) e
  split at e
  · exact moves_raiseHalt e
  split at e
  · exact moves_goTo (State.moves_rdf ..) e
  · exact moves_finish (State.moves_rdf ..) e
  · exact not_notEnabled e

theorem setDummyCycles_moves {c : Nat} (e : execSetDummyCycles inst c s = .next t) :
    StepMoves (.setDummyCycles inst c) false true s t := by
  refine stepMoves_host rfl (fun p t e => ?_) e
  split at e
  · exact moves_raiseHalt e
  split at e
  · exact moves_raiseHalt e
  split at e
  · exact moves_finish (.refl s) e
  refine moves_straight (fun f hf s => ?_) e
  simp only [List.mem_singleton] at hf
  subst hf
  exact State.moves_wrf _ _ _ _ (.inl rfl)

theorem selectChip_moves {dev : Nat} (e : execSelectChip inst dev s = .next t) :
    StepMoves (.selectChip inst dev) false false s t := by
  refine stepMoves_host rfl (fun p t e => ?_) e
  split at e
  · exact moves_raiseHalt e
  split at e
  · exact moves_raiseHalt e
  refine moves_straight (fun f hf s => ?_) e
  simp only [List.mem_singleton] at hf
  subst hf
  exact keep_wrf (by decide)

theorem Fiu.move_setFourb {b : Fiu} {dev : Nat} {v : Bool} : Fiu.Move inst ec md b (b.setFourb dev v) := by
  unfold Fiu.setFourb
  split
  · exact .fourb _ _
  · exact .refl _

theorem setFourByteAddressing_moves {dev : Nat} {en : Bool} (e : execSetFourByteAddressing inst dev en s = .next t) :
    StepMoves (.setFourByteAddressing inst dev en) false false s t := by
  refine stepMoves_host rfl (fun p t e => ?_) e
  split at e
  · exact moves_raiseHalt e
  split at e
  · exact moves_raiseHalt e
  refine moves_straight (fun f hf s => ?_) e
  simp only [List.mem_cons, List.not_mem_nil, or_false] at hf
  rcases hf with rfl | rfl
  · exact keep_wrf (by decide)
  · exact (keep_wrf (by decide)).trans (State.moves_setFiu Fiu.move_setFourb)

theorem getFourByteAddressing_moves {dev : Nat} (e : execGetFourByteAddressing inst dev s = .next t) :
    StepMoves (.getFourByteAddressing inst dev) false false s t := by
  refine stepMoves_host rfl (fun p t e => ?_) e
  split at e
  · exact moves_raiseHalt e
  split at e
  · exact moves_raiseHalt e
  split at e
  · exact moves_finish (State.moves_rdf ..) e
  · exact not_notEnabled e

theorem selectChipByAddress_moves {dev : Nat} {addr : Word} (e : execSelectChipByAddress inst dev addr s = .next t) :
    StepMoves (.selectChipByAddress inst dev addr) false false s t := by
  refine stepMoves_host rfl (fun p t e => ?_) e
  split at e
  · exact moves_raiseHalt e
  split at e
  · exact moves_raiseHalt e
  refine moves_straight (fun f hf s => ?_) e
  split at hf <;> simp only [List.mem_cons, List.not_mem_nil, or_false] at hf
  · rcases hf with rfl | rfl <;> exact keep_wrf (by decide)
  · subst hf
    exact keep_wrf (by decide)

theorem setProtectionRange_moves {idx : Nat} {a z : Word} {m : BitVec 2} (e : execSetProtectionRange inst idx a z m s = .next t) :
    StepMoves (.setProtectionRange inst idx a z m) false false s t := by
  refine stepMoves_host rfl (fun p t e => ?_) e
  split at e
  · exact moves_raiseHalt e
  split at e
  · refine moves_straight (fun f hf s => ?_) e
    simp only [List.mem_cons, List.not_mem_nil, or_false] at hf
    rcases hf with rfl | rfl | rfl <;> exact keep_wrf (by simp)
  · exact moves_finish (.refl s) e

theorem setProtectionCommand_moves {slot code : Nat} {cmd : Byte} {x y z : Nat}
    (e : execSetProtectionCommand inst slot code cmd x y z s = .next t) :
    StepMoves (.setProtectionCommand inst slot code cmd x y z) false false s t := by
  refine stepMoves_host rfl (fun p t e => ?_) e
  split at e
  · exact moves_raiseHalt e
  split at e
  · split at e
    · exact moves_finish (.refl s) e
    split at e
    · split at e
      · exact moves_finish (.refl s) e
      refine moves_straight (fun f hf s => ?_) e
      simp only [List.mem_singleton] at hf
      subst hf
      exact keep_wrf (by simp)
    · exact moves_finish (.refl s) e
  · exact moves_finish (.refl s) e

theorem configureProtection_moves {l en : Bool} {sz : Nat} {a b c d x y : Bool} {h : Option Nat}
    (e : execConfigureProtection inst l en sz a b c d x y h s = .next t) :
    StepMoves (.configureProtection inst l en sz a b c d x y h) false false s t := by
  refine stepMoves_host rfl (fun p t e => ?_) e
  split at e
  · exact moves_raiseHalt e
  split at e
  · exact moves_finish (.refl s) e
  refine moves_straight (fun f hf s => ?_) e
  simp only [List.mem_append, List.mem_cons, List.not_mem_nil, or_false] at hf
  rcases hf with hf | rfl | rfl | rfl | rfl | rfl | rfl | rfl
  · split at hf <;> simp only [List.mem_singleton, List.not_mem_nil] at hf
    subst hf
    exact (keep_wrf (by decide)).trans (State.moves_setFiu (.handler _ _))
  all_goals exact keep_wrf (by decide)

theorem getViolationStatus_moves {c : Bool} (e : execGetViolationStatus inst c s = .next t) :
    StepMoves (.getViolationStatus inst c) false false s t := by
  refine stepMoves_host rfl (fun p t e => ?_) e
  split at e
  · exact moves_raiseHalt e
  split at e
  · dsimp only at e
    split at e
    · exact moves_goTo (State.moves_rdf ..) e
    · exact moves_finish (State.moves_rdf ..) e
  · split at e
    · exact moves_finish (keep_write (by decide)) e
    · exact not_notEnabled e
  · exact not_notEnabled e

theorem waitReady_moves {timeout : Word} (e : execWaitReady inst timeout s = .next t) :
    StepMoves (.waitReady inst timeout) false false s t := by
  unfold execWaitReady at e
  extract_lets i at e
  have hf : ∀ st v t, finish (.status st) v = .next t → State.Moves inst false false v t :=
    fun st v t e => moves_finish (.refl v) e
  have hg : ∀ (p : Pos) v t, goTo i p v = .next t → State.Moves inst false false v t := fun p v t e => moves_goTo (.refl v) e
  refine stepMoves_host rfl (fun p t e => ?_) e
  split at e
  · exact moves_raiseHalt e
  split at e
  · exact moves_afterWait (fun x v h => State.moves_waitEnter h) (hg _) hf e
  · exact moves_afterWait (fun x v h => State.moves_waitPoll h) (hg _) hf e
  · exact not_notEnabled e

theorem poll_moves (e : execPoll inst s = .next t) : StepMoves (.poll inst) false false s t := by
  refine stepMoves_host rfl (fun p t e => ?_) e
  split at e
  · exact moves_raiseHalt e
  split at e
  · exact moves_finish (State.moves_rdf ..) e
  · exact not_notEnabled e

theorem fieldRead_moves {f : Field} (e : execFieldRead inst f s = .next t) : StepMoves (.fieldRead inst f) false false s t := by
  refine stepMoves_host rfl (fun p t e => ?_) e
  split at e
  · exact moves_raiseHalt e
  split at e
  · exact moves_finish (State.moves_rdf ..) e
  · exact not_notEnabled e

theorem fieldWrite_moves {f : Field} {v : Word} (e : execFieldWrite inst f v s = .next t) :
    StepMoves (.fieldWrite inst f v) false true s t := by
  refine stepMoves_host rfl (fun p t e => ?_) e
  split at e
  · exact moves_raiseHalt e
  split at e
  · exact moves_finish (State.moves_wrf _ _ _ _ (.inl rfl)) e
  · exact not_notEnabled e

theorem engineComplete_moves (e : execEngineComplete inst s = .next t) : StepMoves (.engineComplete inst) true false s t := by
  refine stepMoves_agent rfl (fun t e => ?_) e
  split at e
  · split at e
    · exact not_notEnabled e
    · rename_i l dist hb
      simp only [Host.Outcome.next.injEq] at e
      subst e
      exact State.moves_setFiu (.complete _ l dist rfl hb)
  · exact not_notEnabled e

theorem prtCheck_moves (e : execPrtCheck inst s = .next t) : StepMoves (.prtCheck inst) false false s t := by
  refine stepMoves_agent rfl (fun t e => ?_) e
  split at e
  · split at e
    · exact not_notEnabled e
    · simp only [Host.Outcome.next.injEq] at e
      subst e
      exact .of_fius rfl
  · exact not_notEnabled e

theorem irqDeliver_moves (e : execIrqDeliver inst s = .next t) : StepMoves (.irqDeliver inst) false false s t := by
  refine stepMoves_agent rfl (fun t e => ?_) e
  split at e
  · simp only [Host.Outcome.next.injEq] at e
    subst e
    exact (State.moves_setFiu (.inHandler _ true)).then_fius rfl
  · split at e
    · simp only [Host.Outcome.next.injEq] at e
      subst e
      exact State.moves_setFiu (.inHandler _ false)
    · exact not_notEnabled e

end Requests

/-- Every step but `RESET`. -/
theorem exec_moves {i : Instr} (hr : i ≠ .reset) (e : exec i s = .next t) : StepMoves i (endsTx i) (writesMode i) s t := by
  cases i with
  | reset => exact absurd rfl hr
  | configureDirect => exact configureDirect_moves e
  | configureCommand => exact configureCommand_moves e
  | getReadMode => exact getReadMode_moves e
  | setDummyCycles => exact setDummyCycles_moves e
  | umaRead => exact umaRead_moves e
  | umaWrite => exact umaWrite_moves e
  | umaIoctl => exact umaIoctl_moves e
  | pageWrite => exact pageWrite_moves e
  | selectChip => exact selectChip_moves e
  | setFourByteAddressing => exact setFourByteAddressing_moves e
  | getFourByteAddressing => exact getFourByteAddressing_moves e
  | selectChipByAddress => exact selectChipByAddress_moves e
  | setProtectionRange => exact setProtectionRange_moves e
  | setProtectionCommand => exact setProtectionCommand_moves e
  | configureProtection => exact configureProtection_moves e
  | getViolationStatus => exact getViolationStatus_moves e
  | waitReady => exact waitReady_moves e
  | regRead => exact stepMoves_raw rfl (.inr rfl) e
  | regWrite => exact stepMoves_raw rfl (.inl rfl) e
  | fieldRead => exact fieldRead_moves e
  | fieldWrite => exact fieldWrite_moves e
  | engineComplete => exact engineComplete_moves e
  | prtCheck => exact prtCheck_moves e
  | poll => exact poll_moves e
  | irqDeliver => exact irqDeliver_moves e
  | drdCfg => exact stepMoves_access rfl (.inl rfl) e
  | _ => exact stepMoves_access rfl (.inr (.inl (by decide))) e

end Sys2Proof.Machine
end

