-- ==== Sys2Proof/Laws/Invariant.lean ====
section
/-! SUPPORT. The invariant of an instance (Safety.lean) under the operations a step is made of. -/

namespace Sys2Proof.Machine

theorem Fiu.busy_false {b : Fiu} : b.busy = false ↔ b.eng = .idle := by
  unfold Fiu.busy; split <;> simp_all

/-- The registers after a store of `UMA_CTS`. -/
theorem Fiu.setCts_rd (b : Fiu) (w : Word) (q : Reg) : (b.setCts w).rd q = if q = .umaCts then w else b.rd q := by
  simp [Fiu.setCts, Fiu.rd, wordAt_putWordAt]

theorem frameWritten_keep {old new : Word} (fr : Frame) (h : heldDev new = heldDev old) : frameWritten old new fr = fr := by
  simp [frameWritten, h]

theorem frameWritten_close {old new : Word} (fr : Frame) (h : heldDev new ≠ heldDev old) (h2 : heldDev new = none) :
    frameWritten old new fr = .closed := by
  simp [frameWritten, h2]
  intro e; exact absurd (h2.trans e.symm) h

theorem frameWritten_open {old new : Word} (fr : Frame) {d : Nat} (h : heldDev new ≠ heldDev old)
    (h2 : heldDev new = some d) : frameWritten old new fr = .opened d none := by
  simp [frameWritten, h2]
  intro e; exact absurd (h2.trans e.symm) h

/-- The frame follows the held device (10_state.md R50, R57). -/
theorem frameWritten_dev {old new : Word} {fr : Frame} (h : frameDev fr = heldDev old) :
    frameDev (frameWritten old new fr) = heldDev new := by
  by_cases e : heldDev new = heldDev old
  · rw [frameWritten_keep _ e, h, e]
  · cases h2 : heldDev new with
    | none => rw [frameWritten_close _ e h2]; rfl
    | some d => rw [frameWritten_open _ e h2]; rfl

/-- `EXEC_DONE` and `RDYST` do not tell which device is held. -/
theorem heldDev_putField {f : Field} (h1 : fieldsApart f .ctsSwCs = true) (h2 : fieldsApart f .ctsDevNum = true)
    (v w : Word) : heldDev (putField f v w) = heldDev w := by
  simp [heldDev, flag, getField_putField_apart h1, getField_putField_apart h2]

theorem legalDescr_iff (l : Descr) : legalDescr l = true ↔ LegalDescr l := by
  simp only [legalDescr, LegalDescr, codeLegal, Config.burstMax, Bool.and_eq_true, Bool.or_eq_true, beq_iff_eq,
    decide_eq_true_eq]
  constructor
  · rintro ⟨⟨⟨⟨⟨⟨⟨h1, h2⟩, h3⟩, h4⟩, h5⟩, h6⟩, h7⟩, h8⟩
    exact ⟨by tauto, by tauto, by tauto, by tauto, by tauto, by tauto, h7, h8⟩
  · rintro ⟨h1, h2, h3, h4, h5, h6, h7, h8⟩
    exact ⟨⟨⟨⟨⟨⟨⟨by tauto, by tauto⟩, by tauto⟩, by tauto⟩, by tauto⟩, by tauto⟩, h7⟩, h8⟩

/-- The invariant reads registers, engine and frame. -/
theorem Fiu.Inv.congr {b c : Fiu} (h : b.Inv) (h1 : c.regs = b.regs) (h2 : c.eng = b.eng) (h3 : c.frame = b.frame) :
    c.Inv := by
  obtain ⟨i1, i2, i3, i4⟩ := h
  have hr : ∀ r, c.rd r = b.rd r := fun r => Fiu.rd_congr h1 r
  refine ⟨fun r hr' => ?_, ?_, ?_, ?_⟩
  · rw [hr]; exact i1 r hr'
  · unfold Fiu.DoneBit Fiu.bit at i2 ⊢; rw [hr, Fiu.busy_eq h2]; exact i2
  · unfold Fiu.FrameHeld at i3 ⊢; rw [hr, h3]; exact i3
  · unfold Fiu.latchOk at i4 ⊢; rw [h2, hr]; exact i4

/-- A store of any register but `UMA_CTS` keeps the invariant where the word has its reserved bits 0. -/
theorem Fiu.Inv.setReg {b : Fiu} (h : b.Inv) {r : Reg} {v : Word} (hr : r ≠ .umaCts)
    (hv : v &&& ~~~(regMask r) = 0#32) : (b.setReg r v).Inv := by
  obtain ⟨i1, i2, i3, i4⟩ := h
  have hc : (b.setReg r v).rd .umaCts = b.rd .umaCts := Fiu.rd_setReg_ne _ _ (Ne.symm hr)
  refine ⟨fun q hq => ?_, ?_, ?_, ?_⟩
  · rw [Fiu.rd_setReg]
    split
    · subst_vars; exact hv
    · exact i1 q hq
  · unfold Fiu.DoneBit Fiu.bit at i2 ⊢; simp only [fieldReg] at i2 ⊢; rw [hc]; exact i2
  · unfold Fiu.FrameHeld at i3 ⊢; rw [hc]; exact i3
  · unfold Fiu.latchOk at i4 ⊢; rw [hc]; exact i4

/-- `UMA_CTS` written and the frame with it, the engine to follow. -/
theorem Fiu.Inv.setCts {b : Fiu} (h : b.Inv) {w : Word} {e : Eng} (hv : w &&& ~~~(regMask .umaCts) = 0#32)
    (hd : flag .ctsExecDone w = Fiu.busy { b with eng := e })
    (hl : ∀ l dist, e = .busy l dist → legalDescr l = true ∧ l.dev < 4 ∧ l.wdata.length = 16
      ∧ (dist = true ∨ csRaw w l.dev = !l.held)) : Fiu.Inv { b.setCts w with eng := e } := by
  obtain ⟨i1, i2, i3, i4⟩ := h
  have hr : ∀ q, Fiu.rd { b.setCts w with eng := e } q = if q = .umaCts then w else b.rd q := fun q => Fiu.setCts_rd b w q
  refine ⟨fun q hq => ?_, ?_, ?_, ?_⟩
  · rw [hr]
    split
    · subst_vars; exact hv
    · exact i1 q hq
  · unfold Fiu.DoneBit Fiu.bit; rw [show fieldReg .ctsExecDone = .umaCts from rfl, hr, if_pos rfl, hd]; rfl
  · unfold Fiu.FrameHeld; rw [hr, if_pos rfl]
    exact frameWritten_dev i3
  · unfold Fiu.latchOk
    rw [hr, if_pos rfl]
    cases e with
    | idle => rfl
    | busy l dist =>
      obtain ⟨a1, a2, a3, a4⟩ := hl l dist rfl
      simp only [a1, a2, a3, decide_true, Bool.and_true, beq_self_eq_true, Bool.true_and]
      rcases a4 with rfl | a4
      · rfl
      · simp [a4]

/-- The device latched is one of the four, and sixteen bytes are latched (10_state.md R48). -/
theorem Fiu.latch_bounds (b : Fiu) : b.latch.dev < 4 ∧ b.latch.wdata.length = 16 := by
  constructor
  · have h : (b.get .ctsDevNum).toNat < 4 := by
      have e : b.get .ctsDevNum = b.get .ctsDevNum &&& lowMask 2 := (getField_and_lowMask .ctsDevNum _).symm
      rw [e, BitVec.toNat_and]
      exact Nat.lt_of_le_of_lt Nat.and_le_right (by decide)
    exact h
  · simp [Fiu.latch, unpackBytes]

/-- Whether a chip select is held, from the fields. -/
theorem csRaw_latch (b : Fiu) : csRaw (b.rd .umaCts) b.latch.dev = !b.latch.held := by
  unfold csRaw heldDev Fiu.latch
  cases h : flag .ctsSwCs (b.rd .umaCts) <;> simp [Fiu.get, fieldReg]

theorem Fiu.Inv.writeCts {b : Fiu} (h : b.Inv) (v : Word) : (b.writeCts v).Inv := by
  have hres := ctsWritten_reserved (b.rd .umaCts) v
  obtain ⟨f1, f2, f3, f4, f5⟩ := ctsWritten_fields (b.rd .umaCts) v
  have hdone : flag .ctsExecDone (ctsWritten (b.rd .umaCts) v) = b.busy := by
    rw [flag, f4, ← h.2.1]; rfl
  unfold Fiu.writeCts
  dsimp only
  split
  · rename_i l dist he
    refine h.setCts hres (hdone.trans (by simp [Fiu.busy, he])) ?_
    intro l' dist' e
    simp only [Eng.busy.injEq] at e
    obtain ⟨rfl, rfl⟩ := e
    have hl := h.2.2.2
    simp only [Fiu.latchOk, he, Bool.and_eq_true, decide_eq_true_eq, beq_iff_eq, Bool.or_eq_true] at hl
    obtain ⟨⟨⟨a1, a2⟩, a3⟩, a4⟩ := hl
    refine ⟨a1, a2, a3, ?_⟩
    rcases a4 with a4 | a4
    · simp [a4]
    · by_cases e : csRaw (ctsWritten (b.rd .umaCts) v) l.dev = !l.held
      · exact .inr e
      · left
        rw [a4]
        revert e
        generalize csRaw (ctsWritten (b.rd .umaCts) v) l.dev = x
        cases x <;> cases l.held <;> simp
  · rename_i he
    have hidle : Fiu.Inv { b.setCts (ctsWritten (b.rd .umaCts) v) with eng := .idle } :=
      h.setCts hres (hdone.trans (by simp [Fiu.busy, he])) (by simp)
    have hsame : ({ b.setCts (ctsWritten (b.rd .umaCts) v) with eng := .idle } : Fiu) = b.setCts (ctsWritten (b.rd .umaCts) v) := by
      simp [Fiu.setCts, ← he, Fiu.setReg]
    rw [hsame] at hidle
    split
    · rcases Fiu.trigger_cases (b.setCts (ctsWritten (b.rd .umaCts) v)) with ⟨_, e⟩ | ⟨_, _, e⟩ | ⟨hlg, _, e⟩ <;> rw [e]
      · exact hidle.congr rfl rfl rfl
      · exact hidle.congr rfl rfl rfl
      · generalize b.setCts (ctsWritten (b.rd .umaCts) v) = c at hidle hlg
        obtain ⟨i1, i2, i3, i4⟩ := hidle
        have hr : ∀ q, Fiu.rd { c.setReg .umaCts (putField .ctsExecDone 1#32 (c.rd .umaCts)) with eng := .busy c.latch false } q
            = if q = .umaCts then putField .ctsExecDone 1#32 (c.rd .umaCts) else c.rd q := fun q => Fiu.rd_setReg c _ _ _
        have hh : ∀ w, heldDev (putField .ctsExecDone 1#32 w) = heldDev w :=
          heldDev_putField (by decide) (by decide) _
        refine ⟨fun q hq => ?_, ?_, ?_, ?_⟩
        · rw [hr]
          split
          · subst_vars
            exact putField_reserved (fieldMask_sub_regMask .ctsExecDone) _ (i1 .umaCts (mem_allRegs _))
          · exact i1 q hq
        · unfold Fiu.DoneBit Fiu.bit
          rw [show fieldReg .ctsExecDone = .umaCts from rfl, hr, if_pos rfl, flag_putField_same (by decide)]
          rfl
        · unfold Fiu.FrameHeld
          rw [hr, if_pos rfl, hh]
          exact i3
        · unfold Fiu.latchOk
          rw [hr, if_pos rfl]
          have := csRaw_latch c
          obtain ⟨b1, b2⟩ := c.latch_bounds
          simp only [hlg, b1, b2, decide_true, beq_self_eq_true, Bool.and_true, Bool.true_and, Bool.false_or]
          unfold csRaw at this ⊢
          rw [hh, this]; simp
    · exact hidle

theorem Fiu.Inv.writePrtCfg {b : Fiu} (h : b.Inv) (v : Word) : (b.writePrtCfg v).Inv := by
  have hres : prtCfgWritten (b.rd .prtCfg) v &&& ~~~(regMask .prtCfg) = 0#32 := by
    have h0 := h.1 .prtCfg (mem_allRegs _)
    unfold prtCfgWritten
    split
    · exact h0
    · generalize fcsKept _ = k
      generalize b.rd .prtCfg = o at h0 ⊢
      generalize regMask .prtCfg = m at h0 ⊢
      apply BitVec.eq_of_getLsbD_eq
      intro i hi
      have := congrArg (·.getLsbD i) h0
      simp only [BitVec.getLsbD_or, BitVec.getLsbD_and, BitVec.getLsbD_not, hi, decide_true, Bool.true_and,
        BitVec.getLsbD_zero] at this ⊢
      cases hm : m.getLsbD i <;> simp_all
  exact (h.setReg (by decide) hres).congr rfl rfl rfl

/-- Every bus write keeps the invariant. -/
theorem Fiu.Inv.busWrite {b : Fiu} (h : b.Inv) (r : Reg) (v : Word) : (b.busWrite r v).Inv := by
  have hm : ∀ u, (b.mark u).Inv := fun u => h.congr rfl rfl rfl
  have hs : ∀ r v, r ≠ .umaCts → (b.setReg r (v &&& regMask r)).Inv := fun r v hr => h.setReg hr (and_mask_reserved _ _)
  cases r with
  | umaCts => exact h.writeCts v
  | prtCfg => exact h.writePrtCfg v
  | prtSts =>
    refine h.setReg (by decide) ?_
    unfold stsWritten
    have : fieldMask .stsViol = regMask .prtSts := by decide
    rw [this]; exact and_mask_reserved _ _
  | umaDr k => exact h
  | drdCfg => exact hs _ _ (by decide)
  | dwrCfg => exact hs _ _ (by decide)
  | prtRange n => simp only [Fiu.busWrite]; split; exacts [h, hs _ _ (by simp)]
  | prtCmd n => simp only [Fiu.busWrite]; split; exacts [h, hs _ _ (by simp)]
  | umaCfg => simp only [Fiu.busWrite]; split; exacts [hm _, hs _ _ (by decide)]
  | umaCmd => simp only [Fiu.busWrite]; split; exacts [hm _, hs _ _ (by decide)]
  | umaAddr => simp only [Fiu.busWrite]; split; exacts [hm _, hs _ _ (by decide)]
  | umaDw k => simp only [Fiu.busWrite]; split; exacts [hm _, hs _ _ (by simp)]

theorem Fiu.Inv.setReadBuffer {b : Fiu} (h : b.Inv) (w0 w1 w2 w3 : Word) : (b.setReadBuffer w0 w1 w2 w3).Inv := by
  have hm : ∀ (k : Fin 4) (w : Word), w &&& ~~~(regMask (.umaDr k)) = 0#32 := by
    intro k w
    have : ∀ k : Fin 4, regMask (.umaDr k) = 0xFFFFFFFF#32 := by decide
    rw [this]; simp
  exact ((((h.setReg (by simp) (hm _ _)).setReg (by simp) (hm _ _)).setReg (by simp) (hm _ _)).setReg (by simp) (hm _ _))

/-- The registers after the read buffer is stored. -/
theorem Fiu.setReadBuffer_rd (b : Fiu) (w0 w1 w2 w3 : Word) {q : Reg} (h : ∀ k, q ≠ .umaDr k) :
    (b.setReadBuffer w0 w1 w2 w3).rd q = b.rd q := by
  unfold Fiu.setReadBuffer
  rw [Fiu.rd_setReg_ne _ _ (h _), Fiu.rd_setReg_ne _ _ (h _), Fiu.rd_setReg_ne _ _ (h _), Fiu.rd_setReg_ne _ _ (h _)]

/-- `RDYST` set, `EXEC_DONE` cleared, the engine idle. -/
theorem Fiu.Inv.endTx {b : Fiu} (h : b.Inv) : b.endTx.Inv := by
  obtain ⟨i1, i2, i3, i4⟩ := h
  have hr : ∀ q, b.endTx.rd q = if q = .umaCts then putField .ctsExecDone 0#32 (putField .ctsRdyst 1#32 (b.rd .umaCts)) else b.rd q :=
    fun q => Fiu.rd_setReg b _ _ _
  refine ⟨fun q hq => ?_, ?_, ?_, rfl⟩
  · rw [hr]
    split
    · subst_vars
      exact putField_reserved (fieldMask_sub_regMask .ctsExecDone) _
        (putField_reserved (fieldMask_sub_regMask .ctsRdyst) _ (i1 .umaCts (mem_allRegs _)))
    · exact i1 q hq
  · unfold Fiu.DoneBit Fiu.bit
    rw [show fieldReg .ctsExecDone = .umaCts from rfl, hr, if_pos rfl, flag_putField_same (by decide)]
    rfl
  · unfold Fiu.FrameHeld
    rw [hr, if_pos rfl, heldDev_putField (by decide) (by decide), heldDev_putField (by decide) (by decide)]
    exact i3

theorem frameVerdict_dev (l : Descr) (v : Verdict) (fr : Frame) : frameDev (frameVerdict l v fr) = frameDev fr := by
  unfold frameVerdict
  split
  · split <;> simp_all [frameDev]
  · rfl

/-- A completed transaction keeps the invariant. -/
theorem Fiu.Inv.complete {b : Fiu} (h : b.Inv) (inst : Nat) (l : Descr) (dist : Bool) : (b.complete inst l dist).Inv := by
  apply Fiu.Inv.endTx
  split
  · exact ((h.setReadBuffer ..).congr (c := b.drawReadBuffer inst) rfl rfl rfl).congr rfl rfl rfl
  · have hf : ∀ c : Fiu, c.Inv → ∀ v, Fiu.Inv { c with frame := frameVerdict l v c.frame } := by
      rintro c ⟨i1, i2, i3, i4⟩ v
      exact ⟨i1, i2, (frameVerdict_dev ..).trans i3, i4⟩
    unfold Fiu.judged
    dsimp only
    split
    · exact hf _ ((h.setReadBuffer ..).congr rfl rfl rfl) _
    · refine hf _ (Fiu.Inv.setReg ?_ (by decide) ?_) _
      · exact (h.setReadBuffer ..).congr rfl rfl rfl
      · refine putField_reserved (fieldMask_sub_regMask .stsViol) _ ?_
        have : (b.drawReadBuffer inst).rd .prtSts = b.rd .prtSts := Fiu.setReadBuffer_rd b _ _ _ _ (by simp)
        rw [this]
        exact h.1 .prtSts (mem_allRegs _)

end Sys2Proof.Machine
end

