-- ==== Sys2Proof/Laws/Engine.lean ====
section
/-! SUPPORT. The machine's step as steps of instructions, what `RESET` leaves, and what the end of a transaction leaves. -/

namespace Sys2Proof.Machine

/-- Every next state of the machine is the state it was in, or one step of an instruction. -/
theorem step_cases {s t : State} (e : step s = .next t) : t.fius = s.fius ∨ ∃ i u, u.fius = s.fius ∧ exec i u = .next t := by
  unfold step at e
  have host : ∀ u : State, u.fius = s.fius → hostTurn u = .next t → t.fius = s.fius ∨ ∃ i u, u.fius = s.fius ∧ exec i u = .next t := by
    intro u hu e
    unfold hostTurn at e
    split at e
    · simp at e
    · split at e
      · simp at e; left; rw [← e, hu]
      · exact .inr ⟨_, _, hu, e⟩
      · rename_i record s1 hn
        split at e
        · simp at e
        · split at e
          · refine .inr ⟨_, s1, ?_, e⟩
            unfold State.hostNext at hn
            split at hn
            · simp at hn
            · split at hn <;> split at hn <;> simp at hn <;> (obtain ⟨_, rfl⟩ := hn; exact hu)
          · simp at e
  split at e
  · exact host s rfl e
  · exact host { s with sched := _ } (by rfl) e
  · unfold agentTurn at e
    split at e
    · simp at e
    · split at e
      · simp at e
      · unfold passIfNotEnabled at e
        split at e
        · simp at e; left; rw [← e]
        · exact .inr ⟨_, { s with sched := _ }, by rfl, e⟩

/-! The fields after `RESET` (10_state.md R61). -/

@[simp] theorem Fiu.reset_eng (b : Fiu) (k : Nat) : (b.reset k).eng = .idle := by simp only [Fiu.reset]
@[simp] theorem Fiu.reset_fourb (b : Fiu) (k : Nat) : (b.reset k).fourb = Vector.replicate 4 false := by simp only [Fiu.reset]
@[simp] theorem Fiu.reset_frame (b : Fiu) (k : Nat) : (b.reset k).frame = .closed := by simp only [Fiu.reset]
@[simp] theorem Fiu.reset_wire (b : Fiu) (k : Nat) : (b.reset k).wire = b.wire ++ b.resetEvents := by simp only [Fiu.reset]
@[simp] theorem Fiu.reset_handler (b : Fiu) (k : Nat) : (b.reset k).handler = none := by simp only [Fiu.reset]
@[simp] theorem Fiu.reset_inHandler (b : Fiu) (k : Nat) : (b.reset k).inHandler = false := by simp only [Fiu.reset]
@[simp] theorem Fiu.reset_sup (b : Fiu) (k : Nat) : (b.reset k).sup = .off := by simp only [Fiu.reset]
@[simp] theorem Fiu.reset_unmodelled (b : Fiu) (k : Nat) : (b.reset k).unmodelled = b.unmodelled := by simp only [Fiu.reset]
@[simp] theorem Fiu.reset_draws (b : Fiu) (k : Nat) : (b.reset k).draws = b.draws + 46 := by simp only [Fiu.reset]

/-- `RESET` on each instance. -/
theorem State.doReset_fiu (s : State) {k : Nat} (hk : k < Config.nFiu) : s.doReset.fiu k = (s.fiu k).reset k := by
  simp [State.doReset, State.fiu, fiuAt, hk]

/-- The registers after `RESET` (10_state.md R60). -/
theorem Fiu.reset_rd (b : Fiu) (k : Nat) (r : Reg) : (b.reset k).rd r = resetWord r (Config.drawWord k (b.draws + (regIndex r).val)) := by
  simp [Fiu.rd, Fiu.reset, wordAt, resetRegs, allRegs_regIndex]

theorem resetWord_umaCts (d : Word) : resetWord .umaCts d = 0x00010000#32 := by rw [resetWord_drawless (by decide)]; decide

theorem resetWord_prtCfg (d : Word) : resetWord .prtCfg d = 0#32 := by rw [resetWord_drawless (by decide)]; decide

theorem resetWord_prtSts (d : Word) : resetWord .prtSts d = 0#32 := by rw [resetWord_drawless (by decide)]; decide

theorem resetWord_prtRange (n) (d : Word) : resetWord (.prtRange n) d = 0#32 := by rw [resetWord_drawless (by revert n; decide)]; revert n; decide

theorem resetWord_prtCmd (n) (d : Word) : resetWord (.prtCmd n) d = 0#32 := by rw [resetWord_drawless (by revert n; decide)]; revert n; decide

/-- A bus write changes no register but the one it addresses. -/
theorem Fiu.busWrite_rd_ne (b : Fiu) {r q : Reg} (v : Word) (h : q ≠ r) : (b.busWrite r v).rd q = b.rd q := by
  have hs : ∀ (b : Fiu) v, (b.setReg r v).rd q = b.rd q := fun b v => Fiu.rd_setReg_ne _ _ h
  cases r <;> simp only [Fiu.busWrite]
  case umaCts =>
    unfold Fiu.writeCts
    have hc : ∀ w, (b.setCts w).rd q = b.rd q := by intro w; simp [Fiu.setCts_rd, h]
    dsimp only
    split
    · exact hc _
    · split
      · rcases Fiu.trigger_cases (b.setCts (ctsWritten (b.rd .umaCts) v)) with ⟨_, e⟩ | ⟨_, _, e⟩ | ⟨_, _, e⟩ <;> rw [e]
        · exact hc _
        · exact hc _
        · exact (hs _ _).trans (hc _)
      · exact hc _
  case prtCfg => exact hs _ _
  case prtRange => split; exacts [rfl, hs _ _]
  case prtCmd => split; exacts [rfl, hs _ _]
  case umaCfg => split; exacts [rfl, hs _ _]
  case umaCmd => split; exacts [rfl, hs _ _]
  case umaAddr => split; exacts [rfl, hs _ _]
  case umaDw => split; exacts [rfl, hs _ _]
  all_goals exact hs _ _

/-- No bus write ends a running transaction (42_uma_engine.md R172). -/
theorem Fiu.busWrite_busy (b : Fiu) (r : Reg) (v : Word) {l : Descr} {dist : Bool} (h : b.eng = .busy l dist) : ∃ d, (b.busWrite r v).eng = .busy l d := by
  cases r <;> simp only [Fiu.busWrite]
  case umaCts => unfold Fiu.writeCts; rw [h]; exact ⟨_, rfl⟩
  case prtCfg => exact ⟨dist, h⟩
  case prtRange => split <;> exact ⟨dist, h⟩
  case prtCmd => split <;> exact ⟨dist, h⟩
  case umaCfg => split <;> exact ⟨dist, h⟩
  case umaCmd => split <;> exact ⟨dist, h⟩
  case umaAddr => split <;> exact ⟨dist, h⟩
  case umaDw => split <;> exact ⟨dist, h⟩
  all_goals exact ⟨dist, h⟩

/-- The registers the end of a transaction leaves. -/
theorem Fiu.complete_rd (b : Fiu) (inst : Nat) (l : Descr) (dist : Bool) {q : Reg} (h1 : q ≠ .umaCts) (h2 : q ≠ .prtSts) (h3 : ∀ k, q ≠ .umaDr k) :
    (b.complete inst l dist).rd q = b.rd q := by
  have hs : ∀ c : Fiu, c.endTx.rd q = c.rd q := fun c => Fiu.rd_setReg_ne c _ h1
  unfold Fiu.complete
  rw [hs]
  have hd : ∀ w0 w1 w2 w3, (b.setReadBuffer w0 w1 w2 w3).rd q = b.rd q := fun w0 w1 w2 w3 => Fiu.setReadBuffer_rd b _ _ _ _ h3
  split
  · exact hd _ _ _ _
  · unfold Fiu.judged
    dsimp only
    split
    · exact hd _ _ _ _
    · exact (Fiu.rd_setReg_ne _ _ h2).trans (hd _ _ _ _)

/-- Pin levels as the equation of a chip select. -/
theorem pinLevels_getD (p c : Word) {d : Nat} (h : d < 4) : (pinLevels p c).getD d true = csPin p c d := by
  interval_cases d <;> rfl

theorem levelsDriving_getD (b : Fiu) (l : Descr) {d : Nat} (h : d < 4) :
    (b.levelsDriving l).getD d true = csPinOf (b.rd .prtCfg) d (b.rawDriving l d) := by
  interval_cases d <;> rfl

theorem mem_devices (d : Nat) : d ∈ devices ↔ d < 4 := by simp [devices]; omega

/-- No pin changes, no event. -/
theorem pinEvents_same {x y : List Bool} (h : ∀ d < 4, x.getD d true = y.getD d true) : pinEvents x y = [] := by
  simp only [pinEvents, List.append_eq_nil_iff, List.map_eq_nil_iff, List.filter_eq_nil_iff]
  constructor <;> intro d hd <;> rw [mem_devices] at hd <;> rw [h d hd] <;> simp

theorem filter_one (p : Nat → Bool) {d : Nat} (hd : d < 4) (hp : p d = true) (hn : ∀ k < 4, k ≠ d → p k = false) :
    devices.filter p = [d] := by
  interval_cases d <;> simp [devices, hp, hn]

/-- One pin falls. -/
theorem pinEvents_fall {x y : List Bool} {d : Nat} (hd : d < 4) (hx : x.getD d true = true) (hy : y.getD d true = false)
    (h : ∀ k < 4, k ≠ d → x.getD k true = y.getD k true) : pinEvents x y = [.csLow d] := by
  have h1 : devices.filter (fun d => !(x.getD d true) && y.getD d true) = [] := by
    rw [List.filter_eq_nil_iff]
    intro k hk; rw [mem_devices] at hk
    by_cases e : k = d
    · subst e; rw [hx]; simp
    · rw [h k hk e]; simp
  have h2 : devices.filter (fun d => x.getD d true && !(y.getD d true)) = [d] := by
    apply filter_one _ hd
    · rw [hx, hy]; rfl
    · intro k hk e; rw [h k hk e]; simp
  simp only [pinEvents, h1, h2]; rfl

/-- One pin rises. -/
theorem pinEvents_rise {x y : List Bool} {d : Nat} (hd : d < 4) (hx : x.getD d true = false) (hy : y.getD d true = true)
    (h : ∀ k < 4, k ≠ d → x.getD k true = y.getD k true) : pinEvents x y = [.csHigh d] := by
  have h1 : devices.filter (fun d => x.getD d true && !(y.getD d true)) = [] := by
    rw [List.filter_eq_nil_iff]
    intro k hk; rw [mem_devices] at hk
    by_cases e : k = d
    · subst e; rw [hx]; simp
    · rw [h k hk e]; simp
  have h2 : devices.filter (fun d => !(x.getD d true) && y.getD d true) = [d] := by
    apply filter_one _ hd
    · rw [hx, hy]; rfl
    · intro k hk e; rw [h k hk e]; simp
  simp only [pinEvents, h1, h2]; rfl

/-- Byte `j` of a packed word (20_memory.md R70). -/
theorem wordByte_wordOfBytes (b0 b1 b2 b3 : Byte) :
    wordByte (wordOfBytes b0 b1 b2 b3) 0 = b0 ∧ wordByte (wordOfBytes b0 b1 b2 b3) 1 = b1
      ∧ wordByte (wordOfBytes b0 b1 b2 b3) 2 = b2 ∧ wordByte (wordOfBytes b0 b1 b2 b3) 3 = b3 := by
  unfold wordByte wordOfBytes
  refine ⟨?_, ?_, ?_, ?_⟩ <;>
    (apply BitVec.eq_of_getLsbD_eq; intro i hi
     simp only [BitVec.getLsbD_setWidth, BitVec.getLsbD_ushiftRight, BitVec.getLsbD_or, BitVec.getLsbD_shiftLeft]
     interval_cases i <;> simp)

/-- Packing and reading back (20_memory.md R70). -/
theorem wordByte_packWord (b : List Byte) (k : Nat) {j : Nat} (hj : j < 4) : wordByte (packWord b k) j = b.getD (4 * k + j) 0#8 := by
  unfold packWord
  obtain ⟨h0, h1, h2, h3⟩ := wordByte_wordOfBytes (b.getD (4 * k) 0#8) (b.getD (4 * k + 1) 0#8) (b.getD (4 * k + 2) 0#8)
    (b.getD (4 * k + 3) 0#8)
  interval_cases j <;> assumption

end Sys2Proof.Machine
end

