-- ==== Sys2Proof/Laws/Requests.lean ====
section
/-! SUPPORT. Requests that are a fixed list of field writes: what a field write leaves in an instance, and the run of such a
request from its first step to its end. -/

namespace Sys2Proof.Machine

/-- What `WRF` leaves in an instance. -/
def Fiu.wrf (b : Fiu) (f : Field) (v : Word) : Fiu := b.busWrite (fieldReg f) (b.rmw f v)

/-- A step of a request, as a change of the machine and as a change of its instance: it touches the instance only, is blind to
the sequencer, and its accesses count two. -/
structure Acc (inst : Nat) (f : State → State) (g : Fiu → Fiu) : Prop where
  blind : SeqBlind f
  fiu : ∀ s, (f s).fiu inst = g (s.fiu inst)
  touched : ∀ s, State.Touched inst s (f s)
  trace : ∀ s, (f s).trace.length = s.trace.length + 2

/-- A field write of a register that is not a read-data register. -/
theorem acc_wrf {inst : Nat} (hi : inst < Config.nFiu) {f : Field} (hf : ∀ k, fieldReg f ≠ .umaDr k) (v : Word) :
    Acc inst (·.wrf inst f v) (·.wrf f v) where
  blind := seqBlind_wrf inst f v
  fiu s := State.fiu_wrf hi (.inr hf) v
  touched s := State.touched_wrf s inst f v
  trace s := by simp [State.wrf_stored (.inr hf)]

/-- The steps of a list set no mark and keep `IN_HANDLER`. -/
def keeps (b : Fiu) (gs : List (Fiu → Fiu)) : Prop :=
  match gs with
  | [] => True
  | g :: rest => (g b).inHandler = b.inHandler ∧ (g b).unmodelled = b.unmodelled ∧ keeps (g b) rest

/-- The instance after a list of steps. -/
def runAll (gs : List (Fiu → Fiu)) (b : Fiu) : Fiu := gs.foldl (fun b g => g b) b

theorem applyAll_acc {inst : Nat} {fs : List (State → State)} {gs : List (Fiu → Fiu)} (h : List.Forall₂ (Acc inst) fs gs)
    {s : State} (hs : s.Live) (hk : keeps (s.fiu inst) gs) :
    liveThrough s fs ∧ (applyAll fs s).fiu inst = runAll gs (s.fiu inst) ∧ State.Touched inst s (applyAll fs s)
      ∧ (applyAll fs s).trace.length = s.trace.length + 2 * fs.length := by
  induction h generalizing s with
  | nil => exact ⟨trivial, rfl, .refl inst s, rfl⟩
  | @cons f g fs gs hf h ih =>
    obtain ⟨h1, h2, h3⟩ := hk
    have hl : (f s).Live := (hf.touched s).live hs (by rw [hf.fiu]; exact h1) (by rw [hf.fiu]; exact h2)
    obtain ⟨i1, i2, i3, i4⟩ := ih hl (by rw [hf.fiu]; exact h3)
    refine ⟨⟨hl, i1⟩, ?_, (hf.touched s).trans i3, ?_⟩
    · simp only [applyAll, runAll, List.foldl_cons] at i2 ⊢
      rw [i2, hf.fiu]
    · simp only [applyAll, List.foldl_cons, List.length_cons] at i4 ⊢
      rw [i4, hf.trace]; omega

/-- The run of a request that is a fixed list of steps, with the bus trace as the steps leave it. -/
theorem execN_acc_trace {i : Instr} {inst : Nat} {fs : List (State → State)} {gs : List (Fiu → Fiu)} {res : Result}
    (hx : ∀ s p, s.Live → (s.Ready ∧ p = startPos ∨ s.At i p) → exec i s = straight i p s fs res)
    (h : List.Forall₂ (Acc inst) fs gs) (hne : fs ≠ []) {s : State} (hs : s.Ready) (hk : keeps (s.fiu inst) gs) :
    ∃ t, execN fs.length i s = .next t ∧ s.Ended t res ∧ s.SameOthers inst t ∧ t.fiu inst = runAll gs (s.fiu inst)
      ∧ t.trace.length = s.trace.length + 2 * fs.length ∧ t.trace = (applyAll fs s).trace := by
  obtain ⟨h1, h2, h3, h4⟩ := applyAll_acc h hs.1 hk
  have hb : ∀ f ∈ fs, SeqBlind f := by
    clear h1 h2 h3 h4 hne hx hk
    induction h with
    | nil => simp
    | cons hf _ ih =>
      intro x hx
      rcases List.mem_cons.1 hx with rfl | hx
      · exact hf.blind
      · exact ih x hx
  refine ⟨_, execN_straight hx hb hne hs h1, ?_, ?_, h2, h4, rfl⟩
  · obtain ⟨_, r1, r2, r3, r4, r5, r6, r7, r8, r9⟩ := h3.rest
    exact ⟨rfl, r2.trans hs.1.2.1, rfl, r3, r4, r5, r6, r7, r9⟩
  · exact h3.rest.1

/-- The run of a request that is a fixed list of steps. -/
theorem execN_acc {i : Instr} {inst : Nat} {fs : List (State → State)} {gs : List (Fiu → Fiu)} {res : Result}
    (hx : ∀ s p, s.Live → (s.Ready ∧ p = startPos ∨ s.At i p) → exec i s = straight i p s fs res)
    (h : List.Forall₂ (Acc inst) fs gs) (hne : fs ≠ []) {s : State} (hs : s.Ready) (hk : keeps (s.fiu inst) gs) :
    ∃ t, execN fs.length i s = .next t ∧ s.Ended t res ∧ s.SameOthers inst t ∧ t.fiu inst = runAll gs (s.fiu inst)
      ∧ t.trace.length = s.trace.length + 2 * fs.length := by
  obtain ⟨t, h1, h2, h3, h4, h5, -⟩ := execN_acc_trace hx h hne hs hk
  exact ⟨t, h1, h2, h3, h4, h5⟩

/-- The bus trace of a field write of a register that is not a read-data register: the read and the write. -/
theorem State.trace_wrf {s : State} {inst : Nat} {f : Field} (hf : ∀ k, fieldReg f ≠ .umaDr k) (v : Word) :
    (s.wrf inst f v).trace = s.trace ++ [⟨inst, false, fieldReg f, (s.fiu inst).rd (fieldReg f)⟩,
      ⟨inst, true, fieldReg f, (s.fiu inst).rmw f v⟩] := by
  rw [State.wrf_stored (.inr hf)]

/-! ### Field writes of one instance -/

/-- Registers whose write stores and does nothing else. -/
def plainReg (r : Reg) : Bool :=
  match r with
  | .drdCfg | .dwrCfg => true
  | _ => false

/-- A field write of a direct-access register stores the field. -/
theorem Fiu.wrf_plain (b : Fiu) {f : Field} (h : plainReg (fieldReg f) = true) (v : Word) :
    b.wrf f v = b.setReg (fieldReg f) (b.rmw f v &&& regMask (fieldReg f)) := by
  unfold Fiu.wrf
  unfold plainReg at h
  split at h <;> simp_all [Fiu.busWrite]

/-- The fields after a field write, where the register takes it. -/
theorem Fiu.get_setReg_rmw (b : Fiu) (f g : Field) (v : Word) :
    (b.setReg (fieldReg f) (b.rmw f v &&& regMask (fieldReg f))).get g =
      if fieldReg g = fieldReg f then getField g (putField f v (b.rd (fieldReg f))) else b.get g := by
  unfold Fiu.get
  rw [Fiu.rd_setReg]
  split
  · rename_i h; rw [getField_and_regMask h]; rfl
  · rfl

/-- The written field after a field write of a direct-access register. -/
theorem Fiu.get_wrf_same (b : Fiu) {f : Field} (h : plainReg (fieldReg f) = true) (v : Word) :
    (b.wrf f v).get f = v &&& lowMask (fieldWidth f) := by
  rw [Fiu.wrf_plain b h, Fiu.get_setReg_rmw, if_pos rfl, getField_putField_same]

/-- Fields of the direct-access registers share no bit. -/
theorem plain_apart {f g : Field} (h : plainReg (fieldReg f) = true) (hg : fieldReg g = fieldReg f) (hne : g ≠ f) :
    fieldsApart f g = true := by
  have key : ∀ r, plainReg r = true → ∀ f ∈ regFields r, ∀ g ∈ regFields r, g ≠ f → fieldsApart f g = true := by
    intro r hr
    unfold plainReg at hr
    split at hr
    · decide
    · decide
    · exact absurd hr (by simp)
  exact key _ h f (mem_regFields f) g (hg ▸ mem_regFields g) hne

/-- Every other field after a field write of a direct-access register. -/
theorem Fiu.get_wrf_ne (b : Fiu) {f g : Field} (h : plainReg (fieldReg f) = true) (hne : g ≠ f) (v : Word) :
    (b.wrf f v).get g = b.get g := by
  rw [Fiu.wrf_plain b h, Fiu.get_setReg_rmw]
  split
  · rename_i hr
    rw [getField_putField_apart (plain_apart h hr hne)]
    simp [Fiu.get, hr]
  · rfl

/-- A field write of a direct-access register changes nothing but the register. -/
theorem Fiu.wrf_plain_rest (b : Fiu) {f : Field} (h : plainReg (fieldReg f) = true) (v : Word) :
    b.SameHidden (b.wrf f v) ∧ b.SameButReg (fieldReg f) (b.wrf f v) := by
  rw [Fiu.wrf_plain b h]
  refine ⟨by simp [Fiu.SameHidden], fun q hq => ?_⟩
  rw [Fiu.rd_setReg_ne _ _ hq]

/-- A field write keeps `IN_HANDLER`. -/
@[simp] theorem Fiu.wrf_inHandler (b : Fiu) (f : Field) (v : Word) : (b.wrf f v).inHandler = b.inHandler :=
  (Fiu.busWrite_hidden b _ _).2.2.1

/-- A field write of a direct-access register sets no mark. -/
theorem Fiu.wrf_plain_unmodelled (b : Fiu) {f : Field} (h : plainReg (fieldReg f) = true) (v : Word) :
    (b.wrf f v).unmodelled = b.unmodelled := (Fiu.wrf_plain_rest b h v).1.2.2.2.2.2.2.2.1

/-- A write of `UMA_CTS` while the engine is busy or without a 1 in `EXEC_DONE` triggers nothing: the word, and what is kept. -/
theorem Fiu.writeCts_quiet {b : Fiu} {v : Word} (h : b.busy = true ∨ flag .ctsExecDone v = false) :
    (∀ q, (b.writeCts v).rd q = if q = .umaCts then ctsWritten (b.rd .umaCts) v else b.rd q)
      ∧ (b.writeCts v).busy = b.busy ∧ (b.writeCts v).unmodelled = b.unmodelled
      ∧ (b.busy = false → (b.writeCts v).eng = .idle)
      ∧ (b.writeCts v).frame = frameWritten (b.rd .umaCts) (ctsWritten (b.rd .umaCts) v) b.frame
      ∧ (b.writeCts v).wire = b.wire ++ pinEvents (pinLevels (b.rd .prtCfg) (b.rd .umaCts))
          (pinLevels (b.rd .prtCfg) (ctsWritten (b.rd .umaCts) v)) := by
  unfold Fiu.writeCts
  split
  · rename_i l dist he
    exact ⟨fun q => Fiu.setCts_rd b _ q, by simp [Fiu.busy, he], rfl, fun hb => by simp [Fiu.busy, he] at hb, rfl, rfl⟩
  · rename_i he
    have hx : flag .ctsExecDone v = false := by
      rcases h with h | h
      · simp [Fiu.busy, he] at h
      · exact h
    rw [hx]
    exact ⟨fun q => Fiu.setCts_rd b _ q, by simp [Fiu.busy, Fiu.setCts, he], rfl, fun _ => he, rfl, rfl⟩

/-- `EXEC_DONE` of an idle instance, written back by a field write of another field, is 0. -/
theorem Fiu.rmw_execDone {b : Fiu} (hd : b.DoneBit) {f : Field} (hf : fieldReg f = .umaCts)
    (ha : fieldsApart f .ctsExecDone = true) (v : Word) : b.busy = true ∨ flag .ctsExecDone (b.rmw f v) = false := by
  cases hb : b.busy
  · right
    rw [Fiu.rmw, flag_putField_apart ha, hf]
    exact hd.trans hb
  · exact .inl rfl

/-- A field write of `UMA_CTS` other than of `EXEC_DONE`: what it leaves. -/
theorem Fiu.wrf_cts {b : Fiu} (hd : b.DoneBit) {f : Field} (hf : fieldReg f = .umaCts)
    (ha : fieldsApart f .ctsExecDone = true) (v : Word) :
    (∀ q, (b.wrf f v).rd q = if q = .umaCts then ctsWritten (b.rd .umaCts) (b.rmw f v) else b.rd q)
      ∧ (b.wrf f v).busy = b.busy ∧ (b.wrf f v).unmodelled = b.unmodelled
      ∧ (b.busy = false → (b.wrf f v).eng = .idle)
      ∧ (b.wrf f v).frame = frameWritten (b.rd .umaCts) (ctsWritten (b.rd .umaCts) (b.rmw f v)) b.frame
      ∧ (b.wrf f v).wire = b.wire ++ pinEvents (pinLevels (b.rd .prtCfg) (b.rd .umaCts))
          (pinLevels (b.rd .prtCfg) (ctsWritten (b.rd .umaCts) (b.rmw f v))) := by
  have h := Fiu.writeCts_quiet (Fiu.rmw_execDone hd hf ha v)
  rw [Fiu.wrf, hf]
  exact h

/-- The fields of `UMA_CTS` after a field write of it: the written field, a cleared `RDYST`, the rest kept. -/
theorem Fiu.wrf_cts_fields {b : Fiu} (hd : b.DoneBit) {f : Field} (hf : f = .ctsDevNum ∨ f = .ctsSwCs ∨ f = .ctsRdyie)
    (v : Word) :
    (b.wrf f v).get f = v &&& lowMask (fieldWidth f)
      ∧ (∀ g, fieldReg g = .umaCts → g ≠ f → g ≠ .ctsRdyst → (b.wrf f v).get g = b.get g)
      ∧ (b.wrf f v).bit .ctsRdyst = false ∧ (b.wrf f v).DoneBit := by
  have hr : fieldReg f = .umaCts := by rcases hf with rfl | rfl | rfl <;> rfl
  have ha : fieldsApart f .ctsExecDone = true ∧ fieldsApart f .ctsRdyst = true := by
    rcases hf with rfl | rfl | rfl <;> decide
  obtain ⟨h1, h2, -⟩ := Fiu.wrf_cts hd hr ha.1 v
  obtain ⟨f1, f2, f3, f4, f5⟩ := ctsWritten_fields (b.rd .umaCts) (b.rmw f v)
  have hw : (b.wrf f v).rd .umaCts = ctsWritten (b.rd .umaCts) (b.rmw f v) := by rw [h1]; rfl
  have hrm : b.rmw f v = putField f v (b.rd .umaCts) := by rw [Fiu.rmw, hr]
  have hkeep : ∀ g, fieldReg g = .umaCts → g ≠ f → g ≠ .ctsRdyst → (b.wrf f v).get g = b.get g := by
    intro g hg hne hnr
    unfold Fiu.get
    rw [hg, hw]
    have hap : fieldsApart f g = true := by
      have hm := mem_regFields g
      rw [hg] at hm
      simp only [regFields, List.mem_cons, List.not_mem_nil, or_false] at hm
      rcases hf with rfl | rfl | rfl <;> rcases hm with rfl | rfl | rfl | rfl | rfl <;> first | decide | exact absurd rfl hne
    have hm := mem_regFields g
    rw [hg] at hm
    simp only [regFields, List.mem_cons, List.not_mem_nil, or_false] at hm
    rcases hm with rfl | rfl | rfl | rfl | rfl
    · exact f4
    · rw [f1, hrm, getField_putField_apart hap]
    · rw [f2, hrm, getField_putField_apart hap]
    · exact absurd rfl hnr
    · rw [f3, hrm, getField_putField_apart hap]
  refine ⟨?_, hkeep, ?_, ?_⟩
  · unfold Fiu.get
    rw [hr, hw, ← getField_putField_same f v (b.rd .umaCts), ← hrm]
    rcases hf with rfl | rfl | rfl
    · exact f1
    · exact f2
    · exact f3
  · unfold Fiu.bit
    rw [show fieldReg .ctsRdyst = .umaCts from rfl, hw, f5, hrm, flag_putField_apart ha.2]
    simp
  · have : (b.wrf f v).bit .ctsExecDone = b.bit .ctsExecDone := by
      have := hkeep .ctsExecDone rfl (by rcases hf with rfl | rfl | rfl <;> decide) (by decide)
      unfold Fiu.bit flag
      exact congrArg (· == 1#32) this
    exact this.trans (hd.trans h2.symm)

/-- Hidden state kept twice is kept. -/
theorem Fiu.sameHidden_trans {b c d : Fiu} (h1 : b.SameHidden c) (h2 : c.SameHidden d) : b.SameHidden d := by
  simp only [Fiu.SameHidden] at *
  simp [h1, h2]

/-! ### The wait -/

/-- One poll of an instance whose done bit is right: the bit, and a read in the trace. -/
theorem State.pollBit_spec {s : State} {inst : Nat} (hd : (s.fiu inst).DoneBit) :
    s.pollBit inst = ((s.fiu inst).busy,
      { s with trace := s.trace ++ [⟨inst, false, .umaCts, (s.fiu inst).rd .umaCts⟩] }) := by
  have h := State.rdf_stored (s := s) (inst := inst) (f := .ctsExecDone) (.inr (by simp [fieldReg]))
  have hb : ((s.fiu inst).get .ctsExecDone == 1#32) = (s.fiu inst).busy := hd
  unfold State.pollBit
  rw [h]
  simp only [hb]
  rfl

/-- Setting `SUP` is seen in the instance only. -/
theorem State.fiu_setSup {s : State} {inst : Nat} (hi : inst < Config.nFiu) (q : Sup) :
    (s.setSup inst q).fiu inst = { s.fiu inst with sup := q } := State.fiu_setFiu_same _ _ hi

/-- Setting `SUP` keeps the machine live. -/
theorem State.live_setSup {s : State} (h : s.Live) {inst : Nat} (hi : inst < Config.nFiu) (q : Sup) : (s.setSup inst q).Live :=
  (State.touched_setFiu s inst _).live h (by rw [State.fiu_setFiu_same _ _ hi]) (by rw [State.fiu_setFiu_same _ _ hi])

/-- Polls a wait has left, `none` when it is not bounded. -/
def supOf (timeout : Word) : Sup := if timeout = 0#32 then .unbounded else .bounded (pollBudget timeout)

/-- A poll may still be made. -/
def pollDue (q : Sup) : Bool :=
  match q with
  | .unbounded => true
  | .bounded (_ + 1) => true
  | _ => false

/-- `SUP` after a poll that found the engine busy. -/
def supNext (q : Sup) : Sup :=
  match q with
  | .bounded (n + 1) => .bounded n
  | q => q

/-- A turn of the poll loop with a poll due, on an idle engine: the wait is over, after one read. -/
theorem State.waitPoll_idle {s : State} {inst : Nat} (hd : (s.fiu inst).DoneBit) (hq : pollDue (s.fiu inst).sup = true)
    (hb : (s.fiu inst).busy = false) :
    s.waitPoll inst = some (some .ok,
      State.setSup { s with trace := s.trace ++ [⟨inst, false, .umaCts, (s.fiu inst).rd .umaCts⟩] } inst .off) := by
  unfold State.waitPoll
  split
  · rename_i h; simp [h, pollDue] at hq
  · simp [State.pollBit_spec hd, hb]
  · rename_i h; simp [h, pollDue] at hq
  · simp [State.pollBit_spec hd, hb]

/-- A turn of the poll loop with a poll due, on a busy engine: the wait goes on, after one read. -/
theorem State.waitPoll_busy {s : State} {inst : Nat} (hd : (s.fiu inst).DoneBit) (hq : pollDue (s.fiu inst).sup = true)
    (hb : (s.fiu inst).busy = true) :
    s.waitPoll inst = some (none,
      State.setSup { s with trace := s.trace ++ [⟨inst, false, .umaCts, (s.fiu inst).rd .umaCts⟩] } inst
        (supNext (s.fiu inst).sup)) := by
  have self : ∀ q, (s.fiu inst).sup = q → { s.fiu inst with sup := q } = s.fiu inst := by rintro _ rfl; rfl
  unfold State.waitPoll
  split
  · rename_i h; simp [h, pollDue] at hq
  · rename_i h
    have := State.setFiu_self { s with trace := s.trace ++ [⟨inst, false, .umaCts, (s.fiu inst).rd .umaCts⟩] } inst
    simp only [State.pollBit_spec hd, hb, if_true, h, supNext, State.setSup]
    congr 2
    exact (congrArg _ (self _ h)).trans this |>.symm
  · rename_i h; simp [h, pollDue] at hq
  · rename_i h; simp [State.pollBit_spec hd, hb, h, supNext]

/-- A turn of the poll loop of a bounded wait with no poll left. -/
theorem State.waitPoll_timeout {s : State} {inst : Nat} (hq : (s.fiu inst).sup = .bounded 0) :
    s.waitPoll inst = some (some .timeout, s.setSup inst .off) := by
  simp [State.waitPoll, hq]

/-- The entry of a wait is a turn of its loop. -/
theorem State.waitEnter_eq (s : State) (inst : Nat) (timeout : Word) :
    s.waitEnter inst timeout = (s.setSup inst (supOf timeout)).waitPoll inst := rfl

/-- The entry of a wait whose bound permits no poll: the wait is over, with no read. -/
theorem State.waitEnter_timeout {s : State} {inst : Nat} (hi : inst < Config.nFiu) {timeout : Word} (hn : timeout ≠ 0#32)
    (hlt : timeout.toNat < Config.pollPeriodUs) : s.waitEnter inst timeout = some (some .timeout, s.setSup inst .off) := by
  have hq : supOf timeout = .bounded 0 := by
    unfold supOf pollBudget
    rw [if_neg hn, Nat.div_eq_of_lt hlt]
  rw [State.waitEnter_eq, State.waitPoll_timeout (by rw [State.fiu_setSup hi, hq])]
  unfold State.setSup
  rw [State.setFiu_setFiu, State.fiu_setFiu_same _ _ hi]

end Sys2Proof.Machine
end

