-- ==== Sys2Proof/Laws/Runs.lean ====
section
/-! SUPPORT. Runs of the UMA requests, step by step: what stays the same while a request of one instance runs, the packed
`UMA_CFG` words field by field, the armed transaction, its completion, and the harvest of the read buffer. -/

namespace Sys2Proof.Machine

/-- In state `s`, reached from `s0` by the steps of a request, instance `inst` is `b`; the rest of the machine is as it was. -/
structure On (inst : Nat) (s0 s : State) (b : Fiu) : Prop where
  live : s.Live
  fiu : s.fiu inst = b
  others : s0.SameOthers inst s
  env : s0.SameEnv s

theorem On.start {inst : Nat} {s : State} (h : s.Live) : On inst s s (s.fiu inst) :=
  ⟨h, rfl, fun _ _ => rfl, ⟨rfl, rfl, rfl, rfl, rfl, rfl⟩⟩

/-- A touch that sets no mark and keeps `IN_HANDLER`. -/
theorem On.touch {inst : Nat} {s0 s t : State} {b c : Fiu} (h : On inst s0 s b) (ht : State.Touched inst s t)
    (hf : t.fiu inst = c) (h1 : c.inHandler = b.inHandler) (h2 : c.unmodelled = b.unmodelled) : On inst s0 t c := by
  obtain ⟨r1, _, _, r3, r4, r5, r6, r7, _, r9⟩ := ht.rest
  refine ⟨ht.live h.live (by rw [hf, h.fiu, h1]) (by rw [hf, h.fiu, h2]), hf, fun k hk => (r1 k hk).trans (h.others k hk), ?_⟩
  obtain ⟨e1, e2, e3, e4, e5, e6⟩ := h.env
  exact ⟨r3.trans e1, r4.trans e2, r5.trans e3, r6.trans e4, r7.trans e5, r9.trans e6⟩

theorem On.hostWrite {inst : Nat} {s0 s : State} {b : Fiu} (h : On inst s0 s b) (hi : inst < Config.nFiu) {r : Reg} {v : Word}
    (hm : (b.busWrite r v).unmodelled = b.unmodelled) : On inst s0 (s.hostWrite inst r v) (b.busWrite r v) :=
  h.touch (State.touched_hostWrite s inst r v) (by rw [State.fiu_hostWrite hi, h.fiu]) (Fiu.busWrite_hidden b r v).2.2.1 hm

theorem On.wrf {inst : Nat} {s0 s : State} {b : Fiu} (h : On inst s0 s b) (hi : inst < Config.nFiu) {f : Field} {v : Word}
    (hf : ∀ k, fieldReg f ≠ .umaDr k) (hm : (b.wrf f v).unmodelled = b.unmodelled) :
    On inst s0 (s.wrf inst f v) (b.wrf f v) :=
  h.touch (State.touched_wrf s inst f v) (by rw [State.fiu_wrf hi (.inr hf), h.fiu]; rfl) (Fiu.wrf_inHandler b f v) hm

theorem On.hostRead {inst : Nat} {s0 s : State} {b : Fiu} (h : On inst s0 s b) {r : Reg}
    (hr : b.busy = false ∨ ∀ k, r ≠ .umaDr k) : (s.hostRead inst r).1 = b.rd r ∧ On inst s0 (s.hostRead inst r).2 b := by
  have e := State.hostRead_stored (s := s) (inst := inst) (r := r) (by rw [h.fiu]; exact hr)
  refine ⟨by rw [e, h.fiu], h.touch (State.touched_hostRead s inst r) ?_ rfl rfl⟩
  rw [e]
  exact h.fiu

theorem On.rdf {inst : Nat} {s0 s : State} {b : Fiu} (h : On inst s0 s b) {f : Field}
    (hf : ∀ k, fieldReg f ≠ .umaDr k) : (s.rdf inst f).1 = b.get f ∧ On inst s0 (s.rdf inst f).2 b := by
  obtain ⟨h1, h2⟩ := h.hostRead (r := fieldReg f) (.inr hf)
  exact ⟨by unfold State.rdf Fiu.get; rw [← h1], h2⟩

theorem On.setSup {inst : Nat} {s0 s : State} {b : Fiu} (h : On inst s0 s b) (hi : inst < Config.nFiu) (q : Sup) :
    On inst s0 (s.setSup inst q) { b with sup := q } :=
  h.touch (State.touched_setFiu s inst _) (by rw [State.fiu_setSup hi, h.fiu]) rfl rfl

/-- The wait of a request on an idle engine is over at once. -/
theorem On.waitEnter {inst : Nat} {s0 s : State} {b : Fiu} (h : On inst s0 s b) (hi : inst < Config.nFiu) {timeout : Word}
    (hd : b.DoneBit) (hb : b.busy = false) (ht : timeout = 0#32 ∨ Config.pollPeriodUs ≤ timeout.toNat) :
    ∃ t, s.waitEnter inst timeout = some (some .ok, t) ∧ On inst s0 t { b with sup := .off } := by
  have h1 := h.setSup hi (supOf timeout)
  have hq : pollDue (supOf timeout) = true := by
    unfold supOf
    split
    · rfl
    · rename_i hn
      rcases ht with ht | ht
      · exact absurd ht hn
      · obtain ⟨k, hk⟩ : ∃ k, pollBudget timeout = k + 1 :=
          ⟨pollBudget timeout - 1, by
            have : 1 ≤ pollBudget timeout := Nat.div_pos ht (by simp [Config.pollPeriodUs])
            omega⟩
        rw [hk]; rfl
  have e := State.waitPoll_idle (s := s.setSup inst (supOf timeout)) (inst := inst) (by rw [h1.fiu]; exact hd)
    (by rw [h1.fiu]; exact hq) (by rw [h1.fiu]; exact hb)
  refine ⟨_, (State.waitEnter_eq s inst timeout).trans e, ?_⟩
  have h2 : On inst s0 { s.setSup inst (supOf timeout) with trace := (s.setSup inst (supOf timeout)).trace ++
      [⟨inst, false, .umaCts, ((s.setSup inst (supOf timeout)).fiu inst).rd .umaCts⟩] } { b with sup := supOf timeout } :=
    ⟨h1.live, h1.fiu, h1.others, h1.env⟩
  exact h2.setSup hi .off

/-- The move to the next position. -/
theorem On.goTo {inst : Nat} {s0 s : State} {b : Fiu} (h : On inst s0 s b) (i : Instr) (p : Pos) :
    ∃ t, goTo i p s = .next t ∧ t.At i p ∧ On inst s0 t b :=
  ⟨_, goTo_live h.live.2.2 i p, ⟨h.live, rfl⟩, ⟨h.live, h.fiu, h.others, h.env⟩⟩

/-- The end of a request. -/
theorem On.finish {inst : Nat} {s0 s : State} {b : Fiu} (h : On inst s0 s b) (res : Result) :
    ∃ t, finish res s = .next t ∧ s0.Ended t res ∧ s0.SameOthers inst t ∧ t.fiu inst = b :=
  ⟨_, finish_live h.live.2.2 res, ⟨rfl, h.live.2.1, rfl, h.env⟩, h.others, h.fiu⟩

/-- One turn of a bounded wait on a busy engine that ends its request on a timeout: with no poll left the request ends, else it
goes on one poll later. -/
theorem On.timeoutTurn {inst : Nat} {s0 s : State} {b : Fiu} {n : Nat} {i : Instr} {q : Pos} {cont : Status → State → Out}
    {res : Result} (h : On inst s0 s { b with sup := .bounded n }) (hi : inst < Config.nFiu) (hd : b.DoneBit) (hb : b.busy = true)
    (hc : ∀ s, cont .timeout s = Machine.finish res s) :
    ∃ t, afterWait (s.waitPoll inst) (Machine.goTo i q) cont = .next t
      ∧ (n = 0 → s0.Ended t res ∧ s0.SameOthers inst t ∧ t.fiu inst = { b with sup := .off } ∧ t.trace = s.trace)
      ∧ ∀ k, n = k + 1 → t.At i q ∧ On inst s0 t { b with sup := .bounded k } ∧ t.trace.length = s.trace.length + 1 := by
  cases n with
  | zero =>
    obtain ⟨t, e, h1, h2, h3⟩ := (h.setSup hi .off).finish res
    have ht : t.trace = s.trace := by
      rw [finish_live (h.setSup hi .off).live.2.2, Host.Outcome.next.injEq] at e
      rw [← e]; simp [State.setSup, State.setFiu]
    refine ⟨t, ?_, fun _ => ⟨h1, h2, h3, ht⟩, fun k hk => by omega⟩
    rw [State.waitPoll_timeout (by rw [h.fiu])]
    simp only [afterWait, hc, e]
  | succ k =>
    have e := State.waitPoll_busy (s := s) (inst := inst) (by rw [h.fiu]; exact hd) (by rw [h.fiu]; rfl) (by rw [h.fiu]; exact hb)
    have h2 : On inst s0 { s with trace := s.trace ++ [⟨inst, false, .umaCts, (s.fiu inst).rd .umaCts⟩] }
        { b with sup := .bounded (k + 1) } := ⟨h.live, h.fiu, h.others, h.env⟩
    have hs : supNext (s.fiu inst).sup = .bounded k := by rw [h.fiu]; rfl
    have h3 := h2.setSup hi (.bounded k)
    rw [hs] at e
    obtain ⟨t, e', h4, h5⟩ := h3.goTo i q
    have ht : t.trace.length = s.trace.length + 1 := by
      rw [goTo_live h3.live.2.2, Host.Outcome.next.injEq] at e'
      rw [← e']; simp [State.setSup, State.setFiu]
    refine ⟨t, ?_, fun hk => by omega, fun j hj => ?_⟩
    · rw [e]; simp only [afterWait, e']
    · obtain rfl : k = j := by omega
      exact ⟨h4, h5, ht⟩

/-- A request whose wait stands at its entry `pe`, with poll position `pl`, and whose bound runs out on a busy engine, ends with
`res` after as many polls as the bound permits (46_supervisor.md R271, R273). -/
theorem On.timeout {inst : Nat} {s0 s : State} {b : Fiu} {i : Instr} {pe pl : Pos} {cont cont' : Status → State → Out}
    {res : Result} {tm : Word} (h : On inst s0 s b) (ha : s.At i pe) (hi : inst < Config.nFiu) (hd : b.DoneBit) (hb : b.busy = true)
    (hn : tm ≠ 0#32) (hc : ∀ s, cont .timeout s = Machine.finish res s) (hc' : ∀ s, cont' .timeout s = Machine.finish res s)
    (hentry : ∀ s : State, s.At i pe → exec i s = afterWait (s.waitEnter inst tm) (Machine.goTo i pl) cont)
    (hpoll : ∀ s : State, s.At i pl → exec i s = afterWait (s.waitPoll inst) (Machine.goTo i pl) cont') :
    ∃ t, execN (tm.toNat / Config.pollPeriodUs + 1) i s = .next t ∧ s0.Ended t res ∧ s0.SameOthers inst t
      ∧ t.fiu inst = { b with sup := .off } ∧ t.trace.length = s.trace.length + tm.toNat / Config.pollPeriodUs := by
  have loop : ∀ (n : Nat) (x : State), On inst s0 x { b with sup := .bounded n } →
      exec i x = afterWait (x.waitPoll inst) (Machine.goTo i pl) cont' →
      ∃ t, execN (n + 1) i x = .next t ∧ s0.Ended t res ∧ s0.SameOthers inst t ∧ t.fiu inst = { b with sup := .off }
        ∧ t.trace.length = x.trace.length + n := by
    intro n
    induction n with
    | zero =>
      intro x hx e
      obtain ⟨t, e1, h1, -⟩ := hx.timeoutTurn (i := i) (q := pl) hi hd hb hc'
      obtain ⟨a1, a2, a3, a4⟩ := h1 rfl
      exact ⟨t, by rw [execN_one, e, e1], a1, a2, a3, by rw [a4]; rfl⟩
    | succ n ih =>
      intro x hx e
      obtain ⟨t, e1, -, h2⟩ := hx.timeoutTurn (i := i) (q := pl) hi hd hb hc'
      obtain ⟨a1, a2, a3⟩ := h2 n rfl
      obtain ⟨t', b1, b2, b3, b4, b5⟩ := ih t a2 (hpoll t a1)
      exact ⟨t', by rw [execN_cons (e.trans e1), b1], b2, b3, b4, by rw [b5, a3]; omega⟩
  have hq : supOf tm = .bounded (pollBudget tm) := by unfold supOf; rw [if_neg hn]
  have hx := h.setSup hi (supOf tm)
  rw [hq] at hx
  -- the entry is a turn of the loop from the state with `SUP` set
  obtain ⟨t, e1, h1, h2⟩ := hx.timeoutTurn (i := i) (q := pl) hi hd hb hc
  have e : exec i s = .next t := by
    rw [hentry s ha, State.waitEnter_eq, hq, e1]
  show ∃ t, execN (pollBudget tm + 1) i s = .next t ∧ _ ∧ _ ∧ _ ∧ t.trace.length = s.trace.length + pollBudget tm
  have htr : (s.setSup inst (.bounded (pollBudget tm))).trace = s.trace := by simp [State.setSup, State.setFiu]
  cases hB : pollBudget tm with
  | zero =>
    obtain ⟨a1, a2, a3, a4⟩ := h1 hB
    exact ⟨t, by rw [execN_one, e], a1, a2, a3, by rw [a4, htr]; rfl⟩
  | succ n =>
    obtain ⟨a1, a2, a3⟩ := h2 n hB
    obtain ⟨t', b1, b2, b3, b4, b5⟩ := loop n t a2 (hpoll t a1)
    exact ⟨t', by rw [execN_cons e, b1], b2, b3, b4, by rw [b5, a3, htr]; omega⟩

/-! ### The armed transaction -/

/-- A chip select is forced to the active level (10_state.md R57). -/
theorem forcedActive_false {p : Word} (h : ∀ k < 2, csForced p k ≠ some false) : forcedActive p = false := by
  unfold forcedActive
  rw [beq_eq_false_iff_ne.2 (h 0 (by omega)), beq_eq_false_iff_ne.2 (h 1 (by omega))]
  rfl

/-- The descriptor latched after `UMA_CTS` was stored. -/
theorem latch_setCts (b : Fiu) (w : Word) :
    (b.setCts w).latch = descrOf b (getField .ctsDevNum w).toNat (!(flag .ctsSwCs w)) := by
  unfold Fiu.latch descrOf
  simp only [Fiu.get, fieldReg, Fiu.setCts_rd, if_true, reduceCtorEq, if_false]
  congr 1
  · simp [getField, fieldLo, fieldWidth, fieldLayout]
    apply BitVec.eq_of_getLsbD_eq
    intro i hi
    simp [getLsbD_lowMask, hi]
  · have : lowMask 32 = BitVec.allOnes 32 := by decide
    simp only [getField, fieldLo, fieldWidth, fieldLayout, this, BitVec.and_allOnes]
    simp

/-- The field write of `EXEC_DONE` on an idle engine with a legal transaction and no chip select forced low arms it. -/
theorem Fiu.arm {b : Fiu} (hb : b.eng = .idle)
    (hl : LegalDescr (descrOf b (b.get .ctsDevNum).toNat (!(b.bit .ctsSwCs))))
    (hf : ∀ k < 2, csForced (b.rd .prtCfg) k ≠ some false) :
    (b.wrf .ctsExecDone 1#32).eng = .busy (descrOf b (b.get .ctsDevNum).toNat (!(b.bit .ctsSwCs))) false
      ∧ (∀ q, q ≠ .umaCts → (b.wrf .ctsExecDone 1#32).rd q = b.rd q)
      ∧ (b.wrf .ctsExecDone 1#32).unmodelled = b.unmodelled
      ∧ (b.wrf .ctsExecDone 1#32).bit .ctsRdyst = false
      ∧ (b.wrf .ctsExecDone 1#32).get .ctsDevNum = b.get .ctsDevNum
      ∧ (b.wrf .ctsExecDone 1#32).bit .ctsSwCs = b.bit .ctsSwCs
      ∧ (b.wrf .ctsExecDone 1#32).frame = b.frame
      ∧ (b.wrf .ctsExecDone 1#32).wire = b.wire
      ∧ (b.wrf .ctsExecDone 1#32).DoneBit := by
  set v := b.rmw .ctsExecDone 1#32 with hv
  set new := ctsWritten (b.rd .umaCts) v with hnew
  obtain ⟨f1, f2, f3, f4, f5⟩ := ctsWritten_fields (b.rd .umaCts) v
  have hx : flag .ctsExecDone v = true := by rw [hv, Fiu.rmw, flag_putField_same rfl]; decide
  have hw : b.wrf .ctsExecDone 1#32 = (b.setCts new).trigger := by
    show b.writeCts v = _
    unfold Fiu.writeCts
    rw [hb]
    simp [hx, hnew]
  have a1 : getField .ctsDevNum v = getField .ctsDevNum (b.rd .umaCts) := getField_putField_apart (by decide) _ _
  have a2 : getField .ctsSwCs v = getField .ctsSwCs (b.rd .umaCts) := getField_putField_apart (by decide) _ _
  have a4 : flag .ctsRdyst v = flag .ctsRdyst (b.rd .umaCts) := flag_putField_apart (by decide) _ _
  have hld : (b.setCts new).latch = descrOf b (b.get .ctsDevNum).toNat (!(b.bit .ctsSwCs)) := by
    rw [latch_setCts, f1, a1, flag, f2, a2]; rfl
  have hheld : heldDev new = heldDev (b.rd .umaCts) := by
    simp only [heldDev, flag, hnew, f2, a2, f1, a1]
    rfl
  have hp : (b.setCts new).rd .prtCfg = b.rd .prtCfg := Fiu.setCts_rd b new .prtCfg
  have e : (b.setCts new).trigger = { (b.setCts new).setReg .umaCts (putField .ctsExecDone 1#32 ((b.setCts new).rd .umaCts)) with
      eng := .busy (b.setCts new).latch false } := by
    rcases Fiu.trigger_cases (b.setCts new) with ⟨c1, _⟩ | ⟨_, c2, _⟩ | ⟨_, _, e⟩
    · rw [hld] at c1
      rw [← legalDescr_iff] at hl
      rw [hl] at c1
      exact absurd c1 (by simp)
    · rw [hp, forcedActive_false hf] at c2
      exact absurd c2 (by simp)
    · exact e
  have hcts : (b.wrf .ctsExecDone 1#32).rd .umaCts = putField .ctsExecDone 1#32 new := by
    rw [hw, e]
    show Fiu.rd ((b.setCts new).setReg .umaCts _) .umaCts = _
    rw [Fiu.rd_setReg_same, Fiu.setCts_rd, if_pos rfl]
  refine ⟨by rw [hw, e, hld], fun q hq => ?_, by rw [hw, e]; rfl, ?_, ?_, ?_, ?_, ?_, ?_⟩
  · rw [hw, e]
    show Fiu.rd ((b.setCts new).setReg .umaCts _) q = _
    rw [Fiu.rd_setReg_ne _ _ hq, Fiu.setCts_rd, if_neg hq]
  · unfold Fiu.bit
    rw [show fieldReg .ctsRdyst = .umaCts from rfl, hcts, flag_putField_apart (by decide), hnew, f5, a4]
    simp
  · unfold Fiu.get
    rw [show fieldReg .ctsDevNum = .umaCts from rfl, hcts, getField_putField_apart (by decide), hnew, f1, a1]
  · unfold Fiu.bit
    rw [show fieldReg .ctsSwCs = .umaCts from rfl, hcts, flag_putField_apart (by decide), flag, flag, hnew, f2, a2]
  · rw [hw, e]
    show frameWritten _ _ _ = _
    exact frameWritten_keep _ hheld
  · rw [hw, e]
    show b.wire ++ pinEvents _ _ = b.wire
    have : pinLevels (b.rd .prtCfg) new = pinLevels (b.rd .prtCfg) (b.rd .umaCts) := by
      unfold pinLevels csPin csRaw
      rw [hheld]
    rw [this, pinEvents_same (fun d _ => rfl), List.append_nil]
  · unfold Fiu.DoneBit Fiu.bit
    rw [show fieldReg .ctsExecDone = .umaCts from rfl, hcts, flag_putField_same (by decide), Fiu.busy, hw, e]
    rfl

/-! ### The packed `UMA_CFG` words -/

/-- A number that fits a field is read back. -/
theorem nat32_and_lowMask {n w : Nat} (hw : w ≤ 31) (h : n < 2 ^ w) : (nat32 n &&& lowMask w).toNat = n := by
  have h2 : 2 ^ w ≤ 2 ^ 31 := Nat.pow_le_pow_right (by omega) hw
  rw [lowMask_eq (by omega), BitVec.toNat_and, nat32, BitVec.toNat_ofNat, BitVec.toNat_ofNat,
    Nat.mod_eq_of_lt (a := n) (by omega), Nat.mod_eq_of_lt (a := 2 ^ w - 1) (by omega), Nat.and_two_pow_sub_one_eq_mod,
    Nat.mod_eq_of_lt h]

theorem optCode_lt (w : Option Width) : optCode w < 2 ^ 2 := by
  rcases w with _ | w
  · decide
  · cases w <;> decide

/-- The ten fields of a packed `UMA_CFG` word (30_encoding.md R108). -/
theorem packUmaCfg_fields {cm ad wr du rd : Nat} (wc wa ww wd wx : Option Width) (h1 : cm < 2) (h2 : ad < 8) (h3 : wr < 32)
    (h4 : du < 8) (h5 : rd < 32) :
    (getField .cfgCmdsiz (packUmaCfg cm ad wr du rd wc wa ww wd wx)).toNat = cm
      ∧ (getField .cfgAddsiz (packUmaCfg cm ad wr du rd wc wa ww wd wx)).toNat = ad
      ∧ (getField .cfgWdatsiz (packUmaCfg cm ad wr du rd wc wa ww wd wx)).toNat = wr
      ∧ (getField .cfgDbsiz (packUmaCfg cm ad wr du rd wc wa ww wd wx)).toNat = du
      ∧ (getField .cfgRdatsiz (packUmaCfg cm ad wr du rd wc wa ww wd wx)).toNat = rd
      ∧ (getField .cfgCmbpck (packUmaCfg cm ad wr du rd wc wa ww wd wx)).toNat = optCode wc
      ∧ (getField .cfgAdbpck (packUmaCfg cm ad wr du rd wc wa ww wd wx)).toNat = optCode wa
      ∧ (getField .cfgWdbpck (packUmaCfg cm ad wr du rd wc wa ww wd wx)).toNat = optCode ww
      ∧ (getField .cfgDbpck (packUmaCfg cm ad wr du rd wc wa ww wd wx)).toNat = optCode wd
      ∧ (getField .cfgRdbpck (packUmaCfg cm ad wr du rd wc wa ww wd wx)).toNat = optCode wx := by
  unfold packUmaCfg
  have hap : ∀ f ∈ regFields .umaCfg, ∀ g ∈ regFields .umaCfg, g ≠ f → fieldsApart f g = true := by decide
  have skip : ∀ f g v w, f ∈ regFields .umaCfg → g ∈ regFields .umaCfg → g ≠ f → getField g (putField f v w) = getField g w :=
    fun f g v w hf hg hn => getField_putField_apart (hap f hf g hg hn) v w
  refine ⟨?_, ?_, ?_, ?_, ?_, ?_, ?_, ?_, ?_, ?_⟩ <;>
    · repeat rw [skip _ _ _ _ (by decide) (by decide) (by decide)]
      rw [getField_putField_same]
      first
        | exact nat32_and_lowMask (by decide) (by assumption)
        | exact nat32_and_lowMask (by decide) (optCode_lt _)

theorem widthCode_le (w : Width) : widthCode w ≤ 2 := by cases w <;> decide

theorem optCode_le (w : Option Width) : optCode w ≤ 2 := by
  rcases w with _ | w
  · decide
  · exact widthCode_le w

/-- The descriptor of an instance whose transaction registers hold a packed word, a command and an address. -/
theorem descrOf_packed {b : Fiu} {cm ad wr du rd : Nat} {wc wa ww wd wx : Option Width} {cmd : Byte} {addr : Word}
    (h1 : cm < 2) (h2 : ad < 8) (h3 : wr < 32) (h4 : du < 8) (h5 : rd < 32)
    (hc : b.rd .umaCfg = packUmaCfg cm ad wr du rd wc wa ww wd wx &&& regMask .umaCfg)
    (hm : b.rd .umaCmd = cmd.setWidth 32) (ha : b.rd .umaAddr = addr) (dev : Nat) (held : Bool) :
    descrOf b dev held =
      { dev := dev, held := held, cmdsiz := cm, addsiz := ad, wdatsiz := wr, dbsiz := du, rdatsiz := rd, cmbpck := optCode wc
        adbpck := optCode wa, wdbpck := optCode ww, dbpck := optCode wd, rdbpck := optCode wx, cmd := cmd, addr := addr
        wdata := (List.range 16).map b.writeByte } := by
  obtain ⟨p1, p2, p3, p4, p5, p6, p7, p8, p9, p10⟩ := packUmaCfg_fields (cm := cm) (ad := ad) (wr := wr) (du := du) (rd := rd)
    wc wa ww wd wx h1 h2 h3 h4 h5
  unfold descrOf
  rw [hc, hm, ha]
  simp only [getField_and_regMask (f := .cfgCmdsiz) (r := .umaCfg) rfl, getField_and_regMask (f := .cfgAddsiz) (r := .umaCfg) rfl,
    getField_and_regMask (f := .cfgWdatsiz) (r := .umaCfg) rfl, getField_and_regMask (f := .cfgDbsiz) (r := .umaCfg) rfl,
    getField_and_regMask (f := .cfgRdatsiz) (r := .umaCfg) rfl, getField_and_regMask (f := .cfgCmbpck) (r := .umaCfg) rfl,
    getField_and_regMask (f := .cfgAdbpck) (r := .umaCfg) rfl, getField_and_regMask (f := .cfgWdbpck) (r := .umaCfg) rfl,
    getField_and_regMask (f := .cfgDbpck) (r := .umaCfg) rfl, getField_and_regMask (f := .cfgRdbpck) (r := .umaCfg) rfl,
    p1, p2, p3, p4, p5, p6, p7, p8, p9, p10]
  congr 1
  simp

/-- Reserved bits of the command register do not touch a command byte. -/
theorem cmd_and_mask (c : Byte) : (c.setWidth 32 : Word) &&& regMask .umaCmd = c.setWidth 32 := by
  revert c; decide

theorem addr_and_mask (a : Word) : a &&& regMask .umaAddr = a := by
  rw [show regMask .umaAddr = BitVec.allOnes 32 by decide, BitVec.and_allOnes]

theorem dw_and_mask (a : Word) (k : Fin 4) : a &&& regMask (.umaDw k) = a := by
  rw [show regMask (.umaDw k) = BitVec.allOnes 32 by revert k; decide, BitVec.and_allOnes]

/-! ### Completion -/

/-- The end of a transaction leaves the engine idle, the done bit 0, and no mark. -/
theorem Fiu.complete_spec (b : Fiu) (inst : Nat) (l : Descr) (dist : Bool) :
    (b.complete inst l dist).eng = .idle ∧ (b.complete inst l dist).DoneBit
      ∧ (b.complete inst l dist).unmodelled = b.unmodelled ∧ (b.complete inst l dist).inHandler = b.inHandler
      ∧ (b.complete inst l dist).sup = b.sup ∧ (b.complete inst l dist).fourb = b.fourb
      ∧ (b.complete inst l dist).handler = b.handler := by
  have key : ∀ c : Fiu, c.endTx.eng = .idle ∧ c.endTx.DoneBit := by
    intro c
    refine ⟨rfl, ?_⟩
    show flag .ctsExecDone (Fiu.rd (c.setReg .umaCts _) .umaCts) = false
    rw [Fiu.rd_setReg_same, flag_putField_same rfl]
    decide
  refine ⟨(key _).1, (key _).2, ?_⟩
  unfold Fiu.complete
  split
  · simp [Fiu.endTx, Fiu.disturbedEnd, Fiu.drawReadBuffer, Fiu.setReadBuffer]
  · unfold Fiu.judged
    cases b.prtCheck cfg.forbidTable l <;>
      simp [Fiu.endTx, Fiu.drive, Fiu.rejectTx, Fiu.drawReadBuffer, Fiu.setReadBuffer]

/-- The engine completes while a request runs. -/
theorem On.complete {inst : Nat} {s0 s : State} {b : Fiu} (h : On inst s0 s b) (hi : inst < Config.nFiu) {l : Descr}
    {dist : Bool} (he : b.eng = .busy l dist) :
    ∃ t, exec (.engineComplete inst) s = .next t ∧ On inst s0 t (b.complete inst l dist) ∧ t.seq = s.seq := by
  obtain ⟨_, _, c3, c4, _⟩ := Fiu.complete_spec b inst l dist
  refine ⟨s.setFiu inst (b.complete inst l dist), ?_, ?_, rfl⟩
  · simp [exec, execEngineComplete, agentStep, h.live.1, instOk, hi, h.fiu, he]
  · exact h.touch (State.touched_setFiu s inst _) (State.fiu_setFiu_same _ _ hi) c4 c3

/-! ### The harvest of the read buffer -/

/-- The first `n` bytes of the read buffer, out of the words read. -/
theorem harvest_bytes (b : Fiu) (n : Nat) :
    let bytes := unpackBytes ((List.range ((n + 3) / 4)).map fun k => b.rd (.umaDr (dataIndex k))) n
    bytes.length = n ∧ ∀ j < n, bytes.getD j 0#8 = b.readByte j := by
  refine ⟨by simp [unpackBytes], fun j hj => ?_⟩
  have h : j / 4 < (n + 3) / 4 := by omega
  simp [unpackBytes, hj, Fiu.readByte, h]

/-! ### Runs with the engine prompt -/

/-- A prompt step with the engine idle. -/
theorem execPrompt_idle {n inst : Nat} {i : Instr} {s t : State} (hb : (s.fiu inst).busy = false) (h : exec i s = .next t) :
    execPrompt (n + 1) inst i s = execPrompt n inst i t := by
  simp [execPrompt, hb, h]

/-- A prompt step that first lets the engine complete. -/
theorem execPrompt_busy {n inst : Nat} {i : Instr} {s u t : State} (hb : (s.fiu inst).busy = true) (hc : exec (.engineComplete inst) s = .next u)
    (h : exec i u = .next t) :
    execPrompt (n + 1) inst i s = execPrompt n inst i t := by
  simp [execPrompt, hb, hc, h]

/-- The end of a transaction changes `UMA_CTS` only. -/
theorem Fiu.endTx_rd (b : Fiu) {q : Reg} (h : q ≠ .umaCts) : b.endTx.rd q = b.rd q := Fiu.rd_setReg_ne b _ h

/-- The read buffer begins with the bytes of the read phase (R176). -/
theorem Fiu.readBuffer_getD (b : Fiu) (inst : Nat) (l : Descr) {j : Nat} (hj : j < l.rdatsiz) :
    (b.readBuffer inst l).getD j 0#8 = (b.readPhase inst l).getD j 0#8 := by
  unfold Fiu.readBuffer
  rw [List.getD_append _ _ _ _ (by simp [Fiu.readPhase, hj])]

/-- `drive` packs the read buffer into `UMA_DR0..3` (R176). -/
theorem Fiu.drive_rd_data (b : Fiu) (inst : Nat) (l : Descr) (k : Fin 4) :
    (b.drive inst l).rd (.umaDr k) = packWord (b.readBuffer inst l) k.val := by
  show (b.setReadBuffer _ _ _ _).rd _ = _
  unfold Fiu.setReadBuffer
  simp only [Fiu.rd_setReg]
  fin_cases k <;> rfl

/-- A held transaction with protection off: its phases and the bytes read are on the wire with no chip-select event, the bytes stand in
the read buffer, and the open frame has the verdict `ALLOW` (R174 to R176, R249). -/
theorem Fiu.complete_held {b : Fiu} (inst : Nat) {l : Descr} (hp : b.bit .prtPen = false) (hl : l.held = true)
    (hr : l.rdatsiz ≤ 16) :
    (b.complete inst l false).wire = b.wire ++ outPhases l ++ phaseEvent .rdata l.rdbpck (b.readPhase inst l)
      ∧ (∀ j < l.rdatsiz, (b.complete inst l false).readByte j = (b.readPhase inst l).getD j 0#8)
      ∧ (∀ q, q ≠ .umaCts → (∀ k, q ≠ .umaDr k) → (b.complete inst l false).rd q = b.rd q)
      ∧ (b.complete inst l false).get .ctsDevNum = b.get .ctsDevNum ∧ (b.complete inst l false).bit .ctsSwCs = b.bit .ctsSwCs
      ∧ (∀ v, b.frame = .opened l.dev v → (b.complete inst l false).frame = .opened l.dev (some .allow)) := by
  have hv : b.prtCheck cfg.forbidTable l = .allow := by
    have : flag .prtPen (b.rd .prtCfg) = false := hp
    simp [Fiu.prtCheck, this]
  have hlev : b.levelsDriving l = pinLevels (b.rd .prtCfg) (b.rd .umaCts) := by
    unfold Fiu.levelsDriving pinLevels csPin Fiu.rawDriving
    simp [hl]
  have hc : b.complete inst l false = ({ b.drive inst l with frame := frameVerdict l .allow b.frame } : Fiu).endTx := by
    unfold Fiu.complete Fiu.judged
    rw [hv]; rfl
  have hrd : ∀ q, (∀ k, q ≠ .umaDr k) → (b.drive inst l).rd q = b.rd q := by
    intro q hq
    exact Fiu.setReadBuffer_rd b _ _ _ _ hq
  have hcts : (b.complete inst l false).rd .umaCts = putField .ctsExecDone 0#32 (putField .ctsRdyst 1#32 (b.rd .umaCts)) := by
    rw [hc]
    show Fiu.rd (Fiu.setReg _ .umaCts _) .umaCts = _
    rw [Fiu.rd_setReg_same]
    congr 2
    exact hrd .umaCts (by simp)
  refine ⟨?_, ?_, ?_, ?_, ?_, ?_⟩
  · rw [hc]
    show (b.wireBeforeRead l ++ phaseEvent .rdata l.rdbpck (b.readPhase inst l) ++ pinEvents (b.levelsDriving l) _) = _
    rw [Fiu.wireBeforeRead, hlev, pinEvents_same (fun d _ => rfl)]
    simp
  · intro j hj
    rw [hc]
    unfold Fiu.readByte
    rw [Fiu.endTx_rd _ (by simp)]
    show wordByte (Fiu.rd (b.drive inst l) _) _ = _
    rw [Fiu.drive_rd_data, wordByte_packWord _ _ (by omega)]
    have : 4 * (dataIndex (j / 4)).val + j % 4 = j := by simp [dataIndex]; omega
    rw [this, Fiu.readBuffer_getD b inst l hj]
  · intro q h1 h2
    rw [hc]
    show Fiu.rd (Fiu.setReg _ .umaCts _) q = _
    rw [Fiu.rd_setReg_ne _ _ h1]
    exact hrd q h2
  · unfold Fiu.get
    rw [show fieldReg .ctsDevNum = .umaCts from rfl, hcts, getField_putField_apart (by decide), getField_putField_apart (by decide)]
  · unfold Fiu.bit
    rw [show fieldReg .ctsSwCs = .umaCts from rfl, hcts, flag_putField_apart (by decide), flag_putField_apart (by decide)]
  · intro v hf
    rw [hc]
    show frameVerdict l .allow b.frame = _
    rw [hf]; simp [frameVerdict, hl]

/-- `width(log2 n)` is `n` for a legal width. -/
theorem codeBits_log2 {n : Nat} (h : n = 1 ∨ n = 2 ∨ n = 4) : codeBits (Nat.log2 n) = n := by
  rcases h with rfl | rfl | rfl <;> decide

/-- The width codes of legal `uma_ioctl` operands (R201). -/
theorem ioctlWidths_spec {asz cb ab wb rb du : Nat} (h1 : asz = 0 ∨ asz = 3 ∨ asz = 4) (h2 : du ≤ 7)
    (hw : ∀ n, n = cb ∨ n = ab ∨ n = wb ∨ n = rb → n = 1 ∨ n = 2 ∨ n = 4) :
    ∃ wc wa ww wr, ioctlWidths asz cb ab wb rb du = some (wc, wa, ww, wr) ∧ widthCode wc = Nat.log2 cb ∧ widthCode wa = Nat.log2 ab
      ∧ widthCode ww = Nat.log2 wb ∧ widthCode wr = Nat.log2 rb := by
  have key : ∀ n, n = 1 ∨ n = 2 ∨ n = 4 → ∃ w, widthOfBits n = some w ∧ widthCode w = Nat.log2 n := by
    rintro n (rfl | rfl | rfl) <;> refine ⟨_, rfl, ?_⟩ <;> decide
  obtain ⟨wc, e1, f1⟩ := key cb (hw _ (by simp))
  obtain ⟨wa, e2, f2⟩ := key ab (hw _ (by simp))
  obtain ⟨ww, e3, f3⟩ := key wb (hw _ (by simp))
  obtain ⟨wr, e4, f4⟩ := key rb (hw _ (by simp))
  refine ⟨wc, wa, ww, wr, ?_, f1, f2, f3, f4⟩
  simp only [ioctlWidths, e1, e2, e3, e4, if_pos (And.intro h1 h2)]

/-- Sixteen bytes that are the data, then zeros (R189). -/
theorem map_eq_padded (data : List Byte) (n : Nat) (hn : n ≤ 16) (hd : data.length = n) (f : Nat → Byte)
    (hf : ∀ j < 16, f j = data.getD j 0#8) : (List.range 16).map f = data ++ List.replicate (16 - n) 0#8 := by
  apply List.ext_getElem
  · simp [hd]; omega
  · intro j h1 h2
    simp at h1
    rw [List.getElem_map, List.getElem_range, hf j h1]
    by_cases hj : j < n
    · rw [List.getElem_append_left (by omega), List.getD_eq_getElem _ _ (by omega)]
    · rw [List.getElem_append_right (by omega), List.getElem_replicate, List.getD_eq_default _ _ (by omega)]

end Sys2Proof.Machine
end

