-- ==== Sys2Proof/Tests/Slice0.lean ====
section
/-! SUPPORT. Tests. Expected values are the spec's: 95_test_vectors.md (the T numbers) or the rule named. Records are written
out byte by byte. A `witness_` theorem shows concrete data that meet the hypotheses of the statement of that name. -/

namespace Sys2Proof.Tests

open Sys2Proof.Machine

set_option maxRecDepth 20000

/-! ### Small states -/

/-- The reset state with instance 0 changed. -/
def withFiu (f : Fiu → Fiu) : State := State.reset.setFiu 0 (f resetFiu)

/-- The reset state with registers of instance 0 stored. -/
def withRegs (l : List (Reg × Word)) : State := withFiu fun b => l.foldl (fun b p => b.setReg p.1 p.2) b

/-- A JEDEC-id read, as 95_test_vectors.md P1 latches it. -/
def jedec : Descr where
  dev := 0
  held := false
  cmdsiz := 1
  addsiz := 0
  wdatsiz := 0
  dbsiz := 0
  rdatsiz := 3
  cmbpck := 0
  adbpck := 0
  wdbpck := 0
  dbpck := 0
  rdbpck := 0
  cmd := 0x9F#8
  addr := 0#32
  wdata := List.replicate 16 0#8

/-- A write command with a 3-byte address, all phases 1 bit wide. -/
def program (addr : Word) : Descr := { jedec with cmd := 0x02#8, addsiz := 3, addr := addr, wdatsiz := 1, rdatsiz := 0 }

/-- The engine of instance 0 busy with `l`, and registers stored. -/
def busyWith (l : Descr) (dist : Bool) (regs : List (Reg × Word)) : State :=
  withFiu fun b => { (([(Reg.umaCts, 0x00010001#32)] ++ regs).foldl (fun b p => b.setReg p.1 p.2) b) with eng := .busy l dist }

/-- Register `r` of instance 0 in the next state. -/
def regAfter (o : Out) (r : Reg) : Option Word := (nextOf o).map fun t => (t.fiu 0).rd r

/-- The result in the next state. -/
def resultAfter (o : Out) : Option Result := (nextOf o).bind (·.result)

/-- The wire log of instance 0 in the next state. -/
def wireAfter (o : Out) : Option (List WireEvent) := (nextOf o).map fun t => (t.fiu 0).wire

/-- The mark of instance 0 in the next state. -/
def markAfter (o : Out) : Option Unmodelled := (nextOf o).bind fun t => (t.fiu 0).unmodelled

/-- The trace in the next state, as (write, register, datum). -/
def traceAfter (o : Out) : Option (List (Bool × Reg × Word)) :=
  (nextOf o).map fun t => t.trace.map fun e => (e.isWrite, e.reg, e.data)

/-- The halt mark in the next state. -/
def haltAfter (o : Out) : Option HaltReason := (nextOf o).bind (·.halted)

/-! ### Well-formedness: one ill-formed term for each check -/

theorem test_ill_formed_direct_access : ((
  [Instr.configureDirect 65536 0 .normal 0 0, .configureDirect 0 (2 ^ 64) .normal 0 0,
    .configureDirect 0 0 .normal 256 0, .configureDirect 0 0 .normal 0 256, .configureCommand 65536 0 0,
    .getReadMode 65536, .setDummyCycles 65536 0, .setDummyCycles 0 (2 ^ 32)] : List Instr).all fun i => i.WellFormed == false) = true := by decide

theorem test_ill_formed_uma : ((
  [Instr.umaRead 65536 0 0 0 .auto 0 0, .umaRead 0 256 0 0 .auto 0 0, .umaRead 0 0 0 0 .auto (2 ^ 32) 0,
    .umaWrite 65536 0 0 0 .auto 0 0 [], .umaWrite 0 256 0 0 .auto 0 0 [], .umaWrite 0 0 0 0 .auto 2 0 [1#8],
    .umaIoctl 65536 0 0 0 0 0 0 1 1 1 1 0 0 [], .umaIoctl 0 256 0 0 0 0 0 1 1 1 1 0 0 [],
    .umaIoctl 0 0 0 0 256 0 0 1 1 1 1 0 0 [], .umaIoctl 0 0 0 0 0 (2 ^ 32) 0 1 1 1 1 0 0 [],
    .umaIoctl 0 0 0 0 0 0 0 256 1 1 1 0 0 [], .umaIoctl 0 0 0 0 0 0 0 1 256 1 1 0 0 [],
    .umaIoctl 0 0 0 0 0 0 0 1 1 256 1 0 0 [], .umaIoctl 0 0 0 0 0 0 0 1 1 1 256 0 0 [],
    .umaIoctl 0 0 0 0 0 0 0 1 1 1 1 0 256 [], .umaIoctl 0 0 0 0 0 0 1 1 1 1 1 0 0 [], .pageWrite 65536 0 0 0 0 0 [],
    .pageWrite 0 256 0 0 0 0 [], .pageWrite 0 0 0 0 0 0 [1#8]] : List Instr).all fun i => i.WellFormed == false) = true := by decide

theorem test_ill_formed_configuration : ((
  [Instr.selectChip 65536 0, .selectChip 0 256, .setFourByteAddressing 65536 0 true, .setFourByteAddressing 0 256 true,
    .getFourByteAddressing 65536 0, .getFourByteAddressing 0 256, .selectChipByAddress 65536 0 0,
    .selectChipByAddress 0 256 0, .setProtectionRange 65536 0 0 0 0, .setProtectionRange 0 256 0 0 0,
    .setProtectionCommand 65536 0 0 0 3 1 1, .setProtectionCommand 0 256 0 0 3 1 1,
    .setProtectionCommand 0 0 256 0 3 1 1, .setProtectionCommand 0 0 0 0 256 1 1,
    .setProtectionCommand 0 0 0 0 3 256 1, .setProtectionCommand 0 0 0 0 3 1 256,
    .configureProtection 65536 false false 0 false false false false false false none,
    .configureProtection 0 false false (2 ^ 64) false false false false false false none,
    .configureProtection 0 false false 0 false false false false false false (some 65536),
    .getViolationStatus 65536 true, .waitReady 65536 0] : List Instr).all fun i => i.WellFormed == false) = true := by decide

theorem test_ill_formed_bus_and_internal : ((
  [.regRead .host 65536 0 .word, .regRead .host 0 65536 .word, .regWrite .host 65536 0 .word 0,
    .regWrite .host 0 65536 .word 0, .fieldRead 65536 .stsViol, .fieldWrite 65536 .stsViol 0, .engineComplete 65536,
    .prtCheck 65536, .poll 65536, .irqDeliver 65536] : List Instr).all fun i => i.WellFormed == false) = true := by decide

theorem test_ill_formed_registers : (allRegs.all fun r => (Instr.ofReg r .host 65536 .read).WellFormed == false) = true := by
  decide

/-! ### Decoding: request ids of 30_encoding.md R114, offsets of 20_memory.md R84, and the record layout of log entry 2 -/

theorem test_decode_request_words :
    decodeTableWord 8 0x00 = some (.configureDirect 0 0 .normal 0 0)
      ∧ decodeTableWord 8 0x01 = some (.configureCommand 0 0#8 0#8)
      ∧ decodeTableWord 8 0x02 = some (.getReadMode 0)
      ∧ decodeTableWord 8 0x03 = some (.setDummyCycles 0 0)
      ∧ decodeTableWord 8 0x04 = some (.umaRead 0 0 0#8 0#32 .absent 0 0#32)
      ∧ decodeTableWord 8 0x05 = some (.umaWrite 0 0 0#8 0#32 .absent 0 0#32 [])
      ∧ decodeTableWord 8 0x06 = some (.umaIoctl 0 0 0#8 0#32 0 0 0 0 0 0 0 0#32 0 [])
      ∧ decodeTableWord 8 0x07 = some (.pageWrite 0 0 0#8 0#32 0 0#32 [])
      ∧ decodeTableWord 8 0x08 = some (.selectChip 0 0)
      ∧ decodeTableWord 8 0x09 = some (.setFourByteAddressing 0 0 false)
      ∧ decodeTableWord 8 0x0A = some (.getFourByteAddressing 0 0)
      ∧ decodeTableWord 8 0x0B = some (.selectChipByAddress 0 0 0#32)
      ∧ decodeTableWord 8 0x0C = some (.setProtectionRange 0 0 0#32 0#32 0#2)
      ∧ decodeTableWord 8 0x0D = some (.setProtectionCommand 0 0 0 0#8 0 0 0)
      ∧ decodeTableWord 8 0x0E = some (.configureProtection 0 false false 0 false false false false false false none)
      ∧ decodeTableWord 8 0x0F = some (.getViolationStatus 0 false)
      ∧ decodeTableWord 8 0x10 = some (.waitReady 0 0#32) := by
  decide

theorem test_decode_control_and_data_words :
    decodeTableWord 16 0x000 = some (.drdCfg .host 0 .read)
      ∧ decodeTableWord 16 0x004 = some (.dwrCfg .host 0 .read)
      ∧ decodeTableWord 16 0x008 = some (.umaCfg .host 0 .read)
      ∧ decodeTableWord 16 0x00C = some (.umaCts .host 0 .read)
      ∧ decodeTableWord 16 0x010 = some (.umaCmd .host 0 .read)
      ∧ decodeTableWord 16 0x014 = some (.umaAddr .host 0 .read)
      ∧ decodeTableWord 16 0x018 = some (.prtCfg .host 0 .read)
      ∧ decodeTableWord 16 0x01C = some (.prtSts .host 0 .read)
      ∧ decodeTableWord 16 0x020 = some (.umaDw0 .host 0 .read)
      ∧ decodeTableWord 16 0x024 = some (.umaDw1 .host 0 .read)
      ∧ decodeTableWord 16 0x028 = some (.umaDw2 .host 0 .read)
      ∧ decodeTableWord 16 0x02C = some (.umaDw3 .host 0 .read)
      ∧ decodeTableWord 16 0x030 = some (.umaDr0 .host 0 .read)
      ∧ decodeTableWord 16 0x034 = some (.umaDr1 .host 0 .read)
      ∧ decodeTableWord 16 0x038 = some (.umaDr2 .host 0 .read)
      ∧ decodeTableWord 16 0x03C = some (.umaDr3 .host 0 .read) := by
  decide

/-- The low 12 bits select the register (30_encoding.md R120). -/
theorem test_decode_low_12_bits :
    decodeTableWord 16 0x100C = some (.umaCts .host 0 .read) ∧ decodeTableWord 16 0xF0BC = some (.prtRange15 .host 0 .read)
      ∧ decodeTableWord 16 0x00C1 = none := by decide

theorem test_decode_prt_cmd_words :
    decodeTableWord 16 0x040 = some (.prtCmd0 .host 0 .read)
      ∧ decodeTableWord 16 0x044 = some (.prtCmd1 .host 0 .read)
      ∧ decodeTableWord 16 0x048 = some (.prtCmd2 .host 0 .read)
      ∧ decodeTableWord 16 0x04C = some (.prtCmd3 .host 0 .read)
      ∧ decodeTableWord 16 0x050 = some (.prtCmd4 .host 0 .read)
      ∧ decodeTableWord 16 0x054 = some (.prtCmd5 .host 0 .read)
      ∧ decodeTableWord 16 0x058 = some (.prtCmd6 .host 0 .read)
      ∧ decodeTableWord 16 0x05C = some (.prtCmd7 .host 0 .read)
      ∧ decodeTableWord 16 0x060 = some (.prtCmd8 .host 0 .read)
      ∧ decodeTableWord 16 0x064 = some (.prtCmd9 .host 0 .read)
      ∧ decodeTableWord 16 0x068 = some (.prtCmd10 .host 0 .read)
      ∧ decodeTableWord 16 0x06C = some (.prtCmd11 .host 0 .read)
      ∧ decodeTableWord 16 0x070 = some (.prtCmd12 .host 0 .read)
      ∧ decodeTableWord 16 0x074 = some (.prtCmd13 .host 0 .read) := by
  decide

theorem test_decode_prt_range_words :
    decodeTableWord 16 0x080 = some (.prtRange0 .host 0 .read)
      ∧ decodeTableWord 16 0x084 = some (.prtRange1 .host 0 .read)
      ∧ decodeTableWord 16 0x088 = some (.prtRange2 .host 0 .read)
      ∧ decodeTableWord 16 0x08C = some (.prtRange3 .host 0 .read)
      ∧ decodeTableWord 16 0x090 = some (.prtRange4 .host 0 .read)
      ∧ decodeTableWord 16 0x094 = some (.prtRange5 .host 0 .read)
      ∧ decodeTableWord 16 0x098 = some (.prtRange6 .host 0 .read)
      ∧ decodeTableWord 16 0x09C = some (.prtRange7 .host 0 .read)
      ∧ decodeTableWord 16 0x0A0 = some (.prtRange8 .host 0 .read)
      ∧ decodeTableWord 16 0x0A4 = some (.prtRange9 .host 0 .read)
      ∧ decodeTableWord 16 0x0A8 = some (.prtRange10 .host 0 .read)
      ∧ decodeTableWord 16 0x0AC = some (.prtRange11 .host 0 .read)
      ∧ decodeTableWord 16 0x0B0 = some (.prtRange12 .host 0 .read)
      ∧ decodeTableWord 16 0x0B4 = some (.prtRange13 .host 0 .read)
      ∧ decodeTableWord 16 0x0B8 = some (.prtRange14 .host 0 .read)
      ∧ decodeTableWord 16 0x0BC = some (.prtRange15 .host 0 .read) := by
  decide

theorem test_decode_bus_records :
    decodeRecord [2, 0, 2, 0, 1, 0xBC, 0, 1] = .ok (.regRead .other 2 0xBC .half)
      ∧ decodeRecord [2, 1, 1, 0, 0, 0x0C, 0, 0, 1, 0, 1, 0] = .ok (.regWrite .host 1 0x00C .word 0x00010001#32)
      ∧ decodeRecord [2, 2, 0, 0, 3, 1] = .ok (.fieldRead 0 .ctsDevNum)
      ∧ decodeRecord [2, 3, 3, 0, 6, 1, 1, 0, 0, 0] = .ok (.fieldWrite 3 .prtPen 1#32) := by decide

theorem test_decode_internal_records :
    decodeRecord [3, 0, 1, 0] = .ok (.engineComplete 1) ∧ decodeRecord [3, 1, 2, 0] = .ok (.prtCheck 2)
      ∧ decodeRecord [3, 2, 3, 0] = .ok (.poll 3) ∧ decodeRecord [3, 3, 0, 1] = .ok (.irqDeliver 256)
      ∧ decodeRecord [3, 4] = .ok .reset := by decide

theorem test_decode_operands_of_uma_write :
    decodeRecord [0, 5, 1, 0, 2, 0xAB, 0x78, 0x56, 0x34, 0x12, 1, 3, 0, 0, 0, 0x10, 0x27, 0, 0, 7, 8, 9]
      = .ok (.umaWrite 1 2 0xAB#8 0x12345678#32 .auto 3 10000#32 [7#8, 8#8, 9#8]) := by decide

theorem test_decode_operands_of_uma_ioctl :
    decodeRecord [0, 6, 0, 0, 3, 0x6B, 0, 0, 1, 0, 4, 37, 0, 0, 0, 2, 0, 0, 0, 1, 2, 4, 1, 0, 0, 0, 0, 5, 0xAA, 0xBB]
      = .ok (.umaIoctl 0 3 0x6B#8 0x00010000#32 4 37 2 1 2 4 1 0#32 5 [0xAA#8, 0xBB#8]) := by decide

theorem test_decode_operands_of_configure_direct :
    decodeRecord [0, 0, 3, 0, 0, 0, 0, 2, 0, 0, 0, 0, 4, 3, 2] = .ok (.configureDirect 3 0x2000000 .quadIo 3 2) := by decide

theorem test_decode_operands_of_configure_protection :
    decodeRecord [0, 14, 0, 0, 1, 1, 0, 0, 0, 1, 0, 0, 0, 0, 1, 0, 0, 1, 0, 1, 1, 9, 0]
      = .ok (.configureProtection 0 true true 0x1000000 true false false true false true (some 9)) := by decide

theorem test_decode_register_write :
    decodeRecord [1, 0xBC, 0, 1, 2, 0, 1, 4, 3, 2, 1] = .ok (.prtRange15 .other 2 (.write 0x01020304#32)) := by decide

theorem test_decode_rejects :
    decodeRecord [] = .error .truncated ∧ decodeRecord [4] = .error .unknownGroup
      ∧ decodeRecord [0, 17, 0, 0] = .error .unknownRequest ∧ decodeRecord [1, 0xC0, 0] = .error .noRegister
      ∧ decodeRecord [2, 4, 0, 0] = .error .unknownBus ∧ decodeRecord [3, 5] = .error .unknownInternal
      ∧ decodeRecord [2, 2, 0, 0, 46, 0] = .error .badOperand ∧ decodeRecord [3, 4, 1] = .error .trailingBytes
      ∧ decodeRecord [0, 8, 0] = .error .truncated := by decide

/-! ### Field and word arithmetic (00_scope.md R12 to R14, 30_encoding.md R108 to R112) -/

theorem test_start13_last13 :
    last13 0x3FFF#32 = 0#32 ∧ last13 0x7FFE#32 = 0#32 ∧ last13 0x7FFF#32 = 1#32 ∧ last13 0x00FFFFFF#32 = 0x3FF#32
      ∧ last13 0x07FFFFFF#32 = 0x1FFF#32 ∧ last13 0#32 = 0x1FFF#32 ∧ start13 0x00010000#32 = 4#32
      ∧ start13 0x08000000#32 = 0#32 := by decide -- T60 to T67

theorem test_devsiz :
    devsiz 0x80000 = 0 ∧ devsiz 0x100000 = 0 ∧ devsiz 0x100001 = 1 ∧ devsiz 0x1000000 = 2 ∧ devsiz 0x2000000 = 3
      ∧ devsiz (2 ^ 34) = 7 ∧ devsiz (2 ^ 34 + 1) = 8 := by decide -- T80

theorem test_pack_entry :
    packEntry 3 0xC7 3 .w1 .w1 = 0x03C7#32 ∧ packEntry 5 0x6B 4 .w1 .w1 = 0x856B#32 ∧ packEntry 1 0x12 4 .w1 .w1 = 0x0512#32
      ∧ packEntry 6 0xEB 4 .w4 .w1 = 0xC6EB#32 := by decide -- T72, T74

theorem test_read_cfg :
    readCfg (some .normal) 0 3 = 0x03000400#32 ∧ readCfg (some .normal) 3 16 = 0x10001C00#32
      ∧ readCfg (some .quadIo) 4 5 = 0x0500260A#32 ∧ readCfg (some .dualOut) 3 8 = 0x08001D05#32
      ∧ readCfg (some .spiX) 3 4 = 0x04001E0A#32 := by decide -- T20 to T25

theorem test_write_cfg :
    writeCfg (some .normal) 3 5 = 0x00051C00#32 ∧ writeCfg (some .spiX) 4 16 = 0x00102028#32
      ∧ writeCfg (some .quadIo) 3 2 = 0x00021C2A#32 ∧ writeContCfg (some .quadIo) 4 = 0x0004002A#32
      ∧ writeContCfg (some .spiX) 16 = 0x00100028#32 := by decide -- T30 to T34, T50, T51

theorem test_chunk_cfg :
    chunkCfg 0 3 0 1 16 .w1 .w1 .w1 .w1 = 0x10201C00#32 ∧ chunkCfg 32 3 0 1 5 .w1 .w1 .w1 .w1 = 0x05000000#32
      ∧ chunkCfg 0 4 0 3 16 .w1 .w4 .w1 .w4 = 0x10602688#32 ∧ chunkCfg 16 4 0 3 16 .w1 .w4 .w1 .w4 = 0x10000288#32
      ∧ chunkCfg 0 0 2 0 3 .w1 .w1 .w1 .w1 = 0x03020400#32 := by decide -- T40, T42, T45

theorem test_byte_order :
    packWord [0xAA, 0xBB, 0xCC, 0xDD, 0xEE] 0 = 0xDDCCBBAA#32 ∧ packWord [0xAA, 0xBB, 0xCC, 0xDD, 0xEE] 1 = 0xEE#32
      ∧ unpackBytes [0x1840EF#32] 3 = [0xEF, 0x40, 0x18] ∧ addrBytes 0x12345678#32 3 = [0x34, 0x56, 0x78] := by decide

theorem test_reserved_bits : regMask .umaCfg = 0x1FFF3FFF#32 ∧ regMask .prtCfg = 0xE0FD0710#32 := by decide -- T6, T81

/-! ### Reset (10_state.md R60, 70_reset_and_hazards.md R311) -/

theorem test_reset_words :
    (resetFiu.rd .umaCts = 0x00010000#32 ∧ resetFiu.rd .prtCfg = 0#32 ∧ resetFiu.rd .prtSts = 0#32)
      ∧ State.reset.Ready ∧ State.reset.mark? = none := by decide

/-! ### Register accesses (T1 to T9c) -/

theorem test_field_write_cts :
    traceAfter (exec (.fieldWrite 0 .ctsDevNum 2) State.reset)
        = some [(false, .umaCts, 0x00010000#32), (true, .umaCts, 0x00010200#32)]
      ∧ regAfter (exec (.fieldWrite 0 .ctsDevNum 1) (withRegs [(.umaCts, 0x01010000#32)])) .umaCts
        = some 0x00010100#32 := by decide -- T1, T2

theorem test_uma_cts_while_busy :
    regAfter (exec (.umaCts .host 0 (.write 0x00010001#32)) (busyWith jedec false [])) .umaCts = some 0x00010001#32
      ∧ regAfter (exec (.umaCts .host 0 (.write 0x00010000#32)) (busyWith jedec false [])) .umaCts = some 0x00010001#32 := by
  decide -- T3, T4

theorem test_trigger_latches :
    (nextOf (exec (.umaCts .host 0 (.write 0x00010001#32))
        (withRegs [(.umaCfg, 0x03000400#32), (.umaCmd, 0x9F#32)]))).map (fun t => (t.fiu 0).eng) = some (.busy jedec false)
      ∧ markAfter (exec (.umaCts .host 0 (.write 0x00010001#32)) (withRegs [(.prtCfg, 0x00100000#32)]))
        = some .forcedActiveCs := by decide -- P1, T59a

theorem test_uma_dr_ignores_writes :
    regAfter (exec (.umaDr0 .host 0 (.write 0xFFFFFFFF#32)) (withRegs [(.umaDr 0, 7#32)])) (.umaDr 0) = some 7#32 := by
  decide -- T5

theorem test_uma_cfg_write :
    regAfter (exec (.umaCfg .host 0 (.write 0xFFFFFFFF#32)) State.reset) .umaCfg = some 0x1FFF3FFF#32
      ∧ markAfter (exec (.umaCfg .host 0 (.write 0#32)) (busyWith jedec false [])) = some .busyWrite := by decide -- T6, R36

theorem test_uma_cmd_addr_dw_write :
    regAfter (exec (.umaCmd .host 0 (.write 0xFFFFFF9F#32)) State.reset) .umaCmd = some 0x9F#32
      ∧ regAfter (exec (.umaAddr .host 0 (.write 0xFF010000#32)) State.reset) .umaAddr = some 0xFF010000#32
      ∧ regAfter (exec (.umaDw0 .host 0 (.write 1#32)) State.reset) (.umaDw 0) = some 1#32
      ∧ regAfter (exec (.umaDw1 .host 0 (.write 2#32)) State.reset) (.umaDw 1) = some 2#32
      ∧ regAfter (exec (.umaDw2 .host 0 (.write 3#32)) State.reset) (.umaDw 2) = some 3#32
      ∧ regAfter (exec (.umaDw3 .host 0 (.write 4#32)) State.reset) (.umaDw 3) = some 4#32 := by decide

theorem test_uma_dr_read :
    resultAfter (exec (.umaDr0 .host 0 .read) (withRegs [(.umaDr 0, 1#32)])) = some (.word 1#32)
      ∧ resultAfter (exec (.umaDr1 .host 0 .read) (withRegs [(.umaDr 1, 2#32)])) = some (.word 2#32)
      ∧ resultAfter (exec (.umaDr2 .host 0 .read) (withRegs [(.umaDr 2, 3#32)])) = some (.word 3#32)
      ∧ resultAfter (exec (.umaDr3 .host 0 .read) (withRegs [(.umaDr 3, 4#32)])) = some (.word 4#32) := by decide

theorem test_drd_dwr_write :
    regAfter (exec (.drdCfg .host 0 (.write 0x030123EB#32)) State.reset) .drdCfg = some 0x030123EB#32
      ∧ regAfter (exec (.dwrCfg .host 0 (.write 0x03010002#32)) State.reset) .dwrCfg = some 0x03010002#32 := by decide

theorem test_prt_sts_write :
    regAfter (exec (.prtSts .host 0 (.write 0#32)) (withRegs [(.prtSts, 1#32)])) .prtSts = some 1#32
      ∧ regAfter (exec (.prtSts .host 0 (.write 1#32)) (withRegs [(.prtSts, 1#32)])) .prtSts = some 0#32 := by
  decide -- T7, T8

theorem test_locked_writes_ignored :
    regAfter (exec (.prtCfg .host 0 (.write 0#32)) (withRegs [(.prtCfg, 0xC0000200#32)])) .prtCfg = some 0xC0000200#32
      ∧ regAfter (exec (.prtRange3 .host 0 (.write 0x60000000#32)) (withRegs [(.prtCfg, 0xC0000200#32)])) (.prtRange 3)
        = some 0#32
      ∧ regAfter (exec (.prtCmd5 .host 0 (.write 0x00030003#32)) (withRegs [(.prtCfg, 0xC0000200#32)])) (.prtCmd 5)
        = some 0#32 := by decide -- T9

theorem test_range_lock :
    regAfter (exec (.prtRange2 .host 0 (.write 0x60000000#32)) (withRegs [(.prtRange 2, 0x80000000#32)])) (.prtRange 2)
        = some 0x80000000#32
      ∧ regAfter (exec (.prtRange3 .host 0 (.write 0x60000000#32)) (withRegs [(.prtRange 2, 0x80000000#32)])) (.prtRange 3)
        = some 0x60000000#32 := by decide -- T9a

theorem test_prt_registers_by_number :
    ((List.finRange 14).all fun n =>
        regAfter (exec (Instr.ofReg (.prtCmd n) .host 0 (.write 0x856B03C7#32)) State.reset) (.prtCmd n) == some 0x856B03C7#32)
      ∧ ((List.finRange 16).all fun n =>
        regAfter (exec (Instr.ofReg (.prtRange n) .host 0 (.write 0x63FF0004#32)) State.reset) (.prtRange n)
          == some 0x63FF0004#32) := by decide

theorem test_prt_cfg_force_lock :
    regAfter (exec (.prtCfg .host 0 (.write 0x00280000#32)) (withRegs [(.prtCfg, 0x00400000#32)])) .prtCfg
        = some 0x00680000#32
      ∧ regAfter (exec (.prtCfg .host 0 (.write 0x00140000#32)) (withRegs [(.prtCfg, 0x00400000#32)])) .prtCfg
        = some 0x00400000#32 := by decide -- R37

theorem test_field_read :
    resultAfter (exec (.fieldRead 0 .drdAcctype) (withRegs [(.drdCfg, 0x030122EB#32)])) = some (.word 2#32)
      ∧ resultAfter (exec (.fieldRead 0 .drdAddsiz) (withRegs [(.drdCfg, 0x030122EB#32)])) = some (.word 1#32) := by
  decide -- T9b

theorem test_reg_read :
    resultAfter (exec (.regRead .host 0 0x00C .word) State.reset) = some (.word 0x00010000#32)
      ∧ markAfter (exec (.regRead .host 0 0x00C .half) State.reset) = some .narrowRegisterAccess := by decide -- T9c

theorem test_reg_write :
    regAfter (exec (.regWrite .host 0 0x020 .word 5#32) State.reset) (.umaDw 0) = some 5#32
      ∧ markAfter (exec (.regWrite .host 0 0x0C0 .word 5#32) State.reset) = some .unmappedOffset := by decide -- T9c

/-! ### Direct access (T10 to T18) -/

theorem test_configure_direct :
    (nextOf (execN 6 (.configureDirect 0 0x2000000 .quadIo 3 3) State.reset)).map
        (fun t => ((t.fiu 0).rd .drdCfg, (t.fiu 0).rd .dwrCfg)) = some (0x03012300#32, 0x03010000#32)
      ∧ resultAfter (exec (.configureDirect 0 0x100000 .fast 4 0) State.reset) = some (.status .paramError) := by
  decide -- T10, T12

theorem test_configure_command :
    regAfter (exec (.configureCommand 0 0xEB 0) (withRegs [(.drdCfg, 0x03012300#32)])) .drdCfg = some 0x030123EB#32
      ∧ regAfter (exec (.configureCommand 0 0 0x02) (withRegs [(.dwrCfg, 0x03010000#32)])) .dwrCfg = some 0x03010002#32 := by
  decide -- T13, T14

theorem test_set_dummy_cycles :
    (regAfter (exec (.setDummyCycles 0 16) State.reset) .drdCfg = some 0x2000#32
      ∧ regAfter (exec (.setDummyCycles 0 0) (withRegs [(.drdCfg, 0x1000#32)])) .drdCfg = some 0#32)
      ∧ resultAfter (exec (.setDummyCycles 0 32) State.reset) = some (.status .paramError)
      ∧ haltAfter (exec (.setDummyCycles 0 28) State.reset) = some .dummyCyclesNotMultipleOf8 := by decide -- T15, T16

theorem test_get_read_mode :
    resultAfter (execN 2 (.getReadMode 0) (withRegs [(.drdCfg, 0x2300#32)])) = some (.mode (some .quadIo))
      ∧ resultAfter (execN 2 (.getReadMode 0) (withRegs [(.drdCfg, 0x2200#32)])) = some (.mode none)
      ∧ haltAfter (exec (.getReadMode 4) State.reset) = some .instanceIndex := by decide -- T17, T18

/-! ### UMA requests (T20 to T52) -/

theorem test_uma_read_operands :
    resultAfter (exec (.umaRead 0 0 0x03 0 .auto 17 0) State.reset) = some (.data .paramError [])
      ∧ haltAfter (exec (.umaRead 0 4 0x03 0 .auto 1 0) State.reset) = some .deviceIndex := by decide -- T27, T28

/-- Instruction `i` at step `l` in the reset state. -/
def atLabel (i : Instr) (l : Label) (asz : Nat) : State :=
  { State.reset with seq := .run i { startPos with label := l, mode := some .normal, asz := asz } }

theorem test_uma_read_config :
    regAfter (exec (.umaRead 0 0 0x9F 0 .absent 3 0) (atLabel (.umaRead 0 0 0x9F 0 .absent 3 0) (.s 5 2) 0)) .umaCfg
      = some 0x03000400#32 := by decide -- T20

theorem test_uma_write_config :
    regAfter (exec (.umaWrite 0 0 0x01 0 .absent 1 0 [2]) (atLabel (.umaWrite 0 0 0x01 0 .absent 1 0 [2]) (.s 5 2) 0)) .umaCfg
      = some 0x00010400#32 := by decide -- T34a

theorem test_uma_write_pads :
    regAfter (exec (.umaWrite 0 0 2 0 .auto 2 0 [0x5A, 0xA5]) (atLabel (.umaWrite 0 0 2 0 .auto 2 0 [0x5A, 0xA5]) (.s 6 0) 3))
      (.umaDw 0) = some 0xA55A#32 := by decide -- T34

theorem test_uma_ioctl_operands :
    resultAfter (exec (.umaIoctl 0 0 0x0B 0 3 8 0 1 3 1 1 0 0 []) State.reset) = some (.data .paramError [])
      ∧ resultAfter (exec (.umaIoctl 0 0 0x0B 0 3 8 0 1 1 1 1 0 8 []) State.reset) = some (.data .paramError []) := by
  decide -- T47

theorem test_page_write_holds_chip_select :
    regAfter (exec (.pageWrite 0 0 2 0 1 0 [9]) (atLabel (.pageWrite 0 0 2 0 1 0 [9]) (.s 4 0) 3)) .umaCts = some 0#32
      ∧ wireAfter (exec (.pageWrite 0 0 2 0 1 0 [9]) (atLabel (.pageWrite 0 0 2 0 1 0 [9]) (.s 4 0) 3)) = some [.csLow 0] := by
  decide -- T48

/-! ### Chip select and addressing (T53 to T58) -/

theorem test_select_chip :
    regAfter (exec (.selectChip 0 2) State.reset) .umaCts = some 0x00010200#32
      ∧ wireAfter (exec (.selectChip 0 1) (withRegs [(.umaCts, 0#32)])) = some [.csHigh 0, .csLow 1] := by decide -- T53, T54

theorem test_set_four_byte_addressing :
    (nextOf (execN 2 (.setFourByteAddressing 0 0 true) (withRegs [(.drdCfg, 3#32)]))).map
      (fun t => ((t.fiu 0).rd .drdCfg, (t.fiu 0).rd .dwrCfg, (t.fiu 0).fourb.toList))
      = some (0x00010003#32, 0x00010000#32, [true, false, false, false]) := by decide -- T55

theorem test_get_four_byte_addressing :
    resultAfter (exec (.getFourByteAddressing 0 3) (withRegs [(.drdCfg, 0x00010000#32)])) = some (.flag true)
      ∧ resultAfter (exec (.getFourByteAddressing 0 0) (withFiu fun b => b.setFourb 0 true)) = some (.flag false) := by
  decide -- T56

theorem test_select_chip_by_address_releases (h : Config.flashSize 0 0 ≤ 5) :
    regAfter (exec (.selectChipByAddress 0 0 5) (withRegs [(.umaCts, 0#32)])) .umaCts = some 0x00010000#32 := by
  have hs : ¬ (5 : Word).toNat < Config.flashSize 0 0 := by simpa using h
  unfold exec execSelectChipByAddress
  simp only [if_neg hs]
  decide -- T58

theorem test_select_chip_by_address_asserts (h : 5 < Config.flashSize 0 1) :
    regAfter (execN 2 (.selectChipByAddress 0 1 5) State.reset) .umaCts = some 0x00000100#32 := by
  have hs : (5 : Word).toNat < Config.flashSize 0 1 := by simpa using h
  have he : ∀ s, exec (.selectChipByAddress 0 1 5) s = execSelectChipByAddress 0 1 5 s := fun _ => rfl
  simp only [execN, he, execSelectChipByAddress, if_pos hs]
  decide -- T57

/-! ### Protection (T68 to T108) -/

theorem test_set_protection_range :
    (nextOf (execN 3 (.setProtectionRange 0 5 0x00010000 0x0001FFFF 1) State.reset)).map (fun t => (t.fiu 0).rd (.prtRange 5))
        = some 0x20070004#32
      ∧ resultAfter (exec (.setProtectionRange 0 16 0 0x3FFF 3) State.reset) = some (.status .paramError) := by
  decide -- T68, S5

theorem test_set_protection_command :
    regAfter (exec (.setProtectionCommand 0 1 1 0x02 3 1 1) (withRegs [(.prtCmd 0, 3#32)])) (.prtCmd 0) = some 0x01020003#32
      ∧ resultAfter (exec (.setProtectionCommand 0 28 0 0x03 3 1 1) State.reset) = some (.status .paramError) := by
  decide -- T71, T73

theorem test_configure_protection :
    (nextOf (execN 7 (.configureProtection 0 true true 0x1000000 false false false false false false none) State.reset)).map
        (fun t => (t.fiu 0).rd .prtCfg) = some 0xC0000200#32
      ∧ resultAfter (exec (.configureProtection 0 true true (2 ^ 34 + 1) false false false false false false none) State.reset)
        = some (.status .paramError) := by decide -- T81, T80

theorem test_get_violation_status :
    resultAfter (exec (.getViolationStatus 0 false) (withRegs [(.prtSts, 1#32)])) = some (.flag true)
      ∧ regAfter (execN 2 (.getViolationStatus 0 true) (withRegs [(.prtSts, 1#32)])) .prtSts = some 0#32 := by decide -- T121

/-- The tables of 95_test_vectors.md 2.8. -/
def tables : List (Reg × Word) :=
  [(.prtCfg, 0x40000200#32), (.prtRange 0, 0x20070004#32), (.prtRange 1, 0x63FF0000#32), (.prtCmd 0, 0x01020003#32),
    (.prtCmd 1, 0x020203C7#32)]

/-- The verdict observed on `l` with those tables. -/
def verdictOn (l : Descr) (frame : Frame) : Option Result :=
  let s := busyWith l false tables
  resultAfter (exec (.prtCheck 0) (s.setFiu 0 { s.fiu 0 with frame := frame }))

theorem test_prt_check_commands :
    (verdictOn { jedec with cmd := 0x03#8 } .closed = some (.verdict .allow)
      ∧ verdictOn { jedec with cmd := 0x03#8, cmbpck := 2 } .closed = some (.verdict .reject)
      ∧ verdictOn { jedec with cmd := 0xC7#8 } .closed = some (.verdict .reject)
      ∧ verdictOn jedec .closed = some (.verdict .reject) ∧ verdictOn { jedec with cmd := 0#8 } .closed = some (.verdict .allow))
      ∧ verdictOn { jedec with cmdsiz := 0, held := true } (.opened 0 (some .allow)) = some (.verdict .allow)
      ∧ verdictOn { jedec with cmdsiz := 0, held := true } (.opened 0 (some .reject)) = some (.verdict .reject)
      ∧ verdictOn { jedec with cmdsiz := 0 } .closed = some (.verdict .reject) := by decide -- T90, T91, T99 to T104

theorem test_prt_check_ranges :
    (verdictOn (program 0x00010000#32) .closed = some (.verdict .allow)
      ∧ verdictOn (program 0x00020000#32) .closed = some (.verdict .allow)
      ∧ verdictOn { program 0x00010000#32 with dev := 1 } .closed = some (.verdict .allow)
      ∧ verdictOn { program 0x00010000#32 with dev := 2 } .closed = some (.verdict .reject))
      ∧ verdictOn { program 0x00010000#32 with addsiz := 4 } .closed = some (.verdict .reject)
      ∧ verdictOn { program 0x00010000#32 with addsiz := 0 } .closed = some (.verdict .reject)
      ∧ verdictOn { program 0x00010000#32 with adbpck := 1 } .closed = some (.verdict .reject)
      ∧ verdictOn (program 0xFF010000#32) .closed = some (.verdict .allow) := by decide -- T92 to T98, T106

theorem test_engine_complete_rejects :
    (nextOf (exec (.engineComplete 0) (busyWith jedec false tables))).map
        (fun t => ((t.fiu 0).rd .prtSts, (t.fiu 0).rd .umaCts, (t.fiu 0).wire, (t.fiu 0).eng))
      = some (1#32, 0x01010000#32, [], .idle) := by decide -- T108

theorem test_engine_complete_drives :
    wireAfter (exec (.engineComplete 0) (busyWith (program 0x00010000#32) false []))
      = some [.csLow 0, .phase .cmd 1 [2], .phase .addr 1 [1, 0, 0], .phase .wdata 1 [0], .csHigh 0] := by decide -- R173, R174

/-! ### Supervisor (T110, T116) -/

theorem test_wait_ready :
    resultAfter (exec (.waitReady 0 0) State.reset) = some (.status .ok)
      ∧ haltAfter (exec (.waitReady 4 0) State.reset) = some .instanceIndex := by decide

theorem test_poll :
    resultAfter (exec (.poll 0) State.reset) = some (.flag false)
      ∧ resultAfter (exec (.poll 0) (busyWith jedec false [])) = some (.flag true) := by decide

/-! ### Interrupt, halt, reset (T120 to T127) -/

/-- `VIOL` and `VIE` set, handler 7 registered, its code one read of `PRT_STS`. -/
def violated : State :=
  { withFiu fun b => { (b.setReg .prtCfg 0xE0000200#32).setReg .prtSts 1#32 with handler := some 7 } with
    handlerCode := [(7, [[1, 0x1C, 0, 0, 0, 0, 0]])] }

/-- Handler 7 entered. -/
def inside : State := (nextOf (exec (.irqDeliver 0) violated)).getD State.reset

theorem test_irq_deliver :
    inside.handling = some 0 ∧ inside.hprog = [[1, 0x1C, 0, 0, 0, 0, 0]]
      ∧ (nextOf (exec (.irqDeliver 0) { inside with hprog := [] })).map (·.handling) = some none := by decide -- T120, T122

theorem test_handler_reentrancy :
    markAfter (exec (.umaRead 0 0 0x9F 0 .absent 3 0) inside) = some .handlerReentrancy
      ∧ markAfter (exec (.umaDr0 .host 0 (.write 1#32)) inside) = some .handlerReentrancy
      ∧ regAfter (exec (.regWrite .host 0 0x01C .word 1#32) inside) .prtSts = some 0#32
      ∧ regAfter (exec (.prtSts .host 0 (.write 1#32)) inside) .prtSts = some 0#32 := by decide -- T121, T123

theorem test_halted_host_stops :
    stopOf (exec (.selectChip 0 1) { State.reset with halted := some .deviceIndex }) = some (.inr .notEnabled) := by
  decide -- T126

/-- The state of T127. -/
def beforeReset : State :=
  withFiu fun b => { ([(Reg.prtCfg, 0xE0000200#32), (.prtRange 0, 0xE3FF0000#32), (.prtCmd 0, 0x01020003#32),
    (.prtSts, 1#32), (.umaCts, 0x00000201#32)].foldl (fun b p => b.setReg p.1 p.2) b) with
      eng := .busy jedec false, fourb := Vector.replicate 4 true, handler := some 1 }

theorem test_reset_step :
    (regAfter (exec .reset beforeReset) .prtCfg = some 0#32 ∧ regAfter (exec .reset beforeReset) (.prtRange 0) = some 0#32
      ∧ regAfter (exec .reset beforeReset) (.prtCmd 0) = some 0#32 ∧ regAfter (exec .reset beforeReset) .prtSts = some 0#32
      ∧ regAfter (exec .reset beforeReset) .umaCts = some 0x00010000#32)
      ∧ wireAfter (exec .reset beforeReset) = some [.disturbed jedec, .csHigh 2, .reset] := by decide -- T127

/-! ### The machine's step -/

theorem test_step_runs_fetched_word :
    (nextOf (step (State.reset.withFetchWord 16 0x00C))).bind (·.result) = some (.word 0x00010000#32)
      ∧ (nextOf (step (State.reset.withFetchWord 8 0x10))).bind (·.result) = some (.status .ok) := by decide

/-! ### Witnesses: data that meet the hypotheses of each statement, clause by clause -/

/-- Instance 0 locked. -/
def locked : State := withRegs [(.prtCfg, 0xC0000200#32)]

/-- The read-mode fields of instance 0 spell no mode. -/
def noMode : State := withRegs [(.drdCfg, 0x2200#32)]

/-- The engine of instance 0 busy with a JEDEC-id read. -/
def busy : State := busyWith jedec false []

theorem witness_RegisterReadHasNoSideEffect :
    State.reset.Ready ∧ 3 < Config.nFiu ∧ (State.reset.fiu 3).ReservedZero ∧ (State.reset.fiu 3).eng = .idle
      ∧ busy.Ready ∧ (busy.fiu 0).ReservedZero ∧ (busy.fiu 0).eng ≠ .idle ∧ ∀ k, Reg.umaCts ≠ .umaDr k := by decide

theorem witness_PlainRegisterWriteStores :
    State.reset.Ready ∧ 3 < Config.nFiu ∧ (State.reset.fiu 3).eng = .idle ∧ busy.Ready ∧ (busy.fiu 0).eng ≠ .idle := by decide

theorem witness_ReadDataIgnoresWrites : busy.Ready ∧ 0 < Config.nFiu ∧ locked.Ready := by decide

theorem witness_ControlWriteWhileIdle :
    State.reset.Ready ∧ 0 < Config.nFiu ∧ (State.reset.fiu 0).eng = .idle ∧ flag .ctsExecDone 0x02000300#32 = false
      ∧ heldDev (ctsWritten (resetFiu.rd .umaCts) 0x02000300#32) = some 3 ∧ heldDev (resetFiu.rd .umaCts) = none
      ∧ (withRegs [(.umaCts, 0#32)]).Ready ∧ heldDev (ctsWritten 0#32 0x00010000#32) = none ∧ heldDev 0#32 = some 0
      ∧ heldDev (ctsWritten 0#32 0#32) = heldDev 0#32 := by decide

/-- A command phase of width code 3. -/
def badWidth : State := withRegs [(.umaCfg, 0x403#32)]

/-- Chip select 1 forced active. -/
def forcedOn : State := withRegs [(.prtCfg, 0x00200000#32)]

theorem witness_TriggerLatchesDescriptor :
    (State.reset.Ready ∧ flag .ctsExecDone 1#32 = true ∧ ¬ ∃ k < 2, csForced (resetFiu.rd .prtCfg) k = some false)
      ∧ badWidth.Ready ∧ (badWidth.fiu 0).eng = .idle ∧ forcedOn.Ready ∧ (forcedOn.fiu 0).eng = .idle
      ∧ ∃ k < 2, csForced ((forcedOn.fiu 0).rd .prtCfg) k = some false := by decide

theorem witness_TriggerLatchesDescriptor_legal :
    LegalDescr (descrOf resetFiu 3 true) ∧ ¬ LegalDescr (descrOf (badWidth.fiu 0) 0 true)
      ∧ LegalDescr (descrOf (forcedOn.fiu 0) 0 true) := by
  refine ⟨?_, ?_, ?_⟩ <;> unfold LegalDescr <;> decide

theorem witness_WritesWhileBusy :
    (busy.Ready ∧ 0 < Config.nFiu ∧ (busy.fiu 0).eng = .busy jedec false ∧ heldDev ((busy.fiu 0).rd .umaCts) = none)
      ∧ (nextOf (exec (.umaCts .host 0 (.write 0x200#32)) busy)).map (fun t => heldDev ((t.fiu 0).rd .umaCts)) = some (some 2)
      ∧ (nextOf (exec (.umaCts .host 0 (.write 0x10200#32)) busy)).map (fun t => heldDev ((t.fiu 0).rd .umaCts)) = some none := by
  decide

theorem witness_PinChangesAreLogged : State.reset.Ready ∧ busy.Ready ∧ 3 < Config.nFiu := by decide

theorem witness_ChipSelectMultiplexer :
    (0 < 4 ∧ (getField .prtFcsEn 0x00100000#32).getLsbD 0 = true)
      ∧ ¬ (2 < 2 ∧ (getField .prtFcsEn 0x00300000#32).getLsbD 2 = true) := by decide

theorem witness_ProtectionConfigWriteFilter :
    (locked.Ready ∧ (locked.fiu 0).bit .prtLck = true) ∧ State.reset.Ready ∧ (State.reset.fiu 3).bit .prtLck = false := by
  decide

theorem witness_RangeWriteFilter :
    (locked.Ready ∧ (locked.fiu 0).bit .prtLck = true)
      ∧ ((withRegs [(.prtRange 15, 0x80000000#32)]).Ready
        ∧ ((withRegs [(.prtRange 15, 0x80000000#32)]).fiu 0).bit (.rngRlck 15) = true)
      ∧ State.reset.Ready ∧ (State.reset.fiu 3).bit .prtLck = false ∧ (State.reset.fiu 3).bit (.rngRlck 0) = false := by decide

theorem witness_WhitelistWriteFilter :
    locked.Ready ∧ (locked.fiu 0).bit .prtLck = true ∧ State.reset.Ready ∧ (State.reset.fiu 3).bit .prtLck = false := by decide

theorem witness_ViolationStatusWrite :
    locked.Ready ∧ violated.Ready ∧ flag .stsViol 1#32 = true ∧ (violated.fiu 0).irqViol = true := by decide

theorem witness_OtherMastersFollowTheSameRules :
    (({ busy with halted := some .deviceIndex } : State).mark? = none ∧ 0 < Config.nFiu ∧ busy.Ready
        ∧ ∀ k, busy.fiu k = (({ busy with halted := some .deviceIndex } : State).fiu k).withInHandler false)
      ∧ inside.mark? = none ∧ violated.Ready ∧ ∀ k, violated.fiu k = (inside.fiu k).withInHandler false := by
  refine ⟨⟨by decide, by decide, by decide, fun k => ?_⟩, by decide, by decide, fun k => ?_⟩ <;>
    rcases k with _ | _ | _ | _ | k <;> rfl

theorem witness_RawAccessByOffset :
    State.reset.Ready ∧ inside.mark? = none ∧ 3 < Config.nFiu ∧ 0x0BC = regOffset (.prtRange 15) ∧ AccessSize.byte ≠ .word
      ∧ 0x00E % 4 ≠ 0 ∧ 0x0C0 % 4 = 0 ∧ ∀ r, 0x0C0 ≠ regOffset r := by
  refine ⟨by decide, by decide, by decide, by decide, by decide, by decide, by decide, fun r => ?_⟩
  cases r <;> simp [regOffset] <;> omega

theorem witness_FieldReadExtracts :
    State.reset.Ready ∧ 3 < Config.nFiu ∧ (State.reset.fiu 3).eng = .idle ∧ busy.Ready
      ∧ ∀ k, fieldReg .ctsExecDone ≠ .umaDr k := by decide

theorem witness_FieldWriteIsReadModifyWrite :
    State.reset.Ready ∧ 0 < Config.nFiu ∧ (State.reset.fiu 0).eng = .idle
      ∧ (∀ j < 32, (0x00010200#32 : Word).getLsbD j =
          if fieldLo .ctsDevNum ≤ j ∧ j < fieldLo .ctsDevNum + fieldWidth .ctsDevNum then
            (6#32 : Word).getLsbD (j - fieldLo .ctsDevNum)
          else ((State.reset.fiu 0).rd (fieldReg .ctsDevNum)).getLsbD j)
      ∧ busy.Ready ∧ fieldReg (.drData 3) = .umaDr 3
      ∧ locked.Ready ∧ (locked.fiu 0).bit .prtLck = true ∧ fieldReg .prtPen = .prtCfg ∧ fieldReg (.rngStrt 15) = .prtRange 15
      ∧ fieldReg (.entCmd 13 .b) = .prtCmd 13 := by decide

theorem witness_ControlFieldWriteHazards :
    State.reset.Ready ∧ (State.reset.fiu 0).DoneBit ∧ (State.reset.fiu 0).eng = .idle ∧ busy.Ready ∧ (busy.fiu 0).DoneBit
      ∧ (busy.fiu 0).eng = .busy jedec false ∧ fieldReg .ctsRdyie = .umaCts := by decide

theorem witness_DecodeOfEncode :
    (Instr.umaWrite 3 3 0x02 0xFFFFFFFF .auto 2 0xFFFFFFFF [1, 2]).WellFormed = true
      ∧ (Instr.configureProtection 65535 true true (2 ^ 64 - 1) true true true true true true (some 65535)).WellFormed = true := by
  decide

/-- The host has one request to issue. -/
def oneRequest : State := { State.reset with prog := [[0, 8, 0, 0, 1]] }

theorem witness_HostTurnRunsTheDecodedInstruction :
    (oneRequest.sched = [] ∧ oneRequest.mark? = none ∧ oneRequest.halted = none
        ∧ decodeRecord [0, 8, 0, 0, 1] = .ok (.selectChip 0 1) ∧ isHostInstr (.selectChip 0 1) = true
        ∧ oneRequest.handling = none ∧ oneRequest.seq = .idle)
      ∧ ((atLabel (.getReadMode 0) (.s 2 0) 0).mark? = none ∧ (atLabel (.getReadMode 0) (.s 2 0) 0).handling = none)
      ∧ (inside.mark? = none ∧ inside.halted = none ∧ inside.handling = some 0 ∧ inside.hseq = .idle
        ∧ inside.hprog = [[1, 0x1C, 0, 0, 0, 0, 0]]
        ∧ decodeRecord [1, 0x1C, 0, 0, 0, 0, 0] = .ok (.prtSts .host 0 .read) ∧ isHostInstr (.prtSts .host 0 .read) = true)
      ∧ ({ inside with hseq := .run (.getViolationStatus 0 true) startPos } : State).handling = some 0
      ∧ ({ inside with hprog := [] } : State).handling = some 0 ∧ State.reset.prog = [] := by decide

theorem witness_AgentTurnRunsTheDecodedStep :
    (decodeRecord [3, 0, 0, 0] = .ok (.engineComplete 0) ∧ isHostInstr (.engineComplete 0) = false)
      ∧ (nextOf (exec (.engineComplete 0) { busy with sched := [] })).isSome = true
      ∧ stopOf (exec (.engineComplete 0) (withFiu fun b => b.mark .busyWrite)) = some (.inl (.unmodelled .busyWrite))
      ∧ stopOf (exec (.engineComplete 0) State.reset) = some (.inr .notEnabled) := by decide

/-- A state with the invariant whose next step is the engine's. -/
def engineDue : State := { busy with sched := [.agent [3, 0, 0, 0]] }

theorem witness_StepKeepsInvariant :
    engineDue.Inv ∧ (nextOf (step engineDue)).isSome = true ∧ State.reset.Inv ∧ (nextOf (step State.reset)).isSome = true := by
  decide

theorem witness_NoAbortInFlight :
    0 < Config.nFiu ∧ (nextOf (exec (.selectChip 0 1) busy)).isSome = true ∧ (busy.fiu 0).eng = .busy jedec false := by decide

theorem witness_LocksAreOneWay :
    ((nextOf (exec (.prtCfg .host 0 (.write 0)) locked)).isSome = true ∧ (locked.fiu 0).bit .prtLck = true)
      ∧ ((withRegs [(.prtRange 0, 0x80000000#32)]).fiu 0).bit (.rngRlck 0) = true
      ∧ (nextOf (exec (.prtRange0 .host 0 (.write 0)) (withRegs [(.prtRange 0, 0x80000000#32)]))).isSome = true
      ∧ (((withRegs [(.prtCfg, 0x00800000#32)]).fiu 0).get .prtFcsLck).getLsbD 1 = true
      ∧ (nextOf (exec (.prtCfg .host 0 (.write 0)) (withRegs [(.prtCfg, 0x00800000#32)]))).isSome = true := by decide

theorem witness_ReadModeChangers :
    (nextOf (exec (.selectChip 0 1) State.reset)).isSome = true ∧ (nextOf (exec (.engineComplete 0) busy)).isSome = true
      ∧ 3 < Config.nFiu := by decide

theorem witness_WireLogOnlyGrows : (nextOf (step engineDue)).isSome = true ∧ 0 < Config.nFiu := by decide

theorem witness_InstancesAreIndependent :
    (nextOf (exec (.selectChip 3 1) State.reset)).isSome = true ∧ (nextOf (exec (.selectChip 3 1) inside)).isSome = true := by
  decide

theorem witness_EngineCompletes :
    State.reset.mark? = none ∧ (State.reset.fiu 3).eng = .idle ∧ 3 < Config.nFiu ∧ busy.mark? = none
      ∧ (busy.fiu 0).eng = .busy jedec false := by decide

/-- A held transaction in an open frame, `PRT_CFG` as given. -/
def heldBusy (prt : Word) (v : Option Verdict) (l : Descr) : State :=
  let s := busyWith { l with held := true } false [(.umaCts, 1#32), (.prtCfg, prt)]
  s.setFiu 0 { s.fiu 0 with frame := .opened 0 v }

/-- Busy with chip select 0 forced inactive. -/
def forcedOff : State := busyWith jedec false [(.prtCfg, 0x00140000#32)]

theorem witness_EngineDrivesAllowedTransaction :
    (busy.mark? = none ∧ (busy.fiu 0).latchOk = true ∧ (busy.fiu 0).prtCheck cfg.forbidTable jedec = .allow
        ∧ csForced ((busy.fiu 0).rd .prtCfg) jedec.dev = none)
      ∧ ((heldBusy 0 none jedec).mark? = none ∧ ((heldBusy 0 none jedec).fiu 0).latchOk = true)
      ∧ forcedOff.mark? = none ∧ (forcedOff.fiu 0).latchOk = true ∧ (forcedOff.fiu 0).prtCheck cfg.forbidTable jedec = .allow
      ∧ (csForced ((forcedOff.fiu 0).rd .prtCfg) jedec.dev).isSome = true := by decide

theorem witness_EngineRejectsForbiddenTransaction :
    (busyWith jedec false tables).mark? = none ∧ ((busyWith jedec false tables).fiu 0).eng = .busy jedec false
      ∧ ((busyWith jedec false tables).fiu 0).prtCheck cfg.forbidTable jedec = .reject := by decide

theorem witness_EngineEndsDisturbedTransaction :
    (busyWith jedec true []).mark? = none ∧ ((busyWith jedec true []).fiu 0).eng = .busy jedec true := by decide

/-- A continuation whose frame was rejected, and one whose frame has no verdict. -/
def rejectedFrame : State := heldBusy 0x40000000#32 (some .reject) { jedec with cmdsiz := 0 }
def freshFrame : State := heldBusy 0x40000000#32 none { jedec with cmdsiz := 0 }

/-- The tables of 95_test_vectors.md 2.8 with an unknown and with a known command. -/
def unknownCommand : State := busyWith jedec false tables
def knownCommand : State := busyWith (program 0x00010000#32) false tables

theorem witness_EnforcerVerdict :
    ((busy.fiu 0).bit .prtPen = false ∧ busy.mark? = none)
      ∧ (rejectedFrame.mark? = none ∧ (rejectedFrame.fiu 0).bit .prtPen = true
        ∧ (rejectedFrame.fiu 0).frame = .opened 0 (some .reject))
      ∧ (freshFrame.mark? = none ∧ (freshFrame.fiu 0).bit .prtPen = true
        ∧ (freshFrame.fiu 0).frame ≠ .opened 0 (some .allow) ∧ (freshFrame.fiu 0).frame ≠ .opened 0 (some .reject))
      ∧ (unknownCommand.mark? = none ∧ (unknownCommand.fiu 0).bit .prtPen = true ∧ jedec.cmdsiz ≠ 0
        ∧ ∀ n, (unknownCommand.fiu 0).slotField n .entCmd ≠ jedec.cmd.toNat)
      ∧ knownCommand.mark? = none ∧ (knownCommand.fiu 0).bit .prtPen = true
      ∧ (knownCommand.fiu 0).slotField 1 .entCmd = (program 0x00010000#32).cmd.toNat := by decide

theorem witness_FrameRemembersVerdict :
    (exec (.prtCheck 0) (busyWith jedec false tables) = .next { busyWith jedec false tables with result := some (.verdict .reject) }
        ∧ jedec.held = false)
      ∧ exec (.prtCheck 0) (heldBusy 0 none jedec) = .next { heldBusy 0 none jedec with result := some (.verdict .allow) }
      ∧ frameDev ((heldBusy 0 none jedec).fiu 0).frame = some 0
      ∧ ((heldBusy 0 none jedec).fiu 0).eng = .busy { jedec with held := true } false := by
  exact ⟨⟨rfl, rfl⟩, rfl, rfl, rfl⟩

theorem witness_ConfigureDirect :
    State.reset.Ready ∧ 3 < Config.nFiu ∧ 3 ≤ 3 ∧ 0 ≤ 3 ∧ ¬ 16 * 2 ^ 20 < 0x1000000 ∧ 16 * 2 ^ 20 < 0x1000001 := by decide

theorem witness_ConfigureCommand : State.reset.Ready ∧ 3 < Config.nFiu ∧ (0xEB#8 : Byte) ≠ 0#8 := by decide

theorem witness_SetDummyCycles : State.reset.Ready ∧ 3 < Config.nFiu ∧ 0 % 8 = 0 ∧ 24 % 8 = 0 ∧ 24 ≤ 24 := by decide

theorem witness_GetReadMode :
    (State.reset.Ready ∧ (State.reset.fiu 3).get .drdAcctype = BitVec.ofNat 32 (readModePair .normal).1
        ∧ (State.reset.fiu 3).get .drdDbw = BitVec.ofNat 32 (readModePair .normal).2)
      ∧ noMode.Ready ∧ ∀ m, ¬ ((noMode.fiu 0).get .drdAcctype = BitVec.ofNat 32 (readModePair m).1
        ∧ (noMode.fiu 0).get .drdDbw = BitVec.ofNat 32 (readModePair m).2) := by
  refine ⟨by decide, by decide, fun m => ?_⟩
  cases m <;> decide

theorem witness_SelectChip :
    State.reset.Ready ∧ 3 < Config.nFiu ∧ 3 < 4 ∧ (State.reset.fiu 3).DoneBit ∧ busy.Ready ∧ (busy.fiu 0).DoneBit := by decide

theorem witness_FourByteAddressing : State.reset.Ready ∧ 3 < Config.nFiu ∧ 3 < 4 := by decide

theorem witness_SelectChipByAddress : State.reset.Ready ∧ 3 < Config.nFiu ∧ 3 < 4 ∧ (State.reset.fiu 3).DoneBit := by decide

theorem witness_SetProtectionRange :
    (State.reset.Ready ∧ (State.reset.fiu 3).bit .prtLck = false ∧ (State.reset.fiu 3).bit (.rngRlck 15) = false)
      ∧ locked.Ready ∧ (locked.fiu 0).bit .prtLck = true := by decide

theorem witness_SetProtectionCommand :
    State.reset.Ready ∧ 3 < Config.nFiu ∧ 7 ≤ 7 ∧ (State.reset.fiu 3).bit .prtLck = false ∧ locked.Ready
      ∧ (locked.fiu 0).bit .prtLck = true := by decide

theorem witness_ConfigureProtection :
    State.reset.Ready ∧ 2 ^ 34 ≤ 4 ^ 7 * 2 ^ 20 ∧ (State.reset.fiu 3).bit .prtLck = false
      ∧ (State.reset.fiu 3).get .prtFcsLck = 0#32 ∧ locked.Ready ∧ (locked.fiu 0).bit .prtLck = true := by decide

theorem witness_GetViolationStatus : violated.Ready ∧ locked.Ready ∧ 3 < Config.nFiu := by decide

theorem witness_PollSamplesDoneBit : State.reset.Ready ∧ (State.reset.fiu 3).DoneBit ∧ busy.Ready ∧ (busy.fiu 0).DoneBit := by
  decide

/-- `POLL_PERIOD_US` is open; that a bound below it permits no poll needs a period above 1 (the spec's vectors take 10). -/
theorem witness_WaitReady (h : 1 < Config.pollPeriodUs) :
    (State.reset.Ready ∧ (State.reset.fiu 3).DoneBit ∧ (State.reset.fiu 3).eng = .idle)
      ∧ (busy.Ready ∧ (busy.fiu 0).DoneBit ∧ (busy.fiu 0).eng ≠ .idle) ∧ (1#32 : Word) ≠ 0#32
      ∧ (1#32 : Word).toNat < Config.pollPeriodUs := by
  exact ⟨by decide, by decide, by decide, by simpa using h⟩

theorem witness_UmaRead :
    State.reset.Ready ∧ 3 < Config.nFiu ∧ 3 < 4 ∧ 16 ≤ 16 ∧ (State.reset.fiu 3).eng = .idle ∧ (State.reset.fiu 3).DoneBit
      ∧ (10#32 : Word) ≠ 0#32 ∧ ∀ k < 2, csForced ((State.reset.fiu 3).rd .prtCfg) k ≠ some false := by decide

theorem witness_UmaWrite :
    State.reset.Ready ∧ (List.replicate 16 7#8).length = 16 ∧ (State.reset.fiu 3).eng = .idle ∧ (State.reset.fiu 3).DoneBit
      ∧ (10#32 : Word) ≠ 0#32 ∧ ∀ k < 2, csForced ((State.reset.fiu 3).rd .prtCfg) k ≠ some false := by decide

theorem witness_UmaIoctlOneChunk :
    State.reset.Ready ∧ (List.replicate 16 7#8).length = 16 ∧ 7 ≤ 7 ∧ (4 = 0 ∨ 4 = 3 ∨ 4 = 4)
      ∧ (State.reset.fiu 3).eng = .idle ∧ (State.reset.fiu 3).DoneBit
      ∧ ∀ k < 2, csForced ((State.reset.fiu 3).rd .prtCfg) k ≠ some false := by decide

/-- A 40-byte read in three chunks. -/
def longRead : Instr := .umaIoctl 0 3 0xEB 0 4 40 0 1 4 1 4 0 3 []

/-- A write of 20 bytes. -/
def longWrite : Instr := .pageWrite 0 3 0x02 0 20 5 (List.replicate 20 7)

/-- Instance 0 of `s` with supervisor `q`, the host inside `i` at `l` and `offset`. -/
def midway (s : State) (q : Sup) (i : Instr) (l : Label) (offset : Nat) : State :=
  { s.setFiu 0 { s.fiu 0 with sup := q } with seq := .run i { startPos with label := l, offset := offset } }

theorem witness_ChunkedRequestSteps :
    ((midway State.reset .off longRead (.l 3 2) 16).At longRead { startPos with label := .l 3 2, offset := 16 }
        ∧ ((midway State.reset .off longRead (.l 3 2) 16).fiu 0).DoneBit)
      ∧ ((midway State.reset (.bounded 1) longRead (.lp 1) 0).At longRead { startPos with label := .lp 1 }
        ∧ ((midway State.reset (.bounded 1) longRead (.lp 1) 0).fiu 0).eng = .idle)
      ∧ (midway State.reset .off longRead (.l 2 0) 0).At longRead { startPos with label := .l 2 0 }
      ∧ ((midway busy (.bounded 0) longRead (.lp 6) 32).At longRead { startPos with label := .lp 6, offset := 32 }
        ∧ ((midway busy (.bounded 0) longRead (.lp 6) 32).fiu 0).sup = .bounded 0 ∧ 16 < max 40 0)
      ∧ ((midway busy (.bounded 0) longRead (.lp 1) 0).At longRead { startPos with label := .lp 1 }
        ∧ ((midway busy (.bounded 0) longRead (.lp 1) 0).fiu 0).sup = .bounded 0)
      ∧ (midway busy (.bounded 0) longWrite (.lp 5) 16).At longWrite { startPos with label := .lp 5, offset := 16 }
      ∧ ((midway busy (.bounded 0) longWrite (.lp 5) 16).fiu 0).sup = .bounded 0 := by
  decide

/-- A wait that is out at its entry, as far as the open `POLL_PERIOD_US` lets one be shown: `longWrite` has the bound 5. -/
theorem witness_ChunkedRequestSteps_entry (h : 5 < Config.pollPeriodUs) :
    (midway busy .off longWrite (.l 5 0) 16).At longWrite { startPos with label := .l 5 0, offset := 16 }
      ∧ (midway busy .off longWrite (.l 5 0) 16).TimesOut 0 5#32 { startPos with label := .l 5 0, offset := 16 } (.l 5 0) (.lp 5) := by
  exact ⟨by decide, .inl ⟨rfl, by decide, by simpa using h⟩⟩

theorem test_page_write_offset_at_end :
    (nextOf (exec longWrite (midway State.reset .unbounded longWrite (.lp 5) 16))).map (·.seq)
      = some (.run longWrite { startPos with label := .fin, offset := 32 }) := by decide -- 10_state.md R55

theorem witness_UmaIoctlDrivesOneFrame :
    State.reset.Ready ∧ 3 < Config.nFiu ∧ 3 < 4 ∧ 16 < max 40 20 ∧ (List.replicate 20 7#8).length = 20 ∧ 7 ≤ 7
      ∧ (3 = 0 ∨ 3 = 3 ∨ 3 = 4) ∧ (State.reset.fiu 3).eng = .idle ∧ (State.reset.fiu 3).DoneBit ∧ (State.reset.fiu 3).NoForce
      ∧ (State.reset.fiu 3).bit .ctsSwCs = true ∧ (State.reset.fiu 3).bit .prtPen = false := by decide

theorem witness_PageWriteDrivesOneFrame :
    State.reset.Ready ∧ (State.reset.fiu 3).eng = .idle ∧ (State.reset.fiu 3).DoneBit ∧ (State.reset.fiu 3).NoForce
      ∧ (State.reset.fiu 3).bit .ctsSwCs = true ∧ (State.reset.fiu 3).bit .prtPen = false := by decide

theorem witness_IllegalOperandsTouchNothing :
    State.reset.Ready ∧ operandFailure (.umaRead 4 9 0 0 .auto 17 0) = some (.inl .instanceIndex)
      ∧ operandFailure (.umaRead 3 4 0 0 .auto 17 0) = some (.inl .deviceIndex)
      ∧ operandFailure (.umaRead 3 3 0 0 .auto 17 0) = some (.inr (.data .paramError []))
      ∧ operandFailure (.setDummyCycles 0 12) = some (.inl .dummyCyclesNotMultipleOf8)
      ∧ operandFailure (.setProtectionCommand 0 28 0 0 3 1 1) = some (.inr (.status .paramError)) := by decide

theorem witness_RequestsBeginWithTheirFirstAccess :
    State.reset.Ready ∧ operandFailure (.umaRead 3 3 0 0 .auto 16 0) = none
      ∧ firstAccess (.umaRead 3 3 0 0 .auto 16 0) = some (.fieldWrite 3 .ctsDevNum 3#32)
      ∧ registersHandler (.umaRead 3 3 0 0 .auto 16 0) = none ∧ isOneStep (.umaRead 3 3 0 0 .auto 16 0) = false
      ∧ registersHandler (.configureProtection 0 true true 5 true true true true true true (some 9)) = some (0, 9)
      ∧ isOneStep (.configureCommand 0 0 2#8) = true
      ∧ firstAccess (.configureCommand 0 0 2#8) = some (.fieldWrite 0 .dwrWrcmd 2#32) := by decide

/-- Handler 7 has run all its operations. -/
def handlerDone : State := { inside with hprog := [] }

theorem witness_InterruptEntryAndReturn :
    (violated.mark? = none ∧ (violated.fiu 0).irqViol = true ∧ (violated.fiu 0).handler = some 7 ∧ violated.handling = none
        ∧ violated.halted = none)
      ∧ (handlerDone.mark? = none ∧ handlerDone.handling = some 0 ∧ handlerDone.hprog = [] ∧ handlerDone.hseq = .idle
        ∧ handlerDone.halted = none)
      ∧ (State.reset.handling = none ∧ (State.reset.fiu 3).irqViol = false)
      ∧ ({ violated with halted := some .deviceIndex } : State).mark? = none
      ∧ inside.handling = some 0 ∧ 0 ≠ 1 ∧ inside.hprog ≠ [] := by decide

theorem witness_HandlerContract :
    inside.mark? = none ∧ inside.halted = none ∧ inside.handling = some 0 ∧ inside.hseq = .idle ∧ (inside.fiu 0).busy = false
      ∧ fieldReg .ctsDevNum = .umaCts ∧ fieldReg (.drData 2) = .umaDr 2 ∧ (∀ n, Reg.prtSts ≠ .umaDr n) ∧ 3 < Config.nFiu := by
  decide

theorem witness_HandlerContract_meaningless :
    AccessSize.byte ≠ .word ∧ 0x00E % 4 ≠ 0 ∧ 0x0C0 % 4 = 0 ∧ ∀ r, 0x0C0 ≠ regOffset r := by
  refine ⟨by decide, by decide, by decide, fun r => ?_⟩
  cases r <;> simp [regOffset] <;> omega

/-- The host halted. -/
def halted : State := { State.reset with halted := some .deviceIndex }

theorem witness_HaltedAndUnmodelledStops :
    (halted.mark? = none ∧ halted.halted ≠ none ∧ isHostInstr (.getReadMode 0) = true)
      ∧ (withFiu fun b => b.mark .unmappedOffset).mark? = some .unmappedOffset := by decide

theorem witness_ResetState : 0 < Config.nFiu ∧ 3 < Config.nFiu := by decide

end Sys2Proof.Tests
end

section
/-! SUPPORT. The statements of 00_scope.md: whose turn a step is (R10, R15), the one instance a step changes (R7), and the field
access a request begins with. -/

namespace Sys2Proof.Machine

/-! ### Instances (R7) -/

/-- Settles O31, from what a step of any instruction can do (`exec_moves`). -/
theorem instancesAreIndependent : Obligations.InstancesAreIndependent := by
  intro s t i e hr
  obtain ⟨k, ⟨others, -⟩, named | ⟨-, handling, marked⟩⟩ := exec_moves hr e
  · exact ⟨k, others, .inl named⟩
  · exact ⟨k, others, .inr ⟨handling, marked⟩⟩

/-! ### Turns (R10, R15) -/

/-- A step is the host's turn when the schedule says so or is used up; the turn is used up. -/
theorem step_host {s : State} {rest : List Turn} (h : s.sched = .host :: rest ∨ s.sched = [] ∧ rest = []) :
    step s = hostTurn { s with sched := rest } := by
  rcases h with h | ⟨h, rfl⟩
  · simp only [step, h]
  · have same : { s with sched := [] } = s := by rw [← h]
    rw [same]
    simp only [step, h]

/-- A step is another agent's turn when the schedule says so. -/
theorem step_agent {s : State} {rest : List Turn} {record : List Byte} (h : s.sched = .agent record :: rest) :
    step s = agentTurn record { s with sched := rest } := by
  simp only [step, h]

theorem hostTurn_pass {s : State} (hm : s.mark? = none) (hn : s.hostNext = .pass) : hostTurn s = .next s := by
  simp only [hostTurn, hm, hn]

theorem hostTurn_resume {s : State} {i : Instr} (hm : s.mark? = none) (hn : s.hostNext = .resume i) :
    hostTurn s = exec i s := by
  simp only [hostTurn, hm, hn]

theorem hostTurn_issue {s u : State} {i : Instr} {record : List Byte} (hm : s.mark? = none)
    (hn : s.hostNext = .issue record u) (hd : decodeRecord record = .ok i) (hi : isHostInstr i = true) :
    hostTurn s = exec i u := by
  simp only [hostTurn, hm, hn, hd, hi, if_true]

/-! The host's next step: the handler's operations while one runs, else the request's (R55, R291). -/

section HostNext

variable {s : State} {i : Instr} {p : Pos} {j : Nat} {record : List Byte} {more : List (List Byte)}

theorem hostNext_begin (hh : s.halted = none) (hd : s.handling = none) (hq : s.seq = .idle) (hp : s.prog = record :: more) :
    s.hostNext = .issue record { s with prog := more } := by
  simp [State.hostNext, hh, hd, hq, hp]

theorem hostNext_running (hh : s.halted = none) (hd : s.handling = none) (hq : s.seq = .run i p) :
    s.hostNext = .resume i := by
  simp [State.hostNext, hh, hd, hq]

theorem hostNext_idle (hh : s.halted = none) (hd : s.handling = none) (hq : s.seq = .idle) (hp : s.prog = []) :
    s.hostNext = .pass := by
  simp [State.hostNext, hh, hd, hq, hp]

theorem hostNext_handler_begin (hh : s.halted = none) (hd : s.handling = some j) (hq : s.hseq = .idle)
    (hp : s.hprog = record :: more) : s.hostNext = .issue record { s with hprog := more } := by
  simp [State.hostNext, hh, hd, hq, hp]

theorem hostNext_handler_running (hh : s.halted = none) (hd : s.handling = some j) (hq : s.hseq = .run i p) :
    s.hostNext = .resume i := by
  simp [State.hostNext, hh, hd, hq]

theorem hostNext_handler_done (hh : s.halted = none) (hd : s.handling = some j) (hq : s.hseq = .idle) (hp : s.hprog = []) :
    s.hostNext = .resume (.irqDeliver j) := by
  simp [State.hostNext, hh, hd, hq, hp]

end HostNext

/-- Settles O21, by the six cases of the host's next step; the turn taken changes none of what they look at. -/
theorem hostTurnRunsTheDecodedInstruction : Obligations.HostTurnRunsTheDecodedInstruction := by
  intro s rest hsched hm hh
  rw [step_host hsched]
  refine ⟨?begin, ?running, ?handlerBegin, ?handlerRunning, ?handlerDone, ?idle⟩
  case begin =>
    intro i record more hdec hi hd hq hp
    exact hostTurn_issue hm (hostNext_begin hh hd hq hp) hdec hi
  case running =>
    intro i p hd hq
    exact hostTurn_resume hm (hostNext_running hh hd hq)
  case handlerBegin =>
    intro i j record more hdec hi hd hq hp
    exact hostTurn_issue hm (hostNext_handler_begin hh hd hq hp) hdec hi
  case handlerRunning =>
    intro i j p hd hq
    exact hostTurn_resume hm (hostNext_handler_running hh hd hq)
  case handlerDone =>
    intro j hd hq hp
    exact hostTurn_resume hm (hostNext_handler_done hh hd hq hp)
  case idle =>
    intro hd hq hp
    exact hostTurn_pass hm (hostNext_idle hh hd hq hp)

/-- Another agent's turn runs the decoded step, unless it is not enabled. -/
theorem agentTurn_decoded {s : State} {i : Instr} {record : List Byte} (hd : decodeRecord record = .ok i)
    (hi : isHostInstr i = false) : agentTurn record s = passIfNotEnabled s (exec i s) := by
  simp [agentTurn, hd, hi]

/-- Settles O22, by the outcome of the decoded step. -/
theorem agentTurnRunsTheDecodedStep : Obligations.AgentTurnRunsTheDecodedStep := by
  intro s rest record i hsched hd hi
  rw [step_agent hsched, agentTurn_decoded hd hi]
  refine ⟨fun t e => ?_, fun r e => ?_, fun e => ?_⟩ <;> rw [e] <;> rfl

/-! ### The first access of a request (R10) -/

theorem State.Ready.halted {s : State} (h : s.Ready) : s.halted = none := h.1.2.1

theorem State.Ready.handling {s : State} (h : s.Ready) : s.handling = none := h.1.2.2

/-- The field primitive `f` leaves the instances and the bus trace as `x` has them; `x` is `s` with instance `inst` touched, and
no handler runs in it. -/
structure Performs (inst : Nat) (s : State) (f : Instr) (x : State) : Prop where
  runs : ∃ u, exec f s = .next u ∧ u.fius = x.fius ∧ u.trace = x.trace
  touched : State.Touched inst s x
  handling : x.handling = none

theorem performs_fieldWrite {s : State} (hs : s.Ready) {inst : Nat} (hi : inst < Config.nFiu) (f : Field) (v : Word) :
    Performs inst s (.fieldWrite inst f v) (s.wrf inst f v) where
  runs := ⟨_, exec_fieldWrite hs hi f v, rfl, rfl⟩
  touched := State.touched_wrf s inst f v
  handling := (handling_wrf s inst f v).trans hs.handling

/-- A field-read instruction of the host. -/
theorem exec_fieldRead {s : State} (h : s.Ready) {inst : Nat} (hi : inst < Config.nFiu) (f : Field) :
    exec (.fieldRead inst f) s = .next { (s.rdf inst f).2 with seq := .idle, result := some (.word (s.rdf inst f).1) } := by
  have ht : (s.rdf inst f).2.handling = none := (handling_hostRead s inst _).trans h.handling
  simp [exec, execFieldRead, hostStep_ready h, instOk, hi, startPos, finish_live ht]

theorem performs_fieldRead {s : State} (hs : s.Ready) {inst : Nat} (hi : inst < Config.nFiu) (f : Field) :
    Performs inst s (.fieldRead inst f) (s.rdf inst f).2 where
  runs := ⟨_, exec_fieldRead hs hi f, rfl, rfl⟩
  touched := State.touched_rdf s inst f
  handling := (handling_hostRead s inst _).trans hs.handling

/-- What O57 says of the request `i` and its first access `f`. -/
def BeginsWith (s : State) (i f : Instr) : Prop :=
  ∃ t u, exec i s = .next t ∧ exec f s = .next u ∧ t.halted = none ∧ s.SameEnv t ∧ t.trace = u.trace
    ∧ (registersHandler i = none → t.fius = u.fius)
    ∧ (∀ k h, registersHandler i = some (k, h) → u.SameOthers k t ∧ t.fiu k = { u.fiu k with handler := some h })
    ∧ (isOneStep i = true → t.seq = .idle ∧ t.result.isSome = true)
    ∧ (isOneStep i = false → (∃ p, t.seq = .run i p ∧ p.label ≠ .start ∧ p.offset = 0 ∧ p.acc = []) ∧ t.result = s.result)

/-- The first step of a fixed list of accesses is not its last. -/
theorem straight_several (i : Instr) (s : State) (a b : State → State) (rest : List (State → State)) (res : Result) :
    straight i startPos s (a :: b :: rest) res = goTo i { startPos with label := .s 2 0 } (a s) := by
  simp [straight, straightAt, startPos]

section Outcomes

variable {s x : State} {inst : Nat} {i f : Instr}

/-- A request of one step, which registers no handler, begins and ends with its access. -/
theorem begins_finish {res : Result} (hs : s.Ready) (hx : Performs inst s f x) (e : exec i s = finish res x)
    (hr : registersHandler i = none) (h1 : isOneStep i = true) : BeginsWith s i f := by
  obtain ⟨u, eu, fius, trace⟩ := hx.runs
  obtain ⟨-, -, halted, hseq, hprog, code, prog, sched, -, other⟩ := hx.touched.rest
  refine ⟨_, u, e.trans (finish_live hx.handling res), eu, halted.trans hs.halted, ⟨hseq, hprog, code, prog, sched, other⟩,
    trace.symm, fun _ => fius.symm, fun k h hk => ?_, fun _ => ⟨rfl, rfl⟩, fun h0 => ?_⟩
  · rw [hr] at hk; cases hk
  · rw [h1] at h0; cases h0

/-- A request of several steps that registers no handler goes on after its access. -/
theorem begins_goTo {p : Pos} (hs : s.Ready) (hx : Performs inst s f x) (e : exec i s = goTo i p x)
    (hr : registersHandler i = none) (h1 : isOneStep i = false) (hp : p.label ≠ .start ∧ p.offset = 0 ∧ p.acc = []) :
    BeginsWith s i f := by
  obtain ⟨u, eu, fius, trace⟩ := hx.runs
  obtain ⟨-, -, halted, hseq, hprog, code, prog, sched, result, other⟩ := hx.touched.rest
  refine ⟨_, u, e.trans (goTo_live hx.handling i p), eu, halted.trans hs.halted, ⟨hseq, hprog, code, prog, sched, other⟩,
    trace.symm, fun _ => fius.symm, fun k h hk => ?_, fun h0 => ?_, fun _ => ⟨⟨p, rfl, hp⟩, result⟩⟩
  · rw [hr] at hk; cases hk
  · rw [h1] at h0; cases h0

/-- A request of several steps that registers handler `h` in the instance of its access, and goes on. -/
theorem begins_goTo_registering {p : Pos} {h : Nat} (hs : s.Ready) (hi : inst < Config.nFiu) (hx : Performs inst s f x)
    (e : exec i s = goTo i p (x.setFiu inst { x.fiu inst with handler := some h }))
    (hr : registersHandler i = some (inst, h)) (h1 : isOneStep i = false)
    (hp : p.label ≠ .start ∧ p.offset = 0 ∧ p.acc = []) : BeginsWith s i f := by
  obtain ⟨u, eu, fius, trace⟩ := hx.runs
  have handling : (x.setFiu inst { x.fiu inst with handler := some h }).handling = none :=
    (State.handling_setFiu x inst { x.fiu inst with handler := some h } rfl).trans hx.handling
  obtain ⟨-, -, halted, hseq, hprog, code, prog, sched, result, other⟩ := hx.touched.rest
  refine ⟨_, u, e.trans (goTo_live handling i p), eu, halted.trans hs.halted, ⟨hseq, hprog, code, prog, sched, other⟩,
    trace.symm, fun h0 => ?_, fun k g hk => ?_, fun h0 => ?_, fun _ => ⟨⟨p, rfl, hp⟩, result⟩⟩
  · rw [hr] at h0; cases h0
  · rw [hr] at hk
    cases hk
    refine ⟨fun k hk => ?_, ?_⟩
    · exact (State.fiu_setFiu_ne x _ hk).trans (State.fiu_congr fius.symm k)
    · rw [State.fiu_congr fius inst]
      exact State.fiu_setFiu_same x _ hi
  · rw [h1] at h0; cases h0

/-- A request that is a fixed list of accesses begins with the first of them. -/
theorem begins_straight {a : State → State} {rest : List (State → State)} {res : Result} (hs : s.Ready)
    (hx : Performs inst s f (a s)) (e : exec i s = straight i startPos s (a :: rest) res)
    (hr : registersHandler i = none) (h1 : isOneStep i = rest.isEmpty) : BeginsWith s i f := by
  cases rest with
  | nil => exact begins_finish hs hx e hr h1
  | cons b rest => exact begins_goTo hs hx (e.trans (straight_several i s a b rest res)) hr h1 ⟨by simp, rfl, rfl⟩

end Outcomes

/-! Legal operands, from `operandFailure`. -/

/-- A request checked for its instance and a condition on its other operands. -/
theorem legal_status {inst : Nat} {bad : Bool}
    (h : (if Config.nFiu ≤ inst then some (.inl .instanceIndex)
      else if bad then some (.inr (.status .paramError)) else none : Option (HaltReason ⊕ Result)) = none) :
    inst < Config.nFiu ∧ bad = false := by
  split at h
  · cases h
  · split at h
    · cases h
    · exact ⟨by omega, by simpa using ‹¬ bad = true›⟩

/-- A request checked for its instance, its device and a condition on its other operands. -/
theorem legal_device {inst dev : Nat} {bad : Bool} {res : Result}
    (h : (if Config.nFiu ≤ inst then some (.inl .instanceIndex) else if 4 ≤ dev then some (.inl .deviceIndex)
      else if bad then some (.inr res) else none : Option (HaltReason ⊕ Result)) = none) :
    inst < Config.nFiu ∧ dev < 4 ∧ bad = false := by
  split at h
  · cases h
  · split at h
    · cases h
    · split at h
      · cases h
      · exact ⟨by omega, by omega, by simpa using ‹¬ bad = true›⟩

/-- The operands of `set_dummy_cycles`. -/
theorem legal_cycles {inst cycles : Nat} (h : operandFailure (.setDummyCycles inst cycles) = none) :
    inst < Config.nFiu ∧ cycles % 8 = 0 ∧ ¬ 3 < cycles / 8 := by
  simp only [operandFailure] at h
  split at h
  · cases h
  · split at h
    · cases h
    · split at h
      · cases h
      · exact ⟨by omega, by omega, by omega⟩

/-- A number of bits that the operand table admits is a phase width (R14). -/
theorem widthOfBits_of_legal {n : Nat} (h : (n != 1 && n != 2 && n != 4) = false) : ∃ w, widthOfBits n = some w := by
  have : n = 1 ∨ n = 2 ∨ n = 4 := by simp at h; omega
  rcases this with rfl | rfl | rfl <;> exact ⟨_, rfl⟩

/-- The operands of `uma_ioctl`. -/
theorem legal_ioctl {inst dev : Nat} {cmd : Byte} {addr : Word} {asz rs ws cb ab wb rb : Nat} {timeout : Word} {dummy : Nat}
    {buf : List Byte} (h : operandFailure (.umaIoctl inst dev cmd addr asz rs ws cb ab wb rb timeout dummy buf) = none) :
    inst < Config.nFiu ∧ dev < 4 ∧ ∃ wc wa ww wr, ioctlWidths asz cb ab wb rb dummy = some (wc, wa, ww, wr) := by
  obtain ⟨hi, hd, legal⟩ := legal_device h
  simp only [Bool.or_eq_false_iff] at legal
  obtain ⟨⟨⟨⟨⟨hcb, hab⟩, hwb⟩, hrb⟩, hasz⟩, hdummy⟩ := legal
  obtain ⟨wc, ec⟩ := widthOfBits_of_legal hcb
  obtain ⟨wa, ea⟩ := widthOfBits_of_legal hab
  obtain ⟨ww, ew⟩ := widthOfBits_of_legal hwb
  obtain ⟨wr, er⟩ := widthOfBits_of_legal hrb
  have sizes : (asz = 0 ∨ asz = 3 ∨ asz = 4) ∧ dummy ≤ 7 := by simp at hasz hdummy; omega
  exact ⟨hi, hd, wc, wa, ww, wr, by simp only [ioctlWidths, ec, ea, ew, er, if_pos sizes]⟩

/-- The operands of `set_protection_command`. -/
theorem legal_protectionCommand {inst slot code : Nat} {cmd : Byte} {aby ab cb : Nat}
    (h : operandFailure (.setProtectionCommand inst slot code cmd aby ab cb) = none) :
    inst < Config.nFiu ∧ slot / 2 < 14 ∧ ¬ (aby ≠ 3 ∧ aby ≠ 4) ∧ (∃ w, widthOfBits ab = some w)
      ∧ (∃ w, widthOfBits cb = some w) ∧ ¬ 7 < code := by
  obtain ⟨hi, legal⟩ := legal_status h
  simp only [Bool.or_eq_false_iff] at legal
  obtain ⟨⟨⟨⟨hslot, haby⟩, hab⟩, hcb⟩, hcode⟩ := legal
  exact ⟨hi, Nat.not_le.1 (of_decide_eq_false hslot), by simpa using haby, widthOfBits_of_legal hab, widthOfBits_of_legal hcb,
    of_decide_eq_false hcode⟩

/-- The packed lower bound of a range is bits 26:14 of the address (R12). -/
theorem start13_eq_extract (start : Word) : start13 start = (start.extractLsb' 14 13).setWidth 32 := by
  apply BitVec.eq_of_getLsbD_eq
  intro j hj
  rw [start13, BitVec.getLsbD_and, getLsbD_lowMask (by omega)]
  simp [hj, Bool.and_comm]

/-- The search of the size class stops at class 7 where the size is at most 16 GiB (R13). -/
theorem devsizFrom_le_seven {size : Nat} (h : size ≤ 4 ^ 7 * 2 ^ 20) (fuel : Nat) {k : Nat} (hk : k ≤ 7) :
    devsizFrom fuel k size ≤ 7 := by
  induction fuel generalizing k with
  | zero => exact hk
  | succ fuel ih =>
    rw [devsizFrom]
    split
    · exact hk
    · rename_i hlt
      have : k ≠ 7 := by rintro rfl; exact hlt h
      exact ih (by omega)

/-! The first step of a request past its assertions (60_exceptions.md R283). -/

section Validation

variable {s : State} {inst dev : Nat} {i : Instr} {body : Pos → Out}

theorem hostStep_instOk (hs : s.Ready) (hi : inst < Config.nFiu) :
    hostStep i s (fun p => if !instOk inst then raiseHalt .instanceIndex s else body p) = body startPos := by
  rw [hostStep_ready hs]
  simp [instOk, hi]

theorem hostStep_devOk (hs : s.Ready) (hi : inst < Config.nFiu) (hd : dev < 4) :
    hostStep i s (fun p => if !instOk inst then raiseHalt .instanceIndex s
      else if !devOk inst dev then raiseHalt .deviceIndex s else body p) = body startPos := by
  rw [hostStep_instOk hs hi]
  simp [devOk, hd]

end Validation

/-! One lemma per request: past its validation the first step is its access. -/

section Requests

variable {s : State} {inst dev : Nat} {f : Instr}

/-- Four-byte addressing above 16 MiB (41_direct_access.md R151). -/
theorem fourByteSize_eq (size : Nat) : bool32 (16 * 2 ^ 20 < size) = if 2 ^ 24 < size then 1#32 else 0#32 := by
  simp [bool32]

theorem configureDirect_begins {size rb wb : Nat} {mode : ReadMode} (hs : s.Ready)
    (ho : operandFailure (.configureDirect inst size mode rb wb) = none)
    (hf : firstAccess (.configureDirect inst size mode rb wb) = some f) :
    BeginsWith s (.configureDirect inst size mode rb wb) f := by
  obtain ⟨hi, hb⟩ := legal_status ho
  obtain rfl := Option.some.inj hf
  have bursts : ¬ (3 < rb ∨ 3 < wb) := by simpa using hb
  rw [← fourByteSize_eq]
  exact begins_straight hs (performs_fieldWrite hs hi _ _) ((hostStep_instOk hs hi).trans (if_neg bursts)) rfl rfl

theorem configureCommand_begins {r w : Byte} (hs : s.Ready) (ho : operandFailure (.configureCommand inst r w) = none)
    (hf : firstAccess (.configureCommand inst r w) = some f) : BeginsWith s (.configureCommand inst r w) f := by
  obtain ⟨hi, -⟩ := legal_status ho
  have e : exec (.configureCommand inst r w) s = _ := hostStep_instOk hs hi
  by_cases hr : r = 0#8
  · by_cases hw : w = 0#8
    · simp [firstAccess, hr, hw] at hf
    · obtain rfl : _ = f := by simpa [firstAccess, hr, hw] using hf
      rw [if_pos hr, if_neg hw] at e
      exact begins_straight hs (performs_fieldWrite hs hi _ _) e rfl (by simp [isOneStep, hr])
  · obtain rfl : _ = f := by simpa [firstAccess, hr] using hf
    rw [if_neg hr] at e
    refine begins_straight hs (performs_fieldWrite hs hi _ _) e rfl ?_
    by_cases hw : w = 0#8 <;> simp [isOneStep, hr, hw]

theorem getReadMode_begins (hs : s.Ready) (ho : operandFailure (.getReadMode inst) = none)
    (hf : firstAccess (.getReadMode inst) = some f) : BeginsWith s (.getReadMode inst) f := by
  obtain ⟨hi, -⟩ := legal_status ho
  obtain rfl := Option.some.inj hf
  exact begins_goTo hs (performs_fieldRead hs hi _) (hostStep_instOk hs hi) rfl rfl ⟨by simp, rfl, rfl⟩

theorem setDummyCycles_begins {cycles : Nat} (hs : s.Ready) (ho : operandFailure (.setDummyCycles inst cycles) = none)
    (hf : firstAccess (.setDummyCycles inst cycles) = some f) : BeginsWith s (.setDummyCycles inst cycles) f := by
  obtain ⟨hi, multiple, small⟩ := legal_cycles ho
  obtain rfl := Option.some.inj hf
  exact begins_straight hs (performs_fieldWrite hs hi _ _)
    ((hostStep_instOk hs hi).trans ((if_neg (not_not.2 multiple)).trans (if_neg small))) rfl rfl

theorem umaRead_begins {cmd : Byte} {addr : Word} {ap : AddressPresent} {size : Nat} {timeout : Word} (hs : s.Ready)
    (ho : operandFailure (.umaRead inst dev cmd addr ap size timeout) = none)
    (hf : firstAccess (.umaRead inst dev cmd addr ap size timeout) = some f) :
    BeginsWith s (.umaRead inst dev cmd addr ap size timeout) f := by
  obtain ⟨hi, hd, hb⟩ := legal_device ho
  obtain rfl := Option.some.inj hf
  exact begins_goTo hs (performs_fieldWrite hs hi _ _)
    ((hostStep_devOk hs hi hd).trans (if_neg (of_decide_eq_false hb))) rfl rfl ⟨by simp, rfl, rfl⟩

theorem umaWrite_begins {cmd : Byte} {addr : Word} {ap : AddressPresent} {size : Nat} {timeout : Word} {data : List Byte}
    (hs : s.Ready) (ho : operandFailure (.umaWrite inst dev cmd addr ap size timeout data) = none)
    (hf : firstAccess (.umaWrite inst dev cmd addr ap size timeout data) = some f) :
    BeginsWith s (.umaWrite inst dev cmd addr ap size timeout data) f := by
  obtain ⟨hi, hd, hb⟩ := legal_device ho
  obtain rfl := Option.some.inj hf
  exact begins_goTo hs (performs_fieldWrite hs hi _ _)
    ((hostStep_devOk hs hi hd).trans (if_neg (of_decide_eq_false hb))) rfl rfl ⟨by simp, rfl, rfl⟩

theorem umaIoctl_begins {cmd : Byte} {addr : Word} {asz rs ws cb ab wb rb : Nat} {timeout : Word} {dummy : Nat}
    {buf : List Byte} (hs : s.Ready)
    (ho : operandFailure (.umaIoctl inst dev cmd addr asz rs ws cb ab wb rb timeout dummy buf) = none)
    (hf : firstAccess (.umaIoctl inst dev cmd addr asz rs ws cb ab wb rb timeout dummy buf) = some f) :
    BeginsWith s (.umaIoctl inst dev cmd addr asz rs ws cb ab wb rb timeout dummy buf) f := by
  obtain ⟨hi, hd, wc, wa, ww, wr, widths⟩ := legal_ioctl ho
  obtain rfl := Option.some.inj hf
  have e : exec (.umaIoctl inst dev cmd addr asz rs ws cb ab wb rb timeout dummy buf) s = _ := hostStep_devOk hs hi hd
  simp only [widths] at e
  exact begins_goTo hs (performs_fieldWrite hs hi _ _) e rfl rfl ⟨by simp, rfl, rfl⟩

theorem pageWrite_begins {cmd : Byte} {addr : Word} {size : Nat} {timeout : Word} {data : List Byte} (hs : s.Ready)
    (ho : operandFailure (.pageWrite inst dev cmd addr size timeout data) = none)
    (hf : firstAccess (.pageWrite inst dev cmd addr size timeout data) = some f) :
    BeginsWith s (.pageWrite inst dev cmd addr size timeout data) f := by
  obtain ⟨hi, hd, -⟩ := legal_device ho
  obtain rfl := Option.some.inj hf
  exact begins_goTo hs (performs_fieldWrite hs hi _ _) (hostStep_devOk hs hi hd) rfl rfl ⟨by simp, rfl, rfl⟩

theorem selectChip_begins (hs : s.Ready) (ho : operandFailure (.selectChip inst dev) = none)
    (hf : firstAccess (.selectChip inst dev) = some f) : BeginsWith s (.selectChip inst dev) f := by
  obtain ⟨hi, hd, -⟩ := legal_device ho
  obtain rfl := Option.some.inj hf
  exact begins_straight hs (performs_fieldWrite hs hi _ _) (hostStep_devOk hs hi hd) rfl rfl

theorem setFourByteAddressing_begins {en : Bool} (hs : s.Ready) (ho : operandFailure (.setFourByteAddressing inst dev en) = none)
    (hf : firstAccess (.setFourByteAddressing inst dev en) = some f) : BeginsWith s (.setFourByteAddressing inst dev en) f := by
  obtain ⟨hi, hd, -⟩ := legal_device ho
  obtain rfl := Option.some.inj hf
  exact begins_straight hs (performs_fieldWrite hs hi _ _) (hostStep_devOk hs hi hd) rfl rfl

theorem getFourByteAddressing_begins (hs : s.Ready) (ho : operandFailure (.getFourByteAddressing inst dev) = none)
    (hf : firstAccess (.getFourByteAddressing inst dev) = some f) : BeginsWith s (.getFourByteAddressing inst dev) f := by
  obtain ⟨hi, hd, -⟩ := legal_device ho
  obtain rfl := Option.some.inj hf
  exact begins_finish hs (performs_fieldRead hs hi _) (hostStep_devOk hs hi hd) rfl rfl

theorem selectChipByAddress_begins {addr : Word} (hs : s.Ready) (ho : operandFailure (.selectChipByAddress inst dev addr) = none)
    (hf : firstAccess (.selectChipByAddress inst dev addr) = some f) : BeginsWith s (.selectChipByAddress inst dev addr) f := by
  obtain ⟨hi, hd, -⟩ := legal_device ho
  have e : exec (.selectChipByAddress inst dev addr) s = _ := hostStep_devOk hs hi hd
  by_cases ha : addr.toNat < Config.flashSize inst dev
  · obtain rfl : _ = f := by simpa [firstAccess, ha] using hf
    rw [if_pos ha] at e
    exact begins_straight hs (performs_fieldWrite hs hi _ _) e rfl (by simp [isOneStep, ha])
  · obtain rfl : _ = f := by simpa [firstAccess, ha] using hf
    rw [if_neg ha] at e
    exact begins_straight hs (performs_fieldWrite hs hi _ _) e rfl (by simpa [isOneStep] using ha)

theorem setProtectionRange_begins {index : Nat} {start stop : Word} {mask : BitVec 2} (hs : s.Ready)
    (ho : operandFailure (.setProtectionRange inst index start stop mask) = none)
    (hf : firstAccess (.setProtectionRange inst index start stop mask) = some f) :
    BeginsWith s (.setProtectionRange inst index start stop mask) f := by
  obtain ⟨hi, hb⟩ := legal_status ho
  have hx : index < 16 := by simpa using hb
  rw [firstAccess, dif_pos hx, ← start13_eq_extract] at hf
  obtain rfl := Option.some.inj hf
  exact begins_straight hs (performs_fieldWrite hs hi _ _) ((hostStep_instOk hs hi).trans (dif_pos hx)) rfl rfl

theorem setProtectionCommand_begins {slot code : Nat} {cmd : Byte} {aby ab cb : Nat} (hs : s.Ready)
    (ho : operandFailure (.setProtectionCommand inst slot code cmd aby ab cb) = none)
    (hf : firstAccess (.setProtectionCommand inst slot code cmd aby ab cb) = some f) :
    BeginsWith s (.setProtectionCommand inst slot code cmd aby ab cb) f := by
  obtain ⟨hi, hslot, bytes, ⟨wa, ha⟩, ⟨wc, hc⟩, hcode⟩ := legal_protectionCommand ho
  simp only [firstAccess, ha, hc, hslot, dite_true] at hf
  obtain rfl := Option.some.inj hf
  have e : exec (.setProtectionCommand inst slot code cmd aby ab cb) s = _ := hostStep_instOk hs hi
  rw [dif_pos hslot, if_neg bytes] at e
  simp only [ha, hc] at e
  exact begins_straight hs (performs_fieldWrite hs hi _ _) (e.trans (if_neg hcode)) rfl rfl

theorem configureProtection_begins {lock en : Bool} {size : Nat} {e0 e1 f0 f1 io2 other : Bool} {handler : Option Nat}
    (hs : s.Ready) (ho : operandFailure (.configureProtection inst lock en size e0 e1 f0 f1 io2 other handler) = none)
    (hf : firstAccess (.configureProtection inst lock en size e0 e1 f0 f1 io2 other handler) = some f) :
    BeginsWith s (.configureProtection inst lock en size e0 e1 f0 f1 io2 other handler) f := by
  obtain ⟨hi, hb⟩ := legal_status ho
  obtain rfl := Option.some.inj hf
  have small : ¬ 7 < devsiz size := Nat.not_lt.2 (devsizFrom_le_seven (Nat.not_lt.1 (of_decide_eq_false hb)) _ (by omega))
  have e : exec (.configureProtection inst lock en size e0 e1 f0 f1 io2 other handler) s = _ :=
    (hostStep_instOk hs hi).trans (if_neg small)
  cases handler with
  | none => exact begins_straight hs (performs_fieldWrite hs hi _ _) e rfl rfl
  | some h =>
    exact begins_goTo_registering hs hi (performs_fieldWrite hs hi _ _) (e.trans (straight_several ..)) rfl rfl
      ⟨by simp, rfl, rfl⟩

theorem getViolationStatus_begins {clear : Bool} (hs : s.Ready) (ho : operandFailure (.getViolationStatus inst clear) = none)
    (hf : firstAccess (.getViolationStatus inst clear) = some f) : BeginsWith s (.getViolationStatus inst clear) f := by
  obtain ⟨hi, -⟩ := legal_status ho
  obtain rfl := Option.some.inj hf
  cases clear with
  | false => exact begins_finish hs (performs_fieldRead hs hi _) (hostStep_instOk hs hi) rfl rfl
  | true => exact begins_goTo hs (performs_fieldRead hs hi _) (hostStep_instOk hs hi) rfl rfl ⟨by simp, rfl, rfl⟩

end Requests

/-- Settles O57, request by request; the other instructions have no first access. -/
theorem requestsBeginWithTheirFirstAccess : Obligations.RequestsBeginWithTheirFirstAccess := by
  intro s i f hs ho hf
  change BeginsWith s i f
  cases i with
  | configureDirect => exact configureDirect_begins hs ho hf
  | configureCommand => exact configureCommand_begins hs ho hf
  | getReadMode => exact getReadMode_begins hs ho hf
  | setDummyCycles => exact setDummyCycles_begins hs ho hf
  | umaRead => exact umaRead_begins hs ho hf
  | umaWrite => exact umaWrite_begins hs ho hf
  | umaIoctl => exact umaIoctl_begins hs ho hf
  | pageWrite => exact pageWrite_begins hs ho hf
  | selectChip => exact selectChip_begins hs ho hf
  | setFourByteAddressing => exact setFourByteAddressing_begins hs ho hf
  | getFourByteAddressing => exact getFourByteAddressing_begins hs ho hf
  | selectChipByAddress => exact selectChipByAddress_begins hs ho hf
  | setProtectionRange => exact setProtectionRange_begins hs ho hf
  | setProtectionCommand => exact setProtectionCommand_begins hs ho hf
  | configureProtection => exact configureProtection_begins hs ho hf
  | getViolationStatus => exact getViolationStatus_begins hs ho hf
  | _ => cases hf

end Sys2Proof.Machine
end

section
/-! SUPPORT. The statements of 10_state.md: what every step keeps (R41, R43, R48, R50, R51), and what a host's read or write of each
register does and leaves alone (R25, R34 to R42). -/

namespace Sys2Proof.Machine

/-! ### What every step keeps (R41, R43, R48, R50) -/

theorem exec_reset (s : State) : exec .reset s = .next s.doReset := rfl

/-- A relation between an instance before and after, kept by every move and by `RESET`, is kept by every step of the machine. -/
theorem step_relates {R : Fiu → Fiu → Prop} (move : ∀ {inst ec md b c}, Fiu.Move inst ec md b c → R b c)
    (reset : ∀ b k, R b (b.reset k)) {s t : State} (e : step s = .next t) {k : Nat} (hk : k < Config.nFiu) :
    R (s.fiu k) (t.fiu k) := by
  have refl : ∀ b, R b b := fun b => move (.refl (inst := k) (ec := true) (md := true) b)
  obtain same | ⟨i, u, same, e⟩ := step_cases e
  · rw [State.fiu_congr same]
    exact refl _
  · rw [← State.fiu_congr same k]
    by_cases hr : i = .reset
    · subst hr
      obtain rfl : u.doReset = t := Host.Outcome.next.inj ((exec_reset u).symm.trans e)
      rw [State.doReset_fiu u hk]
      exact reset _ k
    · obtain ⟨j, ⟨others, moved⟩, -⟩ := exec_moves hr e
      by_cases hj : k = j
      · subst hj
        exact move moved
      · rw [others k hj]
        exact refl _

/-- Registers at their reset values, whatever was drawn, with the engine idle and the frame closed have the invariant (R60, R61). -/
theorem Fiu.inv_of_resetRegs {b : Fiu} {d : Nat → Word} (hr : b.regs = resetRegs d) (he : b.eng = .idle)
    (hf : b.frame = .closed) : b.Inv := by
  have word : ∀ r, b.rd r = resetWord r (d (regIndex r).val) := by
    intro r
    simp [Fiu.rd, hr, wordAt, resetRegs, allRegs_regIndex]
  have cts : b.rd .umaCts = 0x00010000#32 := (word _).trans (resetWord_umaCts _)
  refine ⟨fun r _ => ?reserved, ?doneBit, ?frameHeld, ?latchOk⟩
  case reserved => rw [word]; exact resetWord_reserved r _
  case doneBit =>
    have idle : b.busy = false := Fiu.busy_false.2 he
    rw [Fiu.DoneBit, idle, Fiu.bit, show fieldReg .ctsExecDone = .umaCts from rfl, cts]
    decide
  case frameHeld =>
    rw [Fiu.FrameHeld, hf, cts]
    decide
  case latchOk => simp only [Fiu.latchOk, he]

/-- Every move keeps the invariant. -/
theorem Fiu.Move.inv {inst : Nat} {ec md : Bool} {b c : Fiu} (m : Fiu.Move inst ec md b c) (h : b.Inv) : c.Inv := by
  induction m with
  | refl => exact h
  | trans _ _ ih1 ih2 => exact ih2 (ih1 h)
  | write b r v => exact h.busWrite r v
  | drd b f v => exact h.busWrite _ _
  | complete b l dist => exact h.complete inst l dist
  | draw | sup | handler | inHandler | fourb | mark => exact h.congr rfl rfl rfl

theorem Fiu.reset_regs (b : Fiu) (k : Nat) : (b.reset k).regs = resetRegs fun j => Config.drawWord k (b.draws + j) := by
  simp only [Fiu.reset]

theorem Fiu.inv_reset (b : Fiu) (k : Nat) : (b.reset k).Inv :=
  Fiu.inv_of_resetRegs (b.reset_regs k) (b.reset_eng k) (b.reset_frame k)

/-- Settles O26: every move of an instance keeps its invariant, and `RESET` makes it hold. -/
theorem stepKeepsInvariant : Obligations.StepKeepsInvariant := by
  intro s t h e k hk
  exact step_relates (R := fun b c => b.Inv → c.Inv) (fun m => m.inv) (fun b k _ => b.inv_reset k) e hk (h k hk)

/-- Settles O25: the instances at power-on have their registers at the reset values (R60). -/
theorem resetInvariant : Obligations.ResetInvariant := by
  intro k hk
  have same : State.reset.fiu k = resetFiu := by simp [State.reset, State.fiu, fiuAt, hk]
  have regs : resetFiu.regs = resetRegs fun _ => 0#32 := by simp only [resetFiu]
  rw [same]
  exact Fiu.inv_of_resetRegs regs rfl rfl

/-! ### Register reads (R35) -/

/-- The instance a register read instruction of the host leaves, and the rest of the machine. -/
theorem exec_read_spec {s : State} (h : s.Ready) {inst : Nat} (hi : inst < Config.nFiu) (r : Reg) :
    ∃ t, exec (Instr.ofReg r .host inst .read) s = .next t ∧ s.Ended t (.word ((s.fiu inst).busRead inst r).1)
      ∧ t.fiu inst = ((s.fiu inst).busRead inst r).2 ∧ s.SameOthers inst t
      ∧ t.trace = s.trace ++ [⟨inst, false, r, ((s.fiu inst).busRead inst r).1⟩] := by
  obtain ⟨others, -, halted, hseq, hprog, code, prog, sched, -, other⟩ := (State.touched_hostRead s inst r).rest
  exact ⟨_, exec_read h hi r, ⟨rfl, halted.trans h.halted, rfl, hseq, hprog, code, prog, sched, other⟩,
    State.fiu_setFiu_same s _ hi, others, rfl⟩

/-- A bus read of an instance with its reserved bits 0 gives a word with its reserved bits 0 (R35, R41); the read-data registers
have none, so this holds of a drawn word too. -/
theorem Fiu.busRead_reserved {b : Fiu} (h : b.ReservedZero) (inst : Nat) (r : Reg) :
    (b.busRead inst r).1 &&& ~~~(regMask r) = 0#32 := by
  by_cases hr : ∃ k, r = .umaDr k
  · obtain ⟨k, rfl⟩ := hr
    have full : ∀ k, ~~~(regMask (.umaDr k)) = 0#32 := by decide
    rw [full, BitVec.and_zero]
  · rw [Fiu.busRead_stored (.inr fun k e => hr ⟨k, e⟩)]
    exact h r (mem_allRegs r)

/-- Settles O1, from what a bus read does to an instance. -/
theorem registerReadHasNoSideEffect : Obligations.RegisterReadHasNoSideEffect := by
  intro s r inst hs hi hz
  obtain ⟨t, e, ended, fiu, others, trace⟩ := exec_read_spec hs hi r
  refine ⟨t, _, e, ended, fun stored => ?_, Fiu.busRead_reserved hz inst r, ?_, others, trace⟩
  · rw [fiu, Fiu.busRead_stored (stored.imp_left Fiu.busy_false.2)]
    exact ⟨rfl, rfl⟩
  · rw [fiu]
    exact Fiu.busRead_snd _ inst r

/-! ### Writes that store, and writes that are ignored (R25, R38, R39, R40, R42) -/

/-- A store in a register changes nothing hidden. -/
theorem Fiu.sameHidden_setReg (b : Fiu) (r : Reg) (v : Word) : b.SameHidden (b.setReg r v) := by simp [Fiu.SameHidden]

theorem Fiu.sameHidden_refl (b : Fiu) : b.SameHidden b := by simp [Fiu.SameHidden]

/-- What a store in `r` of the bits of `v` that are not reserved leaves: the fields written, every other register, everything hidden. -/
theorem Fiu.setReg_masked (b : Fiu) (r : Reg) (v : Word) :
    (∀ f, fieldReg f = r → (b.setReg r (v &&& regMask r)).get f = getField f v)
      ∧ b.SameButReg r (b.setReg r (v &&& regMask r)) ∧ b.SameHidden (b.setReg r (v &&& regMask r)) := by
  refine ⟨fun f hf => ?_, fun q hq => Fiu.rd_setReg_ne b _ hq, b.sameHidden_setReg r _⟩
  rw [Fiu.get, hf, Fiu.rd_setReg_same, getField_and_regMask hf]

/-- Settles O2: each of these registers stores the written word with its reserved bits dropped. -/
theorem plainRegisterWriteStores : Obligations.PlainRegisterWriteStores := by
  intro s r inst v hs hi hr
  obtain ⟨t, e, ended, fiu, others, trace⟩ := exec_write_spec hs hi r v
  have stored : (s.fiu inst).busWrite r v = (s.fiu inst).setReg r (v &&& regMask r) := by
    obtain rfl | rfl | ⟨idle, hr⟩ := hr
    · exact Fiu.busWrite_drdCfg _ v
    · exact Fiu.busWrite_dwrCfg _ v
    · exact Fiu.busWrite_uma (Fiu.busy_false.2 idle) hr v
  rw [stored] at fiu
  obtain ⟨fields, regs, hidden⟩ := (s.fiu inst).setReg_masked r v
  refine ⟨t, e, ended, fun f hf => ?_, ?_, fiu ▸ regs, fiu ▸ hidden, others, trace⟩
  · subst hf
    rw [fiu]
    exact fields f rfl
  · rw [fiu, Fiu.rd_setReg_same]
    exact and_mask_reserved v _

/-- Settles O3: the instance is stored back as it was. -/
theorem readDataIgnoresWrites : Obligations.ReadDataIgnoresWrites := by
  intro s k inst v hs hi
  obtain ⟨t, e, ended, -, -, trace⟩ := exec_write_spec hs hi (.umaDr k) v
  obtain rfl := Host.Outcome.next.inj (e.symm.trans (exec_write hs hi (.umaDr k) v))
  exact ⟨_, e, ended, putFiuAt_self s.fius inst, trace⟩

/-- Settles O10, by the two locks. -/
theorem rangeWriteFilter : Obligations.RangeWriteFilter := by
  intro s inst n v hs hi
  obtain ⟨t, e, ended, fiu, others, trace⟩ := exec_write_spec hs hi (.prtRange n) v
  refine ⟨t, e, ended, others, trace, ?_⟩
  rw [fiu]
  by_cases lock : (s.fiu inst).bit .prtLck = true ∨ (s.fiu inst).bit (.rngRlck n) = true
  · rw [Fiu.busWrite_prtRange_locked lock]
    exact ⟨fun _ => rfl, fun h1 h2 => by simp [h1, h2] at lock, fun _ _ => rfl, Fiu.sameHidden_refl _⟩
  · obtain ⟨h1, h2⟩ := not_or.1 lock
    rw [Fiu.busWrite_prtRange (Bool.eq_false_iff.2 h1) (Bool.eq_false_iff.2 h2)]
    obtain ⟨fields, regs, hidden⟩ := (s.fiu inst).setReg_masked (.prtRange n) v
    exact ⟨fun h => absurd h lock, fun _ _ => fields, regs, hidden⟩

/-- Settles O11, by the lock. -/
theorem whitelistWriteFilter : Obligations.WhitelistWriteFilter := by
  intro s inst n v hs hi
  obtain ⟨t, e, ended, fiu, others, trace⟩ := exec_write_spec hs hi (.prtCmd n) v
  refine ⟨t, e, ended, others, trace, ?_⟩
  rw [fiu]
  cases lock : (s.fiu inst).bit .prtLck with
  | true =>
    rw [Fiu.busWrite_prtCmd_locked lock]
    exact ⟨fun _ => rfl, nofun, fun _ _ => rfl, Fiu.sameHidden_refl _⟩
  | false =>
    rw [Fiu.busWrite_prtCmd lock]
    obtain ⟨fields, regs, hidden⟩ := (s.fiu inst).setReg_masked (.prtCmd n) v
    exact ⟨nofun, fun _ => fields, regs, hidden⟩

/-- A write of `PRT_STS`, whatever the lock (R40). -/
theorem Fiu.busWrite_prtSts (b : Fiu) (v : Word) : b.busWrite .prtSts v = b.setReg .prtSts (stsWritten (b.rd .prtSts) v) := rfl

/-- `VIOL` after a write of `PRT_STS` (R40). -/
theorem Fiu.busWrite_prtSts_viol (b : Fiu) (v : Word) :
    (b.busWrite .prtSts v).bit .stsViol = (b.bit .stsViol && !(flag .stsViol v)) := by
  rw [Fiu.busWrite_prtSts, Fiu.bit, show fieldReg .stsViol = .prtSts from rfl, Fiu.rd_setReg_same]
  exact stsWritten_viol _ v

/-- With `VIOL = 0` there is no violation request (R288). -/
theorem Fiu.irqViol_false {b : Fiu} (h : b.bit .stsViol = false) : b.irqViol = false := by
  show (b.bit .stsViol && _) = false
  rw [h, Bool.false_and]

/-- Settles O12, from `VIOL` after the write. -/
theorem violationStatusWrite : Obligations.ViolationStatusWrite := by
  intro s inst v hs hi
  obtain ⟨t, e, ended, fiu, others, trace⟩ := exec_write_spec hs hi .prtSts v
  have viol := (s.fiu inst).busWrite_prtSts_viol v
  refine ⟨t, e, ended, others, trace, ?_⟩
  rw [fiu]
  refine ⟨viol, fun h1 => Fiu.irqViol_false ?_, fun q hq => Fiu.busWrite_rd_ne _ v hq, Fiu.sameHidden_setReg _ _ _⟩
  rw [viol, h1, Bool.not_true, Bool.and_false]

/-! ### The filter of `PRT_CFG` (R37) -/

/-- A write of `PRT_CFG`: the filtered word is stored, the wire log grows by the pins that move. -/
theorem Fiu.busWrite_prtCfg (b : Fiu) (v : Word) :
    b.busWrite .prtCfg v = { b.setReg .prtCfg (prtCfgWritten (b.rd .prtCfg) v) with
      wire := b.wire ++ pinEvents (pinLevels (b.rd .prtCfg) (b.rd .umaCts))
        (pinLevels (prtCfgWritten (b.rd .prtCfg) v) (b.rd .umaCts)) } := rfl

theorem Fiu.busWrite_prtCfg_rd (b : Fiu) (v : Word) :
    (b.busWrite .prtCfg v).rd .prtCfg = prtCfgWritten (b.rd .prtCfg) v := b.rd_setReg_same .prtCfg _

/-- Storing the word that stands in a register changes nothing. -/
theorem Fiu.setReg_rd_self (b : Fiu) (r : Reg) : b.setReg r (b.rd r) = b := by
  simp [Fiu.setReg, Fiu.rd, putWordAt, wordAt]

/-- A write of `PRT_CFG` on a locked instance is ignored. -/
theorem Fiu.busWrite_prtCfg_locked {b : Fiu} (h : b.bit .prtLck = true) (v : Word) : b.busWrite .prtCfg v = b := by
  have word : prtCfgWritten (b.rd .prtCfg) v = b.rd .prtCfg := if_pos h
  rw [Fiu.busWrite_prtCfg, word, Fiu.setReg_rd_self, pinEvents_same fun _ _ => rfl, List.append_nil]

/-- Settles O9, from the filtered word of `PRT_CFG`. -/
theorem protectionConfigWriteFilter : Obligations.ProtectionConfigWriteFilter := by
  intro s inst v hs hi
  obtain ⟨t, e, ended, fiu, others, trace⟩ := exec_write_spec hs hi .prtCfg v
  refine ⟨t, e, ended, others, trace, ?_⟩
  rw [fiu]
  refine ⟨fun lock => Fiu.busWrite_prtCfg_locked lock v, fun unlocked => ⟨fun k hk f hf => ?force, fun f hf => ?plain⟩,
    fun q hq => Fiu.busWrite_rd_ne _ v hq, _, rfl⟩
  case force =>
    have hr : fieldReg f = .prtCfg := by obtain rfl | rfl | rfl := hf <;> rfl
    simp only [Fiu.get, hr, Fiu.busWrite_prtCfg_rd]
    exact prtCfgWritten_force k hk f hf ((s.fiu inst).rd .prtCfg) v unlocked
  case plain =>
    have hr : fieldReg f = .prtCfg := by obtain rfl | rfl | rfl | rfl | rfl | rfl := hf <;> rfl
    rw [Fiu.get, hr, Fiu.busWrite_prtCfg_rd]
    exact prtCfgWritten_plain f hf _ v unlocked

/-! ### Writes of `UMA_CTS` (R34, R36 (b), R48, R57) -/

section WriteCts

variable (b : Fiu) (v : Word)

/-- The trigger leaves the frame and the pins alone. -/
theorem Fiu.trigger_frame_wire : b.trigger.frame = b.frame ∧ b.trigger.wire = b.wire := by
  obtain ⟨-, e⟩ | ⟨-, -, e⟩ | ⟨-, -, e⟩ := b.trigger_cases <;> rw [e] <;> exact ⟨rfl, rfl⟩

/-- The trigger changes no bit of `UMA_CTS` but `EXEC_DONE`. -/
theorem Fiu.rd_trigger : b.trigger.rd .umaCts = b.rd .umaCts
    ∨ b.trigger.rd .umaCts = putField .ctsExecDone 1#32 (b.rd .umaCts) := by
  obtain ⟨-, e⟩ | ⟨-, -, e⟩ | ⟨-, -, e⟩ := b.trigger_cases <;> rw [e]
  · exact .inl rfl
  · exact .inl rfl
  · exact .inr (b.rd_setReg_same .umaCts _)

/-- A 1 in `EXEC_DONE` triggers on an idle engine (R34). -/
theorem Fiu.writeCts_triggers (he : b.eng = .idle) (hx : flag .ctsExecDone v = true) :
    b.writeCts v = (b.setCts (ctsWritten (b.rd .umaCts) v)).trigger := by
  simp only [Fiu.writeCts, he, hx, if_true]

/-- A write of `UMA_CTS` is quiet (`writeCts_quiet`) or triggers. -/
theorem Fiu.writeCts_quiet_or_triggers : (b.busy = true ∨ flag .ctsExecDone v = false)
    ∨ b.writeCts v = (b.setCts (ctsWritten (b.rd .umaCts) v)).trigger := by
  cases hb : b.busy with
  | true => exact .inl (.inl rfl)
  | false =>
    cases hx : flag .ctsExecDone v with
    | false => exact .inl (.inr rfl)
    | true => exact .inr (b.writeCts_triggers v (Fiu.busy_false.1 hb) hx)

/-- The word of `UMA_CTS` after a write: the fields written, and on top of them the `EXEC_DONE` of a trigger. -/
theorem Fiu.rd_writeCts : (b.writeCts v).rd .umaCts = ctsWritten (b.rd .umaCts) v
    ∨ (b.writeCts v).rd .umaCts = putField .ctsExecDone 1#32 (ctsWritten (b.rd .umaCts) v) := by
  obtain quiet | triggers := b.writeCts_quiet_or_triggers v
  · obtain ⟨word, -⟩ := Fiu.writeCts_quiet quiet
    exact .inl (word .umaCts)
  · have word : (b.setCts (ctsWritten (b.rd .umaCts) v)).rd .umaCts = ctsWritten (b.rd .umaCts) v := b.setCts_rd _ .umaCts
    have h := (b.setCts (ctsWritten (b.rd .umaCts) v)).rd_trigger
    rwa [word, ← triggers] at h

/-- The frame after a write of `UMA_CTS` (R57). -/
theorem Fiu.writeCts_frame :
    (b.writeCts v).frame = frameWritten (b.rd .umaCts) (ctsWritten (b.rd .umaCts) v) b.frame := by
  obtain quiet | triggers := b.writeCts_quiet_or_triggers v
  · obtain ⟨-, -, -, -, frame, -⟩ := Fiu.writeCts_quiet quiet
    exact frame
  · rw [triggers]
    exact (Fiu.trigger_frame_wire _).1

/-- The wire log after a write of `UMA_CTS` (R51, R57). -/
theorem Fiu.writeCts_wire : (b.writeCts v).wire = b.wire ++ pinEvents (pinLevels (b.rd .prtCfg) (b.rd .umaCts))
    (pinLevels (b.rd .prtCfg) (ctsWritten (b.rd .umaCts) v)) := by
  obtain quiet | triggers := b.writeCts_quiet_or_triggers v
  · obtain ⟨-, -, -, -, -, wire⟩ := Fiu.writeCts_quiet quiet
    exact wire
  · rw [triggers]
    exact (Fiu.trigger_frame_wire _).2

/-- A field of `UMA_CTS` other than `EXEC_DONE` after a write: that of the fields written, whether the write triggers or not. -/
theorem Fiu.writeCts_get {f : Field} (hf : fieldReg f = .umaCts) (ha : fieldsApart .ctsExecDone f = true) :
    (b.writeCts v).get f = getField f (ctsWritten (b.rd .umaCts) v) := by
  rw [Fiu.get, hf]
  obtain h | h := b.rd_writeCts v <;> rw [h]
  exact getField_putField_apart ha _ _

/-- The fields a write of `UMA_CTS` takes from `v`, and `RDYST`, which a 1 clears (R34, R36 (b)). -/
theorem Fiu.writeCts_fields :
    (b.writeCts v).get .ctsDevNum = getField .ctsDevNum v ∧ (b.writeCts v).get .ctsSwCs = getField .ctsSwCs v
      ∧ (b.writeCts v).get .ctsRdyie = getField .ctsRdyie v
      ∧ (b.writeCts v).bit .ctsRdyst = (b.bit .ctsRdyst && !(flag .ctsRdyst v)) := by
  obtain ⟨devNum, swCs, rdyie, -, rdyst⟩ := ctsWritten_fields (b.rd .umaCts) v
  refine ⟨(b.writeCts_get v rfl (by decide)).trans devNum, (b.writeCts_get v rfl (by decide)).trans swCs,
    (b.writeCts_get v rfl (by decide)).trans rdyie, ?_⟩
  have h := b.writeCts_get (f := .ctsRdyst) v rfl (by decide)
  exact (congrArg (· == 1#32) h).trans rdyst

/-- The ready request after a write of `UMA_CTS` (R293). -/
theorem Fiu.writeCts_irqRdy :
    (b.writeCts v).irqRdy = (b.bit .ctsRdyst && !(flag .ctsRdyst v) && flag .ctsRdyie v) := by
  obtain ⟨-, -, rdyie, rdyst⟩ := b.writeCts_fields v
  show ((b.writeCts v).bit .ctsRdyst && (b.writeCts v).get .ctsRdyie == 1#32) = _
  rw [rdyst, rdyie]
  rfl

/-- The device held after a write of `UMA_CTS`: a trigger does not move it. -/
theorem Fiu.heldDev_writeCts : heldDev ((b.writeCts v).rd .umaCts) = heldDev (ctsWritten (b.rd .umaCts) v) := by
  obtain h | h := b.rd_writeCts v <;> rw [h]
  exact heldDev_putField (by decide) (by decide) _ _

/-- The frame follows the device held: kept while it stays, else closed or opened anew (R57). -/
theorem Fiu.writeCts_frame_follows :
    (heldDev ((b.writeCts v).rd .umaCts) = heldDev (b.rd .umaCts) → (b.writeCts v).frame = b.frame)
      ∧ (heldDev ((b.writeCts v).rd .umaCts) ≠ heldDev (b.rd .umaCts) →
          (heldDev ((b.writeCts v).rd .umaCts) = none → (b.writeCts v).frame = .closed)
          ∧ ∀ d, heldDev ((b.writeCts v).rd .umaCts) = some d → (b.writeCts v).frame = .opened d none) := by
  rw [Fiu.heldDev_writeCts, Fiu.writeCts_frame]
  exact ⟨frameWritten_keep b.frame, fun moved => ⟨frameWritten_close b.frame moved, fun d => frameWritten_open b.frame moved⟩⟩

/-- A write of `UMA_CTS` that does not trigger keeps `EXEC_DONE`. -/
theorem Fiu.writeCts_execDone {b : Fiu} {v : Word} (h : b.busy = true ∨ flag .ctsExecDone v = false) :
    (b.writeCts v).get .ctsExecDone = b.get .ctsExecDone := by
  obtain ⟨word, -⟩ := Fiu.writeCts_quiet h
  obtain ⟨-, -, -, execDone, -⟩ := ctsWritten_fields (b.rd .umaCts) v
  rw [Fiu.get, show fieldReg .ctsExecDone = .umaCts from rfl, word, if_pos rfl, execDone]
  rfl

/-- The level of a chip select depends on the device held alone. -/
theorem csRaw_congr {c c' : Word} (h : heldDev c = heldDev c') : csRaw c = csRaw c' := by
  funext d
  rw [csRaw, csRaw, h]

/-- A write of `UMA_CTS` while a transaction runs: the transaction goes on, disturbed where its chip select changes level (R36 (b)). -/
theorem Fiu.writeCts_eng {b : Fiu} {l : Descr} {dist : Bool} (he : b.eng = .busy l dist) (v : Word) :
    (b.writeCts v).eng = .busy l (dist || csRaw ((b.writeCts v).rd .umaCts) l.dev != csRaw (b.rd .umaCts) l.dev) := by
  rw [csRaw_congr (b.heldDev_writeCts v), bne_comm]
  simp only [Fiu.writeCts, he]

end WriteCts

/-- Settles O4, from the fields, the frame and the request line after a write of `UMA_CTS`. -/
theorem controlWriteWhileIdle : Obligations.ControlWriteWhileIdle := by
  intro s inst v hs hi idle
  obtain ⟨t, e, ended, fiu, others, trace⟩ := exec_write_spec hs hi .umaCts v
  refine ⟨t, e, ended, others, trace, ?_⟩
  obtain ⟨fourb, handler, inHandler, sup, draws⟩ := (s.fiu inst).busWrite_hidden .umaCts v
  obtain ⟨devNum, swCs, rdyie, rdyst⟩ := (s.fiu inst).writeCts_fields v
  obtain ⟨kept, moved⟩ := (s.fiu inst).writeCts_frame_follows v
  rw [fiu]
  refine ⟨fun q hq => Fiu.busWrite_rd_ne _ v hq, devNum, swCs, rdyie, rdyst, Fiu.writeCts_irqRdy _ v, kept, moved,
    fun noTrigger => ?_, fourb, handler, inHandler, sup, draws⟩
  obtain ⟨-, -, mark, eng, -⟩ := Fiu.writeCts_quiet (b := s.fiu inst) (.inr noTrigger)
  exact ⟨eng (Fiu.busy_false.2 idle), Fiu.writeCts_execDone (.inr noTrigger), mark⟩

/-- Settles O6, from the mark of a transaction register's write, and the fields, the frame and the engine after one of `UMA_CTS`. -/
theorem writesWhileBusy : Obligations.WritesWhileBusy := by
  intro s inst v l dist hs hi he
  have busy : (s.fiu inst).busy = true := by simp only [Fiu.busy, he]
  refine ⟨fun r hr => ?transactionRegister, ?control⟩
  case transactionRegister =>
    obtain ⟨t, e, ended, fiu, others, -⟩ := exec_write_spec hs hi r v
    exact ⟨t, e, ended, fiu.trans (Fiu.busWrite_uma_busy busy hr v), others⟩
  case control =>
    obtain ⟨t, e, ended, fiu, others, -⟩ := exec_write_spec hs hi .umaCts v
    refine ⟨t, e, ended, others, ?_⟩
    obtain ⟨devNum, swCs, rdyie, rdyst⟩ := (s.fiu inst).writeCts_fields v
    obtain ⟨kept, moved⟩ := (s.fiu inst).writeCts_frame_follows v
    obtain ⟨-, -, mark, -⟩ := Fiu.writeCts_quiet (b := s.fiu inst) (v := v) (.inl busy)
    rw [fiu]
    exact ⟨fun q hq => Fiu.busWrite_rd_ne _ v hq, devNum, swCs, rdyie, rdyst, Fiu.writeCts_execDone (.inl busy),
      Fiu.writeCts_eng he v, kept, moved, mark⟩

/-! ### The trigger (R48, R106, R57, R294) -/

/-- The check of the trigger finds exactly a chip select forced to the active level. -/
theorem forcedActive_iff (p : Word) : forcedActive p = true ↔ ∃ k < 2, csForced p k = some false := by
  constructor
  · intro h
    by_contra free
    rw [forcedActive_false fun k hk e => free ⟨k, hk, e⟩] at h
    cases h
  · rintro ⟨k, hk, e⟩
    interval_cases k <;> simp [forcedActive, e]

/-- Settles O5, by the three outcomes of the trigger on the instance with the fields of `UMA_CTS` just written. -/
theorem triggerLatchesDescriptor : Obligations.TriggerLatchesDescriptor := by
  intro s inst v hs hi idle hx
  obtain ⟨t, e, ended, fiu, -⟩ := exec_write_spec hs hi .umaCts v
  refine ⟨t, e, ended, ?_⟩
  intro l
  set c := (s.fiu inst).setCts (ctsWritten ((s.fiu inst).rd .umaCts) v) with hc
  have triggered : t.fiu inst = c.trigger := fiu.trans ((s.fiu inst).writeCts_triggers v idle hx)
  have latched : c.latch = l := by
    obtain ⟨devNum, swCs, -⟩ := ctsWritten_fields ((s.fiu inst).rd .umaCts) v
    rw [hc, latch_setCts, devNum, flag, swCs]
    rfl
  have prt : c.rd .prtCfg = (s.fiu inst).rd .prtCfg := (s.fiu inst).setCts_rd _ .prtCfg
  have trigger := c.trigger_cases
  rw [latched, prt, forcedActive_iff, legalDescr_iff, ← Bool.not_eq_true, ← Bool.not_eq_true, legalDescr_iff,
    forcedActive_iff] at trigger
  rw [triggered]
  obtain ⟨illegal, e⟩ | ⟨legal, forced, e⟩ | ⟨legal, free, e⟩ := trigger <;> rw [e]
  · exact ⟨fun h => absurd h illegal, fun _ => ⟨rfl, idle⟩, fun h => absurd h illegal⟩
  · exact ⟨fun _ h => absurd forced h, fun h => absurd legal h, fun _ _ => ⟨rfl, idle⟩⟩
  · refine ⟨fun _ _ => ⟨rfl, ?_, rfl⟩, fun h => absurd legal h, fun _ h => absurd h free⟩
    show flag .ctsExecDone ((c.setReg .umaCts _).rd .umaCts) = true
    rw [Fiu.rd_setReg_same, flag_putField_same (by decide)]
    decide

/-! ### The pins that move (R51, R57) -/

/-- The events between two pin levels: one for each chip select that falls or rises, and no other. -/
theorem mem_pinEvents {x y : List Bool} {e : WireEvent} : e ∈ pinEvents x y ↔ ∃ d < 4,
    (e = .csLow d ∧ x.getD d true = true ∧ y.getD d true = false)
    ∨ (e = .csHigh d ∧ x.getD d true = false ∧ y.getD d true = true) := by
  simp only [pinEvents, List.mem_append, List.mem_map, List.mem_filter, mem_devices, Bool.and_eq_true, Bool.not_eq_true']
  constructor
  · rintro (⟨d, ⟨hd, hx, hy⟩, rfl⟩ | ⟨d, ⟨hd, hx, hy⟩, rfl⟩)
    · exact ⟨d, hd, .inr ⟨rfl, hx, hy⟩⟩
    · exact ⟨d, hd, .inl ⟨rfl, hx, hy⟩⟩
  · rintro ⟨d, hd, ⟨rfl, hx, hy⟩ | ⟨rfl, hx, hy⟩⟩
    · exact .inr ⟨d, ⟨hd, hx, hy⟩, rfl⟩
    · exact .inl ⟨d, ⟨hd, hx, hy⟩, rfl⟩

/-- No event is logged twice: the devices differ, and a rise is no fall. -/
theorem nodup_pinEvents (x y : List Bool) : (pinEvents x y).Nodup := by
  have devices_nodup : devices.Nodup := by decide
  refine List.Nodup.append ?_ ?_ ?_
  · exact (devices_nodup.filter _).map fun _ _ h => WireEvent.csHigh.inj h
  · exact (devices_nodup.filter _).map fun _ _ h => WireEvent.csLow.inj h
  · intro e high low
    obtain ⟨d, -, rfl⟩ := List.mem_map.1 high
    obtain ⟨k, -, h⟩ := List.mem_map.1 low
    cases h

/-- The pin levels depend on the device held, not on the rest of `UMA_CTS`. -/
theorem pinLevels_congr (p : Word) {c c' : Word} (h : heldDev c = heldDev c') : pinLevels p c = pinLevels p c' := by
  unfold pinLevels csPin
  rw [csRaw_congr h]

/-- A write of either register appends the events between the pin levels before and after it. -/
theorem Fiu.busWrite_wire (b : Fiu) {r : Reg} (hr : r = .umaCts ∨ r = .prtCfg) (v : Word) :
    (b.busWrite r v).wire = b.wire ++ pinEvents (pinLevels (b.rd .prtCfg) (b.rd .umaCts))
      (pinLevels ((b.busWrite r v).rd .prtCfg) ((b.busWrite r v).rd .umaCts)) := by
  obtain rfl | rfl := hr
  · have prt : (b.writeCts v).rd .prtCfg = b.rd .prtCfg := b.busWrite_rd_ne (r := .umaCts) v (by decide)
    show (b.writeCts v).wire = _ ++ pinEvents _ (pinLevels ((b.writeCts v).rd .prtCfg) ((b.writeCts v).rd .umaCts))
    rw [b.writeCts_wire v, prt, pinLevels_congr _ (b.heldDev_writeCts v)]
  · rw [b.busWrite_prtCfg_rd v, b.busWrite_rd_ne (r := .prtCfg) (q := .umaCts) v (by decide)]
    rfl

/-- Settles O7, from the pin levels before and after the write. -/
theorem pinChangesAreLogged : Obligations.PinChangesAreLogged := by
  intro s r inst v hs hi hr
  obtain ⟨t, e, -, fiu, -⟩ := exec_write_spec hs hi r v
  have wire := (s.fiu inst).busWrite_wire hr v
  rw [← fiu] at wire
  refine ⟨t, _, e, wire, nodup_pinEvents _ _, fun ev => mem_pinEvents.trans ?_⟩
  refine exists_congr fun d => and_congr_right fun hd => ?_
  rw [pinLevels_getD _ _ hd, pinLevels_getD _ _ hd]

/-! ### The wire log (R51) -/

/-- A bus write only appends to the wire log. -/
theorem Fiu.wire_prefix_busWrite (b : Fiu) (r : Reg) (v : Word) : b.wire <+: (b.busWrite r v).wire := by
  cases r with
  | umaCts =>
    show b.wire <+: (b.writeCts v).wire
    rw [Fiu.writeCts_wire]
    exact List.prefix_append ..
  | prtCfg => exact List.prefix_append ..
  | drdCfg | dwrCfg | prtSts | umaDr => exact List.prefix_rfl
  | umaCfg | umaCmd | umaAddr | umaDw | prtCmd | prtRange =>
    simp only [Fiu.busWrite]
    split <;> exact List.prefix_rfl

/-- The end of a transaction only appends to the wire log (R173 to R178). -/
theorem Fiu.wire_prefix_complete (b : Fiu) (inst : Nat) (l : Descr) (dist : Bool) :
    b.wire <+: (b.complete inst l dist).wire := by
  show b.wire <+: (if dist then b.disturbedEnd inst l else b.judged inst l).wire
  split
  · exact List.prefix_append ..
  · unfold Fiu.judged
    dsimp only
    split
    · simp only [Fiu.drive, Fiu.wireBeforeRead, List.append_assoc]
      exact List.prefix_append ..
    · exact List.prefix_rfl

/-- Every move only appends to the wire log. -/
theorem Fiu.Move.wire_prefix {inst : Nat} {ec md : Bool} {b c : Fiu} (m : Fiu.Move inst ec md b c) : b.wire <+: c.wire := by
  induction m with
  | trans _ _ ih1 ih2 => exact ih1.trans ih2
  | write b r v => exact b.wire_prefix_busWrite r v
  | drd b f v => exact b.wire_prefix_busWrite _ _
  | complete b l dist => exact b.wire_prefix_complete inst l dist
  | refl | draw | sup | handler | inHandler | fourb | mark => exact List.prefix_rfl

theorem Fiu.wire_prefix_reset (b : Fiu) (k : Nat) : b.wire <+: (b.reset k).wire := by
  rw [Fiu.reset_wire]
  exact List.prefix_append ..

/-- Settles O30: every move of an instance and `RESET` only append to its wire log. -/
theorem wireLogOnlyGrows : Obligations.WireLogOnlyGrows := by
  intro s t k e hk
  obtain ⟨ev, h⟩ := step_relates (R := fun b c => b.wire <+: c.wire) (fun m => m.wire_prefix) Fiu.wire_prefix_reset e hk
  exact ⟨ev, h.symm⟩

end Sys2Proof.Machine
end

section
/-! SUPPORT. The statements of 20_memory.md: another bus master's access beside the host's (R95). -/

namespace Sys2Proof.Machine

/-! ### Another bus master (R95)

The two accesses begin from instances that differ in `IN_HANDLER` alone, and no bus access reads or writes that mark
(`Fiu.busRead_withInHandler`, `Fiu.busWrite_withInHandler`). -/

/-- Giving the mark of an instance back undoes its removal. -/
theorem Fiu.eq_withInHandler {b c : Fiu} {x : Bool} (h : c = b.withInHandler x) : b = c.withInHandler b.inHandler := by
  subst h
  rfl

/-- Two machines whose instances differ in `IN_HANDLER` alone stay so when the same instance is replaced in both, and the new ones
differ in it alone. -/
theorem State.fiu_setFiu_withInHandler {s h : State} {inst : Nat} (hi : inst < Config.nFiu) {b c : Fiu}
    (same : ∀ k, s.fiu k = (h.fiu k).withInHandler (s.fiu k).inHandler) (hb : b = c.withInHandler (s.fiu inst).inHandler) (k : Nat) :
    (s.setFiu inst b).fiu k = ((h.setFiu inst c).fiu k).withInHandler (s.fiu k).inHandler := by
  by_cases hk : k = inst
  · subst hk
    rw [State.fiu_setFiu_same s b hi, State.fiu_setFiu_same h c hi, hb]
  · rw [State.fiu_setFiu_ne s b hk, State.fiu_setFiu_ne h c hk]
    exact same k

/-- Settles O13, by the kind of access: neither a read nor a write depends on whether a handler runs. -/
theorem otherMastersFollowTheSameRules : Obligations.OtherMastersFollowTheSameRules := by
  intro s h r inst a hm hi hs he
  have same : ∀ k, s.fiu k = (h.fiu k).withInHandler (s.fiu k).inHandler := fun k => Fiu.eq_withInHandler (he k)
  cases a with
  | read =>
    have read : (s.fiu inst).busRead inst r = (((h.fiu inst).busRead inst r).1,
        ((h.fiu inst).busRead inst r).2.withInHandler (s.fiu inst).inHandler) := by
      rw [← Fiu.busRead_withInHandler, ← same inst]
    exact ⟨_, _, exec_read_other hm hi r, exec_read hs hi r,
      State.fiu_setFiu_withInHandler hi same (congrArg Prod.snd read),
      fun _ => ⟨_, rfl, congrArg (fun p => some (Result.word p.1)) read.symm⟩, rfl⟩
  | write v =>
    have write : (s.fiu inst).busWrite r v = ((h.fiu inst).busWrite r v).withInHandler (s.fiu inst).inHandler := by
      rw [← Fiu.busWrite_withInHandler, ← same inst]
    exact ⟨_, _, exec_write_other hm hi r v, exec_write hs hi r v,
      State.fiu_setFiu_withInHandler hi same write, nofun, rfl⟩

end Sys2Proof.Machine
end

section
/-! SUPPORT. The statements of 30_encoding.md: the model's records are read back as they were written (log entry 2), the words of the
opcode table (R114, R120), and raw accesses by offset and width (R116, with 20_memory.md R74, R81, R85). -/

namespace Sys2Proof

/-! ### Operands that fit their bytes

The round trip of a number, under the premise in which `Instr.WellFormed` gives its bound. -/

section Numbers

variable {v : Nat} (rest : List Byte) (k : Nat → List Byte → Decoded)

theorem withNat_fits8 (h : fits8 v = true) : withNat 1 (putNat 1 v ++ rest) k = k v rest :=
  withNat_putNat 1 (of_decide_eq_true h) rest k

theorem withNat_fits16 (h : fits16 v = true) : withNat 2 (putNat 2 v ++ rest) k = k v rest :=
  withNat_putNat 2 (of_decide_eq_true h) rest k

theorem withNat_fits32 (h : fits32 v = true) : withNat 4 (putNat 4 v ++ rest) k = k v rest :=
  withNat_putNat 4 (of_decide_eq_true h) rest k

theorem withNat_fits64 (h : fits64 v = true) : withNat 8 (putNat 8 v ++ rest) k = k v rest :=
  withNat_putNat 8 (of_decide_eq_true h) rest k

end Numbers

/-! ### The head of a record

`k` stands for the body of the group's decoder, which goes on with the selector, the instance and the operands. -/

section Heads

variable {sel inst : Nat} {k : Nat → Nat → List Byte → Decoded}

theorem withNat_selector_instance (hs : sel < 256) (hi : instFits inst = true) (bs : List Byte) :
    (withNat 1 (putNat 1 sel ++ (putNat 2 inst ++ bs)) fun sel bs => withNat 2 bs fun inst bs => k sel inst bs)
      = k sel inst bs := by
  rw [withNat_putNat 1 hs, withNat_fits16 _ _ hi]

theorem decode_encodeReq (hk : ∀ bs, decodeReq bs = withNat 1 bs fun sel bs => withNat 2 bs fun inst bs => k sel inst bs)
    (hs : sel < 256) (hi : instFits inst = true) (operands rest : List Byte) :
    decode (encodeReq sel inst operands ++ rest) = k sel inst (operands ++ rest) := by
  simp only [encodeReq, List.cons_append, List.append_assoc, decode_zero]
  rw [hk, withNat_selector_instance hs hi]

theorem decode_encodeBus (hk : ∀ bs, decodeBus bs = withNat 1 bs fun sel bs => withNat 2 bs fun inst bs => k sel inst bs)
    (hs : sel < 256) (hi : instFits inst = true) (operands rest : List Byte) :
    decode (encodeBus sel inst operands ++ rest) = k sel inst (operands ++ rest) := by
  simp only [encodeBus, List.cons_append, List.append_assoc, decode_two]
  rw [hk, withNat_selector_instance hs hi]

/-- The internal step of a selector, where it names an instance. -/
theorem decode_encodeInt {i : Nat → Instr}
    (hk : ∀ bs, decodeInt (putNat 1 sel ++ bs) = withNat 2 bs fun inst bs => .ok (i inst, bs))
    (hi : instFits inst = true) (rest : List Byte) : decode (encodeInt sel inst ++ rest) = .ok (i inst, rest) := by
  simp only [encodeInt, List.cons_append, List.append_assoc, decode_three]
  rw [hk, withNat_fits16 _ _ hi]

end Heads

/-- Settles O19, by the instruction: the head of its record selects the decoder's branch, which reads each operand back. -/
theorem decodeOfEncode : Obligations.DecodeOfEncode := by
  intro i rest wf
  cases i with
  | configureDirect inst size mode rb wb =>
    simp only [Instr.WellFormed, Bool.and_eq_true] at wf
    obtain ⟨⟨⟨hi, hsize⟩, hrb⟩, hwb⟩ := wf
    refine (decode_encodeReq (fun _ => rfl) (by decide) hi _ rest).trans ?_
    simp [withNat_fits8, withNat_fits64, hsize, hrb, hwb]
  | configureCommand inst r w =>
    refine (decode_encodeReq (fun _ => rfl) (by decide) wf _ rest).trans ?_
    simp
  | getReadMode inst => exact decode_encodeReq (fun _ => rfl) (by decide) wf _ rest
  | setDummyCycles inst cycles =>
    simp only [Instr.WellFormed, Bool.and_eq_true] at wf
    obtain ⟨hi, hcycles⟩ := wf
    refine (decode_encodeReq (fun _ => rfl) (by decide) hi _ rest).trans ?_
    simp [withNat_fits32, hcycles]
  | umaRead inst dev cmd addr ap size timeout =>
    simp only [Instr.WellFormed, Bool.and_eq_true] at wf
    obtain ⟨⟨hi, hdev⟩, hsize⟩ := wf
    refine (decode_encodeReq (fun _ => rfl) (by decide) hi _ rest).trans ?_
    simp [withNat_fits8, withNat_fits32, hdev, hsize]
  | umaWrite inst dev cmd addr ap size timeout data | pageWrite inst dev cmd addr size timeout data =>
    simp only [Instr.WellFormed, Bool.and_eq_true, beq_iff_eq] at wf
    obtain ⟨⟨⟨hi, hdev⟩, hsize⟩, rfl⟩ := wf
    refine (decode_encodeReq (fun _ => rfl) (by decide) hi _ rest).trans ?_
    simp [withNat_fits8, withNat_fits32, hdev, hsize]
  | umaIoctl inst dev cmd addr asz rs ws cb ab wb rb timeout dummy buf =>
    simp only [Instr.WellFormed, Bool.and_eq_true, beq_iff_eq] at wf
    obtain ⟨⟨⟨⟨⟨⟨⟨⟨⟨⟨hi, hdev⟩, hasz⟩, hrs⟩, hws⟩, hcb⟩, hab⟩, hwb⟩, hrb⟩, hdummy⟩, rfl⟩ := wf
    refine (decode_encodeReq (fun _ => rfl) (by decide) hi _ rest).trans ?_
    simp [withNat_fits8, withNat_fits32, hdev, hasz, hrs, hws, hcb, hab, hwb, hrb, hdummy]
  | selectChip inst dev | setFourByteAddressing inst dev en | getFourByteAddressing inst dev
  | selectChipByAddress inst dev addr =>
    simp only [Instr.WellFormed, Bool.and_eq_true] at wf
    obtain ⟨hi, hdev⟩ := wf
    refine (decode_encodeReq (fun _ => rfl) (by decide) hi _ rest).trans ?_
    simp [withNat_fits8, hdev]
  | setProtectionRange inst index start stop mask =>
    simp only [Instr.WellFormed, Bool.and_eq_true] at wf
    obtain ⟨hi, hindex⟩ := wf
    refine (decode_encodeReq (fun _ => rfl) (by decide) hi _ rest).trans ?_
    simp [withNat_fits8, hindex]
  | setProtectionCommand inst slot code cmd aby ab cb =>
    simp only [Instr.WellFormed, Bool.and_eq_true] at wf
    obtain ⟨⟨⟨⟨⟨hi, hslot⟩, hcode⟩, haby⟩, hab⟩, hcb⟩ := wf
    refine (decode_encodeReq (fun _ => rfl) (by decide) hi _ rest).trans ?_
    simp [withNat_fits8, hslot, hcode, haby, hab, hcb]
  | configureProtection inst lock enable size e0 e1 v0 v1 io2 oca handler =>
    simp only [Instr.WellFormed, Bool.and_eq_true] at wf
    obtain ⟨⟨hi, hsize⟩, hhandler⟩ := wf
    have fits : ∀ n, handler = some n → n < 2 ^ 16 := by
      rintro n rfl
      exact of_decide_eq_true hhandler
    refine (decode_encodeReq (fun _ => rfl) (by decide) hi _ rest).trans ?_
    simp [withNat_fits64, hsize, withHandler_put fits]
  | getViolationStatus inst clear | waitReady inst timeout =>
    refine (decode_encodeReq (fun _ => rfl) (by decide) wf _ rest).trans ?_
    simp
  | regRead m inst offset sz | regWrite m inst offset sz v =>
    simp only [Instr.WellFormed, Bool.and_eq_true] at wf
    obtain ⟨hi, hoffset⟩ := wf
    refine (decode_encodeBus (fun _ => rfl) (by decide) hi _ rest).trans ?_
    simp [withNat_fits16, hoffset]
  | fieldRead inst f | fieldWrite inst f v =>
    refine (decode_encodeBus (fun _ => rfl) (by decide) wf _ rest).trans ?_
    simp
  | engineComplete inst | prtCheck inst | poll inst | irqDeliver inst => exact decode_encodeInt (fun _ => rfl) wf rest
  | reset => rfl
  | _ => exact decode_encodeReg _ _ (of_decide_eq_true wf) _ rest

/-! ### Whole records and the words of the opcode table (R114, R120) -/

/-- A record may end in zero bytes. -/
theorem decodeRecord_of_decode {bs : List Byte} {i : Instr} {n : Nat} (h : decode bs = .ok (i, List.replicate n 0#8)) :
    decodeRecord bs = .ok i := by
  simp [decodeRecord, h]

theorem decodeRecord_encode {i : Instr} (wf : i.WellFormed = true) (n : Nat) :
    decodeRecord (encode i ++ List.replicate n 0#8) = .ok i :=
  decodeRecord_of_decode (decodeOfEncode i _ wf)

/-- The word of a request is the head of the record of that request with all operands 0. -/
theorem decodeTableWord_of_record {nbits w n : Nat} {i : Instr} (wf : i.WellFormed = true)
    (h : tableRecord nbits w = encode i ++ List.replicate n 0#8) : decodeTableWord nbits w = some i := by
  simp only [decodeTableWord, h, decodeRecord_encode wf]

/-- The bytes of a number, the low ones first. -/
theorem putNat_add (m n v : Nat) : putNat (m + n) v = putNat m v ++ putNat n (v / 256 ^ m) := by
  induction m generalizing v with
  | zero => simp [putNat]
  | succ m ih => rw [Nat.add_right_comm, putNat, ih, Nat.div_div_eq_div_mul, putNat, List.cons_append, Nat.pow_succ']

/-- A 16-bit word whose low 12 bits are a register's offset makes a record of group REG: the word, then zeros. -/
theorem tableRecord_register {w : Nat} {r : Reg} (hw : w < 2 ^ 16) (hr : w % 2 ^ 12 = Machine.cfg.offset r) :
    tableRecord 16 w = 1#8 :: (putNat 2 w ++ List.replicate 62 0#8) := by
  have high : w / 256 ^ 2 = 0 := Nat.div_eq_of_lt hw
  have zeros : putNat 62 0 = List.replicate 62 0#8 := rfl
  have register : (Machine.regOfOffset (w % 2 ^ 12)).isSome = true := by rw [hr, regOfOffset_offset]; rfl
  rw [tableRecord, if_pos ⟨rfl, register⟩, putNat_add 2 62, high, zeros]

/-- The upper four bits of a register selector are ignored (R120). -/
theorem decodeReg_selector {w : Nat} {r : Reg} (hw : w < 2 ^ 16) (hr : w % 2 ^ 12 = Machine.cfg.offset r) (bs : List Byte) :
    decodeReg (putNat 2 w ++ bs) = decodeReg (putNat 2 (Machine.cfg.offset r) ++ bs) := by
  have hoffset := offset_lt r
  unfold decodeReg
  rw [withNat_putNat 2 hw, withNat_putNat 2 (by omega), hr, Nat.mod_eq_of_lt hoffset]

/-- The low 12 bits of a 16-bit word select the register (R120): it is the host's read of it, in instance 0. -/
theorem decodeTableWord_register {w : Nat} {r : Reg} (hw : w < 2 ^ 16) (hr : w % 2 ^ 12 = Machine.cfg.offset r) :
    decodeTableWord 16 w = some (Instr.ofReg r .host 0 .read) := by
  have read : decode (1#8 :: (putNat 2 w ++ List.replicate 62 0#8))
      = .ok (Instr.ofReg r .host 0 .read, List.replicate 58 0#8) := by
    rw [decode_one, decodeReg_selector hw hr]
    exact decode_encodeReg r .host (by decide) .read (List.replicate 58 0#8)
  rw [decodeTableWord, tableRecord_register hw hr, decodeRecord_of_decode read]

/-- Settles O20: register words by their low 12 bits, request words and records as what the encoder writes. -/
theorem tableWordsDecode : Obligations.TableWordsDecode := by
  refine ⟨?getReadMode, ?waitReady, ?umaCts, ?prtRange15, ?umaCtsMasked, ?engineComplete, ?regRead⟩
  case getReadMode => exact decodeTableWord_of_record (n := 61) rfl rfl
  case waitReady => exact decodeTableWord_of_record (n := 57) rfl rfl
  case umaCts => exact decodeTableWord_register (r := .umaCts) (by decide) rfl
  case prtRange15 => exact decodeTableWord_register (r := .prtRange 15) (by decide) rfl
  case umaCtsMasked => exact decodeTableWord_register (r := .umaCts) (by decide) rfl
  case engineComplete => exact decodeRecord_encode (i := .engineComplete 2) rfl 0
  case regRead => exact decodeRecord_encode (i := .regRead .other 1 0x34 .word) rfl 0

end Sys2Proof

namespace Sys2Proof.Machine

/-! ### Bus addresses (20_memory.md R85) -/

/-- Two registers of one instance do not share an offset (20_memory.md R84). -/
theorem regOffset_inj {r q : Reg} (h : regOffset r = regOffset q) : r = q :=
  Option.some.inj <| calc
    some r = regOfOffset (regOffset r) := (regOfOffset_offset r).symm
    _ = regOfOffset (regOffset q) := congrArg regOfOffset h
    _ = some q := regOfOffset_offset q

/-- Nor do two registers of any two instances share a bus address. -/
theorem busAddress_inj {i j : Nat} {r q : Reg} (hi : i < Config.nFiu) (hj : j < Config.nFiu)
    (h : busAddress i (regOffset r) = busAddress j (regOffset q)) : i = j ∧ r = q := by
  have hr : regOffset r + 4 ≤ blockSpan := offset_lt_blockSpan r
  have hq : regOffset q + 4 ≤ blockSpan := offset_lt_blockSpan q
  simp only [busAddress] at h
  have same : i = j := by
    by_contra hne
    have apart := blockBase_apart hi hj hne
    omega
  subst same
  exact ⟨rfl, regOffset_inj (by omega)⟩

/-- The register at a register's bus address. -/
theorem regAtAddress_busAddress {inst : Nat} (hi : inst < Config.nFiu) (r : Reg) :
    regAtAddress (busAddress inst (regOffset r)) = some (inst, r) := by
  unfold regAtAddress
  cases found : List.find? _ _ with
  | none =>
    have listed : (inst, r) ∈ (List.range Config.nFiu).flatMap fun i => allRegs.map fun r => (i, r) :=
      List.mem_flatMap.2 ⟨inst, List.mem_range.2 hi, List.mem_map.2 ⟨r, mem_allRegs r, rfl⟩⟩
    have missed := List.find?_eq_none.1 found _ listed
    simp at missed
  | some p =>
    obtain ⟨j, q⟩ := p
    have listed := List.mem_of_find?_eq_some found
    have hit := List.find?_some found
    rw [beq_iff_eq] at hit
    simp only [List.mem_flatMap, List.mem_range, List.mem_map, Prod.mk.injEq] at listed
    obtain ⟨_, hj, _, -, rfl, rfl⟩ := listed
    obtain ⟨rfl, rfl⟩ := busAddress_inj hj hi hit
    rfl

/-! ### Raw accesses (R116, 20_memory.md R74, R81)

The premise `m = .host → s.Ready` says that the master may begin an access: the host where it stands between operations, another
master at any time. -/

section RawAccess

variable {s : State} {m : Master} {inst : Nat}

/-- An access to a register is the same, whichever instruction performs it. -/
theorem regAccess_eq_exec (hs : m = .host → s.Ready) (i : Instr) (r : Reg) (a : Access) :
    regAccess i r m inst a s = exec (Instr.ofReg r m inst a) s := by
  cases m with
  | host =>
    rw [exec_ofReg_host]
    simp only [regAccess, hostAccess, hostStep_ready (hs rfl)]
  | other => exact (exec_ofReg_other r inst a s).symm

/-- An access to a register completes and touches no other instance. -/
theorem exec_ofReg_completes (hm : s.mark? = none) (hs : m = .host → s.Ready) (hi : inst < Config.nFiu) (r : Reg) (a : Access) :
    ∃ t, exec (Instr.ofReg r m inst a) s = .next t ∧ s.SameOthers inst t := by
  cases m with
  | host =>
    cases a with
    | read => exact ⟨_, exec_read (hs rfl) hi r, (State.touched_hostRead s inst r).rest.1⟩
    | write v => exact ⟨_, exec_write (hs rfl) hi r v, (State.touched_hostWrite s inst r v).rest.1⟩
  | other =>
    cases a with
    | read => exact ⟨_, exec_read_other hm hi r, fun _ => State.fiu_setFiu_ne s _⟩
    | write v => exact ⟨_, exec_write_other hm hi r v, fun _ => State.fiu_setFiu_ne s _⟩

/-- An access with no meaning completes with its mark, whichever instruction performs it, and changes nothing else of the blocks and
nothing of the bus trace. -/
theorem markAccess_completes (hm : s.mark? = none) (hs : m = .host → s.Ready) (hi : inst < Config.nFiu) (e : Unmodelled) :
    ∃ t, (∀ i, markAccess i m inst e s = .next t) ∧ t.fiu inst = (s.fiu inst).mark e ∧ t.trace = s.trace
      ∧ s.SameOthers inst t := by
  cases m with
  | host =>
    have live : (s.setFiu inst ((s.fiu inst).mark e)).handling = none :=
      (s.handling_setFiu inst ((s.fiu inst).mark e) rfl).trans (hs rfl).handling
    refine ⟨{ s.setFiu inst ((s.fiu inst).mark e) with seq := .idle, result := some .done }, fun i => ?_,
      State.fiu_setFiu_same s _ hi, rfl, fun _ => State.fiu_setFiu_ne s _⟩
    simp only [markAccess, hostStep_ready (hs rfl), instOk, hi, decide_true, Bool.not_true, Bool.false_eq_true, if_false]
    exact finish_live live .done
  | other =>
    refine ⟨_, fun i => ?_, State.fiu_setFiu_same s _ hi, rfl, fun _ => State.fiu_setFiu_ne s _⟩
    simp only [markAccess, agentStep, hm, instOk, hi, decide_true, if_true]

/-- A word access at a register's offset is an access to that register. -/
theorem rawAccess_register (hs : m = .host → s.Ready) (i : Instr) (r : Reg) (a : Access) :
    rawAccess i m inst (regOffset r) .word a s = exec (Instr.ofReg r m inst a) s := by
  rw [rawAccess, rawTarget_register]
  exact regAccess_eq_exec hs i r a

/-- A raw access reaches a register or has no meaning. -/
theorem rawAccess_kinds (offset : Nat) (sz : AccessSize) :
    (∃ r, sz = .word ∧ offset = regOffset r) ∨ (sz ≠ .word ∨ offset % 4 ≠ 0 ∨ ∀ r, offset ≠ regOffset r) := by
  by_cases register : ∃ r, offset = regOffset r
  · obtain ⟨r, rfl⟩ := register
    by_cases word : sz = .word
    · exact .inl ⟨r, word, rfl⟩
    · exact .inr (.inl word)
  · exact .inr (.inr (.inr fun r h => register ⟨r, h⟩))

end RawAccess

/-- Settles O14, by whether the raw access reaches a register; bus addresses by the blocks not overlapping. -/
theorem rawAccessByOffset : Obligations.RawAccessByOffset := by
  intro inst hi
  refine ⟨regAtAddress_busAddress hi, fun s m offset sz v hm hs => ?_⟩
  obtain ⟨r, rfl, rfl⟩ | meaningless := rawAccess_kinds offset sz
  · obtain ⟨t, read, others⟩ := exec_ofReg_completes hm hs hi r .read
    obtain ⟨u, write, others'⟩ := exec_ofReg_completes hm hs hi r (.write v)
    refine ⟨t, u, (rawAccess_register hs _ r _).trans read, (rawAccess_register hs _ r _).trans write, ?register, ?narrow, ?unmapped,
      others, others'⟩
    case register =>
      intro q _ same
      obtain rfl := regOffset_inj same
      exact ⟨read, write⟩
    case narrow =>
      rintro (word | aligned)
      · exact absurd rfl word
      · exact absurd (regOffset_mod_four r) aligned
    case unmapped =>
      intro _ _ none
      exact absurd rfl (none r)
  · obtain ⟨t, marks, fiu, trace, others⟩ := markAccess_completes hm hs hi
      (if sz ≠ .word ∨ offset % 4 ≠ 0 then .narrowRegisterAccess else .unmappedOffset)
    have raw : ∀ i a, rawAccess i m inst offset sz a s = .next t := by
      intro i a
      rw [rawAccess, rawTarget_error meaningless]
      exact marks i
    refine ⟨t, t, raw _ _, raw _ _, ?register, ?narrow, ?unmapped, others, others⟩
    case register =>
      rintro r rfl rfl
      obtain word | aligned | none := meaningless
      · exact absurd rfl word
      · exact absurd (regOffset_mod_four r) aligned
      · exact absurd rfl (none r)
    case narrow =>
      intro narrow
      rw [if_pos narrow] at fiu
      exact ⟨fiu, rfl, trace⟩
    case unmapped =>
      intro word aligned _
      rw [if_neg (by rintro (h | h); exacts [h word, h aligned])] at fiu
      exact ⟨fiu, rfl, trace⟩

end Sys2Proof.Machine
end

section
/-! SUPPORT. The statements of 40_register_access.md: the two field primitives (R142 to R147), and requests that access no register
because their operands are illegal (R148; 60_exceptions.md R282, R283, R294). -/

namespace Sys2Proof.Machine

/-! ### `FIELD_READ` (R142) -/

/-- The value of a field as R142 writes it, with its mask as a number. -/
theorem getField_eq_shift (f : Field) (w : Word) :
    getField f w = (w >>> fieldLo f) &&& BitVec.ofNat 32 (2 ^ fieldWidth f - 1) := by
  have ⟨fits, _⟩ := field_fits f
  rw [getField, lowMask_eq (by omega)]

/-- Settles O15, from what a bus read does to an instance. -/
theorem fieldReadExtracts : Obligations.FieldReadExtracts := by
  intro s inst f hs hi
  obtain ⟨others, -, halted, hseq, hprog, code, prog, sched, -, other⟩ := (State.touched_rdf s inst f).rest
  refine ⟨_, ((s.fiu inst).busRead inst (fieldReg f)).1, exec_fieldRead hs hi f,
    ⟨rfl, halted.trans hs.halted, ?value, hseq, hprog, code, prog, sched, other⟩, fun stored => ?stored, ?draws, others, rfl⟩
  case value =>
    rw [← getField_eq_shift]
    rfl
  case stored =>
    have stored := stored.imp_left Fiu.busy_false.2
    rw [State.rdf_stored stored, Fiu.busRead_stored stored]
    exact ⟨rfl, rfl⟩
  case draws =>
    obtain ⟨d, e⟩ := (s.fiu inst).busRead_snd inst (fieldReg f)
    exact ⟨d, (State.fiu_setFiu_same s _ hi).trans e⟩

/-! ### `FIELD_WRITE` (R143, R144, R147) -/

/-- A field write counts two bus accesses (R144). -/
theorem State.length_trace_wrf (s : State) (inst : Nat) (f : Field) (v : Word) :
    (s.wrf inst f v).trace.length = s.trace.length + 2 := by
  simp [State.wrf, State.hostRead, State.hostWrite]

/-- A field write on a read-data register leaves its instance as the read does: the write is ignored (R25). -/
theorem State.fiu_wrf_umaDr (s : State) {inst : Nat} (hi : inst < Config.nFiu) {f : Field} {k : Fin 4} (hf : fieldReg f = .umaDr k)
    (v : Word) : (s.wrf inst f v).fiu inst = ((s.fiu inst).busRead inst (fieldReg f)).2 := by
  have read : (s.hostRead inst (fieldReg f)).2.fiu inst = ((s.fiu inst).busRead inst (fieldReg f)).2 :=
    State.fiu_setFiu_same s _ hi
  rw [State.wrf, State.fiu_hostWrite hi, read, hf]
  rfl

/-- A write of a protection register that the lock of `PRT_CFG` covers is ignored on a locked instance (R37, R38, R39). -/
theorem Fiu.busWrite_locked {b : Fiu} (lock : b.bit .prtLck = true) {r : Reg}
    (hr : r = .prtCfg ∨ (∃ n, r = .prtRange n) ∨ ∃ n, r = .prtCmd n) (v : Word) : b.busWrite r v = b := by
  obtain rfl | ⟨n, rfl⟩ | ⟨n, rfl⟩ := hr
  · exact Fiu.busWrite_prtCfg_locked lock v
  · exact Fiu.busWrite_prtRange_locked (.inl lock) v
  · exact Fiu.busWrite_prtCmd_locked lock v

/-- The word a field write writes is the one with the field's bits from the operand and the others as they stand (R143). -/
theorem Fiu.eq_rmw {b : Fiu} {f : Field} {v new : Word}
    (h : ∀ j < 32, new.getLsbD j =
      if fieldLo f ≤ j ∧ j < fieldLo f + fieldWidth f then v.getLsbD (j - fieldLo f) else (b.rd (fieldReg f)).getLsbD j) :
    new = b.rmw f v :=
  BitVec.eq_of_getLsbD_eq fun j hj => (h j hj).trans (getLsbD_putField f v _ j).symm

/-- A field-write instruction of the host completes, with the instances and the bus trace as `WRF` leaves them. -/
theorem exec_fieldWrite_spec {s : State} (hs : s.Ready) {inst : Nat} (hi : inst < Config.nFiu) (f : Field) (v : Word) :
    ∃ t, exec (.fieldWrite inst f v) s = .next t ∧ s.Ended t .done ∧ t.fius = (s.wrf inst f v).fius
      ∧ t.trace = (s.wrf inst f v).trace ∧ s.SameOthers inst t := by
  obtain ⟨others, -, halted, hseq, hprog, code, prog, sched, -, other⟩ := (State.touched_wrf s inst f v).rest
  exact ⟨_, exec_fieldWrite hs hi f v, ⟨rfl, halted.trans hs.halted, rfl, hseq, hprog, code, prog, sched, other⟩, rfl, rfl, others⟩

/-- Settles O16: a field write is the read and the write of `wrf_stored`; the write is ignored on a read-data register, and under the
lock on the registers that it covers. -/
theorem fieldWriteIsReadModifyWrite : Obligations.FieldWriteIsReadModifyWrite := by
  intro s inst f v hs hi
  obtain ⟨t, e, ended, fius, trace, others⟩ := exec_fieldWrite_spec hs hi f v
  have two : t.trace.length = s.trace.length + 2 := trace ▸ s.length_trace_wrf inst f v
  refine ⟨fun new stored bits => ?registerWrite, fun k hf => ?readData, fun lock hr => ?locked⟩
  case registerWrite =>
    obtain rfl := Fiu.eq_rmw bits
    rw [State.wrf_stored (stored.imp_left Fiu.busy_false.2)] at fius trace
    exact ⟨t, _, e, exec_write hs hi (fieldReg f) _, ended, fius, trace⟩
  case readData =>
    obtain ⟨d, drawn⟩ := (s.fiu inst).busRead_snd inst (fieldReg f)
    exact ⟨t, e, ended, ⟨d, (State.fiu_congr fius inst).trans ((s.fiu_wrf_umaDr hi hf v).trans drawn)⟩, others, two⟩
  case locked =>
    have stored : ∀ k, fieldReg f ≠ .umaDr k := by
      intro k hk
      obtain h | ⟨n, h⟩ | ⟨n, h⟩ := hr <;> rw [hk] at h <;> cases h
    rw [State.wrf_stored (.inr stored), Fiu.busWrite_locked lock hr, State.setFiu_self] at fius
    exact ⟨t, e, ended, fius, two⟩

/-! ### `FIELD_WRITE` to `UMA_CTS` (R145, R146) -/

/-- The fields of `UMA_CTS` share no bit. -/
theorem cts_apart {f g : Field} (hf : fieldReg f = .umaCts) (hg : fieldReg g = .umaCts) (hne : g ≠ f) : fieldsApart f g = true := by
  have apart : ∀ f ∈ regFields .umaCts, ∀ g ∈ regFields .umaCts, g ≠ f → fieldsApart f g = true := by decide
  exact apart f (hf ▸ mem_regFields f) g (hg ▸ mem_regFields g) hne

/-- Writing back a 1 read from `RDYST` clears it: a field write of another field of `UMA_CTS` leaves it 0 (R145). -/
theorem Fiu.rdyst_wrf (b : Fiu) {f : Field} (hf : fieldReg f = .umaCts) (hne : f ≠ .ctsRdyst) (v : Word) :
    (b.wrf f v).bit .ctsRdyst = false := by
  obtain ⟨-, -, -, rdyst⟩ := b.writeCts_fields (b.rmw f v)
  have writtenBack : flag .ctsRdyst (b.rmw f v) = b.bit .ctsRdyst := by
    rw [Fiu.rmw, flag_putField_apart (cts_apart hf rfl hne.symm), hf]
    rfl
  rw [writtenBack, Bool.and_not_self] at rdyst
  rw [Fiu.wrf, hf]
  exact rdyst

/-- A field write of `UMA_CTS` that does not trigger keeps `EXEC_DONE`. -/
theorem Fiu.execDone_wrf {b : Fiu} {f : Field} {v : Word} (hf : fieldReg f = .umaCts)
    (quiet : b.busy = true ∨ flag .ctsExecDone (b.rmw f v) = false) :
    (b.wrf f v).bit .ctsExecDone = b.bit .ctsExecDone := by
  have h := Fiu.writeCts_execDone quiet
  rw [Fiu.wrf, hf]
  exact congrArg (· == 1#32) h

/-- Settles O17: the read-modify-write writes a 1 back to a pending `RDYST`, and to `EXEC_DONE` only while the engine is busy. -/
theorem controlFieldWriteHazards : Obligations.ControlFieldWriteHazards := by
  intro s inst f v hs hi done hf
  obtain ⟨t, e, -, fius, -, -⟩ := exec_fieldWrite_spec hs hi f v
  have stored : ∀ k, fieldReg f ≠ .umaDr k := by
    intro k
    rw [hf]
    exact nofun
  have fiu : t.fiu inst = (s.fiu inst).wrf f v := (State.fiu_congr fius inst).trans (State.fiu_wrf hi (.inr stored) v)
  refine ⟨t, e, ?_⟩
  rw [fiu]
  refine ⟨fun hne => Fiu.rdyst_wrf _ hf hne v, fun idle hne => ?idle, fun l dist he => ?busy⟩
  case idle =>
    have notBusy : (s.fiu inst).busy = false := Fiu.busy_false.2 idle
    have apart := cts_apart hf (g := .ctsExecDone) rfl hne.symm
    obtain ⟨-, -, -, eng, -⟩ := Fiu.wrf_cts done hf apart v
    exact ⟨eng notBusy, (Fiu.execDone_wrf hf (Fiu.rmw_execDone done hf apart v)).trans (done.trans notBusy)⟩
  case busy =>
    have busy : (s.fiu inst).busy = true := by simp only [Fiu.busy, he]
    exact ⟨Fiu.busWrite_busy _ _ _ he, (Fiu.execDone_wrf hf (.inl busy)).trans (done.trans busy)⟩

/-! ### Illegal operands (R148, R282, R283, R294) -/

/-- The outcome of a request that fails validation: it halts the host, or it ends with its status; nothing else changes. -/
def failWith (s : State) (x : HaltReason ⊕ Result) : Out :=
  match x with
  | .inl r => .next { s with halted := some r }
  | .inr res => .next { s with result := some res }

section Validation

variable {s : State} {inst dev : Nat} {i : Instr} {body : Pos → Out} {x : HaltReason ⊕ Result} {bad : Bool} {res : Result}

/-- `raise Halt` where the host may begin an operation. -/
theorem raiseHalt_ready (hs : s.Ready) (r : HaltReason) : raiseHalt r s = failWith s (.inl r) := by
  rw [raiseHalt_live hs.handling, ← hs.2]
  rfl

/-- `return` where the host may begin an operation. -/
theorem finish_ready (hs : s.Ready) (res : Result) : finish res s = failWith s (.inr res) := by
  rw [finish_live hs.handling, ← hs.2]
  rfl

/-- The assertion on the instance comes first (R283, R294): a request fails there, or as its other checks `rest` say. -/
theorem fails_instance {rest : Option (HaltReason ⊕ Result)} (hs : s.Ready)
    (e : exec i s = hostStep i s fun p => if !instOk inst then raiseHalt .instanceIndex s else body p)
    (h : (if Config.nFiu ≤ inst then some (.inl .instanceIndex) else rest) = some x)
    (past : rest = some x → body startPos = failWith s x) : exec i s = failWith s x := by
  rw [e]
  split at h
  · next hi =>
    obtain rfl := Option.some.inj h
    rw [hostStep_ready hs, ← raiseHalt_ready hs]
    simp [instOk, hi]
  · next hi => exact (hostStep_instOk hs (Nat.not_le.1 hi)).trans (past h)

/-- A request checked for its instance and a condition on its other operands, which its body answers with `PARAM_ERROR`. -/
theorem fails_status (hs : s.Ready)
    (e : exec i s = hostStep i s fun p => if !instOk inst then raiseHalt .instanceIndex s else body p)
    (h : (if Config.nFiu ≤ inst then some (.inl .instanceIndex)
      else if bad then some (.inr (.status .paramError)) else none) = some x)
    (range : bad = true → body startPos = finish (.status .paramError) s) : exec i s = failWith s x := by
  refine fails_instance hs e h fun h => ?_
  split at h
  · next hb =>
    obtain rfl := Option.some.inj h
    exact (range hb).trans (finish_ready hs _)
  · cases h

/-- A request checked for its instance, its device and a condition on its other operands, which its body answers with `res`. -/
theorem fails_device (hs : s.Ready)
    (e : exec i s = hostStep i s fun p => if !instOk inst then raiseHalt .instanceIndex s
      else if !devOk inst dev then raiseHalt .deviceIndex s else body p)
    (h : (if Config.nFiu ≤ inst then some (.inl .instanceIndex) else if 4 ≤ dev then some (.inl .deviceIndex)
      else if bad then some (.inr res) else none) = some x)
    (range : bad = true → body startPos = finish res s) : exec i s = failWith s x := by
  refine fails_instance hs e h fun h => ?_
  split at h
  · next hd =>
    obtain rfl := Option.some.inj h
    rw [← raiseHalt_ready hs]
    simp [devOk, hd]
  · next hd =>
    have known : (!devOk inst dev) ≠ true := by simpa [devOk] using hd
    refine (if_neg known).trans ?_
    split at h
    · next hb =>
      obtain rfl := Option.some.inj h
      exact (range hb).trans (finish_ready hs _)
    · cases h

end Validation

/-! Operands outside their ranges, request by request. -/

/-- A phase width is a number of bits that the operand table admits (R14). -/
theorem legal_of_widthOfBits {n : Nat} {w : Width} (h : widthOfBits n = some w) : (n != 1 && n != 2 && n != 4) = false := by
  unfold widthOfBits at h
  split at h
  · rfl
  · rfl
  · rfl
  · cases h

/-- Operands of `uma_ioctl` outside their ranges have no widths. -/
theorem ioctlWidths_illegal {asz cb ab wb rb dummy : Nat}
    (h : ((cb != 1 && cb != 2 && cb != 4) || (ab != 1 && ab != 2 && ab != 4) || (wb != 1 && wb != 2 && wb != 4)
      || (rb != 1 && rb != 2 && rb != 4) || (asz != 0 && asz != 3 && asz != 4) || 7 < dummy) = true) :
    ioctlWidths asz cb ab wb rb dummy = none := by
  unfold ioctlWidths
  split
  · next ec ea ew er =>
    have outside : (asz ≠ 0 ∧ asz ≠ 3 ∧ asz ≠ 4) ∨ 7 < dummy := by
      simpa [legal_of_widthOfBits ec, legal_of_widthOfBits ea, legal_of_widthOfBits ew, legal_of_widthOfBits er, and_assoc] using h
    exact if_neg (by omega)
  · rfl

/-- The search of the size class goes past class 7 where the size is above 16 GiB and it has the fuel (R13). -/
theorem seven_lt_devsizFrom {size : Nat} (h : 4 ^ 7 * 2 ^ 20 < size) {fuel k : Nat} (hf : 7 < k + fuel) :
    7 < devsizFrom fuel k size := by
  induction fuel generalizing k with
  | zero => exact hf
  | succ fuel ih =>
    rw [devsizFrom]
    split
    · by_contra hk
      have : 4 ^ k ≤ 4 ^ 7 := Nat.pow_le_pow_right (by omega) (by omega)
      omega
    · exact ih (by omega)

/-- A size above 16 GiB has no size class that fits its field. -/
theorem seven_lt_devsiz {size : Nat} (h : 4 ^ 7 * 2 ^ 20 < size) : 7 < devsiz size := by
  have : 34 ≤ Nat.log2 size := (Nat.le_log2 (by omega)).2 (by omega)
  exact seven_lt_devsizFrom h (by omega)

section Requests

variable {s : State} {inst : Nat} {x : HaltReason ⊕ Result}

theorem setDummyCycles_fails {cycles : Nat} (hs : s.Ready) (h : operandFailure (.setDummyCycles inst cycles) = some x) :
    exec (.setDummyCycles inst cycles) s = failWith s x := by
  refine fails_instance hs rfl h fun h => ?_
  split at h
  · next odd =>
    obtain rfl := Option.some.inj h
    exact (if_pos odd).trans (raiseHalt_ready hs _)
  · next multiple =>
    refine (if_neg multiple).trans ?_
    split at h
    · next large =>
      obtain rfl := Option.some.inj h
      exact (if_pos large).trans (finish_ready hs _)
    · cases h

theorem setProtectionCommand_fails {slot code : Nat} {cmd : Byte} {aby ab cb : Nat} (hs : s.Ready)
    (h : operandFailure (.setProtectionCommand inst slot code cmd aby ab cb) = some x) :
    exec (.setProtectionCommand inst slot code cmd aby ab cb) s = failWith s x := by
  refine fails_status hs rfl h fun bad => ?_
  split
  · next hslot =>
    split
    · rfl
    · next bytes =>
      split
      · next ea ec =>
        have outside : (14 ≤ slot / 2 ∨ aby ≠ 3 ∧ aby ≠ 4) ∨ 7 < code := by
          simpa [legal_of_widthOfBits ea, legal_of_widthOfBits ec] using bad
        exact if_pos (by omega)
      · rfl
  · rfl

end Requests

/-- A request that fails validation halts the host or ends with its status, and does nothing else. -/
theorem exec_of_operandFailure {s : State} (hs : s.Ready) {i : Instr} {x : HaltReason ⊕ Result} (h : operandFailure i = some x) :
    exec i s = failWith s x := by
  cases i with
  | configureDirect => exact fails_status hs rfl h (fun bad => if_pos (by simpa using bad))
  | configureCommand | getReadMode | getViolationStatus | waitReady => exact fails_status hs rfl h nofun
  | setDummyCycles => exact setDummyCycles_fails hs h
  | umaRead | umaWrite => exact fails_device hs rfl h (fun bad => if_pos (of_decide_eq_true bad))
  | umaIoctl => exact fails_device hs rfl h (fun bad => by rw [ioctlWidths_illegal bad])
  | pageWrite | selectChip | setFourByteAddressing | getFourByteAddressing | selectChipByAddress =>
    exact fails_device hs rfl h nofun
  | setProtectionRange => exact fails_status hs rfl h (fun bad => dif_neg (Nat.not_lt.2 (of_decide_eq_true bad)))
  | setProtectionCommand => exact setProtectionCommand_fails hs h
  | configureProtection => exact fails_status hs rfl h (fun bad => if_pos (seven_lt_devsiz (of_decide_eq_true bad)))
  | _ => cases h

/-- Settles O56, by the two kinds of failure. -/
theorem illegalOperandsTouchNothing : Obligations.IllegalOperandsTouchNothing :=
  fun _ _ hs => ⟨fun _ => exec_of_operandFailure hs, fun _ => exec_of_operandFailure hs⟩

end Sys2Proof.Machine
end

section
/-! SUPPORT. The statements of 41_direct_access.md: the requests that configure direct access as lists of field writes (R151, R153,
R154), the read mode that `ACCTYPE` and `DBW` spell (R156), and the steps that leave it (R152). -/

namespace Sys2Proof.Machine

/-! ### Steps that leave the read mode (R152) -/

/-- A move that may not write the read mode keeps the two fields that spell it. -/
theorem Fiu.Move.get_readMode {inst : Nat} {ec : Bool} {b c : Fiu} (m : Fiu.Move inst ec false b c) {g : Field}
    (hg : g = .drdAcctype ∨ g = .drdDbw) : c.get g = b.get g := by
  have reg : fieldReg g = .drdCfg := by obtain rfl | rfl := hg <;> rfl
  have of_rd : ∀ {b c : Fiu}, c.rd .drdCfg = b.rd .drdCfg → c.get g = b.get g := by
    intro b c h
    rw [Fiu.get, Fiu.get, reg, h]
  induction m with
  | trans _ _ ih1 ih2 => exact ih2.trans ih1
  | write b r v h =>
    obtain h | h := h
    · cases h
    · exact of_rd (b.busWrite_rd_ne v h.symm)
  | drd b f v hr h =>
    obtain h | ⟨hacc, hdbw⟩ := h
    · cases h
    · have field : b.busWrite .drdCfg (putField f v (b.rd .drdCfg)) = b.wrf f v := by rw [Fiu.wrf, Fiu.rmw, hr]
      have other : g ≠ f := by
        rintro rfl
        exact hg.elim hacc hdbw
      rw [field, Fiu.get_wrf_ne b (by rw [hr]; rfl) other]
  | complete b l dist => exact of_rd (b.complete_rd inst l dist (by decide) (by decide) nofun)
  | refl | draw | sup | handler | inHandler | fourb | mark => rfl

/-- A step of an instruction that may not write the read mode keeps it in every instance. -/
theorem exec_keeps_readMode {s t : State} {i : Instr} (hr : i ≠ .reset) (hw : writesMode i = false) (e : exec i s = .next t)
    (k : Nat) {g : Field} (hg : g = .drdAcctype ∨ g = .drdDbw) : (t.fiu k).get g = (s.fiu k).get g := by
  obtain ⟨j, ⟨others, moved⟩, -⟩ := exec_moves hr e
  rw [hw] at moved
  by_cases hj : k = j
  · subst hj
    exact moved.get_readMode hg
  · rw [others k hj]

/-- Settles O29: none of the listed instructions may write the read mode. -/
theorem readModeChangers : Obligations.ReadModeChangers := by
  intro s t i k e _ listed
  have quiet : i ≠ .reset ∧ writesMode i = false := by
    rcases listed with ⟨_, _, _, rfl⟩ | ⟨_, rfl⟩ | ⟨_, _, _, _, _, _, _, rfl⟩ | ⟨_, _, _, _, _, _, _, _, rfl⟩
      | ⟨_, _, _, _, _, _, _, _, _, _, _, _, _, _, rfl⟩ | ⟨_, _, _, _, _, _, _, rfl⟩ | ⟨_, _, rfl⟩ | ⟨_, _, _, rfl⟩
      | ⟨_, _, rfl⟩ | ⟨_, _, _, rfl⟩ | ⟨_, _, _, _, _, rfl⟩ | ⟨_, _, _, _, _, _, _, rfl⟩
      | ⟨_, _, _, _, _, _, _, _, _, _, _, rfl⟩ | ⟨_, _, rfl⟩ | ⟨_, _, rfl⟩ | ⟨_, rfl⟩ | ⟨_, rfl⟩ | ⟨_, rfl⟩ | ⟨_, rfl⟩ <;>
      exact ⟨nofun, rfl⟩
  obtain ⟨hr, hw⟩ := quiet
  exact ⟨exec_keeps_readMode hr hw e k (.inl rfl), exec_keeps_readMode hr hw e k (.inr rfl)⟩

/-! ### Lists of field writes of the direct-access registers -/

/-- Field writes that a request can make one after the other: of direct-access registers, each field once, with a value that fits. -/
structure DirectWrites (ws : List (Field × Word)) : Prop where
  plain : ∀ w ∈ ws, plainReg (fieldReg w.1) = true
  once : (ws.map Prod.fst).Nodup
  fits : ∀ w ∈ ws, w.2.toNat < 2 ^ fieldWidth w.1

theorem DirectWrites.nil : DirectWrites [] := ⟨nofun, .nil, nofun⟩

theorem directWrites_cons {w : Field × Word} {ws : List (Field × Word)} : DirectWrites (w :: ws) ↔
    (plainReg (fieldReg w.1) = true ∧ w.2.toNat < 2 ^ fieldWidth w.1 ∧ ∀ x ∈ ws, x.1 ≠ w.1) ∧ DirectWrites ws := by
  have fresh : w.1 ∉ ws.map Prod.fst ↔ ∀ x ∈ ws, x.1 ≠ w.1 := by
    simp only [List.mem_map, not_exists, not_and]
  constructor
  · rintro ⟨plain, once, fits⟩
    rw [List.forall_mem_cons] at plain fits
    rw [List.map_cons, List.nodup_cons, fresh] at once
    exact ⟨⟨plain.1, fits.1, once.1⟩, plain.2, once.2, fits.2⟩
  · rintro ⟨⟨plain, fits, others⟩, rest⟩
    exact ⟨List.forall_mem_cons.2 ⟨plain, rest.plain⟩, List.nodup_cons.2 ⟨fresh.2 others, rest.once⟩,
      List.forall_mem_cons.2 ⟨fits, rest.fits⟩⟩

/-- The same field writes as accesses of the host, one step each. -/
def hostWrites (inst : Nat) (ws : List (Field × Word)) : List (State → State) := ws.map fun w s => s.wrf inst w.1 w.2

/-- The same field writes as changes of the instance. -/
def fiuWrites (ws : List (Field × Word)) : List (Fiu → Fiu) := ws.map fun w b => b.wrf w.1 w.2

/-- What field writes leave of instance `b`: the fields written hold their values, every other field, every register with no field
written and everything hidden is kept. -/
structure Fiu.Wrote (b : Fiu) (ws : List (Field × Word)) (c : Fiu) : Prop where
  written : ∀ w ∈ ws, c.get w.1 = w.2
  kept : ∀ f, (∀ w ∈ ws, w.1 ≠ f) → c.get f = b.get f
  regs : ∀ q, (∀ w ∈ ws, fieldReg w.1 ≠ q) → c.rd q = b.rd q
  hidden : b.SameHidden c

/-- A direct-access register is not a read-data register. -/
theorem plainReg_ne_umaDr {r : Reg} (h : plainReg r = true) (k : Fin 4) : r ≠ .umaDr k := by
  rintro rfl
  cases h

/-- A word that fits a field is not truncated (R143). -/
theorem and_lowMask_of_fits {f : Field} {v : Word} (h : v.toNat < 2 ^ fieldWidth f) : v &&& lowMask (fieldWidth f) = v := by
  have ⟨inside, _⟩ := field_fits f
  apply BitVec.eq_of_getLsbD_eq
  intro j hj
  rw [BitVec.getLsbD_and, getLsbD_lowMask (by omega)]
  by_cases hw : j < fieldWidth f
  · simp [hw]
  · have high : v.getLsbD j = false := Nat.testBit_lt_two_pow (h.trans_le (Nat.pow_le_pow_right (by omega) (by omega)))
    simp [high]

theorem nat32_fits {n w : Nat} (h : n < 2 ^ w) : (nat32 n).toNat < 2 ^ w := Nat.lt_of_le_of_lt (Nat.mod_le _ _) h

section FieldWrites

variable {ws : List (Field × Word)}

/-- The fields, registers and hidden state after the field writes. -/
theorem Fiu.wrote_runAll (b : Fiu) (hw : DirectWrites ws) : b.Wrote ws (runAll (fiuWrites ws) b) := by
  induction ws generalizing b with
  | nil => exact ⟨nofun, fun _ _ => rfl, fun _ _ => rfl, b.sameHidden_refl⟩
  | cons w ws ih =>
    obtain ⟨⟨plain, fits, once⟩, rest⟩ := directWrites_cons.1 hw
    obtain ⟨firstHidden, firstRegs⟩ := b.wrf_plain_rest plain w.2
    obtain ⟨written, kept, regs, hidden⟩ := ih (b.wrf w.1 w.2) rest
    have first : (runAll (fiuWrites ws) (b.wrf w.1 w.2)).get w.1 = w.2 :=
      (kept w.1 once).trans ((b.get_wrf_same plain w.2).trans (and_lowMask_of_fits fits))
    refine ⟨List.forall_mem_cons.2 ⟨first, written⟩, fun f hf => ?_, fun q hq => ?_, Fiu.sameHidden_trans firstHidden hidden⟩
    · obtain ⟨hne, hf⟩ := List.forall_mem_cons.1 hf
      exact (kept f hf).trans (b.get_wrf_ne plain hne.symm w.2)
    · obtain ⟨hne, hq⟩ := List.forall_mem_cons.1 hq
      exact (regs q hq).trans (firstRegs q hne.symm)

/-- No write of the list sets a mark. -/
theorem keeps_fiuWrites (b : Fiu) (hw : DirectWrites ws) : keeps b (fiuWrites ws) := by
  induction ws generalizing b with
  | nil => trivial
  | cons w ws ih =>
    obtain ⟨⟨plain, -⟩, rest⟩ := directWrites_cons.1 hw
    exact ⟨b.wrf_inHandler w.1 w.2, b.wrf_plain_unmodelled plain w.2, ih (b.wrf w.1 w.2) rest⟩

/-- The accesses of the host make the changes of the instance. -/
theorem acc_hostWrites {inst : Nat} (hi : inst < Config.nFiu) (hw : DirectWrites ws) :
    List.Forall₂ (Acc inst) (hostWrites inst ws) (fiuWrites ws) := by
  induction ws with
  | nil => exact .nil
  | cons w ws ih =>
    obtain ⟨⟨plain, -⟩, rest⟩ := directWrites_cons.1 hw
    exact .cons (acc_wrf hi (plainReg_ne_umaDr plain) w.2) (ih rest)

/-- The bus trace of field writes: a read and a write each, of the field's register (R144). -/
theorem trace_hostWrites (inst : Nat) (hw : DirectWrites ws) (s : State) :
    ∃ ev, (applyAll (hostWrites inst ws) s).trace = s.trace ++ ev ∧ ev.length = 2 * ws.length
      ∧ ∀ e ∈ ev, e.inst = inst ∧ ∃ w ∈ ws, e.reg = fieldReg w.1 := by
  induction ws generalizing s with
  | nil => exact ⟨[], (List.append_nil _).symm, rfl, nofun⟩
  | cons w ws ih =>
    obtain ⟨⟨plain, -⟩, rest⟩ := directWrites_cons.1 hw
    obtain ⟨ev, trace, length, accesses⟩ := ih rest (s.wrf inst w.1 w.2)
    rw [State.trace_wrf (plainReg_ne_umaDr plain), List.append_assoc] at trace
    refine ⟨_, trace, by simp only [List.length_append, List.length_cons, List.length_nil, length]; omega, fun e he => ?_⟩
    obtain he | he := List.mem_append.1 he
    · obtain rfl | rfl : e = _ ∨ e = _ := by simpa using he
      · exact ⟨rfl, w, List.mem_cons_self, rfl⟩
      · exact ⟨rfl, w, List.mem_cons_self, rfl⟩
    · obtain ⟨named, x, hx, reg⟩ := accesses e he
      exact ⟨named, x, List.mem_cons_of_mem _ hx, reg⟩

/-- A request past the assertion on its instance, at its start or where it stands. -/
theorem hostStep_instOk_at {s : State} {i : Instr} {p : Pos} {inst : Nat} {body : Pos → Out} (hi : inst < Config.nFiu)
    (h : s.Ready ∧ p = startPos ∨ s.At i p) :
    hostStep i s (fun p => if !instOk inst then raiseHalt .instanceIndex s else body p) = body p := by
  have known : (!instOk inst) ≠ true := by simp [instOk, hi]
  obtain ⟨ready, rfl⟩ | within := h
  · exact hostStep_instOk ready hi
  · exact (hostStep_at within _).trans (if_neg known)

/-- The run of a request that is a list of field writes of the direct-access registers: a step for each, or one step where there is
none. -/
theorem execN_hostWrites {i : Instr} {inst : Nat} {res : Result} (hw : DirectWrites ws) (hi : inst < Config.nFiu)
    (hx : ∀ s p, s.Ready ∧ p = startPos ∨ s.At i p → exec i s = straight i p s (hostWrites inst ws) res)
    {s : State} (hs : s.Ready) :
    ∃ t, execN (max 1 ws.length) i s = .next t ∧ s.Ended t res ∧ s.SameOthers inst t ∧ (s.fiu inst).Wrote ws (t.fiu inst)
      ∧ ∃ ev, t.trace = s.trace ++ ev ∧ ev.length = 2 * ws.length
        ∧ ∀ e ∈ ev, e.inst = inst ∧ ∃ w ∈ ws, e.reg = fieldReg w.1 := by
  cases ws with
  | nil =>
    have e : exec i s = finish res s := hx s startPos (.inl ⟨hs, rfl⟩)
    rw [finish_live hs.handling] at e
    exact ⟨_, (execN_one i s).trans e, ⟨rfl, hs.halted, rfl, rfl, rfl, rfl, rfl, rfl, rfl⟩, fun _ _ => rfl,
      Fiu.wrote_runAll _ .nil, [], (List.append_nil _).symm, rfl, nofun⟩
  | cons w ws =>
    obtain ⟨t, e, ended, others, fiu, -, trace⟩ := execN_acc_trace (fun s p _ => hx s p) (acc_hostWrites hi hw)
      (by simp [hostWrites]) hs (keeps_fiuWrites _ hw)
    have steps : max 1 (w :: ws).length = (hostWrites inst (w :: ws)).length := by simp [hostWrites]
    exact ⟨t, steps ▸ e, ended, others, fiu ▸ Fiu.wrote_runAll _ hw, trace ▸ trace_hostWrites inst hw s⟩

end FieldWrites

/-! ### `configure_direct` (R151) -/

/-- The field writes of `configure_direct`. -/
def configureDirectWrites (size : Nat) (mode : ReadMode) (rb wb : Nat) : List (Field × Word) :=
  [(.drdAddsiz, bool32 (16 * 2 ^ 20 < size)), (.dwrAddsiz, bool32 (16 * 2 ^ 20 < size)),
    (.drdAcctype, nat32 (readModePair mode).1), (.drdDbw, nat32 (readModePair mode).2),
    (.drdRBurst, nat32 rb), (.dwrWBurst, nat32 wb)]

/-- With legal bursts the values fit their fields. -/
theorem configureDirectWrites_direct {size : Nat} {mode : ReadMode} {rb wb : Nat} (hr : rb ≤ 3) (hw : wb ≤ 3) :
    DirectWrites (configureDirectWrites size mode rb wb) where
  plain := by simp [configureDirectWrites, plainReg, fieldReg]
  once := by simp [configureDirectWrites]
  fits := by
    have addsiz : ∀ c : Bool, (bool32 c).toNat < 2 ^ 2 := by decide
    have code : (readModePair mode).1 < 2 ^ 2 ∧ (readModePair mode).2 < 2 ^ 2 := by cases mode <;> decide
    obtain ⟨acctype, dbw⟩ := code
    simp only [configureDirectWrites, List.forall_mem_cons]
    exact ⟨addsiz _, addsiz _, nat32_fits acctype, nat32_fits dbw, nat32_fits (Nat.lt_succ_of_le hr),
      nat32_fits (Nat.lt_succ_of_le hw), nofun⟩

/-- With legal bursts `configure_direct` is its field writes. -/
theorem exec_configureDirect {s : State} {p : Pos} {inst size : Nat} {mode : ReadMode} {rb wb : Nat} (hi : inst < Config.nFiu)
    (hr : rb ≤ 3) (hw : wb ≤ 3) (h : s.Ready ∧ p = startPos ∨ s.At (.configureDirect inst size mode rb wb) p) :
    exec (.configureDirect inst size mode rb wb) s =
      straight (.configureDirect inst size mode rb wb) p s (hostWrites inst (configureDirectWrites size mode rb wb))
        (.status .ok) := by
  have bursts : ¬ (3 < rb ∨ 3 < wb) := by omega
  exact (hostStep_instOk_at hi h).trans (if_neg bursts)

/-- Settles O38, from the six field writes. -/
theorem configureDirect : Obligations.ConfigureDirect := by
  intro s inst size mode rb wb hs hi hr hw
  obtain ⟨t, e, ended, others, ⟨written, kept, regs, hidden⟩, ev, trace, length, -⟩ :=
    execN_hostWrites (configureDirectWrites_direct hr hw) hi (fun _ _ => exec_configureDirect hi hr hw) hs
  have addsiz : bool32 (16 * 2 ^ 20 < size) = if 16 * 2 ^ 20 < size then 1#32 else 0#32 := fourByteSize_eq size
  simp only [configureDirectWrites, List.forall_mem_cons] at written
  obtain ⟨drdAddsiz, dwrAddsiz, acctype, dbw, rBurst, wBurst, -⟩ := written
  refine ⟨t, e, ended, others, drdAddsiz.trans addsiz, dwrAddsiz.trans addsiz, acctype, dbw, rBurst, wBurst, ?rdcmd, ?wrcmd,
    fun q hd hw => ?reg, hidden, ?trace⟩
  case rdcmd => exact kept .drdRdcmd (by simp [configureDirectWrites])
  case wrcmd => exact kept .dwrWrcmd (by simp [configureDirectWrites])
  case reg => exact regs q (by simp [configureDirectWrites, fieldReg, hd.symm, hw.symm])
  case trace => rw [trace, List.length_append, length]; rfl

/-! ### `configure_command` (R153) -/

/-- The field writes of `configure_command`: none for a command byte of 0. -/
def configureCommandWrites (r w : Byte) : List (Field × Word) :=
  (if r = 0#8 then [] else [(.drdRdcmd, r.setWidth 32)]) ++ (if w = 0#8 then [] else [(.dwrWrcmd, w.setWidth 32)])

theorem mem_configureCommandWrites {r w : Byte} {x : Field × Word} : x ∈ configureCommandWrites r w ↔
    r ≠ 0#8 ∧ x = (.drdRdcmd, r.setWidth 32) ∨ w ≠ 0#8 ∧ x = (.dwrWrcmd, w.setWidth 32) := by
  unfold configureCommandWrites
  split <;> split <;> simp [*]

theorem length_configureCommandWrites (r w : Byte) :
    (configureCommandWrites r w).length = (if r = 0#8 then 0 else 1) + (if w = 0#8 then 0 else 1) := by
  unfold configureCommandWrites
  split <;> split <;> rfl

/-- A command byte fits its field. -/
theorem commandByte_fits (v : Byte) : (v.setWidth 32).toNat < 2 ^ 8 := by
  rw [BitVec.toNat_setWidth]
  exact Nat.lt_of_le_of_lt (Nat.mod_le _ _) v.isLt

theorem configureCommandWrites_direct (r w : Byte) : DirectWrites (configureCommandWrites r w) where
  plain x hx := by obtain ⟨-, rfl⟩ | ⟨-, rfl⟩ := mem_configureCommandWrites.1 hx <;> rfl
  once := by
    unfold configureCommandWrites
    split <;> split <;> simp
  fits x hx := by obtain ⟨-, rfl⟩ | ⟨-, rfl⟩ := mem_configureCommandWrites.1 hx <;> exact commandByte_fits _

/-- `configure_command` is its field writes. -/
theorem exec_configureCommand {s : State} {p : Pos} {inst : Nat} {r w : Byte} (hi : inst < Config.nFiu)
    (h : s.Ready ∧ p = startPos ∨ s.At (.configureCommand inst r w) p) :
    exec (.configureCommand inst r w) s =
      straight (.configureCommand inst r w) p s (hostWrites inst (configureCommandWrites r w)) (.status .ok) := by
  have accesses : hostWrites inst (configureCommandWrites r w) =
      (if r = 0#8 then [] else [(·.wrf inst .drdRdcmd (r.setWidth 32))])
        ++ (if w = 0#8 then [] else [(·.wrf inst .dwrWrcmd (w.setWidth 32))]) := by
    unfold hostWrites configureCommandWrites
    split <;> split <;> rfl
  rw [accesses]
  exact hostStep_instOk_at hi h

/-- Settles O39: a command byte is among the field writes exactly where it is not 0. -/
theorem configureCommand : Obligations.ConfigureCommand := by
  intro s inst r w hs hi
  obtain ⟨t, e, ended, others, ⟨written, kept, regs, hidden⟩, ev, trace, length, accesses⟩ :=
    execN_hostWrites (configureCommandWrites_direct r w) hi (fun _ _ => exec_configureCommand hi) hs
  have steps : max 1 (configureCommandWrites r w).length = if r ≠ 0#8 ∧ w ≠ 0#8 then 2 else 1 := by
    rw [length_configureCommandWrites]
    by_cases hr : r = 0#8 <;> by_cases hw : w = 0#8 <;> simp [hr, hw]
  refine ⟨t, steps ▸ e, ended, others, fun hr => ?read, fun hr => ?readKept, fun hw => ?write, fun hw => ?writeKept,
    fun f hr hw => ?fields, hidden, ev, trace, ?accesses, fun x hx => ?regs⟩
  case read => exact written (.drdRdcmd, r.setWidth 32) (mem_configureCommandWrites.2 (.inl ⟨hr, rfl⟩))
  case write => exact written (.dwrWrcmd, w.setWidth 32) (mem_configureCommandWrites.2 (.inr ⟨hw, rfl⟩))
  case readKept =>
    refine regs .drdCfg fun x hx => ?_
    obtain ⟨hne, -⟩ | ⟨-, rfl⟩ := mem_configureCommandWrites.1 hx
    · exact absurd hr hne
    · exact nofun
  case writeKept =>
    refine regs .dwrCfg fun x hx => ?_
    obtain ⟨-, rfl⟩ | ⟨hne, -⟩ := mem_configureCommandWrites.1 hx
    · exact nofun
    · exact absurd hw hne
  case fields =>
    refine kept f fun x hx => ?_
    obtain ⟨-, rfl⟩ | ⟨-, rfl⟩ := mem_configureCommandWrites.1 hx
    · exact hr.symm
    · exact hw.symm
  case accesses =>
    rw [length, length_configureCommandWrites, Nat.mul_add, mul_ite, mul_ite]
  case regs =>
    obtain ⟨named, y, hy, reg⟩ := accesses x hx
    refine ⟨named, ?_⟩
    rw [reg]
    obtain ⟨hne, rfl⟩ | ⟨hne, rfl⟩ := mem_configureCommandWrites.1 hy
    · exact .inl ⟨rfl, hne⟩
    · exact .inr ⟨rfl, hne⟩

/-! ### `set_dummy_cycles` (R154) -/

/-- The field write of `set_dummy_cycles`: the bytes of that many cycles. -/
def setDummyCyclesWrites (cycles : Nat) : List (Field × Word) := [(.drdDbw, nat32 (cycles / 8))]

theorem setDummyCyclesWrites_direct {cycles : Nat} (small : cycles ≤ 24) : DirectWrites (setDummyCyclesWrites cycles) :=
  have fits : cycles / 8 < 2 ^ 2 := by omega
  directWrites_cons.2 ⟨⟨rfl, nat32_fits fits, nofun⟩, .nil⟩

/-- With a legal number of cycles `set_dummy_cycles` is its field write. -/
theorem exec_setDummyCycles {s : State} {p : Pos} {inst cycles : Nat} (hi : inst < Config.nFiu) (multiple : cycles % 8 = 0)
    (small : cycles ≤ 24) (h : s.Ready ∧ p = startPos ∨ s.At (.setDummyCycles inst cycles) p) :
    exec (.setDummyCycles inst cycles) s =
      straight (.setDummyCycles inst cycles) p s (hostWrites inst (setDummyCyclesWrites cycles)) (.status .ok) := by
  have range : ¬ 3 < cycles / 8 := by omega
  exact (hostStep_instOk_at hi h).trans ((if_neg (not_not.2 multiple)).trans (if_neg range))

/-- Settles O40, from the one field write. -/
theorem setDummyCycles : Obligations.SetDummyCycles := by
  intro s inst cycles hs hi multiple small
  obtain ⟨t, e, ended, others, ⟨written, kept, -, hidden⟩, -⟩ :=
    execN_hostWrites (setDummyCyclesWrites_direct small) hi (fun _ _ => exec_setDummyCycles hi multiple small) hs
  refine ⟨t, (execN_one _ s).symm.trans e, ended, others, written (.drdDbw, nat32 (cycles / 8)) List.mem_cons_self,
    fun f hf => kept f ?_, hidden⟩
  simpa [setDummyCyclesWrites] using hf.symm

/-! ### `get_read_mode` (R156) -/

/-- A pair of fields spells the mode whose codes they hold, where there is one. -/
theorem modeOfPair_eq_some {acc dbw : Word} {m : ReadMode} : modeOfPair acc dbw = some m ↔
    acc = BitVec.ofNat 32 (readModePair m).1 ∧ dbw = BitVec.ofNat 32 (readModePair m).2 := by
  constructor
  · intro h
    have codes := List.find?_some h
    simp only [Bool.and_eq_true, beq_iff_eq] at codes
    obtain ⟨hacc, hdbw⟩ := codes
    exact ⟨by rw [hacc, BitVec.ofNat_toNat, BitVec.setWidth_eq], by rw [hdbw, BitVec.ofNat_toNat, BitVec.setWidth_eq]⟩
  · rintro ⟨rfl, rfl⟩
    cases m <;> rfl

/-- The machine after a read of `DRD_CFG` by the host: the bus trace has one access more. -/
def State.readDrdCfg (s : State) (inst : Nat) : State :=
  { s with trace := s.trace ++ [⟨inst, false, .drdCfg, (s.fiu inst).rd .drdCfg⟩] }

theorem State.rdf_drdCfg (s : State) (inst : Nat) {f : Field} (hf : fieldReg f = .drdCfg) :
    s.rdf inst f = ((s.fiu inst).get f, s.readDrdCfg inst) := by
  rw [State.rdf_stored (.inr (by rw [hf]; exact nofun)), hf]
  rfl

/-- Between its two reads `get_read_mode` holds the value of `ACCTYPE`. -/
def readModePos (acc : Word) : Pos := { startPos with label := .s 2 0, first := acc }

/-- The first step of `get_read_mode` reads `ACCTYPE`. -/
theorem exec_getReadMode_start {s : State} (hs : s.Ready) {inst : Nat} (hi : inst < Config.nFiu) :
    exec (.getReadMode inst) s =
      .next { s.readDrdCfg inst with seq := .run (.getReadMode inst) (readModePos ((s.fiu inst).get .drdAcctype)) } := by
  have e : exec (.getReadMode inst) s =
      goTo (.getReadMode inst) (readModePos (s.rdf inst .drdAcctype).1) (s.rdf inst .drdAcctype).2 := hostStep_instOk hs hi
  rw [s.rdf_drdCfg inst rfl] at e
  exact e.trans (goTo_live (s := s.readDrdCfg inst) hs.handling _ _)

/-- The second step of `get_read_mode` reads `DBW` and ends the request. -/
theorem exec_getReadMode_end {s : State} {inst : Nat} {acc : Word} (h : s.At (.getReadMode inst) (readModePos acc))
    (hi : inst < Config.nFiu) : exec (.getReadMode inst) s =
      .next { s.readDrdCfg inst with seq := .idle, result := some (.mode (modeOfPair acc ((s.fiu inst).get .drdDbw))) } := by
  have e : exec (.getReadMode inst) s = finish (.mode (modeOfPair acc (s.rdf inst .drdDbw).1)) (s.rdf inst .drdDbw).2 :=
    hostStep_instOk_at hi (.inr h)
  obtain ⟨⟨-, -, handling⟩, -⟩ := h
  rw [s.rdf_drdCfg inst rfl] at e
  exact e.trans (finish_live (s := s.readDrdCfg inst) handling _)

/-- Settles O41: the two reads give the two fields, which spell a mode or none. -/
theorem getReadMode : Obligations.GetReadMode := by
  intro s inst hs hi
  have start := exec_getReadMode_start hs hi
  have stop := exec_getReadMode_end (s := { s.readDrdCfg inst with seq := _ }) (acc := (s.fiu inst).get .drdAcctype)
    ⟨hs.1, rfl⟩ hi
  refine ⟨_, modeOfPair ((s.fiu inst).get .drdAcctype) ((s.fiu inst).get .drdDbw),
    (execN_cons start).trans ((execN_one _ _).trans stop), ⟨rfl, hs.halted, rfl, rfl, rfl, rfl, rfl, rfl, rfl⟩, rfl, ?reads,
    fun m hacc hdbw => ?spelt, fun none => ?unspelt⟩
  case reads => simp [State.readDrdCfg]
  case spelt => exact modeOfPair_eq_some.2 ⟨hacc, hdbw⟩
  case unspelt => exact Option.eq_none_iff_forall_ne_some.2 fun m hm => none m (modeOfPair_eq_some.1 hm)

end Sys2Proof.Machine
end

section
/-! SUPPORT. The statements of 42_uma_engine.md, section 2: `ENGINE_COMPLETE` alone ends a transaction (R170 to R172), and what the end
of a driven (R173 to R176), a rejected (R177) and a disturbed transaction (R178) leaves. -/

namespace Sys2Proof.Machine

/-! ### Only `ENGINE_COMPLETE` and `RESET` end a transaction (R172) -/

/-- A move other than the end of a transaction keeps the one that runs. -/
theorem Fiu.Move.eng_busy {inst : Nat} {md : Bool} {b c : Fiu} (m : Fiu.Move inst false md b c) {l : Descr}
    (h : ∃ dist, b.eng = .busy l dist) : ∃ dist, c.eng = .busy l dist := by
  induction m with
  | trans _ _ ih1 ih2 => exact ih2 (ih1 h)
  | write b r v =>
    obtain ⟨dist, h⟩ := h
    exact b.busWrite_busy r v h
  | drd b f v =>
    obtain ⟨dist, h⟩ := h
    exact b.busWrite_busy _ _ h
  | complete b l dist he => cases he
  | refl | draw | sup | handler | inHandler | fourb | mark => exact h

/-- Settles O27: a step that ends no transaction is made of moves that keep it, and the engine step of another instance leaves this
one alone. -/
theorem noAbortInFlight : Obligations.NoAbortInFlight := by
  intro s t i inst l dist _ e busy notEngine notReset
  obtain ⟨k, ⟨others, moved⟩, named⟩ := exec_moves notReset e
  by_cases hk : inst = k
  · subst hk
    cases ends : endsTx i with
    | false =>
      rw [ends] at moved
      exact moved.eng_busy ⟨dist, busy⟩
    | true =>
      rw [ends] at named
      obtain named | ⟨h, -⟩ := named
      · cases i with
        | engineComplete j => exact absurd (congrArg Instr.engineComplete (Option.some.inj named)) notEngine
        | _ => cases ends
      · cases h
  · rw [others inst hk]
    exact ⟨dist, busy⟩

/-! ### `ENGINE_COMPLETE` (R170) -/

theorem exec_engineComplete_idle {s : State} {inst : Nat} (hm : s.mark? = none) (he : (s.fiu inst).eng = .idle) :
    exec (.engineComplete inst) s = .refused .notEnabled := by
  simp [exec, execEngineComplete, agentStep, hm, he, notEnabled]

theorem exec_engineComplete_busy {s : State} {inst : Nat} (hm : s.mark? = none) (hi : inst < Config.nFiu) {l : Descr} {dist : Bool}
    (he : (s.fiu inst).eng = .busy l dist) :
    exec (.engineComplete inst) s = .next (s.setFiu inst ((s.fiu inst).complete inst l dist)) := by
  simp [exec, execEngineComplete, agentStep, hm, he, instOk, hi]

section Complete

variable (b : Fiu) (inst : Nat) (l : Descr) (dist : Bool)

/-- An allowed transaction is driven. -/
theorem Fiu.complete_allowed {b : Fiu} {l : Descr} (h : b.prtCheck cfg.forbidTable l = .allow) :
    b.complete inst l false = Fiu.endTx { b.drive inst l with frame := frameVerdict l .allow b.frame } := by
  simp only [Fiu.complete, Fiu.judged, h]
  rfl

/-- A transaction that is not allowed is rejected. -/
theorem Fiu.complete_rejected {b : Fiu} {l : Descr} (h : b.prtCheck cfg.forbidTable l = .reject) :
    b.complete inst l false = Fiu.endTx { b.rejectTx inst with frame := frameVerdict l .reject b.frame } := by
  simp only [Fiu.complete, Fiu.judged, h]
  rfl

/-- A disturbed transaction is neither. -/
theorem Fiu.complete_disturbed : b.complete inst l true = (b.disturbedEnd inst l).endTx := rfl

/-- The three ways a transaction ends: before `RDYST` and `EXEC_DONE` are set it stores the read buffer, and `PRT_STS` where it is
rejected. -/
theorem Fiu.complete_eq_endTx : ∃ c : Fiu, b.complete inst l dist = c.endTx ∧ ∀ q, q ≠ .prtSts → (∀ k, q ≠ .umaDr k) → c.rd q = b.rd q := by
  have buffer : ∀ w0 w1 w2 w3 q, (∀ k, q ≠ .umaDr k) → (b.setReadBuffer w0 w1 w2 w3).rd q = b.rd q :=
    fun w0 w1 w2 w3 q h => b.setReadBuffer_rd w0 w1 w2 w3 h
  cases dist with
  | true => exact ⟨_, rfl, fun q _ h => buffer _ _ _ _ q h⟩
  | false =>
    cases h : b.prtCheck cfg.forbidTable l with
    | allow => exact ⟨_, Fiu.complete_allowed inst h, fun q _ h => buffer _ _ _ _ q h⟩
    | reject =>
      exact ⟨_, Fiu.complete_rejected inst h, fun q hs h => (Fiu.rd_setReg_ne _ _ hs).trans (buffer _ _ _ _ q h)⟩

/-- `UMA_CTS` after the end of a transaction: `RDYST` is 1 and `EXEC_DONE` is 0 (R170). -/
theorem Fiu.complete_cts :
    (b.complete inst l dist).rd .umaCts = putField .ctsExecDone 0#32 (putField .ctsRdyst 1#32 (b.rd .umaCts)) := by
  obtain ⟨c, e, regs⟩ := b.complete_eq_endTx inst l dist
  rw [e, ← regs .umaCts (by decide) nofun]
  exact c.rd_setReg_same .umaCts _

/-- The fields of `UMA_CTS` but those two are kept. -/
theorem Fiu.complete_get {f : Field} (hf : f = .ctsDevNum ∨ f = .ctsSwCs ∨ f = .ctsRdyie) :
    (b.complete inst l dist).get f = b.get f := by
  have reg : fieldReg f = .umaCts ∧ fieldsApart .ctsExecDone f = true ∧ fieldsApart .ctsRdyst f = true := by
    obtain rfl | rfl | rfl := hf <;> decide
  obtain ⟨reg, done, rdyst⟩ := reg
  rw [Fiu.get, Fiu.get, reg, b.complete_cts, getField_putField_apart done, getField_putField_apart rdyst]

/-- The transaction is over and the host may be told so. -/
theorem Fiu.complete_bits :
    (b.complete inst l dist).bit .ctsExecDone = false ∧ (b.complete inst l dist).bit .ctsRdyst = true := by
  rw [Fiu.bit, Fiu.bit, show fieldReg .ctsExecDone = .umaCts from rfl, show fieldReg .ctsRdyst = .umaCts from rfl, b.complete_cts]
  constructor
  · rw [flag_putField_same rfl]
    rfl
  · rw [flag_putField_apart (by decide), flag_putField_same rfl]
    rfl

/-- The ready request stands after the end of a transaction where it is enabled (R53, R293). -/
theorem Fiu.complete_irqRdy : (b.complete inst l dist).irqRdy = b.bit .ctsRdyie := by
  obtain ⟨-, rdyst⟩ := b.complete_bits inst l dist
  have rdyie : (b.complete inst l dist).bit .ctsRdyie = b.bit .ctsRdyie :=
    congrArg (· == 1#32) (b.complete_get inst l dist (.inr (.inr rfl)))
  show ((b.complete inst l dist).bit .ctsRdyst && (b.complete inst l dist).bit .ctsRdyie) = _
  rw [rdyst, rdyie, Bool.true_and]

end Complete

/-- Settles O32, from what the end of a transaction leaves in the instance. -/
theorem engineCompletes : Obligations.EngineCompletes := by
  intro s inst hm hi
  refine ⟨exec_engineComplete_idle hm, fun l dist he => ?_⟩
  obtain ⟨eng, -, mark, inHandler, sup, fourb, handler⟩ := Fiu.complete_spec (s.fiu inst) inst l dist
  obtain ⟨execDone, rdyst⟩ := (s.fiu inst).complete_bits inst l dist
  refine ⟨_, exec_engineComplete_busy hm hi he, ?_⟩
  rw [State.fiu_setFiu_same s _ hi]
  exact ⟨eng, execDone, rdyst, Fiu.complete_irqRdy _ inst l dist, fun f => Fiu.complete_get _ inst l dist,
    fun r => Fiu.complete_rd _ inst l dist, fourb, handler, inHandler, sup, mark, fun k hk => State.fiu_setFiu_ne s _ hk, rfl⟩

/-! ### The phases on the wire (R174) -/

/-- The width of a phase that the trigger arms (R14, 30_encoding.md R106). -/
theorem codeBits_eq {code : Nat} (h : code ≤ 2) : codeBits code = widthOfCode code := by
  interval_cases code <;> rfl

/-- The address bytes of the two address sizes, most significant byte first (20_memory.md R71). -/
theorem addrBytes_eq (a : Word) :
    addrBytes a 3 = [a.extractLsb' 16 8, a.extractLsb' 8 8, a.extractLsb' 0 8]
      ∧ addrBytes a 4 = [a.extractLsb' 24 8, a.extractLsb' 16 8, a.extractLsb' 8 8, a.extractLsb' 0 8] := by
  have byte : ∀ j, wordByte a j = a.extractLsb' (8 * j) 8 := by
    intro j
    apply BitVec.eq_of_getLsbD_eq
    intro i hi
    simp [wordByte, hi]
  simp [addrBytes, List.range_succ, byte]

/-- A phase with bytes is one event, an empty one none. -/
theorem phaseEvent_eq {kind : PhaseKind} {code n : Nat} {bytes : List Byte} (hn : bytes.length = n) (hc : n ≠ 0 → code ≤ 2) :
    phaseEvent kind code bytes = if n = 0 then [] else [.phase kind (widthOfCode code) bytes] := by
  subst hn
  cases bytes with
  | nil => rfl
  | cons x xs =>
    rw [← codeBits_eq (hc (by simp))]
    rfl

/-- The phases of a transaction the trigger may arm, in the order of R174. -/
theorem phases_eq {l : Descr} (legal : LegalDescr l) (hw : l.wdata.length = 16) {r : List Byte} (hr : r.length = l.rdatsiz) :
    outPhases l ++ phaseEvent .rdata l.rdbpck r = phasesOf l r := by
  obtain ⟨hcmd, haddr, hwdata, hdummy, hrdata, addsiz, wdatsiz, -⟩ := legal
  have cmdPhase : phaseEvent .cmd l.cmbpck (if l.cmdsiz = 1 then [l.cmd] else [])
      = if l.cmdsiz = 1 then [.phase .cmd (widthOfCode l.cmbpck) [l.cmd]] else [] := by
    split
    · next h => rw [← codeBits_eq (hcmd (by omega))]; rfl
    · rfl
  have addrPhase : phaseEvent .addr l.adbpck (addrBytes l.addr l.addsiz)
      = if l.addsiz = 3 then
          [.phase .addr (widthOfCode l.adbpck) [l.addr.extractLsb' 16 8, l.addr.extractLsb' 8 8, l.addr.extractLsb' 0 8]]
        else if l.addsiz = 4 then
          [.phase .addr (widthOfCode l.adbpck)
            [l.addr.extractLsb' 24 8, l.addr.extractLsb' 16 8, l.addr.extractLsb' 8 8, l.addr.extractLsb' 0 8]]
        else [] := by
    obtain ⟨three, four⟩ := addrBytes_eq l.addr
    rw [phaseEvent_eq (n := l.addsiz) (by simp [addrBytes]) haddr]
    obtain h | h | h := addsiz <;> simp [h, three, four]
  have dummyPhase : (if l.dbsiz = 0 then [] else [WireEvent.dummy (codeBits l.dbpck) l.dbsiz])
      = if l.dbsiz = 0 then [] else [.dummy (widthOfCode l.dbpck) l.dbsiz] := by
    split
    · rfl
    · next h => rw [codeBits_eq (hdummy h)]
  have written : (l.wdata.take l.wdatsiz).length = l.wdatsiz := by rw [List.length_take, hw, min_eq_left wdatsiz]
  unfold outPhases phasesOf
  rw [cmdPhase, addrPhase, dummyPhase, phaseEvent_eq written hwdata, phaseEvent_eq hr hrdata]

/-- The phases before the read phase. -/
theorem outPhases_eq {l : Descr} (legal : LegalDescr l) (hw : l.wdata.length = 16) :
    outPhases l = phasesOf { l with rdatsiz := 0 } [] := by
  obtain ⟨hcmd, haddr, hwdata, hdummy, -, addsiz, wdatsiz, -⟩ := legal
  have legal' : LegalDescr { l with rdatsiz := 0 } :=
    ⟨hcmd, haddr, hwdata, hdummy, fun h => absurd rfl h, addsiz, wdatsiz, Nat.zero_le _⟩
  rw [← phases_eq legal' hw rfl]
  exact (List.append_nil _).symm

/-! ### The chip select while the engine drives (R173, R230; 10_state.md R57) -/

section Pins

variable {b : Fiu} {l : Descr}

/-- The engine moves no chip select but the transaction's. -/
theorem Fiu.rawDriving_other {d : Nat} (h : d ≠ l.dev) : b.rawDriving l d = csRaw (b.rd .umaCts) d := by
  simp [Fiu.rawDriving, h]

theorem Fiu.rawDriving_held {d : Nat} (h : l.held = true) : b.rawDriving l d = csRaw (b.rd .umaCts) d := by
  simp [Fiu.rawDriving, h]

/-- A transaction inside a held frame, or on a forced chip select, moves no pin. -/
theorem Fiu.levelsDriving_still (h : l.held = true ∨ (csForced (b.rd .prtCfg) l.dev).isSome = true) {d : Nat} (hd : d < 4) :
    (b.levelsDriving l).getD d true = (pinLevels (b.rd .prtCfg) (b.rd .umaCts)).getD d true := by
  rw [levelsDriving_getD b l hd, pinLevels_getD _ _ hd, csPin]
  by_cases other : d = l.dev
  · subst other
    obtain held | forced := h
    · rw [Fiu.rawDriving_held held]
    · obtain ⟨v, hv⟩ := Option.isSome_iff_exists.1 forced
      simp only [csPinOf, hv]
  · rw [Fiu.rawDriving_other other]

/-- The events before and after the phases where no pin moves. -/
theorem Fiu.pinEvents_still (h : l.held = true ∨ (csForced (b.rd .prtCfg) l.dev).isSome = true) :
    pinEvents (pinLevels (b.rd .prtCfg) (b.rd .umaCts)) (b.levelsDriving l) = []
      ∧ pinEvents (b.levelsDriving l) (pinLevels (b.rd .prtCfg) (b.rd .umaCts)) = [] :=
  ⟨pinEvents_same fun _ hd => (Fiu.levelsDriving_still h hd).symm, pinEvents_same fun _ hd => Fiu.levelsDriving_still h hd⟩

/-- The level of the transaction's chip select, where it is not forced, is low while the engine drives. -/
theorem Fiu.csPin_driving (free : csForced (b.rd .prtCfg) l.dev = none) (raw : csRaw (b.rd .umaCts) l.dev = !l.held) :
    csPinOf (b.rd .prtCfg) l.dev (b.rawDriving l l.dev) = false := by
  simp [csPinOf, free, Fiu.rawDriving, raw]

/-- The events of an automatic frame: its chip select falls before the phases and rises after them. -/
theorem Fiu.pinEvents_frame (hd : l.dev < 4) (held : l.held = false) (free : csForced (b.rd .prtCfg) l.dev = none)
    (raw : csRaw (b.rd .umaCts) l.dev = !l.held) :
    pinEvents (pinLevels (b.rd .prtCfg) (b.rd .umaCts)) (b.levelsDriving l) = [.csLow l.dev]
      ∧ pinEvents (b.levelsDriving l) (pinLevels (b.rd .prtCfg) (b.rd .umaCts)) = [.csHigh l.dev] := by
  have high : (pinLevels (b.rd .prtCfg) (b.rd .umaCts)).getD l.dev true = true := by
    rw [pinLevels_getD _ _ hd, csPin, raw, held]
    simp [csPinOf, free]
  have low : (b.levelsDriving l).getD l.dev true = false := by
    rw [levelsDriving_getD b l hd, Fiu.csPin_driving free raw]
  have others : ∀ k < 4, k ≠ l.dev →
      (pinLevels (b.rd .prtCfg) (b.rd .umaCts)).getD k true = (b.levelsDriving l).getD k true := by
    intro k hk hne
    rw [levelsDriving_getD b l hk, pinLevels_getD _ _ hk, csPin, Fiu.rawDriving_other hne]
  exact ⟨pinEvents_fall hd high low others, pinEvents_rise hd low high fun k hk hne => (others k hk hne).symm⟩

end Pins

/-! ### A driven transaction (R173 to R176) -/

/-- What the invariant says of the transaction that runs. -/
theorem Fiu.latchOk_busy {b : Fiu} {l : Descr} {dist : Bool} (he : b.eng = .busy l dist) (h : b.latchOk = true) :
    LegalDescr l ∧ l.dev < 4 ∧ l.wdata.length = 16 ∧ (dist = true ∨ csRaw (b.rd .umaCts) l.dev = !l.held) := by
  simp only [Fiu.latchOk, he, Bool.and_eq_true, decide_eq_true_eq, beq_iff_eq, Bool.or_eq_true] at h
  obtain ⟨⟨⟨legal, dev⟩, bytes⟩, raw⟩ := h
  exact ⟨(legalDescr_iff l).1 legal, dev, bytes, raw⟩

/-- Byte `j` of a data buffer is byte `j % 4` of its register `j / 4` (20_memory.md R70). -/
theorem dataIndex_place {j : Nat} (hj : j < 16) : 4 * (dataIndex (j / 4)).val + j % 4 = j := by
  show 4 * (j / 4 % 4) + j % 4 = j
  omega

section Driven

variable {b : Fiu} {inst : Nat} {l : Descr}

theorem Fiu.length_readPhase : (b.readPhase inst l).length = l.rdatsiz := by simp [Fiu.readPhase]

/-- The registers that an allowed transaction leaves: all but `UMA_CTS` and the read buffer. -/
theorem Fiu.complete_allowed_rd (hv : b.prtCheck cfg.forbidTable l = .allow) {q : Reg} (hc : q ≠ .umaCts) (hq : ∀ k, q ≠ .umaDr k) :
    (b.complete inst l false).rd q = b.rd q := by
  rw [Fiu.complete_allowed inst hv, Fiu.endTx_rd _ hc]
  exact b.setReadBuffer_rd _ _ _ _ hq

/-- The bytes of the read phase stand in the read buffer (R176). -/
theorem Fiu.complete_allowed_readByte (hv : b.prtCheck cfg.forbidTable l = .allow) (hr : l.rdatsiz ≤ 16) {j : Nat}
    (hj : j < l.rdatsiz) : (b.complete inst l false).readByte j = (b.readPhase inst l).getD j 0#8 := by
  have word : (b.complete inst l false).rd (.umaDr (dataIndex (j / 4))) = packWord (b.readBuffer inst l) (dataIndex (j / 4)).val := by
    rw [Fiu.complete_allowed inst hv, Fiu.endTx_rd _ (q := .umaDr (dataIndex (j / 4))) nofun]
    exact b.drive_rd_data inst l _
  rw [Fiu.readByte, word, wordByte_packWord _ _ (Nat.mod_lt _ (by decide)), dataIndex_place (by omega), Fiu.readBuffer_getD b inst l hj]

/-- The wire log after an allowed transaction (R173, R174). -/
theorem Fiu.complete_allowed_wire (hv : b.prtCheck cfg.forbidTable l = .allow) :
    (b.complete inst l false).wire = b.wireBeforeRead l ++ phaseEvent .rdata l.rdbpck (b.readPhase inst l)
      ++ pinEvents (b.levelsDriving l) (pinLevels (b.rd .prtCfg) (b.rd .umaCts)) := by
  rw [Fiu.complete_allowed inst hv]
  rfl

/-- The wire log when the read phase of a transaction begins, its chip select not forced. -/
theorem Fiu.wireBeforeRead_eq (legal : LegalDescr l) (hd : l.dev < 4) (hw : l.wdata.length = 16)
    (free : csForced (b.rd .prtCfg) l.dev = none) (raw : csRaw (b.rd .umaCts) l.dev = !l.held) :
    b.wireBeforeRead l =
      b.wire ++ (if l.held then [] else [.csLow l.dev]) ++ phasesOf { l with rdatsiz := 0 } [] := by
  rw [Fiu.wireBeforeRead, outPhases_eq legal hw]
  cases held : l.held with
  | true =>
    obtain ⟨before, -⟩ := Fiu.pinEvents_still (b := b) (l := l) (.inl held)
    rw [before]
    rfl
  | false =>
    obtain ⟨before, -⟩ := Fiu.pinEvents_frame hd held free raw
    rw [before]
    rfl

/-- A device whose chip select is not forced answers the read phase (R176, R230; 10_state.md R52). -/
theorem Fiu.readPhase_selected (hd : l.dev < 4) (free : csForced (b.rd .prtCfg) l.dev = none)
    (raw : csRaw (b.rd .umaCts) l.dev = !l.held) :
    b.readPhase inst l = (List.range l.rdatsiz).map (Config.devByte inst l.dev (b.wireBeforeRead l) b.draws) := by
  have selected : b.selected inst l = true := by
    rw [Fiu.selected, Fiu.csPin_driving free raw]
    simp [devOk, hd]
  simp only [Fiu.readPhase, selected, if_true]

end Driven

/-- Settles O33, with the read phase of the model as the bytes `r`. -/
theorem engineDrivesAllowedTransaction : Obligations.EngineDrivesAllowedTransaction := by
  intro s inst l hm hi he latched allowed
  obtain ⟨legal, hd, hw, raw⟩ := Fiu.latchOk_busy he latched
  have raw := raw.resolve_left nofun
  have hr : l.rdatsiz ≤ 16 := by
    obtain ⟨-, -, -, -, -, -, -, rdatsiz⟩ := legal
    exact rdatsiz
  have phases := phases_eq legal hw (Fiu.length_readPhase (b := s.fiu inst) (inst := inst) (l := l))
  refine ⟨_, (s.fiu inst).readPhase inst l, exec_engineComplete_busy hm hi he, Fiu.length_readPhase, ?_⟩
  rw [State.fiu_setFiu_same s _ hi, Fiu.complete_allowed_wire allowed]
  refine ⟨fun j => Fiu.complete_allowed_readByte allowed hr, Fiu.complete_allowed_rd allowed nofun nofun, fun still => ?noFrame,
    fun held free => ?frame, fun free => ⟨(s.fiu inst).draws, ?device⟩⟩
  case noFrame =>
    obtain ⟨before, after⟩ := Fiu.pinEvents_still still
    rw [Fiu.wireBeforeRead, before, after, ← phases]
    simp only [List.append_nil, List.append_assoc]
  case frame =>
    obtain ⟨before, after⟩ := Fiu.pinEvents_frame hd held free raw
    rw [Fiu.wireBeforeRead, before, after, ← phases]
    simp only [List.append_assoc]
  case device =>
    rw [Fiu.readPhase_selected hd free raw, Fiu.wireBeforeRead_eq legal hd hw free raw]

/-! ### A rejected and a disturbed transaction (R177, R178) -/

/-- What a rejected transaction leaves: `VIOL` is 1, `PRT_CFG` and the wire log are as they were (R177). -/
theorem Fiu.complete_rejected_spec {b : Fiu} {l : Descr} (inst : Nat) (hv : b.prtCheck cfg.forbidTable l = .reject) :
    (b.complete inst l false).wire = b.wire ∧ (b.complete inst l false).bit .stsViol = true
      ∧ (b.complete inst l false).rd .prtCfg = b.rd .prtCfg := by
  refine ⟨?wire, ?viol, b.complete_rd inst l false (by decide) (by decide) nofun⟩
  case wire =>
    rw [Fiu.complete_rejected inst hv]
    rfl
  case viol =>
    rw [Fiu.bit, Fiu.complete_rejected inst hv, Fiu.endTx_rd _ (by decide)]
    show flag .stsViol (((b.drawReadBuffer inst).setReg .prtSts _).rd .prtSts) = true
    rw [Fiu.rd_setReg_same, flag_putField_same rfl]
    rfl

/-- Settles O34, from what a rejected transaction leaves. -/
theorem engineRejectsForbiddenTransaction : Obligations.EngineRejectsForbiddenTransaction := by
  intro s inst l hm hi he rejected
  obtain ⟨wire, viol, prtCfg⟩ := Fiu.complete_rejected_spec inst rejected
  refine ⟨_, exec_engineComplete_busy hm hi he, ?_⟩
  rw [State.fiu_setFiu_same s _ hi]
  refine ⟨wire, viol, ?request, Fiu.complete_get _ inst l false (.inr (.inl rfl))⟩
  show (((s.fiu inst).complete inst l false).bit .stsViol && flag .prtVie (((s.fiu inst).complete inst l false).rd .prtCfg)) = _
  rw [viol, prtCfg, Bool.true_and]
  rfl

/-- Settles O35, from the read buffer drawn and the event appended. -/
theorem engineEndsDisturbedTransaction : Obligations.EngineEndsDisturbedTransaction := by
  intro s inst l hm hi he
  refine ⟨_, exec_engineComplete_busy hm hi he, ?_⟩
  rw [State.fiu_setFiu_same s _ hi, Fiu.complete_disturbed]
  refine ⟨rfl, ?status, rfl⟩
  rw [Fiu.endTx_rd _ (by decide)]
  exact (s.fiu inst).setReadBuffer_rd _ _ _ _ nofun

end Sys2Proof.Machine
end

section
/-! SUPPORT. The statements of 42_uma_engine.md, sections 4 and 5: `uma_read` (R185, R186, R192) and `uma_write` (R188 to R192), from
the steps that they share to the end of their waits. -/

namespace Sys2Proof.Machine

/-! ### Where a request stands after some of its steps -/

/-- After `n` steps from `s` request `i` stands at `p`, and instance `inst` is `b`; the rest of the machine is as it was in `s0`. -/
def Runs (inst : Nat) (s0 : State) (i : Instr) (s : State) (n : Nat) (p : Pos) (b : Fiu) : Prop :=
  ∃ t, execN n i s = .next t ∧ t.At i p ∧ On inst s0 t b

section Runs

variable {inst n : Nat} {s0 s t : State} {i : Instr} {p q : Pos} {b c : Fiu}

/-- Some steps, then one more. -/
theorem execN_then {u : State} (h : execN n i s = .next t) (e : exec i t = .next u) : execN (n + 1) i s = .next u :=
  (execN_add n 1 i h).trans ((execN_one i t).trans e)

/-- The first step of a request. -/
theorem Runs.first {x : State} (e : exec i s = goTo i q x) (h : On inst s0 x c) : Runs inst s0 i s 1 q c := by
  obtain ⟨t, et, within, on⟩ := h.goTo i q
  exact ⟨t, (execN_one i s).trans (e.trans et), within, on⟩

/-- A step after which the request goes on. -/
theorem Runs.step (h : Runs inst s0 i s n p b)
    (e : ∀ t, t.At i p → On inst s0 t b → ∃ x, exec i t = goTo i q x ∧ On inst s0 x c) : Runs inst s0 i s (n + 1) q c := by
  obtain ⟨t, et, within, on⟩ := h
  obtain ⟨x, ex, on⟩ := e t within on
  obtain ⟨u, eu, within, on⟩ := on.goTo i q
  exact ⟨u, execN_then et (ex.trans eu), within, on⟩

/-- The step that ends the request. -/
theorem Runs.finish {res : Result} (h : Runs inst s0 i s n p b)
    (e : ∀ t, t.At i p → On inst s0 t b → ∃ x, exec i t = Machine.finish res x ∧ On inst s0 x c) :
    ∃ u, execN (n + 1) i s = .next u ∧ s0.Ended u res ∧ s0.SameOthers inst u ∧ u.fiu inst = c := by
  obtain ⟨t, et, within, on⟩ := h
  obtain ⟨x, ex, on⟩ := e t within on
  obtain ⟨u, eu, ended⟩ := on.finish res
  exact ⟨u, execN_then et (ex.trans eu), ended⟩

/-- A step without an access. -/
theorem Runs.stay (h : Runs inst s0 i s n p b) (e : ∀ {t}, t.At i p → exec i t = goTo i q t) :
    Runs inst s0 i s (n + 1) q b :=
  h.step fun _ within on => ⟨_, e within, on⟩

/-- A field read that is a step of its own; the next position may hold its value. -/
theorem Runs.rdf {f : Field} {q : Word → Pos} (h : Runs inst s0 i s n p b) (hf : ∀ k, fieldReg f ≠ .umaDr k)
    (e : ∀ {t}, t.At i p → exec i t = goTo i (q (t.rdf inst f).1) (t.rdf inst f).2) :
    Runs inst s0 i s (n + 1) (q (b.get f)) b :=
  h.step fun _ within on => by
    obtain ⟨value, on⟩ := on.rdf hf
    exact ⟨_, value ▸ e within, on⟩

/-- A field write that sets no mark. -/
theorem Runs.wrf {f : Field} {v : Word} (h : Runs inst s0 i s n p b) (hi : inst < Config.nFiu) (hf : ∀ k, fieldReg f ≠ .umaDr k)
    (e : ∀ {t}, t.At i p → exec i t = goTo i q (t.wrf inst f v)) (hm : (b.wrf f v).unmodelled = b.unmodelled) :
    Runs inst s0 i s (n + 1) q (b.wrf f v) :=
  h.step fun _ within on => ⟨_, e within, on.wrf hi hf hm⟩

/-- A write of a transaction register with the engine idle. -/
theorem Runs.store {r : Reg} {v : Word} (h : Runs inst s0 i s n p b) (hi : inst < Config.nFiu) (idle : b.eng = .idle)
    (hr : r = .umaCfg ∨ r = .umaCmd ∨ r = .umaAddr ∨ ∃ k, r = .umaDw k)
    (e : ∀ {t}, t.At i p → exec i t = goTo i q (t.hostWrite inst r v)) :
    Runs inst s0 i s (n + 1) q (b.setReg r (v &&& regMask r)) :=
  h.step fun _ within on => by
    have stored := Fiu.busWrite_uma (Fiu.busy_false.2 idle) hr v
    exact ⟨_, e within, stored ▸ on.hostWrite hi (by rw [stored]; rfl)⟩

end Runs

/-! ### The instance while a transaction is prepared and armed -/

/-- Instance `c` is `b` with the operands of a transaction stored in the four transaction registers: the engine is idle. -/
structure Fiu.Prepared (b : Fiu) (dev : Nat) (addr : Word) (cmd : Byte) (word : Word) (c : Fiu) : Prop where
  idle : c.eng = .idle
  done : c.DoneBit
  devNum : c.get .ctsDevNum = nat32 dev
  swCs : c.get .ctsSwCs = b.get .ctsSwCs
  addr : c.rd .umaAddr = addr
  cmd : c.rd .umaCmd = cmd.setWidth 32
  cfg : c.rd .umaCfg = word &&& regMask .umaCfg
  regs : ∀ q, q ≠ .umaCts → q ≠ .umaAddr → q ≠ .umaCmd → q ≠ .umaCfg → c.rd q = b.rd q
  unmodelled : c.unmodelled = b.unmodelled
  fourb : c.fourb = b.fourb

/-- Instance `c` is `b` with transaction `l` running. -/
structure Fiu.Armed (b : Fiu) (l : Descr) (c : Fiu) : Prop where
  eng : c.eng = .busy l false
  done : c.DoneBit
  rdyst : c.bit .ctsRdyst = false
  regs : ∀ q, q ≠ .umaCts → q ≠ .umaAddr → q ≠ .umaCmd → q ≠ .umaCfg → c.rd q = b.rd q
  unmodelled : c.unmodelled = b.unmodelled
  fourb : c.fourb = b.fourb

/-- The registers of a transaction stored one after the other, its device first. -/
def Fiu.prepare (b : Fiu) (dev : Nat) (addr : Word) (cmd : Byte) (word : Word) : Fiu :=
  (((b.wrf .ctsDevNum (nat32 dev)).setReg .umaAddr (addr &&& regMask .umaAddr)).setReg .umaCmd
    (cmd.setWidth 32 &&& regMask .umaCmd)).setReg .umaCfg (word &&& regMask .umaCfg)

/-- The done bit stays right after a store of a register other than `UMA_CTS`. -/
theorem Fiu.doneBit_setReg {b : Fiu} (h : b.DoneBit) {r : Reg} (hr : r ≠ .umaCts) (v : Word) : (b.setReg r v).DoneBit := by
  have word : (b.setReg r v).rd .umaCts = b.rd .umaCts := b.rd_setReg_ne v hr.symm
  show flag .ctsExecDone ((b.setReg r v).rd .umaCts) = b.busy
  rw [word]
  exact h

theorem Fiu.get_setReg_ne (b : Fiu) {f : Field} {r : Reg} (h : fieldReg f ≠ r) (v : Word) : (b.setReg r v).get f = b.get f := by
  rw [Fiu.get, Fiu.get, b.rd_setReg_ne v h]

/-- A field write of `UMA_CTS` other than the trigger on an idle engine: the engine stays idle, no mark is set, and the other
registers and the addressing flags are kept. -/
theorem Fiu.wrf_cts_idle {b : Fiu} (idle : b.eng = .idle) (done : b.DoneBit) {f : Field} (hf : fieldReg f = .umaCts)
    (hne : f ≠ .ctsExecDone) (v : Word) :
    (b.wrf f v).eng = .idle ∧ (b.wrf f v).DoneBit ∧ (b.wrf f v).unmodelled = b.unmodelled ∧ (b.wrf f v).fourb = b.fourb
      ∧ ∀ q, q ≠ .umaCts → (b.wrf f v).rd q = b.rd q := by
  have apart := cts_apart hf (g := .ctsExecDone) rfl hne.symm
  obtain ⟨regs, busy, mark, eng, -⟩ := Fiu.wrf_cts done hf apart v
  obtain ⟨fourb, -⟩ := b.busWrite_hidden (fieldReg f) (b.rmw f v)
  have execDone := Fiu.execDone_wrf hf (Fiu.rmw_execDone done hf apart v)
  exact ⟨eng (Fiu.busy_false.2 idle), execDone.trans (done.trans busy.symm), mark, fourb, fun q hq => (regs q).trans (if_neg hq)⟩

theorem nat32_devNum {dev : Nat} (hd : dev < 4) : nat32 dev &&& lowMask (fieldWidth .ctsDevNum) = nat32 dev :=
  and_lowMask_of_fits (nat32_fits hd)

/-- The registers stored make the transaction ready to be armed. -/
theorem Fiu.prepared_prepare {b : Fiu} (idle : b.eng = .idle) (done : b.DoneBit) {dev : Nat} (hd : dev < 4) (addr : Word) (cmd : Byte)
    (word : Word) : b.Prepared dev addr cmd word (b.prepare dev addr cmd word) := by
  obtain ⟨eng, doneBit, mark, fourb, others⟩ := Fiu.wrf_cts_idle idle done (f := .ctsDevNum) rfl nofun (nat32 dev)
  obtain ⟨devNum, kept, -⟩ := Fiu.wrf_cts_fields done (f := .ctsDevNum) (.inl rfl) (nat32 dev)
  have cts : ∀ f, fieldReg f = .umaCts → (b.prepare dev addr cmd word).get f = (b.wrf .ctsDevNum (nat32 dev)).get f := by
    intro f hf
    simp only [Fiu.prepare, Fiu.get, hf, Fiu.rd_setReg, reduceCtorEq, if_false]
  refine ⟨?idle, ?done, (cts _ rfl).trans (devNum.trans (nat32_devNum hd)), (cts _ rfl).trans (kept .ctsSwCs rfl nofun nofun),
    ?addr, ?cmd, Fiu.rd_setReg_same _ _ _, fun q hcts haddr hcmd hcfg => ?regs, ?mark, ?fourb⟩
  case idle => simpa only [Fiu.prepare, Fiu.setReg_eng] using eng
  case done =>
    have addrStored := Fiu.doneBit_setReg doneBit (r := .umaAddr) nofun (addr &&& regMask .umaAddr)
    have cmdStored := Fiu.doneBit_setReg addrStored (r := .umaCmd) nofun (cmd.setWidth 32 &&& regMask .umaCmd)
    exact Fiu.doneBit_setReg cmdStored (r := .umaCfg) nofun (word &&& regMask .umaCfg)
  case mark => simpa only [Fiu.prepare, Fiu.setReg_unmodelled] using mark
  case fourb => simpa only [Fiu.prepare, Fiu.setReg_fourb] using fourb
  case addr => simp [Fiu.prepare, Fiu.rd_setReg, addr_and_mask]
  case cmd => simp [Fiu.prepare, Fiu.rd_setReg, cmd_and_mask]
  case regs => simp only [Fiu.prepare, Fiu.rd_setReg, haddr, hcmd, hcfg, if_false, others q hcts]

/-- The bytes of the write buffer are those of its four registers. -/
theorem Fiu.writeByte_congr {b c : Fiu} (h : ∀ k, c.rd (.umaDw k) = b.rd (.umaDw k)) : c.writeByte = b.writeByte := by
  funext j
  rw [Fiu.writeByte, Fiu.writeByte, h]

section Prepared

variable {b c : Fiu} {dev : Nat} {addr : Word} {cmd : Byte} {word : Word}

/-- A word of the write buffer stored in both instances. -/
theorem Fiu.Prepared.setDw (h : b.Prepared dev addr cmd word c) (k : Fin 4) (v : Word) :
    (b.setReg (.umaDw k) v).Prepared dev addr cmd word (c.setReg (.umaDw k) v) where
  idle := h.idle
  done := Fiu.doneBit_setReg h.done (by nofun) v
  devNum := (c.get_setReg_ne (by nofun) v).trans h.devNum
  swCs := (c.get_setReg_ne (by nofun) v).trans (h.swCs.trans (b.get_setReg_ne (by nofun) v).symm)
  addr := (c.rd_setReg_ne v (by nofun)).trans h.addr
  cmd := (c.rd_setReg_ne v (by nofun)).trans h.cmd
  cfg := (c.rd_setReg_ne v (by nofun)).trans h.cfg
  regs q hcts haddr hcmd hcfg := by
    rw [Fiu.rd_setReg, Fiu.rd_setReg, h.regs q hcts haddr hcmd hcfg]
  unmodelled := h.unmodelled
  fourb := h.fourb

/-- A field write of `RDYST` keeps the other fields of `UMA_CTS`. -/
theorem Fiu.wrf_rdyst_get (v : Word) {f : Field} (hf : f = .ctsDevNum ∨ f = .ctsSwCs) :
    (c.wrf .ctsRdyst v).get f = c.get f := by
  obtain ⟨devNum, swCs, -⟩ := c.writeCts_fields (c.rmw .ctsRdyst v)
  have kept : ∀ g, fieldsApart .ctsRdyst g = true → getField g (c.rmw .ctsRdyst v) = getField g (c.rd .umaCts) :=
    fun g apart => getField_putField_apart apart v _
  obtain rfl | rfl := hf
  · exact devNum.trans (kept _ (by decide))
  · exact swCs.trans (kept _ (by decide))

/-- `RDYST` cleared before the trigger (R188 S7). -/
theorem Fiu.Prepared.wrf_rdyst (h : b.Prepared dev addr cmd word c) (v : Word) :
    b.Prepared dev addr cmd word (c.wrf .ctsRdyst v) := by
  obtain ⟨eng, doneBit, mark, fourb, others⟩ := Fiu.wrf_cts_idle h.idle h.done (f := .ctsRdyst) rfl nofun v
  exact {
    idle := eng
    done := doneBit
    devNum := (Fiu.wrf_rdyst_get v (.inl rfl)).trans h.devNum
    swCs := (Fiu.wrf_rdyst_get v (.inr rfl)).trans h.swCs
    addr := (others _ (by nofun)).trans h.addr
    cmd := (others _ (by nofun)).trans h.cmd
    cfg := (others _ (by nofun)).trans h.cfg
    regs := fun q hcts haddr hcmd hcfg => (others q hcts).trans (h.regs q hcts haddr hcmd hcfg)
    unmodelled := mark.trans h.unmodelled
    fourb := fourb.trans h.fourb }

/-- The trigger arms the transaction that the registers hold (R48, R185 S6, R188 S9). -/
theorem Fiu.Prepared.arm {cm ad wr du rd : Nat} {wc wa ww wd wx : Option Width}
    (h : b.Prepared dev addr cmd (packUmaCfg cm ad wr du rd wc wa ww wd wx) c) (hd : dev < 4) (hcm : cm ≤ 1)
    (had : ad = 0 ∨ ad = 3 ∨ ad = 4) (hwr : wr ≤ 16) (hdu : du ≤ 7) (hrd : rd ≤ 16)
    (free : ∀ k < 2, csForced (b.rd .prtCfg) k ≠ some false) :
    b.Armed
      { dev := dev, held := !(b.bit .ctsSwCs), cmdsiz := cm, addsiz := ad, wdatsiz := wr, dbsiz := du, rdatsiz := rd
        cmbpck := optCode wc, adbpck := optCode wa, wdbpck := optCode ww, dbpck := optCode wd, rdbpck := optCode wx
        cmd := cmd, addr := addr, wdata := (List.range 16).map b.writeByte } (c.wrf .ctsExecDone 1#32) := by
  have devNum : (c.get .ctsDevNum).toNat = dev := by
    rw [h.devNum, nat32, BitVec.toNat_ofNat, Nat.mod_eq_of_lt (by omega)]
  have swCs : c.bit .ctsSwCs = b.bit .ctsSwCs := congrArg (· == 1#32) h.swCs
  have bytes : c.writeByte = b.writeByte := Fiu.writeByte_congr fun k => h.regs (.umaDw k) nofun nofun nofun nofun
  have prtCfg : c.rd .prtCfg = b.rd .prtCfg := h.regs .prtCfg nofun nofun nofun nofun
  have latched := descrOf_packed (by omega) (by omega) (by omega) (by omega) (by omega) h.cfg h.cmd h.addr dev (!(b.bit .ctsSwCs))
  have legal : LegalDescr (descrOf c (c.get .ctsDevNum).toNat (!(c.bit .ctsSwCs))) := by
    rw [devNum, swCs, latched]
    exact ⟨fun _ => optCode_le _, fun _ => optCode_le _, fun _ => optCode_le _, fun _ => optCode_le _, fun _ => optCode_le _,
      had, hwr, hrd⟩
  obtain ⟨eng, others, mark, rdyst, -, -, -, -, doneBit⟩ := Fiu.arm h.idle legal (prtCfg ▸ free)
  rw [devNum, swCs, latched, bytes] at eng
  obtain ⟨fourb, -⟩ := c.busWrite_hidden .umaCts (c.rmw .ctsExecDone 1#32)
  exact ⟨eng, doneBit, rdyst, fun q hcts haddr hcmd hcfg => (others q hcts).trans (h.regs q hcts haddr hcmd hcfg),
    mark.trans h.unmodelled, fourb.trans h.fourb⟩

theorem Fiu.Armed.busy {l : Descr} (h : b.Armed l c) : c.busy = true := by simp only [Fiu.busy, h.eng]

/-- The write buffer stands as it did. -/
theorem Fiu.Armed.writeByte {l : Descr} (h : b.Armed l c) : c.writeByte = b.writeByte :=
  Fiu.writeByte_congr fun k => h.regs (.umaDw k) nofun nofun nofun nofun

/-- The trigger sets no mark. -/
theorem Fiu.Armed.sets_no_mark {l : Descr} (h : b.Armed l (c.wrf .ctsExecDone 1#32)) (hc : c.unmodelled = b.unmodelled) :
    (c.wrf .ctsExecDone 1#32).unmodelled = c.unmodelled := h.unmodelled.trans hc.symm

end Prepared

/-! ### The steps before the data (R185 and R188, S1 to S5) -/

/-- The positions of the two requests up to their waits. -/
def umaPos (l : Label) (asz : Nat) (first : Word) (mode : Option ReadMode) : Pos :=
  { startPos with label := l, asz := asz, first := first, mode := mode }

/-- Request `i` begins with the steps S1 to S5 that `uma_read` and `uma_write` share; `word` gives its `UMA_CFG`. -/
structure PreparesTx (i : Instr) (inst dev : Nat) (cmd : Byte) (addr : Word) (ap : AddressPresent)
    (word : Option ReadMode → Nat → Word) : Prop where
  device : ∀ {s}, s.Ready → exec i s =
    goTo i (umaPos (.s 3 0) (resolveAddsiz ((s.fiu inst).fourbOf dev) ap) 0#32 none) (s.wrf inst .ctsDevNum (nat32 dev))
  address : ∀ {s asz}, s.At i (umaPos (.s 3 0) asz 0#32 none) → exec i s =
    goTo i (umaPos (.s 4 0) asz 0#32 none) (s.hostWrite inst .umaAddr addr)
  command : ∀ {s asz}, s.At i (umaPos (.s 4 0) asz 0#32 none) → exec i s =
    goTo i (umaPos (.s 5 0) asz 0#32 none) (s.hostWrite inst .umaCmd (cmd.setWidth 32))
  acctype : ∀ {s asz}, s.At i (umaPos (.s 5 0) asz 0#32 none) → exec i s =
    goTo i (umaPos (.s 5 1) asz (s.rdf inst .drdAcctype).1 none) (s.rdf inst .drdAcctype).2
  dbw : ∀ {s asz acc}, s.At i (umaPos (.s 5 1) asz acc none) → exec i s =
    goTo i (umaPos (.s 5 2) asz acc (modeOfPair acc (s.rdf inst .drdDbw).1)) (s.rdf inst .drdDbw).2
  config : ∀ {s asz acc m}, s.At i (umaPos (.s 5 2) asz acc m) → exec i s =
    goTo i (umaPos (.s 6 0) asz acc m) (s.hostWrite inst .umaCfg (word m asz))

/-- The read mode of an instance (41_direct_access.md R156). -/
def Fiu.readMode (b : Fiu) : Option ReadMode := modeOfPair (b.get .drdAcctype) (b.get .drdDbw)

/-- Six steps store the operands. -/
theorem PreparesTx.runs {i : Instr} {inst dev : Nat} {cmd : Byte} {addr : Word} {ap : AddressPresent}
    {word : Option ReadMode → Nat → Word} (h : PreparesTx i inst dev cmd addr ap word) {s : State} (hs : s.Ready)
    (hi : inst < Config.nFiu) (idle : (s.fiu inst).eng = .idle) (done : (s.fiu inst).DoneBit) :
    Runs inst s i s 6
      (umaPos (.s 6 0) (resolveAddsiz ((s.fiu inst).fourbOf dev) ap) ((s.fiu inst).get .drdAcctype) (s.fiu inst).readMode)
      ((s.fiu inst).prepare dev addr cmd (word (s.fiu inst).readMode (resolveAddsiz ((s.fiu inst).fourbOf dev) ap))) := by
  obtain ⟨eng, -, mark, -, others⟩ := Fiu.wrf_cts_idle idle done (f := .ctsDevNum) rfl nofun (nat32 dev)
  have device := Runs.first (h.device hs) ((On.start hs.1).wrf hi nofun mark)
  have address := device.store hi eng (.inr (.inr (.inl rfl))) h.address
  have command := address.store hi eng (.inr (.inl rfl)) h.command
  have mode := (command.rdf (f := .drdAcctype) (q := fun acc => umaPos _ _ acc _) nofun h.acctype).rdf (f := .drdDbw)
    (q := fun dbw => umaPos _ _ _ (modeOfPair _ dbw)) nofun h.dbw
  have config := mode.store hi eng (.inl rfl) h.config
  have drdCfg : ∀ f, fieldReg f = .drdCfg → Fiu.get (((Fiu.wrf (s.fiu inst) .ctsDevNum (nat32 dev)).setReg .umaAddr
      (addr &&& regMask .umaAddr)).setReg .umaCmd (cmd.setWidth 32 &&& regMask .umaCmd)) f = (s.fiu inst).get f := by
    intro f hf
    simp only [Fiu.get, hf, Fiu.rd_setReg, reduceCtorEq, if_false, others .drdCfg nofun]
  rw [drdCfg .drdAcctype rfl, drdCfg .drdDbw rfl] at config
  exact config

/-- The address size of a transaction (R179). -/
theorem resolveAddsiz_eq (fourb : Bool) (ap : AddressPresent) :
    resolveAddsiz fourb ap = if ap = .absent then 0 else if fourb then 4 else 3 := by
  cases ap <;> rfl

theorem resolveAddsiz_legal (fourb : Bool) (ap : AddressPresent) :
    resolveAddsiz fourb ap = 0 ∨ resolveAddsiz fourb ap = 3 ∨ resolveAddsiz fourb ap = 4 := by
  cases ap <;> cases fourb <;> decide

/-- A request on a device that moves at most 16 bytes, past its checks, at its start or where it stands. -/
theorem hostStep_burst_at {s : State} {i : Instr} {p : Pos} {inst dev size : Nat} {out : Out} {body : Pos → Out} (hi : inst < Config.nFiu)
    (hd : dev < 4) (hz : size ≤ 16) (h : s.Ready ∧ p = startPos ∨ s.At i p) :
    hostStep i s (fun p => if !instOk inst then raiseHalt .instanceIndex s
      else if !devOk inst dev then raiseHalt .deviceIndex s else if Config.burstMax < size then out else body p) = body p := by
  have known : (!devOk inst dev) ≠ true := by simp [devOk, hd]
  have small : ¬ Config.burstMax < size := Nat.not_lt.2 hz
  exact (hostStep_instOk_at hi h).trans ((if_neg known).trans (if_neg small))

/-! ### The engine completes, and the wait of the request is over -/

/-- The engine ends the transaction of a request that waits: the request stands where it stood, and the engine is idle. -/
theorem On.engine_completes {inst : Nat} {s0 u : State} {b c : Fiu} {i : Instr} {p : Pos} {l : Descr} (h : On inst s0 u c)
    (within : u.At i p) (hi : inst < Config.nFiu) (armed : b.Armed l c) :
    ∃ v d, exec (.engineComplete inst) u = .next v ∧ v.At i p ∧ On inst s0 v d ∧ d.eng = .idle ∧ d.DoneBit := by
  obtain ⟨v, e, on, seq⟩ := h.complete hi armed.eng
  obtain ⟨eng, done, -⟩ := c.complete_spec inst l false
  exact ⟨v, _, e, ⟨on.live, seq.trans within.2⟩, on, eng, done⟩

/-! ### `uma_read` (R185, R186, R192) -/

section UmaRead

variable {inst dev size : Nat} {cmd : Byte} {addr timeout : Word} {ap : AddressPresent}

/-- The steps of `uma_read` up to its configuration. -/
theorem umaRead_prepares (hi : inst < Config.nFiu) (hd : dev < 4) (hz : size ≤ 16) :
    PreparesTx (.umaRead inst dev cmd addr ap size timeout) inst dev cmd addr ap (fun m asz => readCfg m asz size) where
  device := fun hs => hostStep_burst_at hi hd hz (.inl ⟨hs, rfl⟩)
  address := fun h => hostStep_burst_at hi hd hz (.inr h)
  command := fun h => hostStep_burst_at hi hd hz (.inr h)
  acctype := fun h => hostStep_burst_at hi hd hz (.inr h)
  dbw := fun h => hostStep_burst_at hi hd hz (.inr h)
  config := fun h => hostStep_burst_at hi hd hz (.inr h)

/-- What `uma_read` does when its wait is over (R185 S7, R186). -/
def umaReadWaited (i : Instr) (size : Nat) (p : Pos) (st : Status) (s : State) : Out :=
  match st with
  | .ok => if harvestDue size 0 then goTo i { p with label := .s 8 0 } s else finish (.data .ok []) s
  | st => finish (.data st []) s

/-- The steps of `uma_read` after the registers are stored (R185 S6 to S8). -/
structure UmaReadEnds (i : Instr) (inst size : Nat) (timeout : Word) : Prop where
  trigger : ∀ {s asz acc m}, s.At i (umaPos (.s 6 0) asz acc m) → exec i s =
    goTo i (umaPos (.s 7 0) asz acc m) (s.wrf inst .ctsExecDone 1#32)
  wait : ∀ {s asz acc m}, s.At i (umaPos (.s 7 0) asz acc m) → exec i s =
    afterWait (s.waitEnter inst timeout) (goTo i (umaPos (.sp 7) asz acc m)) (umaReadWaited i size (umaPos (.s 7 0) asz acc m))
  poll : ∀ {s asz acc m}, s.At i (umaPos (.sp 7) asz acc m) → exec i s =
    afterWait (s.waitPoll inst) (goTo i (umaPos (.sp 7) asz acc m)) (umaReadWaited i size (umaPos (.sp 7) asz acc m))
  data : ∀ {s asz acc m k ws}, s.At i { umaPos (.s 8 k) asz acc m with words := ws } → exec i s =
    if harvestDue size (k + 1) then
      goTo i { umaPos (.s 8 (k + 1)) asz acc m with words := ws ++ [(s.hostRead inst (.umaDr (dataIndex k))).1] }
        (s.hostRead inst (.umaDr (dataIndex k))).2
    else finish (.data .ok (unpackBytes (ws ++ [(s.hostRead inst (.umaDr (dataIndex k))).1]) size))
      (s.hostRead inst (.umaDr (dataIndex k))).2

theorem umaRead_ends (hi : inst < Config.nFiu) (hd : dev < 4) (hz : size ≤ 16) :
    UmaReadEnds (.umaRead inst dev cmd addr ap size timeout) inst size timeout where
  trigger := fun h => hostStep_burst_at hi hd hz (.inr h)
  wait := fun h => hostStep_burst_at hi hd hz (.inr h)
  poll := fun h => hostStep_burst_at hi hd hz (.inr h)
  data := fun h => hostStep_burst_at hi hd hz (.inr h)

/-- A data register is read where a byte of it is due (R186). -/
theorem harvestDue_iff {n k : Nat} (hn : n ≤ 16) : harvestDue n k = true ↔ k < (n + 3) / 4 := by
  simp only [harvestDue, Bool.and_eq_true, decide_eq_true_eq]
  omega

/-- The words of the first `k` data registers. -/
def Fiu.readWords (b : Fiu) (k : Nat) : List Word := (List.range k).map fun j => b.rd (.umaDr (dataIndex j))

theorem Fiu.readWords_succ (b : Fiu) (k : Nat) : b.readWords (k + 1) = b.readWords k ++ [b.rd (.umaDr (dataIndex k))] := by
  simp [Fiu.readWords, List.range_succ]

/-- The harvest reads one data register in each step, and the last one ends the request with the bytes (R186). -/
theorem UmaReadEnds.harvest {i : Instr} (h : UmaReadEnds i inst size timeout) (hz : size ≤ 16) {s0 s : State} {n asz : Nat} {acc : Word}
    {m : Option ReadMode} {c : Fiu} (idle : c.eng = .idle) (due : 0 < size)
    (start : Runs inst s0 i s n (umaPos (.s 8 0) asz acc m) c) :
    ∃ t, execN (n + (size + 3) / 4) i s = .next t ∧ s0.Ended t (.data .ok (unpackBytes (c.readWords ((size + 3) / 4)) size))
      ∧ s0.SameOthers inst t ∧ t.fiu inst = c := by
  have read : ∀ {t : State} (k : Nat), On inst s0 t c → (t.hostRead inst (.umaDr (dataIndex k))).1 = c.rd (.umaDr (dataIndex k))
      ∧ On inst s0 (t.hostRead inst (.umaDr (dataIndex k))).2 c :=
    fun k on => on.hostRead (.inl (Fiu.busy_false.2 idle))
  have reads : ∀ k, k < (size + 3) / 4 → Runs inst s0 i s (n + k) { umaPos (.s 8 k) asz acc m with words := c.readWords k } c := by
    intro k
    induction k with
    | zero => exact fun _ => start
    | succ k ih =>
      intro hk
      refine (ih (by omega)).step fun t within on => ?_
      obtain ⟨value, on⟩ := read k on
      refine ⟨_, ?_, on⟩
      rw [h.data within, if_pos ((harvestDue_iff hz).2 hk), value, c.readWords_succ]
  obtain ⟨k, hk⟩ : ∃ k, (size + 3) / 4 = k + 1 := ⟨(size + 3) / 4 - 1, by omega⟩
  rw [hk]
  refine (reads k (by omega)).finish fun t within on => ?_
  obtain ⟨value, on⟩ := read k on
  have last : ¬ harvestDue size (k + 1) = true := fun due => by
    have := (harvestDue_iff hz).1 due
    omega
  refine ⟨_, ?_, on⟩
  rw [h.data within, if_neg last, value, c.readWords_succ]

/-- When the engine has completed and the bound permits a poll, the wait is over after one poll, and the bytes follow. -/
theorem UmaReadEnds.completes {i : Instr} (h : UmaReadEnds i inst size timeout) (hi : inst < Config.nFiu) (hz : size ≤ 16) {s0 v : State}
    {asz : Nat} {acc : Word} {m : Option ReadMode} {d : Fiu} (within : v.At i (umaPos (.s 7 0) asz acc m)) (on : On inst s0 v d)
    (idle : d.eng = .idle) (done : d.DoneBit) (polls : timeout = 0#32 ∨ Config.pollPeriodUs ≤ timeout.toNat) :
    ∃ t, execN (1 + (size + 3) / 4) i v = .next t ∧ s0.Ended t (.data .ok (unpackBytes (d.readWords ((size + 3) / 4)) size))
      ∧ s0.SameOthers inst t ∧ t.fiu inst = { d with sup := .off } := by
  obtain ⟨w, waited, on⟩ := on.waitEnter hi done (Fiu.busy_false.2 idle) polls
  have waitOver : exec i v = umaReadWaited i size (umaPos (.s 7 0) asz acc m) .ok w := by
    rw [h.wait within, waited]
    rfl
  by_cases due : 0 < size
  · have goes : exec i v = goTo i (umaPos (.s 8 0) asz acc m) w :=
      waitOver.trans (if_pos ((harvestDue_iff hz).2 (by omega)))
    exact h.harvest hz (c := { d with sup := .off }) idle due (Runs.first goes on)
  · obtain rfl : size = 0 := by omega
    obtain ⟨t, e, ended⟩ := on.finish (.data .ok [])
    exact ⟨t, (execN_one i v).trans (waitOver.trans e), ended⟩

/-- The transaction that `uma_read` arms (R185). -/
def umaReadDescr (b : Fiu) (dev : Nat) (cmd : Byte) (addr : Word) (ap : AddressPresent) (size : Nat) : Descr :=
  let w := widthCode (modeWidth b.readMode)
  { dev := dev, held := !(b.bit .ctsSwCs), cmdsiz := 1
    addsiz := if ap = .absent then 0 else if b.fourbOf dev then 4 else 3
    wdatsiz := 0, dbsiz := 0, rdatsiz := size, cmbpck := w, adbpck := w, wdbpck := 0, dbpck := 0, rdbpck := w
    cmd := cmd, addr := addr, wdata := (List.range 16).map b.writeByte }

/-- Seven steps of `uma_read` on an idle engine arm its transaction. -/
theorem umaRead_arms {s : State} (hs : s.Ready) (hi : inst < Config.nFiu) (hd : dev < 4) (hz : size ≤ 16)
    (idle : (s.fiu inst).eng = .idle) (done : (s.fiu inst).DoneBit)
    (free : ∀ k < 2, csForced ((s.fiu inst).rd .prtCfg) k ≠ some false) :
    ∃ asz acc m c, Runs inst s (.umaRead inst dev cmd addr ap size timeout) s 7 (umaPos (.s 7 0) asz acc m) c
      ∧ (s.fiu inst).Armed (umaReadDescr (s.fiu inst) dev cmd addr ap size) c := by
  have stored := (umaRead_prepares (cmd := cmd) (addr := addr) (ap := ap) (timeout := timeout) hi hd hz).runs hs hi idle done
  have prepared := Fiu.prepared_prepare idle done hd addr cmd
    (readCfg (s.fiu inst).readMode (resolveAddsiz ((s.fiu inst).fourbOf dev) ap) size)
  have armed := prepared.arm hd le_rfl (resolveAddsiz_legal _ _) (Nat.zero_le _) (Nat.zero_le _) hz free
  refine ⟨_, _, _, _, stored.wrf (f := .ctsExecDone) hi nofun (umaRead_ends hi hd hz).trigger
    (armed.sets_no_mark prepared.unmodelled), ?_⟩
  rw [umaReadDescr, ← resolveAddsiz_eq]
  exact armed

/-- Settles O51: seven steps arm the transaction; then the engine completes and the bytes are harvested, or the wait runs out. -/
theorem umaRead : Obligations.UmaRead := by
  intro s inst dev cmd addr ap size timeout hs hi hd hz idle done free
  have ends := umaRead_ends (cmd := cmd) (addr := addr) (ap := ap) (timeout := timeout) hi hd hz
  obtain ⟨asz, acc, m, c, ⟨u, eu, within, on⟩, armed⟩ :=
    umaRead_arms (cmd := cmd) (addr := addr) (ap := ap) (timeout := timeout) hs hi hd hz idle done free
  refine ⟨u, eu, ?_⟩
  rw [on.fiu]
  refine ⟨armed.eng, armed.regs, armed.unmodelled, armed.fourb, on.others, fun polls => ?completes, fun bounded => ?timesOut⟩
  case completes =>
    obtain ⟨v, d, ev, within, on, idle, done⟩ := on.engine_completes within hi armed
    obtain ⟨t, et, ended, others, fiu⟩ := ends.completes hi hz within on idle done polls
    obtain ⟨length, bytes⟩ := harvest_bytes d size
    exact ⟨v, t, _, ev, et, ended, length, on.fiu ▸ bytes, on.fiu ▸ fiu, others⟩
  case timesOut =>
    obtain ⟨t, et, ended, others, fiu, trace⟩ := on.timeout within hi armed.done armed.busy bounded (fun _ => rfl) (fun _ => rfl)
      (fun _ => ends.wait) (fun _ => ends.poll)
    exact ⟨t, et, ended, fiu, others, trace⟩

end UmaRead

/-! ### `uma_write` (R188 to R192) -/

/-- The write buffer stored, word by word. -/
def Fiu.setWriteBuffer (b : Fiu) (w : Nat → Word) : Fiu :=
  (((b.setReg (.umaDw 0) (w 0)).setReg (.umaDw 1) (w 1)).setReg (.umaDw 2) (w 2)).setReg (.umaDw 3) (w 3)

/-- A word of the write buffer after it is stored. -/
theorem Fiu.setWriteBuffer_rd_data (b : Fiu) (w : Nat → Word) (k : Fin 4) : (b.setWriteBuffer w).rd (.umaDw k) = w k.val := by
  simp only [Fiu.setWriteBuffer, Fiu.rd_setReg]
  fin_cases k <;> rfl

/-- The other registers are kept. -/
theorem Fiu.setWriteBuffer_rd (b : Fiu) (w : Nat → Word) {q : Reg} (h : ∀ k, q ≠ .umaDw k) : (b.setWriteBuffer w).rd q = b.rd q := by
  simp only [Fiu.setWriteBuffer, Fiu.rd_setReg, h, if_false]

/-- The bytes of a buffer packed into the write buffer. -/
theorem Fiu.setWriteBuffer_writeByte (b : Fiu) (data : List Byte) {j : Nat} (hj : j < 16) :
    (b.setWriteBuffer (packWord data)).writeByte j = data.getD j 0#8 := by
  rw [Fiu.writeByte, Fiu.setWriteBuffer_rd_data, wordByte_packWord _ _ (Nat.mod_lt _ (by decide)), dataIndex_place hj]

/-- The write buffer stored leaves a prepared transaction prepared. -/
theorem Fiu.Prepared.setWriteBuffer {b c : Fiu} {dev : Nat} {addr : Word} {cmd : Byte} {word : Word}
    (h : b.Prepared dev addr cmd word c) (w : Nat → Word) :
    (b.setWriteBuffer w).Prepared dev addr cmd word (c.setWriteBuffer w) :=
  (((h.setDw 0 (w 0)).setDw 1 (w 1)).setDw 2 (w 2)).setDw 3 (w 3)

section UmaWrite

variable {inst dev size : Nat} {cmd : Byte} {addr timeout : Word} {ap : AddressPresent} {data : List Byte}

/-- The steps of `uma_write` up to its configuration. -/
theorem umaWrite_prepares (hi : inst < Config.nFiu) (hd : dev < 4) (hz : size ≤ 16) :
    PreparesTx (.umaWrite inst dev cmd addr ap size timeout data) inst dev cmd addr ap (fun m asz => writeCfg m asz size) where
  device := fun hs => hostStep_burst_at hi hd hz (.inl ⟨hs, rfl⟩)
  address := fun h => hostStep_burst_at hi hd hz (.inr h)
  command := fun h => hostStep_burst_at hi hd hz (.inr h)
  acctype := fun h => hostStep_burst_at hi hd hz (.inr h)
  dbw := fun h => hostStep_burst_at hi hd hz (.inr h)
  config := fun h => hostStep_burst_at hi hd hz (.inr h)

/-- The steps of `uma_write` after its configuration (R188 S6 to S10). -/
structure UmaWriteEnds (i : Instr) (inst : Nat) (data : List Byte) (timeout : Word) : Prop where
  buffer : ∀ {s asz acc m} (k : Nat), s.At i (umaPos (.s 6 k) asz acc m) → exec i s =
    goTo i (umaPos (if k < 3 then .s 6 (k + 1) else .s 7 0) asz acc m) (s.hostWrite inst (.umaDw (dataIndex k)) (packWord data k))
  rdyst : ∀ {s asz acc m}, s.At i (umaPos (.s 7 0) asz acc m) → exec i s =
    goTo i (umaPos (.s 8 0) asz acc m) (s.wrf inst .ctsRdyst 1#32)
  fence : ∀ {s asz acc m}, s.At i (umaPos (.s 8 0) asz acc m) → exec i s = goTo i (umaPos (.s 9 0) asz acc m) s
  trigger : ∀ {s asz acc m}, s.At i (umaPos (.s 9 0) asz acc m) → exec i s =
    goTo i (umaPos (.s 10 0) asz acc m) (s.wrf inst .ctsExecDone 1#32)
  wait : ∀ {s asz acc m}, s.At i (umaPos (.s 10 0) asz acc m) → exec i s =
    afterWait (s.waitEnter inst timeout) (goTo i (umaPos (.sp 10) asz acc m)) fun st => finish (.status st)
  poll : ∀ {s asz acc m}, s.At i (umaPos (.sp 10) asz acc m) → exec i s =
    afterWait (s.waitPoll inst) (goTo i (umaPos (.sp 10) asz acc m)) fun st => finish (.status st)

theorem umaWrite_ends (hi : inst < Config.nFiu) (hd : dev < 4) (hz : size ≤ 16) (hl : data.length = size) :
    UmaWriteEnds (.umaWrite inst dev cmd addr ap size timeout data) inst data timeout := by
  have whole : data.take size = data := List.take_of_length_le hl.le
  exact {
    buffer := fun {s asz acc m} k h => by
      have e : exec (.umaWrite inst dev cmd addr ap size timeout data) s =
          goTo (.umaWrite inst dev cmd addr ap size timeout data) (umaPos (if k < 3 then .s 6 (k + 1) else .s 7 0) asz acc m)
            (s.hostWrite inst (.umaDw (dataIndex k)) (packWord (data.take size) k)) :=
        hostStep_burst_at hi hd hz (.inr h)
      rwa [whole] at e
    rdyst := fun h => hostStep_burst_at hi hd hz (.inr h)
    fence := fun h => hostStep_burst_at hi hd hz (.inr h)
    trigger := fun h => hostStep_burst_at hi hd hz (.inr h)
    wait := fun h => hostStep_burst_at hi hd hz (.inr h)
    poll := fun h => hostStep_burst_at hi hd hz (.inr h) }

/-- Four steps store the write buffer. -/
theorem UmaWriteEnds.stores {i : Instr} (h : UmaWriteEnds i inst data timeout) (hi : inst < Config.nFiu) {s0 s : State} {n asz : Nat}
    {acc : Word} {m : Option ReadMode} {c : Fiu} (idle : c.eng = .idle) (start : Runs inst s0 i s n (umaPos (.s 6 0) asz acc m) c) :
    Runs inst s0 i s (n + 4) (umaPos (.s 7 0) asz acc m) (c.setWriteBuffer (packWord data)) := by
  have store : ∀ (k : Nat) {n : Nat} {d : Fiu}, d.eng = .idle → Runs inst s0 i s n (umaPos (.s 6 k) asz acc m) d →
      Runs inst s0 i s (n + 1) (umaPos (if k < 3 then .s 6 (k + 1) else .s 7 0) asz acc m)
        (d.setReg (.umaDw (dataIndex k)) (packWord data k)) := by
    intro k n d idle runs
    have stored := runs.store hi idle (.inr (.inr (.inr ⟨dataIndex k, rfl⟩))) (h.buffer k)
    rwa [dw_and_mask] at stored
  exact store 3 idle (store 2 idle (store 1 idle (store 0 idle start)))

/-- The transaction that `uma_write` arms (R188 to R190). -/
def umaWriteDescr (b : Fiu) (dev : Nat) (cmd : Byte) (addr : Word) (ap : AddressPresent) (size : Nat) (data : List Byte) : Descr :=
  let w := widthCode (modeWidth b.readMode)
  { dev := dev, held := !(b.bit .ctsSwCs), cmdsiz := if b.readMode = some .spiX then 0 else 1
    addsiz := if ap = .absent then 0 else if b.fourbOf dev then 4 else 3
    wdatsiz := size, dbsiz := 0, rdatsiz := 0, cmbpck := if b.readMode = some .spiX then 0 else w, adbpck := w, wdbpck := w
    dbpck := 0, rdbpck := 0, cmd := cmd, addr := addr, wdata := data ++ List.replicate (16 - size) 0#8 }

/-- The command width of the write path: absent in `SPI_X` mode (R190). -/
theorem optCode_writeCmdWidth (m : Option ReadMode) :
    optCode (writeCmdWidth m) = if m = some .spiX then 0 else widthCode (modeWidth m) := by
  unfold writeCmdWidth
  split <;> rfl

/-- Thirteen steps of `uma_write` on an idle engine arm its transaction. -/
theorem umaWrite_arms {s : State} (hs : s.Ready) (hi : inst < Config.nFiu) (hd : dev < 4) (hz : size ≤ 16) (hl : data.length = size)
    (idle : (s.fiu inst).eng = .idle) (done : (s.fiu inst).DoneBit)
    (free : ∀ k < 2, csForced ((s.fiu inst).rd .prtCfg) k ≠ some false) :
    ∃ asz acc m c, Runs inst s (.umaWrite inst dev cmd addr ap size timeout data) s 13 (umaPos (.s 10 0) asz acc m) c
      ∧ ((s.fiu inst).setWriteBuffer (packWord data)).Armed (umaWriteDescr (s.fiu inst) dev cmd addr ap size data) c := by
  have ends := umaWrite_ends (cmd := cmd) (addr := addr) (ap := ap) (timeout := timeout) hi hd hz hl
  have stored := (umaWrite_prepares (cmd := cmd) (addr := addr) (ap := ap) (timeout := timeout) (data := data) hi hd hz).runs hs hi
    idle done
  have prepared := Fiu.prepared_prepare idle done hd addr cmd
    (writeCfg (s.fiu inst).readMode (resolveAddsiz ((s.fiu inst).fourbOf dev) ap) size)
  have filled := prepared.setWriteBuffer (packWord data)
  have ready := filled.wrf_rdyst 1#32
  have cmdsiz : writeCmdsiz (s.fiu inst).readMode ≤ 1 := by
    unfold writeCmdsiz
    split <;> omega
  have free : ∀ k < 2, csForced (((s.fiu inst).setWriteBuffer (packWord data)).rd .prtCfg) k ≠ some false := by
    rwa [Fiu.setWriteBuffer_rd _ _ (q := .prtCfg) nofun]
  have armed := ready.arm hd cmdsiz (resolveAddsiz_legal _ _) hz (Nat.zero_le _) (Nat.zero_le _) free
  have cleared := (ends.stores hi prepared.idle stored).wrf (f := .ctsRdyst) hi nofun ends.rdyst
    (ready.unmodelled.trans filled.unmodelled.symm)
  refine ⟨_, _, _, _, (cleared.stay ends.fence).wrf (f := .ctsExecDone) hi nofun ends.trigger
    (armed.sets_no_mark ready.unmodelled), ?_⟩
  have bytes := map_eq_padded data size hz hl _ fun j hj => (s.fiu inst).setWriteBuffer_writeByte data hj
  have swCs : ((s.fiu inst).setWriteBuffer (packWord data)).bit .ctsSwCs = (s.fiu inst).bit .ctsSwCs :=
    congrArg (flag .ctsSwCs) (Fiu.setWriteBuffer_rd _ _ (q := .umaCts) nofun)
  rw [bytes, swCs, optCode_writeCmdWidth] at armed
  rw [umaWriteDescr, ← resolveAddsiz_eq]
  exact armed

/-- When the engine has completed and the bound permits a poll, the next poll ends the request (R191, R271). -/
theorem UmaWriteEnds.completes {i : Instr} (h : UmaWriteEnds i inst data timeout) (hi : inst < Config.nFiu) {s0 v : State} {asz : Nat}
    {acc : Word} {m : Option ReadMode} {d : Fiu} (within : v.At i (umaPos (.s 10 0) asz acc m)) (on : On inst s0 v d)
    (idle : d.eng = .idle) (done : d.DoneBit) (polls : timeout = 0#32 ∨ Config.pollPeriodUs ≤ timeout.toNat) :
    ∃ t, exec i v = .next t ∧ s0.Ended t (.status .ok) ∧ s0.SameOthers inst t ∧ t.fiu inst = { d with sup := .off } := by
  obtain ⟨w, waited, on⟩ := on.waitEnter hi done (Fiu.busy_false.2 idle) polls
  obtain ⟨t, e, ended⟩ := on.finish (.status .ok)
  refine ⟨t, ?_, ended⟩
  rw [h.wait within, waited]
  exact e

/-- Settles O52: thirteen steps arm the transaction; then the engine completes and the next poll ends the request, or the wait runs
out. -/
theorem umaWrite : Obligations.UmaWrite := by
  intro s inst dev cmd addr ap size timeout data hs hi hd hz hl idle done free
  have ends := umaWrite_ends (cmd := cmd) (addr := addr) (ap := ap) (timeout := timeout) hi hd hz hl
  obtain ⟨asz, acc, m, c, ⟨u, eu, within, on⟩, armed⟩ :=
    umaWrite_arms (cmd := cmd) (addr := addr) (ap := ap) (timeout := timeout) hs hi hd hz hl idle done free
  refine ⟨u, eu, ?_⟩
  rw [on.fiu]
  refine ⟨armed.eng, fun j hj => ?bytes, armed.rdyst, fun q hcts haddr hcmd hcfg hdw => ?regs, armed.unmodelled, armed.fourb,
    on.others, fun polls => ?completes, fun bounded => ?timesOut⟩
  case bytes =>
    rw [armed.writeByte]
    exact (s.fiu inst).setWriteBuffer_writeByte data hj
  case regs => exact (armed.regs q hcts haddr hcmd hcfg).trans ((s.fiu inst).setWriteBuffer_rd _ hdw)
  case completes =>
    obtain ⟨v, d, ev, within, on, idle, done⟩ := on.engine_completes within hi armed
    obtain ⟨t, et, ended, others, fiu⟩ := ends.completes hi within on idle done polls
    exact ⟨v, t, ev, et, ended, on.fiu ▸ fiu, others⟩
  case timesOut =>
    obtain ⟨t, et, ended, others, fiu, trace⟩ := on.timeout within hi armed.done armed.busy bounded (fun _ => rfl) (fun _ => rfl)
      (fun _ => ends.wait) (fun _ => ends.poll)
    exact ⟨t, et, ended, fiu, others, trace⟩

end UmaWrite

end Sys2Proof.Machine
end

section
/-! SUPPORT. The statements of 43_uma_chunked.md: `uma_ioctl` (R201 to R208) and `page_write` (R210 to R214), chunk by chunk. -/

namespace Sys2Proof.Machine

/-! ### Positions -/

/-- Position `p` at label `l`. -/
def Pos.to (p : Pos) (l : Label) : Pos := { p with label := l }

theorem Pos.to_self {p : Pos} {l : Label} (h : p.label = l) : p.to l = p := by
  subst h
  rfl

/-- A request on a device, past its assertions, at its start or where it stands. -/
theorem hostStep_devOk_at {s : State} {i : Instr} {p : Pos} {inst dev : Nat} {body : Pos → Out} (hi : inst < Config.nFiu) (hd : dev < 4)
    (h : s.Ready ∧ p = startPos ∨ s.At i p) :
    hostStep i s (fun p => if !instOk inst then raiseHalt .instanceIndex s
      else if !devOk inst dev then raiseHalt .deviceIndex s else body p) = body p := by
  have known : (!devOk inst dev) ≠ true := by simp [devOk, hd]
  exact (hostStep_instOk_at hi h).trans (if_neg known)

/-! ### The steps of `uma_ioctl` -/

/-- The operands of `uma_ioctl` (R201). -/
structure IoctlArgs where
  inst : Nat
  dev : Nat
  cmd : Byte
  addr : Word
  asz : Nat
  rs : Nat
  ws : Nat
  cb : Nat
  ab : Nat
  wb : Nat
  rb : Nat
  timeout : Word
  dummy : Nat
  buf : List Byte

/-- The request. -/
def IoctlArgs.instr (a : IoctlArgs) : Instr :=
  .umaIoctl a.inst a.dev a.cmd a.addr a.asz a.rs a.ws a.cb a.ab a.wb a.rb a.timeout a.dummy a.buf

/-- The operands are legal, and `wc`, `wa`, `ww` and `wr` are their widths (R201). -/
structure IoctlArgs.Legal (a : IoctlArgs) (wc wa ww wr : Width) : Prop where
  inst : a.inst < Config.nFiu
  dev : a.dev < 4
  asz : a.asz = 0 ∨ a.asz = 3 ∨ a.asz = 4
  dummy : a.dummy ≤ 7
  widths : ioctlWidths a.asz a.cb a.ab a.wb a.rb a.dummy = some (wc, wa, ww, wr)
  bits : ∀ n, n = a.cb ∨ n = a.ab ∨ n = a.wb ∨ n = a.rb → n = 1 ∨ n = 2 ∨ n = 4
  cmdCode : widthCode wc = Nat.log2 a.cb
  addrCode : widthCode wa = Nat.log2 a.ab
  writeCode : widthCode ww = Nat.log2 a.wb
  readCode : widthCode wr = Nat.log2 a.rb

theorem IoctlArgs.legal {a : IoctlArgs} (hi : a.inst < Config.nFiu) (hd : a.dev < 4) (hz : a.asz = 0 ∨ a.asz = 3 ∨ a.asz = 4)
    (hdu : a.dummy ≤ 7) (hw : ∀ n, n = a.cb ∨ n = a.ab ∨ n = a.wb ∨ n = a.rb → n = 1 ∨ n = 2 ∨ n = 4) :
    ∃ wc wa ww wr, a.Legal wc wa ww wr := by
  obtain ⟨wc, wa, ww, wr, widths, cmdCode, addrCode, writeCode, readCode⟩ := ioctlWidths_spec hz hdu hw
  exact ⟨wc, wa, ww, wr, hi, hd, hz, hdu, widths, hw, cmdCode, addrCode, writeCode, readCode⟩

/-- The request holds the chip select (R202, R207). -/
def IoctlArgs.hold (a : IoctlArgs) : Bool := ioctlHold a.rs a.ws

theorem IoctlArgs.hold_iff {a : IoctlArgs} : a.hold = true ↔ 16 < max a.rs a.ws := by
  simp [IoctlArgs.hold, ioctlHold, ioctlSize]

/-- FAIL (R206). -/
def IoctlArgs.failed (a : IoctlArgs) (asserted : Bool) (p : Pos) (s : State) : Out :=
  if asserted then goTo a.instr (p.to .fail) s else finish (.data .timeout p.acc) s

/-- The position `p` one chunk on (R205, R212). -/
def Pos.advance (p : Pos) : Pos := { p with offset := p.offset + 16, words := [] }

/-- L8 (R205): the next chunk, END, or the end of the request. -/
def IoctlArgs.chunkDone (a : IoctlArgs) (p : Pos) (s : State) : Out :=
  if p.offset + 16 < max a.rs a.ws then goTo a.instr (p.advance.to (.l 1 0)) s
  else if a.hold then goTo a.instr (p.advance.to .fin) s
  else finish (.data .ok p.acc) s

/-- The wait of L1 is over (R203). -/
def IoctlArgs.issue (a : IoctlArgs) (p : Pos) (st : Status) (s : State) : Out :=
  match st with
  | .ok => if p.offset = 0 then goTo a.instr (p.to (if a.hold then .l 2 0 else .l 3 0)) s else goTo a.instr (p.to (.l 3 2)) s
  | _ => a.failed (a.hold && p.offset != 0) p s

/-- The wait of L6 is over (R205). -/
def IoctlArgs.harvest (a : IoctlArgs) (p : Pos) (st : Status) (s : State) : Out :=
  match st with
  | .ok => if harvestDue (clampChunk a.rs p.offset) 0 then goTo a.instr (p.to (.l 7 0)) s else a.chunkDone p s
  | _ => a.failed a.hold p s

/-- The bytes that the chunk at `offset` writes. -/
def IoctlArgs.chunk (a : IoctlArgs) (offset : Nat) : List Byte := (a.buf.drop offset).take (clampChunk a.ws offset)

/-- One step of `uma_ioctl` past its checks, label by label (R202 to R206). -/
def IoctlArgs.step (a : IoctlArgs) (wc wa ww wr : Width) (p : Pos) (s : State) : Out :=
  match p.label with
  | .start => goTo a.instr (p.to (.l 1 0)) (s.wrf a.inst .ctsDevNum (nat32 a.dev))
  | .l 1 0 => afterWait (s.waitEnter a.inst a.timeout) (goTo a.instr (p.to (.lp 1))) (a.issue p)
  | .lp 1 => afterWait (s.waitPoll a.inst) (goTo a.instr p) (a.issue p)
  | .l 2 0 => goTo a.instr (p.to (.l 3 0)) (s.wrf a.inst .ctsSwCs 0#32)
  | .l 3 0 => goTo a.instr (p.to (.l 3 1)) (s.hostWrite a.inst .umaAddr a.addr)
  | .l 3 1 => goTo a.instr (p.to (.l 3 2)) (s.hostWrite a.inst .umaCmd (a.cmd.setWidth 32))
  | .l 3 2 =>
      goTo a.instr (p.to (if 0 < clampChunk a.ws p.offset then .l 4 0 else .l 5 0))
        (s.hostWrite a.inst .umaCfg
          (chunkCfg p.offset a.asz (clampChunk a.ws p.offset) a.dummy (clampChunk a.rs p.offset) wc wa ww wr))
  | .l 4 k =>
      goTo a.instr (p.to (if k < 3 then .l 4 (k + 1) else .l 5 0))
        (s.hostWrite a.inst (.umaDw (dataIndex k)) (packWord (a.chunk p.offset) k))
  | .l 5 0 => goTo a.instr (p.to (.l 6 0)) (s.wrf a.inst .ctsExecDone 1#32)
  | .l 6 0 => afterWait (s.waitEnter a.inst a.timeout) (goTo a.instr (p.to (.lp 6))) (a.harvest p)
  | .lp 6 => afterWait (s.waitPoll a.inst) (goTo a.instr p) (a.harvest p)
  | .l 7 k =>
      let r := s.hostRead a.inst (.umaDr (dataIndex k))
      let ws := p.words ++ [r.1]
      if harvestDue (clampChunk a.rs p.offset) (k + 1) then goTo a.instr { p.to (.l 7 (k + 1)) with words := ws } r.2
      else a.chunkDone { p with acc := p.acc ++ unpackBytes ws (clampChunk a.rs p.offset) } r.2
  | .fin => finish (.data .ok p.acc) (s.wrf a.inst .ctsSwCs 1#32)
  | .fail => finish (.data .timeout p.acc) (s.wrf a.inst .ctsSwCs 1#32)
  | _ => notEnabled

/-- A step of `uma_ioctl` with legal operands. -/
theorem exec_ioctl {a : IoctlArgs} {wc wa ww wr : Width} (ha : a.Legal wc wa ww wr) {s : State} {p : Pos}
    (h : s.Ready ∧ p = startPos ∨ s.At a.instr p) : exec a.instr s = a.step wc wa ww wr p s := by
  have e : exec a.instr s = _ := hostStep_devOk_at ha.inst ha.dev h
  rw [ha.widths] at e
  exact e

/-! ### Steps with no transaction running -/

/-- `n` steps of request `i` take it from position `p` and instance `b` to `q` and `c`, with or without the engine prompt: no
transaction runs before any of them. -/
def Quiet (inst : Nat) (s0 : State) (i : Instr) (n : Nat) (p : Pos) (b : Fiu) (q : Pos) (c : Fiu) : Prop :=
  ∀ t, t.At i p → On inst s0 t b →
    ∃ u, execN n i t = .next u ∧ execPrompt n inst i t = .next u ∧ u.At i q ∧ On inst s0 u c

/-- From `s`, with the engine prompt, request `i` comes to stand at `p` with instance `b`. -/
def Prompts (inst : Nat) (s0 : State) (i : Instr) (s : State) (p : Pos) (b : Fiu) : Prop :=
  ∃ n t, execPrompt n inst i s = .next t ∧ t.At i p ∧ On inst s0 t b

theorem execPrompt_add (n m inst : Nat) (i : Instr) {s t : State} (h : execPrompt n inst i s = .next t) :
    execPrompt (n + m) inst i s = execPrompt m inst i t := by
  induction n generalizing s with
  | zero =>
    obtain rfl : s = t := Host.Outcome.next.inj h
    rw [Nat.zero_add]
  | succ n ih =>
    rw [Nat.add_right_comm]
    simp only [execPrompt] at h ⊢
    split at h
    · split at h
      · exact ih h
      · exact absurd h (by simp_all)
    · exact absurd h (by simp_all)

section Stepping

variable {inst n m : Nat} {s0 s : State} {i : Instr} {p q r : Pos} {b c d : Fiu}

theorem Runs.here {t : State} (within : t.At i p) (on : On inst s0 t b) : Runs inst s0 i t 0 p b := ⟨t, rfl, within, on⟩

/-- The instance with `SUP` set to `q`. -/
def Fiu.withSup (b : Fiu) (q : Sup) : Fiu := { b with sup := q }

/-- The wait of a request on an idle engine, where its bound permits a poll, is one step. -/
theorem Runs.waits {timeout : Word} {stay : State → Out} {cont : Status → State → Out} (h : Runs inst s0 i s n p b)
    (hi : inst < Config.nFiu) (idle : b.eng = .idle) (done : b.DoneBit) (polls : timeout = 0#32 ∨ Config.pollPeriodUs ≤ timeout.toNat)
    (e : ∀ {t}, t.At i p → exec i t = afterWait (t.waitEnter inst timeout) stay cont) (leave : ∀ {t}, cont .ok t = goTo i q t) :
    Runs inst s0 i s (n + 1) q (b.withSup .off) :=
  h.step fun t within on => by
    obtain ⟨w, waited, on⟩ := on.waitEnter hi done (Fiu.busy_false.2 idle) polls
    refine ⟨w, ?_, on⟩
    rw [e within, waited]
    exact leave

theorem Quiet.refl : Quiet inst s0 i 0 p b p b := fun t within on => ⟨t, rfl, rfl, within, on⟩

/-- One step more, taken with the engine idle. -/
theorem Quiet.step (h : Quiet inst s0 i n p b q c) (idle : c.eng = .idle)
    (e : ∀ {t}, Runs inst s0 i t 0 q c → Runs inst s0 i t 1 r d) : Quiet inst s0 i (n + 1) p b r d := by
  intro t within on
  obtain ⟨u, runs, prompt, within, on⟩ := h t within on
  obtain ⟨v, ev, after⟩ := e (.here within on)
  rw [execN_one] at ev
  refine ⟨v, execN_then runs ev, ?_, after⟩
  have quiet : (u.fiu inst).busy = false := by rw [on.fiu]; exact Fiu.busy_false.2 idle
  rw [execPrompt_add n 1 inst i prompt, execPrompt_idle quiet ev]
  rfl

/-- A run, then quiet steps. -/
theorem Runs.quiet (h : Runs inst s0 i s n p b) (quiet : Quiet inst s0 i m p b q c) : Runs inst s0 i s (n + m) q c := by
  obtain ⟨t, et, within, on⟩ := h
  obtain ⟨u, eu, -, after⟩ := quiet t within on
  exact ⟨u, (execN_add n m i et).trans eu, after⟩

/-- A first step taken with the engine idle. -/
theorem Prompts.first (idle : (s.fiu inst).eng = .idle) (h : Runs inst s0 i s 1 p b) : Prompts inst s0 i s p b := by
  obtain ⟨t, et, after⟩ := h
  rw [execN_one] at et
  exact ⟨1, t, (execPrompt_idle (Fiu.busy_false.2 idle) et).trans rfl, after⟩

/-- Quiet steps with the engine prompt. -/
theorem Prompts.quiet (h : Prompts inst s0 i s p b) (quiet : Quiet inst s0 i m p b q c) : Prompts inst s0 i s q c := by
  obtain ⟨n, t, et, within, on⟩ := h
  obtain ⟨u, -, eu, after⟩ := quiet t within on
  exact ⟨n + m, u, (execPrompt_add n m inst i et).trans eu, after⟩

/-- A step taken with the engine idle. -/
theorem Prompts.step (h : Prompts inst s0 i s p b) (idle : b.eng = .idle)
    (e : ∀ {t}, Runs inst s0 i t 0 p b → Runs inst s0 i t 1 q c) : Prompts inst s0 i s q c :=
  h.quiet (Quiet.refl.step idle e)

/-- A step before which the prompt engine ends the transaction that runs. -/
theorem Prompts.completes {l : Descr} (h : Prompts inst s0 i s p b) (hi : inst < Config.nFiu) (eng : b.eng = .busy l false)
    (e : ∀ {t}, Runs inst s0 i t 0 p (b.complete inst l false) → Runs inst s0 i t 1 q c) : Prompts inst s0 i s q c := by
  obtain ⟨n, t, et, ⟨-, seq⟩, on⟩ := h
  have busy : (t.fiu inst).busy = true := by rw [on.fiu, Fiu.busy, eng]
  obtain ⟨v, ev, on, same⟩ := on.complete hi eng
  obtain ⟨u, eu, after⟩ := e (.here ⟨on.live, same.trans seq⟩ on)
  rw [execN_one] at eu
  exact ⟨n + 1, u, (execPrompt_add n 1 inst i et).trans ((execPrompt_busy busy ev eu).trans rfl), after⟩

/-- The step that ends the request, taken with the engine idle. -/
theorem Prompts.finish {res : Result} (h : Prompts inst s0 i s p b) (idle : b.eng = .idle)
    (e : ∀ t, t.At i p → On inst s0 t b → ∃ x, exec i t = Machine.finish res x ∧ On inst s0 x c) :
    ∃ n u, execPrompt n inst i s = .next u ∧ s0.Ended u res ∧ s0.SameOthers inst u ∧ u.fiu inst = c := by
  obtain ⟨n, t, et, within, on⟩ := h
  have quiet : (t.fiu inst).busy = false := by rw [on.fiu]; exact Fiu.busy_false.2 idle
  obtain ⟨u, eu, ended⟩ := (Runs.here within on).finish e
  rw [Nat.zero_add, execN_one] at eu
  exact ⟨n + 1, u, (execPrompt_add n 1 inst i et).trans ((execPrompt_idle quiet eu).trans rfl), ended⟩

end Stepping

/-! ### The chip select that software holds (R207, R212; 10_state.md R57) -/

/-- No chip select is forced and protection is off. -/
structure Fiu.Unguarded (b : Fiu) : Prop where
  noForce : b.NoForce
  noProtection : b.bit .prtPen = false

theorem Fiu.csForced_none {b : Fiu} (h : b.NoForce) (d : Nat) : csForced (b.rd .prtCfg) d = none := by
  have enabled : fieldBit .prtFcsEn d (b.rd .prtCfg) = false := by
    rw [fieldBit, h]
    exact BitVec.getLsbD_zero
  simp [csForced, enabled]

/-- A held chip select is that of the device in `DEV_NUM`. -/
theorem Fiu.heldDev_eq (b : Fiu) : heldDev (b.rd .umaCts) = if b.bit .ctsSwCs then none else some (b.get .ctsDevNum).toNat := rfl

/-- The levels of pins that are not forced. -/
theorem Fiu.pinLevels_unforced {b : Fiu} (h : b.NoForce) (cts : Word) {d : Nat} (hd : d < 4) :
    (pinLevels (b.rd .prtCfg) cts).getD d true = !(heldDev cts == some d) := by
  rw [pinLevels_getD _ _ hd, csPin, csPinOf, Fiu.csForced_none h]
  rfl

/-- Taking hold of a chip select makes it fall. -/
theorem Fiu.pinEvents_hold {b : Fiu} (h : b.NoForce) {old new : Word} {dev : Nat} (hd : dev < 4) (before : heldDev old = none)
    (after : heldDev new = some dev) :
    pinEvents (pinLevels (b.rd .prtCfg) old) (pinLevels (b.rd .prtCfg) new) = [.csLow dev] :=
  pinEvents_fall hd (by rw [Fiu.pinLevels_unforced h old hd, before]; rfl) (by rw [Fiu.pinLevels_unforced h new hd, after]; simp)
    fun k hk hne => by
      rw [Fiu.pinLevels_unforced h old hk, Fiu.pinLevels_unforced h new hk, before, after]
      simp [hne.symm]

/-- Releasing it makes it rise. -/
theorem Fiu.pinEvents_release {b : Fiu} (h : b.NoForce) {old new : Word} {dev : Nat} (hd : dev < 4) (before : heldDev old = some dev)
    (after : heldDev new = none) :
    pinEvents (pinLevels (b.rd .prtCfg) old) (pinLevels (b.rd .prtCfg) new) = [.csHigh dev] :=
  pinEvents_rise hd (by rw [Fiu.pinLevels_unforced h old hd, before]; simp) (by rw [Fiu.pinLevels_unforced h new hd, after]; rfl)
    fun k hk hne => by
      rw [Fiu.pinLevels_unforced h old hk, Fiu.pinLevels_unforced h new hk, before, after]
      simp [hne.symm]

/-- The events of a field write of `UMA_CTS` other than the trigger: the pins that move with the held device. -/
theorem Fiu.wrf_cts_wire {b : Fiu} (done : b.DoneBit) {f : Field} (hf : fieldReg f = .umaCts) (hne : f ≠ .ctsExecDone) (v : Word) :
    (b.wrf f v).wire = b.wire
        ++ pinEvents (pinLevels (b.rd .prtCfg) (b.rd .umaCts)) (pinLevels (b.rd .prtCfg) ((b.wrf f v).rd .umaCts))
      ∧ (b.wrf f v).frame = frameWritten (b.rd .umaCts) ((b.wrf f v).rd .umaCts) b.frame := by
  obtain ⟨regs, -, -, -, frame, wire⟩ := Fiu.wrf_cts done hf (cts_apart hf (g := .ctsExecDone) rfl hne.symm) v
  have word := (regs .umaCts).trans (if_pos rfl)
  rw [word]
  exact ⟨wire, frame⟩

/-- A field write of `UMA_CTS` that keeps the held device moves no pin. -/
theorem Fiu.wrf_cts_still {b : Fiu} (done : b.DoneBit) {f : Field} (hf : fieldReg f = .umaCts) (hne : f ≠ .ctsExecDone) {v : Word}
    (held : heldDev ((b.wrf f v).rd .umaCts) = heldDev (b.rd .umaCts)) : (b.wrf f v).wire = b.wire := by
  obtain ⟨wire, -⟩ := Fiu.wrf_cts_wire done hf hne v
  rw [wire, pinLevels_congr _ held, pinEvents_same fun _ _ => rfl, List.append_nil]

/-- Instance `c` inside a frame that software holds for device `dev`, between two transactions: the wire log is `w`, and `PRT_CFG` is
that of `b`. -/
structure Fiu.Holds (b : Fiu) (dev : Nat) (w : List WireEvent) (c : Fiu) : Prop where
  idle : c.eng = .idle
  done : c.DoneBit
  devNum : c.get .ctsDevNum = nat32 dev
  swCs : c.bit .ctsSwCs = false
  prtCfg : c.rd .prtCfg = b.rd .prtCfg
  wire : c.wire = w

/-- Instance `c`, which was `b`, with device `dev` selected and no chip select held. -/
structure Fiu.Selected (b : Fiu) (dev : Nat) (c : Fiu) : Prop where
  idle : c.eng = .idle
  done : c.DoneBit
  devNum : c.get .ctsDevNum = nat32 dev
  swCs : c.bit .ctsSwCs = true
  regs : ∀ q, q ≠ .umaCts → c.rd q = b.rd q
  wire : c.wire = b.wire

/-- Selecting a device while no chip select is held moves no pin (R202 S1, R210 S1). -/
theorem Fiu.selected_wrf {b : Fiu} {dev : Nat} (hd : dev < 4) (idle : b.eng = .idle) (done : b.DoneBit) (swCs : b.bit .ctsSwCs = true) :
    b.Selected dev (b.wrf .ctsDevNum (nat32 dev)) := by
  obtain ⟨eng, doneBit, -, -, others⟩ := Fiu.wrf_cts_idle idle done (f := .ctsDevNum) rfl nofun (nat32 dev)
  obtain ⟨device, kept, -⟩ := Fiu.wrf_cts_fields done (f := .ctsDevNum) (.inl rfl) (nat32 dev)
  have released : (b.wrf .ctsDevNum (nat32 dev)).bit .ctsSwCs = true :=
    (congrArg (· == 1#32) (kept .ctsSwCs rfl nofun nofun)).trans swCs
  refine ⟨eng, doneBit, device.trans (nat32_devNum hd), released, others, Fiu.wrf_cts_still done (f := .ctsDevNum) rfl nofun ?_⟩
  rw [Fiu.heldDev_eq, Fiu.heldDev_eq, released, swCs]
  rfl

theorem Fiu.Selected.withSup {b c : Fiu} {dev : Nat} (h : b.Selected dev c) (q : Sup) : b.Selected dev (c.withSup q) :=
  ⟨h.idle, h.done, h.devNum, h.swCs, h.regs, h.wire⟩

theorem nat32_toNat_dev {dev : Nat} (hd : dev < 4) : (nat32 dev).toNat = dev := by
  rw [nat32, BitVec.toNat_ofNat, Nat.mod_eq_of_lt (by omega)]

/-- Taking hold of the selected chip select begins a frame (R207, R210 S4). -/
theorem Fiu.Selected.holds {b c : Fiu} {dev : Nat} (h : b.Selected dev c) (hd : dev < 4) (noForce : b.NoForce) :
    b.Holds dev (b.wire ++ [.csLow dev]) (c.wrf .ctsSwCs 0#32) ∧ (c.wrf .ctsSwCs 0#32).unmodelled = c.unmodelled
      ∧ ∀ q, q ≠ .umaCts → (c.wrf .ctsSwCs 0#32).rd q = b.rd q := by
  obtain ⟨eng, doneBit, mark, -, others⟩ := Fiu.wrf_cts_idle h.idle h.done (f := .ctsSwCs) rfl nofun 0#32
  obtain ⟨low, kept, -⟩ := Fiu.wrf_cts_fields h.done (f := .ctsSwCs) (.inr (.inl rfl)) 0#32
  have low : (c.wrf .ctsSwCs 0#32).bit .ctsSwCs = false := congrArg (· == 1#32) low
  have device := (kept .ctsDevNum rfl nofun nofun).trans h.devNum
  have regs : ∀ q, q ≠ .umaCts → (c.wrf .ctsSwCs 0#32).rd q = b.rd q := fun q hq => (others q hq).trans (h.regs q hq)
  refine ⟨⟨eng, doneBit, device, low, regs .prtCfg nofun, ?_⟩, mark, regs⟩
  obtain ⟨wire, -⟩ := Fiu.wrf_cts_wire h.done (f := .ctsSwCs) rfl nofun 0#32
  have before : heldDev (c.rd .umaCts) = none := by
    rw [Fiu.heldDev_eq, h.swCs]
    rfl
  have after : heldDev ((c.wrf .ctsSwCs 0#32).rd .umaCts) = some dev := by
    rw [Fiu.heldDev_eq, low, device, nat32_toNat_dev hd]
    rfl
  rw [wire, h.wire, h.regs .prtCfg nofun, Fiu.pinEvents_hold noForce hd before after]

section Holds

variable {b c : Fiu} {dev : Nat} {w : List WireEvent}

theorem Fiu.Holds.heldDev (h : b.Holds dev w c) (hd : dev < 4) : heldDev (c.rd .umaCts) = some dev := by
  rw [Fiu.heldDev_eq, h.swCs, h.devNum, nat32_toNat_dev hd]
  rfl

/-- The end of a wait. -/
theorem Fiu.Holds.withSup (h : b.Holds dev w c) (q : Sup) : b.Holds dev w (c.withSup q) :=
  ⟨h.idle, h.done, h.devNum, h.swCs, h.prtCfg, h.wire⟩

/-- A store of a transaction register. -/
theorem Fiu.Holds.setReg (h : b.Holds dev w c) {r : Reg} (cts : r ≠ .umaCts) (prt : r ≠ .prtCfg) (v : Word) :
    b.Holds dev w (c.setReg r v) where
  idle := h.idle
  done := Fiu.doneBit_setReg h.done cts v
  devNum := (c.get_setReg_ne (f := .ctsDevNum) cts.symm v).trans h.devNum
  swCs := (congrArg (flag .ctsSwCs) (c.rd_setReg_ne v cts.symm)).trans h.swCs
  prtCfg := (c.rd_setReg_ne v prt.symm).trans h.prtCfg
  wire := h.wire

theorem Fiu.Holds.setWriteBuffer (h : b.Holds dev w c) (v : Nat → Word) : b.Holds dev w (c.setWriteBuffer v) :=
  (((h.setReg (r := .umaDw 0) nofun nofun _).setReg (r := .umaDw 1) nofun nofun _).setReg (r := .umaDw 2) nofun nofun _).setReg
    (r := .umaDw 3) nofun nofun _

/-- `RDYST` cleared before the trigger (R211 L3). -/
theorem Fiu.Holds.wrf_rdyst (h : b.Holds dev w c) (v : Word) : b.Holds dev w (c.wrf .ctsRdyst v) := by
  obtain ⟨eng, done, -, -, others⟩ := Fiu.wrf_cts_idle h.idle h.done (f := .ctsRdyst) rfl nofun v
  have device := Fiu.wrf_rdyst_get (c := c) v (.inl rfl)
  have swCs : (c.wrf .ctsRdyst v).bit .ctsSwCs = c.bit .ctsSwCs := congrArg (· == 1#32) (Fiu.wrf_rdyst_get (c := c) v (.inr rfl))
  refine ⟨eng, done, device.trans h.devNum, swCs.trans h.swCs, (others .prtCfg nofun).trans h.prtCfg,
    (Fiu.wrf_cts_still h.done (f := .ctsRdyst) rfl nofun ?_).trans h.wire⟩
  rw [Fiu.heldDev_eq, Fiu.heldDev_eq, device, swCs]

/-- Releasing the chip select ends the frame (R205 END, R212 END). -/
theorem Fiu.Holds.release (h : b.Holds dev w c) (hd : dev < 4) (noForce : b.NoForce) :
    (c.wrf .ctsSwCs 1#32).wire = w ++ [.csHigh dev] ∧ (c.wrf .ctsSwCs 1#32).eng = .idle
      ∧ (c.wrf .ctsSwCs 1#32).bit .ctsSwCs = true ∧ (c.wrf .ctsSwCs 1#32).frame = .closed
      ∧ (c.wrf .ctsSwCs 1#32).unmodelled = c.unmodelled := by
  obtain ⟨eng, -, mark, -⟩ := Fiu.wrf_cts_idle h.idle h.done (f := .ctsSwCs) rfl nofun 1#32
  obtain ⟨high, -⟩ := Fiu.wrf_cts_fields h.done (f := .ctsSwCs) (.inr (.inl rfl)) 1#32
  have high : (c.wrf .ctsSwCs 1#32).bit .ctsSwCs = true := congrArg (· == 1#32) high
  have released : Machine.heldDev ((c.wrf .ctsSwCs 1#32).rd .umaCts) = none := by
    rw [Fiu.heldDev_eq, high]
    rfl
  obtain ⟨wire, frame⟩ := Fiu.wrf_cts_wire h.done (f := .ctsSwCs) rfl nofun 1#32
  refine ⟨?_, eng, high, ?_, mark⟩
  · rw [wire, h.wire, h.prtCfg, Fiu.pinEvents_release noForce hd (h.heldDev hd) released]
  · rw [frame, frameWritten_close _ _ released]
    rw [released, h.heldDev hd]
    exact nofun

/-- END of a request that holds a chip select (R205, R212). -/
theorem Prompts.releases {inst : Nat} {s0 s : State} {i : Instr} {p : Pos} {res : Result} (h : Prompts inst s0 i s p c)
    (holds : b.Holds dev w c) (hi : inst < Config.nFiu) (hd : dev < 4) (noForce : b.NoForce)
    (e : ∀ {t}, t.At i p → exec i t = Machine.finish res (t.wrf inst .ctsSwCs 1#32)) :
    ∃ n t, execPrompt n inst i s = .next t ∧ s0.Ended t res ∧ s0.SameOthers inst t ∧ (t.fiu inst).wire = w ++ [.csHigh dev]
      ∧ (t.fiu inst).eng = .idle ∧ (t.fiu inst).bit .ctsSwCs = true ∧ (t.fiu inst).frame = .closed := by
  obtain ⟨wire, eng, swCs, frame, mark⟩ := holds.release hd noForce
  obtain ⟨n, t, et, ended, others, fiu⟩ := h.finish holds.idle fun t within on =>
    ⟨_, e within, on.wrf hi (f := .ctsSwCs) (v := 1#32) nofun mark⟩
  rw [← fiu] at wire eng swCs frame
  exact ⟨n, t, et, ended, others, wire, eng, swCs, frame⟩

/-- A transaction inside the frame, armed and ended with protection off: its phases are on the wire with no chip-select event between
them, the bytes `r` that it reads stand in the read buffer, and the frame goes on (R207, R173 to R176). -/
theorem Fiu.Holds.transaction {l : Descr} (h : b.Holds dev w c) (hd : dev < 4) (free : b.Unguarded) (inst : Nat)
    (latched : descrOf c dev true = l) (legal : LegalDescr l) :
    (c.wrf .ctsExecDone 1#32).eng = .busy l false ∧ (c.wrf .ctsExecDone 1#32).unmodelled = c.unmodelled
      ∧ ∃ r, r.length = l.rdatsiz ∧ (∀ j < r.length, ((c.wrf .ctsExecDone 1#32).complete inst l false).readByte j = r.getD j 0#8)
        ∧ b.Holds dev (w ++ outPhases l ++ phaseEvent .rdata l.rdbpck r) ((c.wrf .ctsExecDone 1#32).complete inst l false)
        ∧ ∀ q, q ≠ .umaCts → (∀ k, q ≠ .umaDr k) → ((c.wrf .ctsExecDone 1#32).complete inst l false).rd q = c.rd q := by
  subst latched
  have device : (c.get .ctsDevNum).toNat = dev := by rw [h.devNum, nat32_toNat_dev hd]
  have held : descrOf c (c.get .ctsDevNum).toNat (!(c.bit .ctsSwCs)) = descrOf c dev true := by rw [device, h.swCs]; rfl
  have noForce : ∀ k < 2, csForced (c.rd .prtCfg) k ≠ some false := fun k _ => by
    rw [h.prtCfg, Fiu.csForced_none free.noForce]
    exact nofun
  obtain ⟨eng, regs, mark, -, devNum, swCs, -, wire, -⟩ := Fiu.arm h.idle (held ▸ legal) noForce
  rw [held] at eng
  have pen : (c.wrf .ctsExecDone 1#32).bit .prtPen = false := by
    rw [← free.noProtection]
    exact congrArg (flag .prtPen) ((regs .prtCfg nofun).trans h.prtCfg)
  obtain ⟨-, -, -, -, -, -, -, rdatsiz⟩ := legal
  obtain ⟨phases, bytes, regs', devNum', swCs', -⟩ := Fiu.complete_held inst pen (l := descrOf c dev true) rfl rdatsiz
  obtain ⟨idle, done, -⟩ := (c.wrf .ctsExecDone 1#32).complete_spec inst (descrOf c dev true) false
  refine ⟨eng, mark, (c.wrf .ctsExecDone 1#32).readPhase inst (descrOf c dev true), Fiu.length_readPhase,
    fun j hj => bytes j (Fiu.length_readPhase ▸ hj),
    ⟨idle, done, devNum'.trans (devNum.trans h.devNum), swCs'.trans (swCs.trans h.swCs),
      (regs' .prtCfg nofun nofun).trans ((regs .prtCfg nofun).trans h.prtCfg), ?_⟩,
    fun q hc hq => (regs' q hc hq).trans (regs q hc)⟩
  rw [phases, wire, h.wire]

end Holds

/-! ### A wait that is out -/

section TimesOut

variable {s : State} {i : Instr} {p q : Pos} {inst : Nat} {timeout : Word} {entry poll : Label}

/-- A wait that is out ends with `TIMEOUT` in one step, at its entry or in its poll loop, and `SUP` is off (R206, R271, R273). -/
theorem exec_timesOut {stay stay' : State → Out} {cont cont' : Status → State → Out} {f : State → Out}
    (h : s.TimesOut inst timeout p entry poll) (within : s.At i p) (hi : inst < Config.nFiu)
    (entered : s.At i (p.to entry) → exec i s = afterWait (s.waitEnter inst timeout) stay cont)
    (polled : s.At i (p.to poll) → exec i s = afterWait (s.waitPoll inst) stay' cont')
    (out : ∀ x, cont .timeout x = f x) (out' : ∀ x, cont' .timeout x = f x) :
    exec i s = f (s.setSup inst .off) := by
  obtain ⟨label, bounded, short⟩ | ⟨label, spent⟩ := h
  · rw [entered (by rwa [Pos.to_self label]), State.waitEnter_timeout hi bounded short]
    exact out _
  · rw [polled (by rwa [Pos.to_self label]), State.waitPoll_timeout spent]
    exact out' _

/-- The failure exit with the chip select asserted: one step to FAIL, and one that releases it and ends the request (R206, R213). -/
theorem fails_releasing {res : Result} (within : s.At i p) (hi : inst < Config.nFiu) (done : (s.fiu inst).DoneBit)
    (out : exec i s = goTo i q (s.setSup inst .off))
    (release : ∀ {u}, u.At i q → exec i u = finish res (u.wrf inst .ctsSwCs 1#32)) :
    ∃ u t, exec i s = .next u ∧ (u.fiu inst).rd .umaCts = (s.fiu inst).rd .umaCts ∧ exec i u = .next t
      ∧ (t.fiu inst).bit .ctsSwCs = true ∧ (t.fiu inst).busy = (s.fiu inst).busy ∧ s.Ended t res := by
  obtain ⟨live, -⟩ := within
  have done : ({ s.fiu inst with sup := .off } : Fiu).DoneBit := done
  obtain ⟨u, eu, within, on⟩ := ((On.start live).setSup hi .off).goTo i q
  obtain ⟨-, busy, mark, -⟩ := Fiu.wrf_cts done (f := .ctsSwCs) rfl (by decide) 1#32
  obtain ⟨high, -⟩ := Fiu.wrf_cts_fields done (f := .ctsSwCs) (.inr (.inl rfl)) 1#32
  obtain ⟨t, et, ended, -, fiu⟩ := (on.wrf hi (f := .ctsSwCs) nofun mark).finish res
  refine ⟨u, t, out.trans eu, ?_, (release within).trans et, ?_, ?_, ended⟩
  · rw [on.fiu]
    rfl
  · rw [fiu]
    exact congrArg (· == 1#32) high
  · rw [fiu]
    exact busy

end TimesOut

/-! ### `uma_ioctl`: single steps (R204 to R207) -/

theorem clampChunk_eq (size offset : Nat) : clampChunk size offset = min (size - offset) 16 := rfl

/-- The `UMA_CFG` word of a chunk: only the first has a command, an address and dummy bytes (R204). -/
theorem chunkCfg_eq (offset asz wn du rn : Nat) (wc wa ww wr : Width) : chunkCfg offset asz wn du rn wc wa ww wr =
    packUmaCfg (if offset = 0 then 1 else 0) (if offset = 0 then asz else 0) wn (if offset = 0 then du else 0) rn
      (some wc) (some wa) (some ww) (some wa) (some wr) := by
  unfold chunkCfg
  split <;> rfl

section IoctlSteps

variable {a : IoctlArgs} {wc wa ww wr : Width} {s : State} {p : Pos}

/-- L3: the configuration of a chunk is one store. -/
theorem ioctl_configures (ha : a.Legal wc wa ww wr) {s0 : State} {n : Nat} {b : Fiu}
    (h : Runs a.inst s0 a.instr s n (p.to (.l 3 2)) b) (idle : b.eng = .idle) :
    Runs a.inst s0 a.instr s (n + 1) (p.to (if 0 < clampChunk a.ws p.offset then .l 4 0 else .l 5 0))
      (b.setReg .umaCfg (chunkCfg p.offset a.asz (clampChunk a.ws p.offset) a.dummy (clampChunk a.rs p.offset) wc wa ww wr
        &&& regMask .umaCfg)) :=
  h.store ha.inst idle (.inl rfl) fun within => exec_ioctl ha (.inr within)

/-- A continuation chunk has no command, no address, no dummy bytes, and what is left of each direction (R204). -/
theorem ioctl_configures_continuation (ha : a.Legal wc wa ww wr) (within : s.At a.instr (p.to (.l 3 2))) (later : p.offset ≠ 0)
    (idle : (s.fiu a.inst).eng = .idle) :
    ∃ t, exec a.instr s = .next t ∧ (s.fiu a.inst).SameButReg .umaCfg (t.fiu a.inst)
      ∧ (t.fiu a.inst).get .cfgCmdsiz = 0#32 ∧ (t.fiu a.inst).get .cfgAddsiz = 0#32 ∧ (t.fiu a.inst).get .cfgDbsiz = 0#32
      ∧ ((t.fiu a.inst).get .cfgWdatsiz).toNat = min (a.ws - p.offset) 16
      ∧ ((t.fiu a.inst).get .cfgRdatsiz).toNat = min (a.rs - p.offset) 16 := by
  obtain ⟨t, et, -, on⟩ := ioctl_configures ha (.here within (.start within.1)) idle
  rw [Nat.zero_add, execN_one] at et
  rw [chunkCfg_eq, if_neg later, if_neg later, if_neg later, clampChunk_eq, clampChunk_eq] at on
  obtain ⟨cmdsiz, addsiz, wdatsiz, dbsiz, rdatsiz, -⟩ := packUmaCfg_fields (cm := 0) (ad := 0) (wr := min (a.ws - p.offset) 16)
    (du := 0) (rd := min (a.rs - p.offset) 16) (some wc) (some wa) (some ww) (some wa) (some wr) (by omega) (by omega) (by omega)
    (by omega) (by omega)
  have stored : ∀ {f : Field}, fieldReg f = .umaCfg → ∀ v : Word,
      ((s.fiu a.inst).setReg .umaCfg (v &&& regMask .umaCfg)).get f = getField f v := fun hf v => by
    rw [Fiu.get, hf, Fiu.rd_setReg_same, getField_and_regMask hf]
  refine ⟨t, et, ?_⟩
  rw [on.fiu]
  refine ⟨fun q hq => Fiu.rd_setReg_ne _ _ hq, ?_, ?_, ?_, ?_, ?_⟩
  · rw [stored rfl]; exact BitVec.eq_of_toNat_eq cmdsiz
  · rw [stored rfl]; exact BitVec.eq_of_toNat_eq addsiz
  · rw [stored rfl]; exact BitVec.eq_of_toNat_eq dbsiz
  · rw [stored rfl]; exact wdatsiz
  · rw [stored rfl]; exact rdatsiz

/-- After the first wait a request that holds the chip select asserts it next (R203, R207). -/
theorem ioctl_first_poll (ha : a.Legal wc wa ww wr) (within : s.At a.instr (p.to (.lp 1))) (first : p.offset = 0)
    (idle : (s.fiu a.inst).eng = .idle) (done : (s.fiu a.inst).DoneBit)
    (polls : (s.fiu a.inst).sup = .unbounded ∨ ∃ n, (s.fiu a.inst).sup = .bounded (n + 1)) :
    ∃ t, exec a.instr s = .next t ∧ t.At a.instr (p.to (if 16 < max a.rs a.ws then .l 2 0 else .l 3 0)) := by
  have due : pollDue (s.fiu a.inst).sup = true := by
    obtain polls | ⟨n, polls⟩ := polls <;> rw [polls] <;> rfl
  have waited := State.waitPoll_idle done due (Fiu.busy_false.2 idle)
  set w := State.setSup { s with trace := _ } a.inst .off with hw
  have live : w.Live := State.live_setSup (s := { s with trace := _ }) within.1 ha.inst .off
  have e : exec a.instr s = afterWait (s.waitPoll a.inst) (goTo a.instr (p.to (.lp 1))) (a.issue (p.to (.lp 1))) :=
    exec_ioctl ha (.inr within)
  have issued : a.issue (p.to (.lp 1)) .ok w = goTo a.instr (p.to (if a.hold then .l 2 0 else .l 3 0)) w := if_pos first
  rw [waited] at e
  simp only [IoctlArgs.hold_iff] at issued
  exact ⟨_, (e.trans issued).trans (goTo_live live.2.2 _ _), live, rfl⟩

/-- L2 asserts the chip select (R207). -/
theorem ioctl_asserts (ha : a.Legal wc wa ww wr) (within : s.At a.instr (p.to (.l 2 0))) (done : (s.fiu a.inst).DoneBit) :
    ∃ t, exec a.instr s = .next t ∧ (t.fiu a.inst).bit .ctsSwCs = false ∧ t.At a.instr (p.to (.l 3 0)) := by
  obtain ⟨-, -, mark, -⟩ := Fiu.wrf_cts done (f := .ctsSwCs) rfl (by decide) 0#32
  obtain ⟨low, -⟩ := Fiu.wrf_cts_fields done (f := .ctsSwCs) (.inr (.inl rfl)) 0#32
  obtain ⟨t, et, after, on⟩ := ((On.start within.1).wrf ha.inst (f := .ctsSwCs) nofun mark).goTo a.instr (p.to (.l 3 0))
  have e : exec a.instr s = goTo a.instr (p.to (.l 3 0)) (s.wrf a.inst .ctsSwCs 0#32) := exec_ioctl ha (.inr within)
  refine ⟨t, e.trans et, ?_, after⟩
  rw [on.fiu]
  exact congrArg (· == 1#32) low

/-- The wait of L6 is out (R206). -/
theorem ioctl_timesOut_harvest (ha : a.Legal wc wa ww wr) (within : s.At a.instr p)
    (out : s.TimesOut a.inst a.timeout p (.l 6 0) (.lp 6)) : exec a.instr s = a.failed a.hold p (s.setSup a.inst .off) :=
  exec_timesOut out within ha.inst (fun h => exec_ioctl ha (.inr h)) (fun h => exec_ioctl ha (.inr h)) (fun _ => rfl) fun _ => rfl

/-- The wait of L1 is out: before the first chunk no chip select is asserted yet (R206). -/
theorem ioctl_timesOut_issue (ha : a.Legal wc wa ww wr) (within : s.At a.instr p)
    (out : s.TimesOut a.inst a.timeout p (.l 1 0) (.lp 1)) :
    exec a.instr s = a.failed (a.hold && p.offset != 0) p (s.setSup a.inst .off) :=
  exec_timesOut out within ha.inst (fun h => exec_ioctl ha (.inr h)) (fun h => exec_ioctl ha (.inr h)) (fun _ => rfl) fun _ => rfl

/-- The failure exit with no chip select asserted ends the request at once (R206). -/
theorem fails_at_once {i : Instr} {inst : Nat} {res : Result} (within : s.At i p) (hi : inst < Config.nFiu)
    (out : exec i s = finish res (s.setSup inst .off)) :
    ∃ t, exec i s = .next t ∧ (t.fiu inst).regs = (s.fiu inst).regs ∧ s.Ended t res := by
  obtain ⟨t, et, ended, -, fiu⟩ := ((On.start within.1).setSup hi .off).finish res
  refine ⟨t, out.trans et, ?_, ended⟩
  rw [fiu]

end IoctlSteps

/-! ### `page_write`: the failure exit (R213) -/

section PageWriteSteps

variable {inst dev size : Nat} {cmd : Byte} {addr timeout : Word} {data : List Byte} {s : State} {p : Pos}

/-- What `page_write` does when the wait of a chunk is over (R212, R213). -/
def pageWriteWaited (i : Instr) (size : Nat) (p : Pos) (st : Status) (s : State) : Out :=
  match st with
  | .ok =>
      if p.offset + 16 < size then goTo i { p with label := .l 1 2, offset := p.offset + 16 } s
      else goTo i { p with label := .fin, offset := p.offset + 16 } s
  | _ => goTo i (p.to .fail) s

theorem pageWrite_timesOut (hi : inst < Config.nFiu) (hd : dev < 4)
    (within : s.At (.pageWrite inst dev cmd addr size timeout data) p) (out : s.TimesOut inst timeout p (.l 5 0) (.lp 5)) :
    exec (.pageWrite inst dev cmd addr size timeout data) s =
      goTo (.pageWrite inst dev cmd addr size timeout data) (p.to .fail) (s.setSup inst .off) :=
  exec_timesOut (f := goTo _ (p.to .fail)) out within hi (fun h => hostStep_devOk_at hi hd (.inr h))
    (fun h => hostStep_devOk_at hi hd (.inr h)) (fun _ => rfl) fun _ => rfl

end PageWriteSteps

/-- Settles O54, label by label: the configuration of a continuation chunk, the first poll, L2, and the exits of the waits. -/
theorem chunkedRequestSteps : Obligations.ChunkedRequestSteps := by
  intro s p inst dev cmd addr asz rs ws cb ab wb rb timeout dummy buf hi hd hdummy hasz hwidths done i j
  let a : IoctlArgs := ⟨inst, dev, cmd, addr, asz, rs, ws, cb, ab, wb, rb, timeout, dummy, buf⟩
  obtain ⟨wc, wa, ww, wr, ha⟩ := a.legal hi hd hasz hdummy hwidths
  refine ⟨fun within label later idle => ?configures, fun within label first idle polls => ?polls, fun within label => ?asserts,
    fun within out long => ?releases, fun within out => ?ends, fun within out => ?pageWrite⟩
  case configures => exact ioctl_configures_continuation ha (Pos.to_self label ▸ within) later idle
  case polls => exact ioctl_first_poll ha (Pos.to_self label ▸ within) first idle done polls
  case asserts => exact ioctl_asserts ha (Pos.to_self label ▸ within) done
  case releases =>
    have hold : a.hold = true := IoctlArgs.hold_iff.2 long
    have exits : exec a.instr s = goTo a.instr (p.to .fail) (s.setSup inst .off) := by
      obtain out | ⟨out, later⟩ := out
      · exact (ioctl_timesOut_harvest ha within out).trans (if_pos hold)
      · exact (ioctl_timesOut_issue ha within out).trans (if_pos (by simp [hold, later]))
    obtain ⟨u, t, eu, word, et, high, -, ended⟩ :=
      fails_releasing (res := .data .timeout p.acc) within hi done exits fun h => exec_ioctl ha (.inr h)
    exact ⟨u, t, eu, word, et, high, ended⟩
  case ends =>
    have released : max rs ws ≤ 16 → a.hold ≠ true := fun short hold => absurd (IoctlArgs.hold_iff.1 hold) (by simpa [a] using short)
    refine fails_at_once within hi ?_
    obtain ⟨out, short⟩ | ⟨out, short⟩ := out
    · exact (ioctl_timesOut_harvest ha within out).trans (if_neg (released short))
    · refine (ioctl_timesOut_issue ha within out).trans (if_neg ?_)
      obtain short | first := short
      · simp [released short]
      · simp [first]
  case pageWrite =>
    exact fails_releasing within hi done (pageWrite_timesOut hi hd within out) fun h => hostStep_devOk_at hi hd (.inr h)

/-! ### A chunk of `uma_ioctl`, in and out of a frame -/

/-- The write buffer filled with `data` where there is data (R205 L4). -/
def Fiu.fill (b : Fiu) (data : List Byte) : Fiu := if data = [] then b else b.setWriteBuffer (packWord data)

section Fill

variable {b c : Fiu} {data : List Byte}

theorem Fiu.fill_rd (b : Fiu) (data : List Byte) {q : Reg} (h : ∀ k, q ≠ .umaDw k) : (b.fill data).rd q = b.rd q := by
  unfold Fiu.fill
  split
  · rfl
  · exact b.setWriteBuffer_rd _ h

theorem Fiu.fill_unmodelled (b : Fiu) (data : List Byte) : (b.fill data).unmodelled = b.unmodelled := by
  unfold Fiu.fill
  split <;> rfl

/-- The write buffer begins with the data. -/
theorem Fiu.setWriteBuffer_take (b : Fiu) {data : List Byte} (h : data.length ≤ 16) :
    ((List.range 16).map (b.setWriteBuffer (packWord data)).writeByte).take data.length = data := by
  rw [map_eq_padded data data.length h rfl _ fun j hj => b.setWriteBuffer_writeByte data hj, List.take_left]

theorem Fiu.fill_take (b : Fiu) {data : List Byte} (h : data.length ≤ 16) :
    ((List.range 16).map (b.fill data).writeByte).take data.length = data := by
  unfold Fiu.fill
  split
  · next empty => simp [empty]
  · exact b.setWriteBuffer_take h

theorem Fiu.Prepared.fill {dev : Nat} {addr : Word} {cmd : Byte} {word : Word} (h : b.Prepared dev addr cmd word c)
    (data : List Byte) : (b.fill data).Prepared dev addr cmd word (c.fill data) := by
  unfold Fiu.fill
  split
  · exact h
  · exact h.setWriteBuffer _

theorem Fiu.Holds.fill {dev : Nat} {w : List WireEvent} (h : b.Holds dev w c) (data : List Byte) : b.Holds dev w (c.fill data) := by
  unfold Fiu.fill
  split
  · exact h
  · exact h.setWriteBuffer _

end Fill

/-- `SUP` is no part of a prepared transaction. -/
theorem Fiu.Prepared.withSup {b c : Fiu} {dev : Nat} {addr : Word} {cmd : Byte} {word : Word} (h : b.Prepared dev addr cmd word c)
    (q : Sup) : b.Prepared dev addr cmd word (c.withSup q) :=
  ⟨h.idle, h.done, h.devNum, h.swCs, h.addr, h.cmd, h.cfg, h.regs, h.unmodelled, h.fourb⟩

/-- Four steps store the write buffer (R205 L4, R211 L2). -/
theorem Quiet.writeBuffer {inst n : Nat} {s0 : State} {i : Instr} {p0 p : Pos} {l : Nat → Label} {next : Label} {b c : Fiu}
    {data : List Byte} (h : Quiet inst s0 i n p0 b (p.to (l 0)) c) (hi : inst < Config.nFiu) (idle : c.eng = .idle)
    (store : ∀ k {t}, t.At i (p.to (l k)) →
      exec i t = goTo i (p.to (if k < 3 then l (k + 1) else next)) (t.hostWrite inst (.umaDw (dataIndex k)) (packWord data k))) :
    Quiet inst s0 i (n + 4) p0 b (p.to next) (c.setWriteBuffer (packWord data)) := by
  have one : ∀ (k : Nat) {n : Nat} {d : Fiu}, d.eng = .idle → Quiet inst s0 i n p0 b (p.to (l k)) d →
      Quiet inst s0 i (n + 1) p0 b (p.to (if k < 3 then l (k + 1) else next))
        (d.setReg (.umaDw (dataIndex k)) (packWord data k)) := by
    intro k n d idle quiet
    rw [← dw_and_mask (packWord data k) (dataIndex k)]
    exact quiet.step idle fun runs => runs.store hi idle (.inr (.inr (.inr ⟨_, rfl⟩))) (store k)
  exact one 3 idle (one 2 idle (one 1 idle (one 0 idle h)))

/-- The end of the wait between the stores of a transaction may as well come after them. -/
theorem Fiu.prepare_withSup (b : Fiu) (dev : Nat) (addr : Word) (cmd : Byte) (word : Word) (q : Sup) :
    ((((b.wrf .ctsDevNum (nat32 dev)).withSup q).setReg .umaAddr (addr &&& regMask .umaAddr)).setReg .umaCmd
      (cmd.setWidth 32 &&& regMask .umaCmd)).setReg .umaCfg (word &&& regMask .umaCfg) = (b.prepare dev addr cmd word).withSup q := rfl

section IoctlChunk

variable {a : IoctlArgs} {wc wa ww wr : Width} {s s0 : State} {p : Pos} {b c : Fiu}

theorem IoctlArgs.length_chunk (hbuf : a.buf.length = a.ws) (offset : Nat) : (a.chunk offset).length = clampChunk a.ws offset := by
  rw [IoctlArgs.chunk, List.length_take, List.length_drop, hbuf, clampChunk_eq]
  omega

/-- The `UMA_CFG` word of the chunk at `offset` (R204). -/
def IoctlArgs.word (a : IoctlArgs) (wc wa ww wr : Width) (offset : Nat) : Word :=
  chunkCfg offset a.asz (clampChunk a.ws offset) a.dummy (clampChunk a.rs offset) wc wa ww wr

/-- L3 and L4: the configuration, then the data where there is data. -/
theorem ioctl_fills (ha : a.Legal wc wa ww wr) (hbuf : a.buf.length = a.ws) (idle : c.eng = .idle) :
    Quiet a.inst s0 a.instr (if a.chunk p.offset = [] then 1 else 5) (p.to (.l 3 2)) c (p.to (.l 5 0))
      ((c.setReg .umaCfg (a.word wc wa ww wr p.offset &&& regMask .umaCfg)).fill (a.chunk p.offset)) := by
  have configured := Quiet.refl.step idle fun {t} runs => ioctl_configures (s := t) (s0 := s0) (p := p) ha runs idle
  have length := IoctlArgs.length_chunk hbuf p.offset
  unfold Fiu.fill
  split
  · next empty =>
    rw [empty, List.length_nil] at length
    rwa [if_neg (by omega)] at configured
  · next some =>
    have due : 0 < clampChunk a.ws p.offset := length ▸ List.length_pos_iff.2 some
    rw [if_pos due] at configured
    exact configured.writeBuffer (l := .l 4) ha.inst idle fun k _ h => exec_ioctl ha (.inr h)

/-- The position of the harvest at data register `k` (R205 L7). -/
def harvestPos (p : Pos) (c : Fiu) (k : Nat) : Pos := { p.to (.l 7 k) with words := c.readWords k }

/-- L7 at data register `k` of the chunk at `p`. -/
theorem ioctl_reads (ha : a.Legal wc wa ww wr) (idle : c.eng = .idle) {k : Nat} {t : State} (within : t.At a.instr (harvestPos p c k))
    (on : On a.inst s0 t c) :
    ∃ x, On a.inst s0 x c ∧ exec a.instr t =
      if harvestDue (clampChunk a.rs p.offset) (k + 1) then goTo a.instr (harvestPos p c (k + 1)) x
      else a.chunkDone { p with acc := p.acc ++ unpackBytes (c.readWords (k + 1)) (clampChunk a.rs p.offset) } x := by
  obtain ⟨value, on⟩ := on.hostRead (r := .umaDr (dataIndex k)) (.inl (Fiu.busy_false.2 idle))
  refine ⟨_, on, (exec_ioctl ha (.inr within)).trans ?_⟩
  unfold harvestPos
  rw [c.readWords_succ, ← value]
  rfl

/-- L7 reads the data registers one by one, up to the last that holds a byte of the chunk. -/
theorem ioctl_harvests (ha : a.Legal wc wa ww wr) (idle : c.eng = .idle) {k : Nat} (due : k < (clampChunk a.rs p.offset + 3) / 4) :
    Quiet a.inst s0 a.instr k (harvestPos p c 0) c (harvestPos p c k) c := by
  have small : clampChunk a.rs p.offset ≤ 16 := Nat.min_le_right _ _
  induction k with
  | zero => exact .refl
  | succ k ih =>
    refine (ih (by omega)).step idle fun runs => runs.step fun t within on => ?_
    obtain ⟨x, on, e⟩ := ioctl_reads ha idle within on
    exact ⟨x, e.trans (if_pos ((harvestDue_iff small).2 due)), on⟩

/-- The last read of a chunk of `n` bytes leads to L8 with the bytes harvested. -/
theorem ioctl_harvested (ha : a.Legal wc wa ww wr) (idle : c.eng = .idle) {k : Nat} (last : (clampChunk a.rs p.offset + 3) / 4 = k + 1)
    {t : State} (within : t.At a.instr (harvestPos p c k)) (on : On a.inst s0 t c) :
    ∃ x, exec a.instr t = a.chunkDone { p with acc := p.acc ++ unpackBytes (c.readWords (k + 1)) (clampChunk a.rs p.offset) } x
      ∧ On a.inst s0 x c := by
  have small : clampChunk a.rs p.offset ≤ 16 := Nat.min_le_right _ _
  obtain ⟨x, on, e⟩ := ioctl_reads ha idle within on
  refine ⟨x, e.trans (if_neg fun due => ?_), on⟩
  have := (harvestDue_iff small).1 due
  omega

/-- L6 over: the harvest, where the chunk has bytes to read. -/
theorem ioctl_harvest_some (p : Pos) {n : Nat} (hn : clampChunk a.rs p.offset = n + 1) (s : State) :
    a.harvest (p.to (.l 6 0)) .ok s = goTo a.instr (p.to (.l 7 0)) s :=
  if_pos ((harvestDue_iff (Nat.min_le_right _ _)).2 (by show 0 < (clampChunk a.rs p.offset + 3) / 4; omega))

/-- L6 over: L8, where it has none. -/
theorem ioctl_harvest_none (p : Pos) (hn : clampChunk a.rs p.offset = 0) (s : State) :
    a.harvest (p.to (.l 6 0)) .ok s = a.chunkDone p s :=
  if_neg fun due => by
    have := (harvestDue_iff (n := clampChunk a.rs p.offset) (Nat.min_le_right _ _)).1 due
    omega

end IoctlChunk

/-! ### `uma_ioctl` of at most 16 bytes (R201 to R205, R208) -/

section OneChunk

variable {a : IoctlArgs} {wc wa ww wr : Width} {s : State}

/-- S1 and the first wait: the device is selected, and the chip select is asserted next where it is held (R202, R203). -/
theorem ioctl_begins (ha : a.Legal wc wa ww wr) (hs : s.Ready) (idle : (s.fiu a.inst).eng = .idle) (done : (s.fiu a.inst).DoneBit)
    (polls : a.timeout = 0#32 ∨ Config.pollPeriodUs ≤ a.timeout.toNat) :
    Runs a.inst s a.instr s 1 (startPos.to (.l 1 0)) ((s.fiu a.inst).wrf .ctsDevNum (nat32 a.dev))
      ∧ Quiet a.inst s a.instr 1 (startPos.to (.l 1 0)) ((s.fiu a.inst).wrf .ctsDevNum (nat32 a.dev))
          (startPos.to (if a.hold then .l 2 0 else .l 3 0)) (((s.fiu a.inst).wrf .ctsDevNum (nat32 a.dev)).withSup .off) := by
  obtain ⟨eng, doneBit, mark, -⟩ := Fiu.wrf_cts_idle idle done (f := .ctsDevNum) rfl nofun (nat32 a.dev)
  exact ⟨.first (exec_ioctl ha (.inl ⟨hs, rfl⟩)) ((On.start hs.1).wrf ha.inst (f := .ctsDevNum) nofun mark),
    Quiet.refl.step eng fun runs => runs.waits ha.inst eng doneBit polls (fun h => exec_ioctl ha (.inr h)) rfl⟩

/-- L3: the address and the command (R204). -/
theorem ioctl_heads (ha : a.Legal wc wa ww wr) {s0 : State} {p : Pos} {c : Fiu} (idle : c.eng = .idle) :
    Quiet a.inst s0 a.instr 2 (p.to (.l 3 0)) c (p.to (.l 3 2))
      ((c.setReg .umaAddr (a.addr &&& regMask .umaAddr)).setReg .umaCmd (a.cmd.setWidth 32 &&& regMask .umaCmd)) := by
  have address : Quiet a.inst s0 a.instr 1 (p.to (.l 3 0)) c (p.to (.l 3 1)) (c.setReg .umaAddr (a.addr &&& regMask .umaAddr)) :=
    Quiet.refl.step idle fun runs => runs.store ha.inst idle (.inr (.inr (.inl rfl))) fun h => exec_ioctl ha (.inr h)
  exact address.step idle fun runs => runs.store ha.inst idle (.inr (.inl rfl)) fun h => exec_ioctl ha (.inr h)

/-- The transaction that `uma_ioctl` arms as one chunk (R204). -/
def IoctlArgs.descr (a : IoctlArgs) (b : Fiu) : Descr :=
  { dev := a.dev, held := !(b.bit .ctsSwCs), cmdsiz := 1, addsiz := a.asz, wdatsiz := a.ws, dbsiz := a.dummy, rdatsiz := a.rs
    cmbpck := Nat.log2 a.cb, adbpck := Nat.log2 a.ab, wdbpck := Nat.log2 a.wb, dbpck := Nat.log2 a.ab, rdbpck := Nat.log2 a.rb
    cmd := a.cmd, addr := a.addr
    wdata := if a.ws = 0 then (List.range 16).map b.writeByte else a.buf ++ List.replicate (16 - a.ws) 0#8 }

theorem IoctlArgs.chunk_whole (hbuf : a.buf.length = a.ws) (hws : a.ws ≤ 16) : a.chunk 0 = a.buf :=
  List.take_of_length_le (by rw [List.drop_zero, hbuf, clampChunk_eq]; omega)

/-- The bytes that the transaction of one chunk writes: those of the operands, else what stands in the write buffer. -/
theorem Fiu.fill_writeByte (b : Fiu) {data : List Byte} {n : Nat} (hn : n ≤ 16) (hl : data.length = n) :
    (List.range 16).map (b.fill data).writeByte =
      if n = 0 then (List.range 16).map b.writeByte else data ++ List.replicate (16 - n) 0#8 := by
  unfold Fiu.fill
  by_cases empty : data = []
  · rw [if_pos empty, if_pos (by rw [← hl, empty]; rfl)]
  · rw [if_neg empty, if_neg (by rw [← hl]; exact fun h => empty (List.length_eq_zero_iff.1 h))]
    exact map_eq_padded data n hn hl _ fun j hj => b.setWriteBuffer_writeByte data hj

/-- Six steps, or ten with data, arm the transaction of one chunk. -/
theorem ioctl_arms (ha : a.Legal wc wa ww wr) (hbuf : a.buf.length = a.ws) (hrs : a.rs ≤ 16) (hws : a.ws ≤ 16) (hs : s.Ready)
    (idle : (s.fiu a.inst).eng = .idle) (done : (s.fiu a.inst).DoneBit)
    (free : ∀ k < 2, csForced ((s.fiu a.inst).rd .prtCfg) k ≠ some false)
    (polls : a.timeout = 0#32 ∨ Config.pollPeriodUs ≤ a.timeout.toNat) :
    ∃ c, Runs a.inst s a.instr s (if a.ws = 0 then 6 else 10) (startPos.to (.l 6 0)) c
      ∧ ((s.fiu a.inst).fill a.buf).Armed (a.descr (s.fiu a.inst)) c := by
  obtain ⟨first, waits⟩ := ioctl_begins ha hs idle done polls
  obtain ⟨eng, -⟩ := Fiu.wrf_cts_idle idle done (f := .ctsDevNum) rfl nofun (nat32 a.dev)
  have short : ¬ a.hold = true := fun hold => absurd (IoctlArgs.hold_iff.1 hold) (by omega)
  rw [if_neg short] at waits
  have filled := ((first.quiet waits).quiet (ioctl_heads ha eng)).quiet (ioctl_fills ha hbuf eng)
  have whole : a.chunk startPos.offset = a.buf := IoctlArgs.chunk_whole hbuf hws
  have word : a.word wc wa ww wr startPos.offset =
      packUmaCfg 1 a.asz a.ws a.dummy a.rs (some wc) (some wa) (some ww) (some wa) (some wr) := by
    rw [IoctlArgs.word, chunkCfg_eq, clampChunk_eq, clampChunk_eq]
    simp [startPos, hws, hrs]
  rw [whole, word, Fiu.prepare_withSup] at filled
  have prepared := ((Fiu.prepared_prepare idle done ha.dev a.addr a.cmd
    (packUmaCfg 1 a.asz a.ws a.dummy a.rs (some wc) (some wa) (some ww) (some wa) (some wr))).withSup .off).fill a.buf
  have prtCfg : ((s.fiu a.inst).fill a.buf).rd .prtCfg = (s.fiu a.inst).rd .prtCfg := Fiu.fill_rd _ _ nofun
  have armed := prepared.arm ha.dev le_rfl ha.asz hws ha.dummy hrs (prtCfg ▸ free)
  have steps : (if a.ws = 0 then 6 else 10) = 1 + 1 + 2 + (if a.buf = [] then 1 else 5) + 1 := by
    rw [if_congr (hbuf ▸ List.length_eq_zero_iff) rfl rfl]
    split <;> rfl
  refine ⟨_, steps ▸ filled.wrf (f := .ctsExecDone) ha.inst nofun (fun h => exec_ioctl ha (.inr h))
    (armed.sets_no_mark prepared.unmodelled), ?_⟩
  have swCs : ((s.fiu a.inst).fill a.buf).bit .ctsSwCs = (s.fiu a.inst).bit .ctsSwCs :=
    congrArg (flag .ctsSwCs) (Fiu.fill_rd _ _ (q := .umaCts) nofun)
  rw [swCs, Fiu.fill_writeByte _ hws hbuf] at armed
  rw [IoctlArgs.descr, ← ha.cmdCode, ← ha.addrCode, ← ha.writeCode, ← ha.readCode]
  exact armed

/-- L8 of the only chunk ends the request (R205). -/
theorem ioctl_only_chunk (hrs : a.rs ≤ 16) (hws : a.ws ≤ 16) (p : Pos) (s : State) :
    a.chunkDone p s = finish (.data .ok p.acc) s := by
  have noMore : ¬ p.offset + 16 < max a.rs a.ws := by omega
  have noHold : ¬ a.hold = true := fun hold => absurd (IoctlArgs.hold_iff.1 hold) (by omega)
  exact (if_neg noMore).trans (if_neg noHold)

/-- When the engine has completed, the wait is over after one poll, and the bytes follow (R205, R208). -/
theorem ioctl_completes (ha : a.Legal wc wa ww wr) (hrs : a.rs ≤ 16) (hws : a.ws ≤ 16) {s0 v : State} {d : Fiu}
    (within : v.At a.instr (startPos.to (.l 6 0))) (on : On a.inst s0 v d) (idle : d.eng = .idle) (done : d.DoneBit)
    (polls : a.timeout = 0#32 ∨ Config.pollPeriodUs ≤ a.timeout.toNat) :
    ∃ t, execN (1 + (a.rs + 3) / 4) a.instr v = .next t ∧ s0.Ended t (.data .ok (unpackBytes (d.readWords ((a.rs + 3) / 4)) a.rs))
      ∧ s0.SameOthers a.inst t ∧ t.fiu a.inst = d.withSup .off := by
  have whole : clampChunk a.rs startPos.offset = a.rs := Nat.min_eq_left hrs
  have waited : ∀ {t}, t.At a.instr (startPos.to (.l 6 0)) → exec a.instr t = afterWait (t.waitEnter a.inst a.timeout)
      (goTo a.instr (startPos.to (.lp 6))) (a.harvest (startPos.to (.l 6 0))) := fun h => exec_ioctl ha (.inr h)
  cases hr : a.rs with
  | zero =>
    refine (Runs.here within on).finish fun t within on => ?_
    obtain ⟨w, ew, on⟩ := on.waitEnter ha.inst done (Fiu.busy_false.2 idle) polls
    refine ⟨w, ?_, on⟩
    rw [waited within, ew]
    exact (ioctl_harvest_none startPos (whole.trans hr) w).trans (ioctl_only_chunk hrs hws startPos w)
  | succ n =>
    obtain ⟨k, hk⟩ : ∃ k, (a.rs + 3) / 4 = k + 1 := ⟨(a.rs + 3) / 4 - 1, by omega⟩
    have last : (clampChunk a.rs startPos.offset + 3) / 4 = k + 1 := by rw [whole, hk]
    have poll : Runs a.inst s0 a.instr v 1 (harvestPos startPos (d.withSup .off) 0) (d.withSup .off) :=
      (Runs.here within on).waits ha.inst idle done polls waited fun {t} => ioctl_harvest_some startPos (whole.trans hr) t
    have reads := poll.quiet (ioctl_harvests ha (p := startPos) (c := d.withSup .off) idle (k := k) (by omega))
    rw [← hr, hk]
    refine reads.finish fun t within on => ?_
    obtain ⟨x, e, on⟩ := ioctl_harvested (c := d.withSup .off) ha idle last within on
    refine ⟨x, ?_, on⟩
    rw [e, ioctl_only_chunk hrs hws, whole]
    rfl

end OneChunk

/-- Settles O53: six or ten steps arm the transaction; the engine completes it, and the bytes are harvested. -/
theorem umaIoctlOneChunk : Obligations.UmaIoctlOneChunk := by
  intro s inst dev cmd addr asz rs ws cb ab wb rb timeout dummy buf hs hi hd hrs hws hbuf hdummy hasz hwidths idle done free polls i
  let a : IoctlArgs := ⟨inst, dev, cmd, addr, asz, rs, ws, cb, ab, wb, rb, timeout, dummy, buf⟩
  obtain ⟨wc, wa, ww, wr, ha⟩ := a.legal hi hd hasz hdummy hwidths
  obtain ⟨c, ⟨u, eu, within, on⟩, armed⟩ := ioctl_arms ha hbuf hrs hws hs idle done free polls
  obtain ⟨v, d, ev, withinV, onV, idleD, doneD⟩ := on.engine_completes within hi armed
  obtain ⟨t, et, ended, others, fiu⟩ := ioctl_completes ha hrs hws withinV onV idleD doneD polls
  obtain ⟨length, bytes⟩ := harvest_bytes d rs
  refine ⟨u, v, t, unpackBytes (d.readWords ((rs + 3) / 4)) rs, eu, ?_⟩
  rw [on.fiu, onV.fiu]
  refine ⟨armed.eng, fun q hcts haddr hcmd hcfg kept => ?regs, ?mark, on.others, ev, et, ended, length, bytes, fiu, others⟩
  case regs =>
    refine (armed.regs q hcts haddr hcmd hcfg).trans ?_
    obtain empty | kept := kept
    · exact congrArg (Fiu.rd · q) (if_pos (List.length_eq_zero_iff.1 (hbuf.trans empty)))
    · exact Fiu.fill_rd _ _ kept
  case mark => exact armed.unmodelled.trans (Fiu.fill_unmodelled _ _)

/-! ### A transaction inside a frame, with the engine prompt -/

/-- Instance `c` inside a frame, with the address and the command of its request stored. -/
structure Fiu.InFrame (b : Fiu) (dev : Nat) (addr : Word) (cmd : Byte) (w : List WireEvent) (c : Fiu) : Prop
    extends b.Holds dev w c where
  addr : c.rd .umaAddr = addr
  cmd : c.rd .umaCmd = cmd.setWidth 32

section InFrame

variable {b c : Fiu} {dev : Nat} {addr : Word} {cmd : Byte} {w : List WireEvent}

/-- The address and the command stored in a frame. -/
theorem Fiu.Holds.inFrame (h : b.Holds dev w c) (addr : Word) (cmd : Byte) :
    b.InFrame dev addr cmd w
      ((c.setReg .umaAddr (addr &&& regMask .umaAddr)).setReg .umaCmd (cmd.setWidth 32 &&& regMask .umaCmd)) where
  toHolds := (h.setReg (r := .umaAddr) nofun nofun _).setReg (r := .umaCmd) nofun nofun _
  addr := by simp [Fiu.rd_setReg, addr_and_mask]
  cmd := by simp [cmd_and_mask]

theorem Fiu.InFrame.withSup (h : b.InFrame dev addr cmd w c) (q : Sup) : b.InFrame dev addr cmd w (c.withSup q) :=
  ⟨h.toHolds.withSup q, h.addr, h.cmd⟩

/-- The configuration and the data of a chunk stored in a frame. -/
theorem Fiu.InFrame.configured (h : b.InFrame dev addr cmd w c) (v : Word) (data : List Byte) :
    b.InFrame dev addr cmd w ((c.setReg .umaCfg v).fill data) where
  toHolds := (h.toHolds.setReg (r := .umaCfg) nofun nofun v).fill data
  addr := by rw [Fiu.fill_rd _ _ (by nofun), Fiu.rd_setReg_ne _ _ (by nofun), h.addr]
  cmd := by rw [Fiu.fill_rd _ _ (by nofun), Fiu.rd_setReg_ne _ _ (by nofun), h.cmd]

/-- The descriptor that the trigger latches in a frame, of the operands packed into `UMA_CFG` (R48). -/
theorem Fiu.InFrame.descr {cm ad wr du rd : Nat} {wc wa ww wd wx : Option Width} (h : b.InFrame dev addr cmd w c)
    (h1 : cm < 2) (h2 : ad < 8) (h3 : wr < 32) (h4 : du < 8) (h5 : rd < 32)
    (cfg : c.rd .umaCfg = packUmaCfg cm ad wr du rd wc wa ww wd wx &&& regMask .umaCfg) :
    descrOf c dev true =
      { dev := dev, held := true, cmdsiz := cm, addsiz := ad, wdatsiz := wr, dbsiz := du, rdatsiz := rd, cmbpck := optCode wc
        adbpck := optCode wa, wdbpck := optCode ww, dbpck := optCode wd, rdbpck := optCode wx, cmd := cmd, addr := addr
        wdata := (List.range 16).map c.writeByte } :=
  descrOf_packed h1 h2 h3 h4 h5 cfg h.cmd h.addr dev true

/-- The trigger and the wait of a chunk: the prompt engine drives the transaction between them. -/
theorem Prompts.transaction {inst : Nat} {s0 s : State} {i : Instr} {p q r : Pos} {l : Descr} {timeout : Word} {stay : State → Out}
    {cont : Status → State → Out} (h : Prompts inst s0 i s p c) (frame : b.InFrame dev addr cmd w c) (hi : inst < Config.nFiu)
    (hd : dev < 4) (free : b.Unguarded) (latched : descrOf c dev true = l) (legal : LegalDescr l)
    (polls : timeout = 0#32 ∨ Config.pollPeriodUs ≤ timeout.toNat)
    (trigger : ∀ {t}, t.At i p → exec i t = goTo i q (t.wrf inst .ctsExecDone 1#32))
    (wait : ∀ {t}, t.At i q → exec i t = afterWait (t.waitEnter inst timeout) stay cont)
    (leave : ∀ {t}, cont .ok t = goTo i r t) :
    ∃ bytes d, Prompts inst s0 i s r d ∧ bytes.length = l.rdatsiz ∧ (∀ j < bytes.length, d.readByte j = bytes.getD j 0#8)
      ∧ b.InFrame dev addr cmd (w ++ outPhases l ++ phaseEvent .rdata l.rdbpck bytes) d := by
  obtain ⟨eng, mark, bytes, length, read, holds, regs⟩ := frame.toHolds.transaction hd free inst latched legal
  have armed := h.step frame.idle fun runs => runs.wrf (f := .ctsExecDone) hi nofun trigger mark
  have ended := armed.completes hi eng fun runs => runs.waits hi holds.idle holds.done polls wait leave
  exact ⟨bytes, _, ended, length, read, holds.withSup .off, (regs .umaAddr nofun nofun).trans frame.addr,
    (regs .umaCmd nofun nofun).trans frame.cmd⟩

end InFrame

/-- A phase with bytes is one event, an empty one none (R174). -/
theorem phaseEvent_of_length {kind : PhaseKind} {code n : Nat} {bytes : List Byte} (h : bytes.length = n) :
    phaseEvent kind code bytes = if n = 0 then [] else [.phase kind (codeBits code) bytes] := by
  subst h
  cases bytes <;> rfl

/-- A data phase is one event where its chunk has bytes. -/
theorem phaseEvent_chunk {kind : PhaseKind} {code size offset : Nat} {bytes : List Byte} (h : bytes.length = clampChunk size offset) :
    phaseEvent kind code bytes = if offset < size then [.phase kind (codeBits code) bytes] else [] := by
  rw [phaseEvent_of_length h, clampChunk_eq]
  by_cases due : offset < size
  · rw [if_neg (by omega), if_pos due]
  · rw [if_pos (by omega), if_neg due]

theorem length_addrBytes (addr : Word) (n : Nat) : (addrBytes addr n).length = n := by simp [addrBytes]

/-- The bytes that the harvest unpacks are those of the read phase. -/
theorem unpackBytes_readWords {d : Fiu} {bytes : List Byte} (h : ∀ j < bytes.length, d.readByte j = bytes.getD j 0#8) :
    unpackBytes (d.readWords ((bytes.length + 3) / 4)) bytes.length = bytes := by
  obtain ⟨length, read⟩ := harvest_bytes d bytes.length
  refine List.ext_getElem length fun j hj hj' => ?_
  rw [← List.getD_eq_getElem _ 0#8 hj, ← List.getD_eq_getElem _ 0#8 hj']
  exact (read j hj').trans (h j hj')

/-! ### `uma_ioctl` of more than 16 bytes, chunk by chunk (R202 to R208) -/

section IoctlFrame

variable {a : IoctlArgs} {wc wa ww wr : Width} {s s0 : State} {b c : Fiu} {p : Pos} {w : List WireEvent}

/-- The position after L8 of a request that holds the chip select. -/
def IoctlArgs.after (a : IoctlArgs) (p : Pos) : Pos := p.advance.to (if p.offset + 16 < max a.rs a.ws then .l 1 0 else .fin)

theorem ioctl_next_chunk (long : 16 < max a.rs a.ws) (p : Pos) (s : State) : a.chunkDone p s = goTo a.instr (a.after p) s := by
  unfold IoctlArgs.chunkDone IoctlArgs.after
  rw [if_pos (IoctlArgs.hold_iff.2 long)]
  split <;> rfl

/-- The widths on the wire are those of the operands. -/
theorem IoctlArgs.Legal.codeBits (ha : a.Legal wc wa ww wr) : codeBits (widthCode wc) = a.cb ∧ codeBits (widthCode wa) = a.ab
    ∧ codeBits (widthCode ww) = a.wb ∧ codeBits (widthCode wr) = a.rb := by
  rw [ha.cmdCode, ha.addrCode, ha.writeCode, ha.readCode]
  exact ⟨codeBits_log2 (ha.bits _ (.inl rfl)), codeBits_log2 (ha.bits _ (.inr (.inl rfl))),
    codeBits_log2 (ha.bits _ (.inr (.inr (.inl rfl)))), codeBits_log2 (ha.bits _ (.inr (.inr (.inr rfl))))⟩

/-- The phases that only the first chunk has (R204). -/
def IoctlArgs.head (a : IoctlArgs) : List WireEvent :=
  [.phase .cmd a.cb [a.cmd]] ++ (if a.asz = 0 then [] else [.phase .addr a.ab (addrBytes a.addr a.asz)])
    ++ (if a.dummy = 0 then [] else [.dummy a.ab a.dummy])

/-- The data phases of the chunk at `offset`, with `r` the bytes that it reads (R204, R205). -/
def IoctlArgs.data (a : IoctlArgs) (offset : Nat) (r : List Byte) : List WireEvent :=
  (if offset < a.ws then [.phase .wdata a.wb ((a.buf.drop offset).take 16)] else [])
    ++ (if offset < a.rs then [.phase .rdata a.rb r] else [])

/-- The transaction of the chunk at `offset`, with `data` the sixteen bytes of the write buffer. -/
def IoctlArgs.chunkDescr (a : IoctlArgs) (wc wa ww wr : Width) (offset : Nat) (data : List Byte) : Descr :=
  { dev := a.dev, held := true, cmdsiz := if offset = 0 then 1 else 0, addsiz := if offset = 0 then a.asz else 0
    wdatsiz := clampChunk a.ws offset, dbsiz := if offset = 0 then a.dummy else 0, rdatsiz := clampChunk a.rs offset
    cmbpck := widthCode wc, adbpck := widthCode wa, wdbpck := widthCode ww, dbpck := widthCode wa, rdbpck := widthCode wr
    cmd := a.cmd, addr := a.addr, wdata := data }

theorem IoctlArgs.chunkDescr_legal (ha : a.Legal wc wa ww wr) (offset : Nat) (data : List Byte) :
    LegalDescr (a.chunkDescr wc wa ww wr offset data) := by
  refine ⟨fun _ => widthCode_le _, fun _ => widthCode_le _, fun _ => widthCode_le _, fun _ => widthCode_le _, fun _ => widthCode_le _,
    ?_, Nat.min_le_right _ _, Nat.min_le_right _ _⟩
  unfold IoctlArgs.chunkDescr
  dsimp only
  split
  · exact ha.asz
  · exact .inl rfl

theorem IoctlArgs.chunk_eq (hbuf : a.buf.length = a.ws) (offset : Nat) : a.chunk offset = (a.buf.drop offset).take 16 := by
  rw [IoctlArgs.chunk, clampChunk_eq, ← hbuf, ← List.length_drop, Nat.min_comm, ← List.take_eq_take_min]

/-- Its phases on the wire (R174). -/
theorem IoctlArgs.chunkDescr_phases (ha : a.Legal wc wa ww wr) (hbuf : a.buf.length = a.ws) {offset : Nat} {data r : List Byte}
    (filled : data.take (clampChunk a.ws offset) = a.chunk offset) (hr : r.length = clampChunk a.rs offset) :
    outPhases (a.chunkDescr wc wa ww wr offset data) ++ phaseEvent .rdata (widthCode wr) r =
      (if offset = 0 then a.head else []) ++ a.data offset r := by
  obtain ⟨cmdBits, addrBits, writeBits, readBits⟩ := ha.codeBits
  have head : phaseEvent .cmd (widthCode wc) (if (if offset = 0 then 1 else 0) = 1 then [a.cmd] else [])
        ++ phaseEvent .addr (widthCode wa) (addrBytes a.addr (if offset = 0 then a.asz else 0))
        ++ (if (if offset = 0 then a.dummy else 0) = 0 then []
          else [WireEvent.dummy (Machine.codeBits (widthCode wa)) (if offset = 0 then a.dummy else 0)])
      = if offset = 0 then a.head else [] := by
    rw [phaseEvent_of_length (length_addrBytes _ _), addrBits]
    split
    · rw [if_pos rfl, phaseEvent_of_length (n := 1) rfl, cmdBits]
      rfl
    · rfl
  have written := phaseEvent_chunk (kind := .wdata) (code := widthCode ww) (IoctlArgs.length_chunk hbuf offset)
  have read := phaseEvent_chunk (kind := .rdata) (code := widthCode wr) hr
  rw [writeBits, IoctlArgs.chunk_eq hbuf] at written
  rw [readBits] at read
  unfold outPhases IoctlArgs.data
  rw [← head, ← written, ← read, ← IoctlArgs.chunk_eq hbuf, ← filled, ← List.append_assoc]
  rfl

/-- A chunk in a frame, from its configuration to the end of its wait. -/
theorem ioctl_drives (ha : a.Legal wc wa ww wr) (hbuf : a.buf.length = a.ws) (free : b.Unguarded)
    (polls : a.timeout = 0#32 ∨ Config.pollPeriodUs ≤ a.timeout.toNat) (h : Prompts a.inst s0 a.instr s (p.to (.l 3 2)) c)
    (frame : b.InFrame a.dev a.addr a.cmd w c) {q : Pos}
    (leave : ∀ {t}, a.harvest (p.to (.l 6 0)) .ok t = goTo a.instr q t) :
    ∃ r d, Prompts a.inst s0 a.instr s q d ∧ r.length = clampChunk a.rs p.offset ∧ (∀ j < r.length, d.readByte j = r.getD j 0#8)
      ∧ b.InFrame a.dev a.addr a.cmd (w ++ ((if p.offset = 0 then a.head else []) ++ a.data p.offset r)) d := by
  have small : ∀ size, clampChunk size p.offset < 32 := fun size => Nat.lt_of_le_of_lt (Nat.min_le_right _ _) (by decide)
  have filled := h.quiet (ioctl_fills ha hbuf frame.idle)
  have inFrame := frame.configured (a.word wc wa ww wr p.offset &&& regMask .umaCfg) (a.chunk p.offset)
  generalize hc : (c.setReg .umaCfg (a.word wc wa ww wr p.offset &&& regMask .umaCfg)).fill (a.chunk p.offset) = d at filled inFrame
  have cfg : d.rd .umaCfg = a.word wc wa ww wr p.offset &&& regMask .umaCfg := by
    rw [← hc, Fiu.fill_rd _ _ (by nofun), Fiu.rd_setReg_same]
  have bytes : ((List.range 16).map d.writeByte).take (clampChunk a.ws p.offset) = a.chunk p.offset := by
    rw [← hc, ← IoctlArgs.length_chunk hbuf]
    exact Fiu.fill_take _ (by rw [IoctlArgs.length_chunk hbuf]; exact Nat.min_le_right _ _)
  rw [IoctlArgs.word, chunkCfg_eq] at cfg
  have addsiz : (if p.offset = 0 then a.asz else 0) < 8 := by
    have := ha.asz
    split <;> omega
  have dbsiz : (if p.offset = 0 then a.dummy else 0) < 8 := by
    have := ha.dummy
    split <;> omega
  have latched : descrOf d a.dev true = a.chunkDescr wc wa ww wr p.offset ((List.range 16).map d.writeByte) :=
    inFrame.descr (by split <;> decide) addsiz (small _) dbsiz (small _) cfg
  obtain ⟨r, e, ended, length, read, after⟩ := filled.transaction inFrame ha.inst ha.dev free latched
    (IoctlArgs.chunkDescr_legal ha _ _) polls (fun h => exec_ioctl ha (.inr h)) (q := p.to (.l 6 0))
    (fun h => exec_ioctl ha (.inr h)) leave
  refine ⟨r, e, ended, length, read, ?_⟩
  rw [← IoctlArgs.chunkDescr_phases ha hbuf bytes length, ← List.append_assoc]
  exact after

/-- One chunk: from its configuration to L8, with the bytes that it reads harvested. -/
theorem ioctl_chunk (ha : a.Legal wc wa ww wr) (hbuf : a.buf.length = a.ws) (long : 16 < max a.rs a.ws) (free : b.Unguarded)
    (polls : a.timeout = 0#32 ∨ Config.pollPeriodUs ≤ a.timeout.toNat) (fresh : p.words = [])
    (h : Prompts a.inst s0 a.instr s (p.to (.l 3 2)) c) (frame : b.InFrame a.dev a.addr a.cmd w c) :
    ∃ r d, Prompts a.inst s0 a.instr s (a.after { p with acc := p.acc ++ r }) d ∧ r.length = clampChunk a.rs p.offset
      ∧ b.InFrame a.dev a.addr a.cmd (w ++ ((if p.offset = 0 then a.head else []) ++ a.data p.offset r)) d := by
  cases hn : clampChunk a.rs p.offset with
  | zero =>
    obtain ⟨r, d, ended, length, -, after⟩ := ioctl_drives ha hbuf free polls h frame (q := a.after p) fun {t} =>
      (ioctl_harvest_none p hn t).trans (ioctl_next_chunk long p t)
    obtain rfl := List.length_eq_zero_iff.1 (length.trans hn)
    exact ⟨[], d, (List.append_nil p.acc).symm ▸ ended, rfl, after⟩
  | succ n =>
    obtain ⟨r, d, ended, length, read, after⟩ := ioctl_drives ha hbuf free polls h frame (q := p.to (.l 7 0)) fun {t} =>
      ioctl_harvest_some p hn t
    have start : p.to (.l 7 0) = harvestPos p d 0 := by
      unfold harvestPos
      rw [show d.readWords 0 = p.words from fresh.symm]
      rfl
    obtain ⟨k, last⟩ : ∃ k, (clampChunk a.rs p.offset + 3) / 4 = k + 1 := ⟨(clampChunk a.rs p.offset + 3) / 4 - 1, by omega⟩
    have harvested := (start ▸ ended).quiet (ioctl_harvests ha after.idle (k := k) (by omega))
    refine ⟨r, d, harvested.step after.idle fun runs => runs.step fun t within on => ?_, length.trans hn, after⟩
    obtain ⟨x, e, on⟩ := ioctl_harvested ha after.idle last within on
    refine ⟨x, e.trans ?_, on⟩
    rw [ioctl_next_chunk long, ← last, ← length, unpackBytes_readWords read]

/-- The position of chunk `k` with `bytes` harvested. -/
def ioctlPos (k : Nat) (bytes : List Byte) : Pos := { startPos with offset := 16 * k, acc := bytes }

/-- The data phases of the first `n` chunks, with `bytes` the bytes that they read. -/
def IoctlArgs.phases (a : IoctlArgs) (n : Nat) (bytes : List Byte) : List WireEvent :=
  (List.range n).flatMap fun k => a.data (16 * k) ((bytes.drop (16 * k)).take 16)

/-- A chunk that has nothing to read has no read phase. -/
theorem IoctlArgs.data_congr {offset : Nat} {x y : List Byte} (h : offset < a.rs → x = y) : a.data offset x = a.data offset y := by
  unfold IoctlArgs.data
  by_cases due : offset < a.rs
  · rw [h due]
  · rw [if_neg due, if_neg due]

theorem take_drop_append {xs ys : List Byte} {m n : Nat} (h : m + n ≤ xs.length) :
    ((xs ++ ys).drop m).take n = (xs.drop m).take n := by
  rw [List.drop_append_of_le_length (by omega), List.take_append_of_le_length (by rw [List.length_drop]; omega)]

/-- One chunk more: the bytes of the earlier chunks stand where they stood, and those of the new one follow. -/
theorem IoctlArgs.phases_succ {n : Nat} {bytes r : List Byte} (hbytes : bytes.length = min a.rs (16 * n))
    (hr : r.length = clampChunk a.rs (16 * n)) :
    a.phases (n + 1) (bytes ++ r) = a.phases n bytes ++ a.data (16 * n) r := by
  have earlier : ∀ k ∈ List.range n, a.data (16 * k) (((bytes ++ r).drop (16 * k)).take 16)
      = a.data (16 * k) ((bytes.drop (16 * k)).take 16) := by
    intro k hk
    have before : k < n := List.mem_range.1 hk
    refine IoctlArgs.data_congr fun due => ?_
    by_cases more : 16 * n < a.rs
    · exact take_drop_append (by omega)
    · obtain rfl : r = [] := List.length_eq_zero_iff.1 (by rw [hr, clampChunk_eq]; omega)
      rw [List.append_nil]
  have last : a.data (16 * n) (((bytes ++ r).drop (16 * n)).take 16) = a.data (16 * n) r :=
    IoctlArgs.data_congr fun due => by
      have whole : bytes.length = 16 * n := by omega
      rw [← whole, List.drop_left, List.take_of_length_le (by rw [hr]; exact Nat.min_le_right _ _)]
  unfold IoctlArgs.phases
  rw [List.range_succ, List.flatMap_append, List.flatMap_congr earlier, List.flatMap_singleton, last]

/-- Every chunk that is due is driven inside the one frame (R203 to R207). -/
theorem ioctl_chunks (ha : a.Legal wc wa ww wr) (hbuf : a.buf.length = a.ws) (long : 16 < max a.rs a.ws) (free : b.Unguarded)
    (polls : a.timeout = 0#32 ∨ Config.pollPeriodUs ≤ a.timeout.toNat)
    (h : Prompts a.inst s0 a.instr s (startPos.to (.l 3 2)) c) (frame : b.InFrame a.dev a.addr a.cmd w c) (k : Nat)
    (due : 16 * k < max a.rs a.ws) :
    ∃ bytes d, Prompts a.inst s0 a.instr s (a.after (ioctlPos k bytes)) d ∧ bytes.length = min a.rs (16 * (k + 1))
      ∧ b.InFrame a.dev a.addr a.cmd (w ++ a.head ++ a.phases (k + 1) bytes) d := by
  induction k with
  | zero =>
    obtain ⟨r, d, ended, length, after⟩ := ioctl_chunk ha hbuf long free polls rfl h frame
    refine ⟨r, d, ended, length, ?_⟩
    rw [List.append_assoc, ← List.nil_append r, IoctlArgs.phases_succ (n := 0) (bytes := []) (Nat.min_zero a.rs).symm length]
    exact after
  | succ k ih =>
    obtain ⟨bytes, d, ended, read, after⟩ := ih (by omega)
    have goesOn : a.after (ioctlPos k bytes) = (ioctlPos (k + 1) bytes).to (.l 1 0) := by
      have more : 16 * k + 16 < max a.rs a.ws := due
      exact congrArg (ioctlPos (k + 1) bytes).to (if_pos more)
    rw [goesOn] at ended
    have waited := ended.step after.idle fun runs =>
      runs.waits (q := (ioctlPos (k + 1) bytes).to (.l 3 2)) ha.inst after.idle after.done polls (fun h => exec_ioctl ha (.inr h)) rfl
    obtain ⟨r, e, ended, length, after⟩ := ioctl_chunk ha hbuf long free polls rfl waited (after.withSup .off)
    refine ⟨bytes ++ r, e, ended, ?_, ?_⟩
    · rw [List.length_append, read, length, clampChunk_eq]
      show min a.rs (16 * (k + 1)) + min (a.rs - 16 * (k + 1)) 16 = min a.rs (16 * (k + 1 + 1))
      omega
    · rw [IoctlArgs.phases_succ read length, ← List.append_assoc]
      exact after

end IoctlFrame

/-- Settles O18: the device is selected and its chip select held, the chunks are driven one after the other, and END releases it. -/
theorem umaIoctlDrivesOneFrame : Obligations.UmaIoctlDrivesOneFrame := by
  intro s inst dev cmd addr asz rs ws cb ab wb rb timeout dummy buf hs hi hd long hbuf hdummy hasz hwidths idle done noForce swCs pen
    polls
  let a : IoctlArgs := ⟨inst, dev, cmd, addr, asz, rs, ws, cb, ab, wb, rb, timeout, dummy, buf⟩
  obtain ⟨wc, wa, ww, wr, ha⟩ := a.legal hi hd hasz hdummy hwidths
  have hold : a.hold = true := IoctlArgs.hold_iff.2 long
  have free : (s.fiu inst).Unguarded := ⟨noForce, pen⟩
  obtain ⟨first, waits⟩ := ioctl_begins ha hs idle done polls
  rw [if_pos hold] at waits
  have selected := (Fiu.selected_wrf hd idle done swCs).withSup .off
  obtain ⟨holds, mark, -⟩ := selected.holds hd noForce
  have asserted := ((Prompts.first idle first).quiet waits).step (q := startPos.to (.l 3 0)) selected.idle fun runs =>
    runs.wrf (f := .ctsSwCs) hi nofun (fun h => exec_ioctl ha (.inr h)) mark
  have opened := asserted.quiet (ioctl_heads ha holds.idle)
  obtain ⟨k, hk⟩ : ∃ k, (max rs ws + 15) / 16 = k + 1 := ⟨(max rs ws + 15) / 16 - 1, by omega⟩
  obtain ⟨bytes, d, ended, length, frame⟩ := ioctl_chunks ha hbuf long free polls opened (holds.inFrame addr cmd) k
    (show 16 * k < max rs ws by omega)
  have last : a.after (ioctlPos k bytes) = (ioctlPos (k + 1) bytes).to .fin :=
    congrArg (ioctlPos (k + 1) bytes).to (if_neg (show ¬ 16 * k + 16 < max rs ws by omega))
  rw [last] at ended
  obtain ⟨n, t, et, ended, others, wire, after⟩ := ended.releases (res := .data .ok bytes) frame.toHolds hi hd noForce fun h =>
    exec_ioctl ha (.inr h)
  have whole : bytes.length = rs := length.trans (Nat.min_eq_left (show rs ≤ 16 * (k + 1) by omega))
  refine ⟨n, t, bytes, et, ended, whole, others, wire.trans ?_, after⟩
  rw [hk]
  simp only [IoctlArgs.head, List.append_assoc]
  rfl

/-! ### `page_write`, chunk by chunk (R210 to R214) -/

/-- The position of `page_write` at chunk `k`: the address size, the value of `ACCTYPE` and the read mode it has read. -/
def pagePos (asz : Nat) (acc : Word) (m : Option ReadMode) (k : Nat) : Pos :=
  { startPos with asz := asz, first := acc, mode := m, offset := 16 * k }

/-- The `UMA_CFG` word of the chunk at `p` (R211 L1). -/
def pageWord (size : Nat) (p : Pos) : Word :=
  if p.offset = 0 then writeCfg p.mode p.asz (clampChunk size 0) else writeContCfg p.mode (clampChunk size p.offset)

/-- The bytes of the chunk at `offset`. -/
def pageChunk (data : List Byte) (offset : Nat) : List Byte := (data.drop offset).take (clampChunk data.length offset)

theorem length_pageChunk (data : List Byte) (offset : Nat) : (pageChunk data offset).length = clampChunk data.length offset := by
  rw [pageChunk, List.length_take, List.length_drop, clampChunk_eq]
  omega

theorem pageChunk_eq (data : List Byte) (offset : Nat) : pageChunk data offset = (data.drop offset).take 16 := by
  rw [pageChunk, clampChunk_eq, ← List.length_drop, Nat.min_comm, ← List.take_eq_take_min]

/-- Only the first chunk has a command and an address (R211). -/
theorem pageWord_eq (size : Nat) (p : Pos) : pageWord size p =
    packUmaCfg (if p.offset = 0 then writeCmdsiz p.mode else 0) (if p.offset = 0 then p.asz else 0) (clampChunk size p.offset) 0 0
      (writeCmdWidth p.mode) (some (modeWidth p.mode)) (some (modeWidth p.mode)) none none := by
  unfold pageWord
  split
  · next first => rw [first]; rfl
  · rfl

/-- The position after L6. -/
def pageAfter (size : Nat) (p : Pos) : Pos :=
  { p with offset := p.offset + 16 }.to (if p.offset + 16 < size then .l 1 2 else .fin)

theorem pageWriteWaited_ok (i : Instr) (size : Nat) (p : Pos) (s : State) :
    pageWriteWaited i size p .ok s = goTo i (pageAfter size p) s := by
  show (if p.offset + 16 < size then _ else _) = _
  unfold pageAfter
  split <;> rfl

/-- The phases that only the first chunk has: no command in `SPI_X` mode (R190, R211). -/
def pageHead (cmd : Byte) (addr : Word) (asz : Nat) (m : Option ReadMode) : List WireEvent :=
  (if m = some .spiX then [] else [.phase .cmd (widthBits (modeWidth m)) [cmd]])
    ++ [.phase .addr (widthBits (modeWidth m)) (addrBytes addr asz)]

/-- The data phase of the chunk at `offset`. -/
def pageData (data : List Byte) (m : Option ReadMode) (offset : Nat) : List WireEvent :=
  if offset < data.length then [.phase .wdata (widthBits (modeWidth m)) ((data.drop offset).take 16)] else []

/-- The transaction of the chunk at `p`, with `bytes` the sixteen bytes of the write buffer. -/
def pageDescr (dev size : Nat) (cmd : Byte) (addr : Word) (p : Pos) (bytes : List Byte) : Descr :=
  { dev := dev, held := true, cmdsiz := if p.offset = 0 then writeCmdsiz p.mode else 0, addsiz := if p.offset = 0 then p.asz else 0
    wdatsiz := clampChunk size p.offset, dbsiz := 0, rdatsiz := 0, cmbpck := optCode (writeCmdWidth p.mode)
    adbpck := widthCode (modeWidth p.mode), wdbpck := widthCode (modeWidth p.mode), dbpck := 0, rdbpck := 0
    cmd := cmd, addr := addr, wdata := bytes }

theorem codeBits_widthCode (w : Width) : codeBits (widthCode w) = widthBits w := by cases w <;> rfl

section PageFrame

variable {inst dev : Nat} {cmd : Byte} {addr timeout : Word} {data : List Byte} {s s0 : State} {b c : Fiu} {p : Pos}
  {w : List WireEvent}

theorem pageDescr_legal {size : Nat} (hz : p.asz = 3 ∨ p.asz = 4) (bytes : List Byte) :
    LegalDescr (pageDescr dev size cmd addr p bytes) := by
  refine ⟨fun _ => optCode_le _, fun _ => widthCode_le _, fun _ => widthCode_le _, fun _ => Nat.zero_le _, fun _ => Nat.zero_le _,
    ?_, Nat.min_le_right _ _, Nat.zero_le _⟩
  unfold pageDescr
  dsimp only
  split
  · exact .inr hz
  · exact .inl rfl

/-- Its phases on the wire (R174). -/
theorem pageDescr_phases (hz : p.asz = 3 ∨ p.asz = 4) {bytes : List Byte}
    (filled : bytes.take (clampChunk data.length p.offset) = pageChunk data p.offset) :
    outPhases (pageDescr dev data.length cmd addr p bytes) =
      (if p.offset = 0 then pageHead cmd addr p.asz p.mode else []) ++ pageData data p.mode p.offset := by
  have command : phaseEvent .cmd (optCode (writeCmdWidth p.mode)) (if writeCmdsiz p.mode = 1 then [cmd] else []) =
      if p.mode = some .spiX then [] else [.phase .cmd (widthBits (modeWidth p.mode)) [cmd]] := by
    unfold writeCmdsiz writeCmdWidth
    split
    · rfl
    · exact congrArg (fun n => [WireEvent.phase .cmd n [cmd]]) (codeBits_widthCode _)
  have head : phaseEvent .cmd (optCode (writeCmdWidth p.mode))
        (if (if p.offset = 0 then writeCmdsiz p.mode else 0) = 1 then [cmd] else [])
        ++ phaseEvent .addr (widthCode (modeWidth p.mode)) (addrBytes addr (if p.offset = 0 then p.asz else 0))
      = if p.offset = 0 then pageHead cmd addr p.asz p.mode else [] := by
    rw [phaseEvent_of_length (length_addrBytes _ _), codeBits_widthCode]
    split
    · rw [command, if_neg (show ¬ p.asz = 0 by omega)]
      rfl
    · rfl
  have written := phaseEvent_chunk (kind := .wdata) (code := widthCode (modeWidth p.mode)) (length_pageChunk data p.offset)
  rw [codeBits_widthCode, pageChunk_eq] at written
  unfold outPhases pageData
  rw [← head, ← written, ← pageChunk_eq, ← filled]
  exact congrArg (· ++ _) (List.append_nil _)

/-- The write buffer stored in a frame. -/
theorem Fiu.InFrame.setWriteBuffer (h : b.InFrame dev addr cmd w c) (f : Nat → Word) :
    b.InFrame dev addr cmd w (c.setWriteBuffer f) where
  toHolds := h.toHolds.setWriteBuffer f
  addr := (c.setWriteBuffer_rd f (by nofun)).trans h.addr
  cmd := (c.setWriteBuffer_rd f (by nofun)).trans h.cmd

/-- `RDYST` cleared in a frame. -/
theorem Fiu.InFrame.wrf_rdyst (h : b.InFrame dev addr cmd w c) (v : Word) : b.InFrame dev addr cmd w (c.wrf .ctsRdyst v) := by
  obtain ⟨-, -, -, -, regs⟩ := Fiu.wrf_cts_idle h.idle h.done (f := .ctsRdyst) rfl nofun v
  exact ⟨h.toHolds.wrf_rdyst v, (regs .umaAddr nofun).trans h.addr, (regs .umaCmd nofun).trans h.cmd⟩

/-- The instance when the chunk at `p` is to be triggered: its configuration and its bytes are stored, and `RDYST` is clear. -/
def Fiu.paged (c : Fiu) (data : List Byte) (p : Pos) : Fiu :=
  ((c.setReg .umaCfg (pageWord data.length p &&& regMask .umaCfg)).setWriteBuffer (packWord (pageChunk data p.offset))).wrf
    .ctsRdyst 1#32

/-- The registers of the chunk at `p`. -/
theorem Fiu.InFrame.paged (h : b.InFrame dev addr cmd w c) (data : List Byte) (p : Pos) :
    b.InFrame dev addr cmd w (c.paged data p) ∧ (c.paged data p).rd .umaCfg = pageWord data.length p &&& regMask .umaCfg
      ∧ ((List.range 16).map (c.paged data p).writeByte).take (clampChunk data.length p.offset) = pageChunk data p.offset := by
  have stored := (h.configured (pageWord data.length p &&& regMask .umaCfg) []).setWriteBuffer (packWord (pageChunk data p.offset))
  obtain ⟨-, -, -, -, regs⟩ := Fiu.wrf_cts_idle stored.idle stored.done (f := .ctsRdyst) rfl nofun 1#32
  refine ⟨stored.wrf_rdyst 1#32, ?_, ?_⟩
  · exact (regs .umaCfg nofun).trans ((Fiu.setWriteBuffer_rd _ _ (by nofun)).trans (Fiu.rd_setReg_same _ _ _))
  · have bytes : (c.paged data p).writeByte = _ := Fiu.writeByte_congr fun k => regs (.umaDw k) nofun
    rw [bytes, ← length_pageChunk]
    exact Fiu.setWriteBuffer_take _ (by rw [length_pageChunk]; exact Nat.min_le_right _ _)

/-- L1 to L3 of a chunk: the configuration, the data, `RDYST` and the delay. -/
theorem pageWrite_fills (hi : inst < Config.nFiu) (hd : dev < 4) (frame : b.InFrame dev addr cmd w c) :
    Quiet inst s0 (.pageWrite inst dev cmd addr data.length timeout data) 7 (p.to (.l 1 2)) c (p.to (.l 4 0)) (c.paged data p) := by
  have stored := (frame.configured (pageWord data.length p &&& regMask .umaCfg) []).setWriteBuffer (packWord (pageChunk data p.offset))
  obtain ⟨eng, -, mark, -⟩ := Fiu.wrf_cts_idle stored.idle stored.done (f := .ctsRdyst) rfl nofun 1#32
  have configured : Quiet inst s0 (.pageWrite inst dev cmd addr data.length timeout data) 1 (p.to (.l 1 2)) c (p.to (.l 2 0))
      (c.setReg .umaCfg (pageWord data.length p &&& regMask .umaCfg)) :=
    Quiet.refl.step frame.idle fun runs => runs.store hi frame.idle (.inl rfl) fun h => hostStep_devOk_at hi hd (.inr h)
  have filled := configured.writeBuffer (l := .l 2) (next := .l 3 0) (data := pageChunk data p.offset) hi frame.idle
    fun k _ h => hostStep_devOk_at hi hd (.inr h)
  have cleared : Quiet inst s0 (.pageWrite inst dev cmd addr data.length timeout data) 6 (p.to (.l 1 2)) c (p.to (.l 3 1))
      (c.paged data p) :=
    filled.step frame.idle fun runs => runs.wrf (f := .ctsRdyst) hi nofun (fun h => hostStep_devOk_at hi hd (.inr h)) mark
  exact cleared.step eng fun runs => runs.stay fun h => hostStep_devOk_at hi hd (.inr h)

/-- One chunk of `page_write` in a frame: from its configuration to L6. -/
theorem pageWrite_chunk (hi : inst < Config.nFiu) (hd : dev < 4) (free : b.Unguarded)
    (polls : timeout = 0#32 ∨ Config.pollPeriodUs ≤ timeout.toNat) (hz : p.asz = 3 ∨ p.asz = 4)
    (h : Prompts inst s0 (.pageWrite inst dev cmd addr data.length timeout data) s (p.to (.l 1 2)) c)
    (frame : b.InFrame dev addr cmd w c) :
    ∃ d, Prompts inst s0 (.pageWrite inst dev cmd addr data.length timeout data) s (pageAfter data.length p) d
      ∧ b.InFrame dev addr cmd
          (w ++ ((if p.offset = 0 then pageHead cmd addr p.asz p.mode else []) ++ pageData data p.mode p.offset)) d := by
  have filled := h.quiet (pageWrite_fills hi hd frame)
  obtain ⟨frame, cfg, bytes⟩ := frame.paged data p
  rw [pageWord_eq] at cfg
  have cmdsiz : (if p.offset = 0 then writeCmdsiz p.mode else 0) < 2 := by
    have one : writeCmdsiz p.mode ≤ 1 := by
      unfold writeCmdsiz
      split <;> omega
    split <;> omega
  have addsiz : (if p.offset = 0 then p.asz else 0) < 8 := by split <;> omega
  have wdatsiz : clampChunk data.length p.offset < 32 := Nat.lt_of_le_of_lt (Nat.min_le_right _ _) (by decide)
  have latched : descrOf (c.paged data p) dev true =
      pageDescr dev data.length cmd addr p ((List.range 16).map (c.paged data p).writeByte) :=
    frame.descr cmdsiz addsiz wdatsiz (by decide) (by decide) cfg
  obtain ⟨r, d, ended, length, -, after⟩ := filled.transaction frame hi hd free latched (pageDescr_legal hz _) polls
    (q := p.to (.l 5 0)) (r := pageAfter data.length p) (cont := pageWriteWaited _ data.length p)
    (fun h => hostStep_devOk_at hi hd (.inr h)) (fun h => hostStep_devOk_at hi hd (.inr h)) fun {t} => pageWriteWaited_ok _ _ p t
  obtain rfl := List.length_eq_zero_iff.1 length
  rw [pageDescr_phases hz bytes, phaseEvent_of_length (n := 0) rfl, if_pos rfl, List.append_nil] at after
  exact ⟨d, ended, after⟩

/-- Every chunk that is due is driven inside the one frame; there is always one (R117, R211, R212). -/
theorem pageWrite_chunks {asz : Nat} {acc : Word} {m : Option ReadMode} (hi : inst < Config.nFiu) (hd : dev < 4) (free : b.Unguarded)
    (polls : timeout = 0#32 ∨ Config.pollPeriodUs ≤ timeout.toNat) (hz : asz = 3 ∨ asz = 4)
    (h : Prompts inst s0 (.pageWrite inst dev cmd addr data.length timeout data) s ((pagePos asz acc m 0).to (.l 1 2)) c)
    (frame : b.InFrame dev addr cmd w c) (k : Nat) (due : k = 0 ∨ 16 * k < data.length) :
    ∃ d, Prompts inst s0 (.pageWrite inst dev cmd addr data.length timeout data) s (pageAfter data.length (pagePos asz acc m k)) d
      ∧ b.InFrame dev addr cmd
          (w ++ pageHead cmd addr asz m ++ (List.range (k + 1)).flatMap fun j => pageData data m (16 * j)) d := by
  induction k with
  | zero =>
    obtain ⟨d, ended, after⟩ := pageWrite_chunk hi hd free polls hz h frame
    refine ⟨d, ended, ?_⟩
    show b.InFrame dev addr cmd (w ++ pageHead cmd addr asz m ++ (pageData data m 0 ++ [])) d
    rw [List.append_nil, List.append_assoc]
    exact after
  | succ k ih =>
    have more : 16 * k + 16 < data.length := by omega
    obtain ⟨d, ended, after⟩ := ih (by omega)
    have goesOn : pageAfter data.length (pagePos asz acc m k) = (pagePos asz acc m (k + 1)).to (.l 1 2) :=
      congrArg (pagePos asz acc m (k + 1)).to (if_pos more)
    rw [goesOn] at ended
    obtain ⟨e, ended, after⟩ := pageWrite_chunk (p := pagePos asz acc m (k + 1)) hi hd free polls hz ended after
    refine ⟨e, ended, ?_⟩
    rw [List.range_succ, List.flatMap_append, List.flatMap_singleton, ← List.append_assoc]
    exact after

/-- The data phases of a whole page: phase `k` has bytes `16k` to `16k + 15` (R117). -/
theorem pageData_whole (data : List Byte) (m : Option ReadMode) :
    ((List.range ((data.length - 1) / 16 + 1)).flatMap fun j => pageData data m (16 * j)) =
      (List.range ((data.length + 15) / 16)).map fun k => .phase .wdata (widthBits (modeWidth m)) ((data.drop (16 * k)).take 16) := by
  by_cases empty : data.length = 0
  · rw [empty]
    show pageData data m 0 ++ [] = []
    rw [List.append_nil, pageData, if_neg (by omega)]
  · rw [show (data.length - 1) / 16 + 1 = (data.length + 15) / 16 by omega, List.map_eq_flatMap]
    refine List.flatMap_congr fun k hk => ?_
    have due : k < (data.length + 15) / 16 := List.mem_range.1 hk
    exact if_pos (by omega)

end PageFrame

/-- Settles O55: the device is selected and its chip select held, the chunks are driven one after the other, and END releases it. -/
theorem pageWriteDrivesOneFrame : Obligations.PageWriteDrivesOneFrame := by
  intro s inst dev cmd addr timeout data hs hi hd idle done noForce swCs pen polls m width
  have free : (s.fiu inst).Unguarded := ⟨noForce, pen⟩
  have selected := Fiu.selected_wrf hd idle done swCs
  obtain ⟨-, -, selectMark, -⟩ := Fiu.wrf_cts_idle idle done (f := .ctsDevNum) rfl nofun (nat32 dev)
  obtain ⟨holds, mark, -⟩ := selected.holds hd noForce
  have kept : ∀ {f : Field}, fieldReg f = .drdCfg → ((s.fiu inst).wrf .ctsDevNum (nat32 dev)).get f = (s.fiu inst).get f := fun hf => by
    rw [Fiu.get, Fiu.get, hf, selected.regs .drdCfg nofun]
  let i := Instr.pageWrite inst dev cmd addr data.length timeout data
  let asz := resolveAddsiz ((s.fiu inst).fourbOf dev) .auto
  have first : Runs inst s i s 1 ((pagePos asz 0#32 none 0).to (.s 3 0)) ((s.fiu inst).wrf .ctsDevNum (nat32 dev)) :=
    .first (hostStep_devOk_at hi hd (.inl ⟨hs, rfl⟩)) ((On.start hs.1).wrf hi (f := .ctsDevNum) nofun selectMark)
  have acctype := (Prompts.first idle first).step selected.idle fun runs =>
    runs.rdf (f := .drdAcctype) (q := fun acc => (pagePos asz acc none 0).to (.s 3 1)) nofun fun h => hostStep_devOk_at hi hd (.inr h)
  have mode := acctype.step selected.idle fun runs =>
    runs.rdf (f := .drdDbw) (q := fun dbw => (pagePos asz _ (modeOfPair _ dbw) 0).to (.s 4 0)) nofun fun h =>
      hostStep_devOk_at hi hd (.inr h)
  rw [kept (f := .drdAcctype) rfl, kept (f := .drdDbw) rfl] at mode
  set acc := (s.fiu inst).get .drdAcctype
  have asserted := mode.step (q := (pagePos asz acc m 0).to (.l 1 0)) selected.idle fun runs =>
    runs.wrf (f := .ctsSwCs) (v := 0#32) hi nofun (fun h => hostStep_devOk_at hi hd (.inr h)) mark
  have address := asserted.step (q := (pagePos asz acc m 0).to (.l 1 1)) holds.idle fun runs =>
    runs.store (r := .umaAddr) (v := addr) hi holds.idle (.inr (.inr (.inl rfl))) fun h => hostStep_devOk_at hi hd (.inr h)
  have opened := address.step (q := (pagePos asz acc m 0).to (.l 1 2)) holds.idle fun runs =>
    runs.store (r := .umaCmd) (v := cmd.setWidth 32) hi holds.idle (.inr (.inl rfl)) fun h => hostStep_devOk_at hi hd (.inr h)
  have addsiz : asz = if (s.fiu inst).fourbOf dev then 4 else 3 := resolveAddsiz_eq _ _
  have legal : asz = 3 ∨ asz = 4 := by
    rw [addsiz]
    split
    · exact .inr rfl
    · exact .inl rfl
  obtain ⟨d, ended, frame⟩ := pageWrite_chunks hi hd free polls legal opened (holds.inFrame addr cmd) ((data.length - 1) / 16)
    (by omega)
  have last : pageAfter data.length (pagePos asz acc m ((data.length - 1) / 16)) =
      (pagePos asz acc m ((data.length - 1) / 16 + 1)).to .fin :=
    congrArg (pagePos asz acc m ((data.length - 1) / 16 + 1)).to
      (if_neg (show ¬ 16 * ((data.length - 1) / 16) + 16 < data.length by omega))
  rw [last] at ended
  rw [pageData_whole] at frame
  obtain ⟨n, t, et, ended, others, wire, after⟩ := ended.releases (res := .status .ok) frame.toHolds hi hd noForce fun h =>
    hostStep_devOk_at hi hd (.inr h)
  refine ⟨n, t, et, ended, others, wire.trans ?_, after⟩
  simp only [pageHead, addsiz, List.append_assoc]
  rfl

end Sys2Proof.Machine
end

section
/-! SUPPORT. The statements of 44_chip_select.md: the multiplexer as a truth table (R229), selecting a device and holding its chip
select by field writes of `UMA_CTS` (R221, R228), and the address size (R223, R225). -/

namespace Sys2Proof.Machine

/-! ### The multiplexer (R229) -/

/-- A field's value is below two to the field's width. -/
theorem toNat_getField_lt (f : Field) (w : Word) : (getField f w).toNat < 2 ^ fieldWidth f := by
  rw [getField_eq_shift, BitVec.toNat_and]
  refine Nat.and_lt_two_pow _ ?_
  rw [BitVec.toNat_ofNat]
  exact Nat.lt_of_le_of_lt (Nat.mod_le _ _) (Nat.sub_lt (Nat.two_pow_pos _) Nat.one_pos)

/-- A one-bit field that is not 1 is 0. -/
theorem flag_eq_false {f : Field} (h : fieldWidth f = 1) (w : Word) : flag f w = false ↔ getField f w = 0#32 := by
  have bound := toNat_getField_lt f w
  rw [h] at bound
  rw [flag, beq_eq_false_iff_ne, ne_eq, ← BitVec.toNat_inj, ← BitVec.toNat_inj]
  show ¬ (getField f w).toNat = 1 ↔ (getField f w).toNat = 0
  omega

/-- Software holds the chip select of device `d` exactly where `SW_CS = 0` and `DEV_NUM = d` (R57). -/
theorem heldDev_eq_some {cts : Word} {d : Nat} (hd : d < 4) :
    heldDev cts = some d ↔ getField .ctsSwCs cts = 0#32 ∧ getField .ctsDevNum cts = BitVec.ofNat 32 d := by
  have device : (getField .ctsDevNum cts).toNat = d ↔ getField .ctsDevNum cts = BitVec.ofNat 32 d := by
    rw [← BitVec.toNat_inj, show (BitVec.ofNat 32 d).toNat = d from nat32_toNat_dev hd]
  rw [← flag_eq_false rfl, ← device, heldDev]
  cases flag .ctsSwCs cts <;> simp

/-- Settles O8, by whether the chip select is forced. -/
theorem chipSelectMultiplexer : Obligations.ChipSelectMultiplexer := by
  intro prt cts d hd
  rw [csPin, csPinOf, csForced]
  by_cases forced : d < 2 ∧ fieldBit .prtFcsEn d prt = true
  · rw [if_pos forced]
    exact (if_pos forced).symm
  · rw [if_neg forced]
    refine Eq.trans ?_ (if_neg forced).symm
    rw [← Bool.decide_and, ← decide_eq_decide.2 (heldDev_eq_some hd)]
    exact congrArg (!·) (beq_eq_decide ..)

/-! ### Field writes that steer the chip select (R221, R228) -/

/-- What a field write of `DEV_NUM` or `SW_CS` keeps of instance `b`: it triggers and ends nothing, sets no mark, and changes no
register but `UMA_CTS` and no addressing flag. -/
structure Fiu.Steers (b c : Fiu) : Prop where
  done : c.DoneBit
  busy : c.busy = b.busy
  regs : b.SameButReg .umaCts c
  unmodelled : c.unmodelled = b.unmodelled
  fourb : c.fourb = b.fourb

theorem Fiu.Steers.trans {b c d : Fiu} (h1 : b.Steers c) (h2 : c.Steers d) : b.Steers d where
  done := h2.done
  busy := h2.busy.trans h1.busy
  regs q hq := (h2.regs q hq).trans (h1.regs q hq)
  unmodelled := h2.unmodelled.trans h1.unmodelled
  fourb := h2.fourb.trans h1.fourb

theorem Fiu.steers_wrf {b : Fiu} (done : b.DoneBit) {f : Field} (hf : f = .ctsDevNum ∨ f = .ctsSwCs) (v : Word) :
    b.Steers (b.wrf f v) := by
  have hr : fieldReg f = .umaCts := by obtain rfl | rfl := hf <;> rfl
  have apart : fieldsApart f .ctsExecDone = true := by obtain rfl | rfl := hf <;> decide
  obtain ⟨regs, busy, mark, -⟩ := Fiu.wrf_cts done hr apart v
  obtain ⟨-, -, -, doneBit⟩ := Fiu.wrf_cts_fields done (hf.imp_right .inl) v
  obtain ⟨fourb, -⟩ := b.busWrite_hidden (fieldReg f) (b.rmw f v)
  exact ⟨doneBit, busy, fun q hq => (regs q).trans (if_neg hq), mark, fourb⟩

/-- A request steers the chip select by a field write of `DEV_NUM` or `SW_CS`. -/
theorem On.steer {inst : Nat} {s0 s : State} {b : Fiu} (h : On inst s0 s b) (hi : inst < Config.nFiu) (done : b.DoneBit) {f : Field}
    (hf : f = .ctsDevNum ∨ f = .ctsSwCs) (v : Word) : On inst s0 (s.wrf inst f v) (b.wrf f v) :=
  h.wrf hi (by obtain rfl | rfl := hf <;> exact nofun) (Fiu.steers_wrf done hf v).unmodelled

/-- `DEV_NUM` after a field write of it, and `SW_CS`, `RDYIE` and `EXEC_DONE`, which it keeps. -/
theorem Fiu.wrf_devNum {b : Fiu} (done : b.DoneBit) {dev : Nat} (hd : dev < 4) :
    (b.wrf .ctsDevNum (nat32 dev)).get .ctsDevNum = nat32 dev
      ∧ ∀ f, f = .ctsSwCs ∨ f = .ctsRdyie ∨ f = .ctsExecDone → (b.wrf .ctsDevNum (nat32 dev)).get f = b.get f := by
  obtain ⟨device, kept, -⟩ := Fiu.wrf_cts_fields done (f := .ctsDevNum) (.inl rfl) (nat32 dev)
  refine ⟨device.trans (nat32_devNum hd), fun f hf => ?_⟩
  obtain rfl | rfl | rfl := hf <;> exact kept _ rfl nofun nofun

/-- `SW_CS` after a field write of it, and `DEV_NUM`, which it keeps. -/
theorem Fiu.wrf_swCs {b : Fiu} (done : b.DoneBit) (released : Bool) :
    (b.wrf .ctsSwCs (bool32 released)).bit .ctsSwCs = released
      ∧ (b.wrf .ctsSwCs (bool32 released)).get .ctsDevNum = b.get .ctsDevNum := by
  obtain ⟨level, kept, -⟩ := Fiu.wrf_cts_fields done (f := .ctsSwCs) (.inr (.inl rfl)) (bool32 released)
  refine ⟨(congrArg (· == 1#32) level).trans ?_, kept .ctsDevNum rfl nofun nofun⟩
  cases released <;> rfl

/-- `select_chip` is one field write. -/
theorem exec_selectChip {s : State} (hs : s.Ready) {inst dev : Nat} (hi : inst < Config.nFiu) (hd : dev < 4) :
    exec (.selectChip inst dev) s = finish (.status .ok) (s.wrf inst .ctsDevNum (nat32 dev)) := hostStep_devOk hs hi hd

/-- Settles O42, from the field write of `DEV_NUM`. -/
theorem selectChip : Obligations.SelectChip := by
  intro s inst dev hs hi hd done
  obtain ⟨t, e, ended, others, fiu⟩ := ((On.start hs.1).steer hi done (.inl rfl) (nat32 dev)).finish (.status .ok)
  obtain ⟨device, kept⟩ := Fiu.wrf_devNum done hd
  obtain ⟨-, busy, regs, mark, fourb⟩ := Fiu.steers_wrf done (.inl rfl) (nat32 dev)
  refine ⟨t, (exec_selectChip hs hi hd).trans e, ended, others, ?_⟩
  rw [fiu]
  exact ⟨device, kept, Fiu.rdyst_wrf _ (f := .ctsDevNum) rfl nofun _, busy, regs, mark, fourb⟩

/-! ### `select_chip_by_address` (R228) -/

section ByAddress

variable {s : State} {inst dev : Nat} {addr : Word}

/-- Below the size of the device the request selects it, then asserts its chip select. -/
theorem exec_selectChipByAddress_inside {p : Pos} (hi : inst < Config.nFiu) (hd : dev < 4)
    (inside : addr.toNat < Config.flashSize inst dev) (h : s.Ready ∧ p = startPos ∨ s.At (.selectChipByAddress inst dev addr) p) :
    exec (.selectChipByAddress inst dev addr) s = straight (.selectChipByAddress inst dev addr) p s
      [(·.wrf inst .ctsDevNum (nat32 dev)), (·.wrf inst .ctsSwCs 0#32)] (.status .ok) := by
  have e : exec (.selectChipByAddress inst dev addr) s = _ := hostStep_devOk_at hi hd h
  rwa [if_pos inside] at e

/-- From the size of the device on it releases the chip select. -/
theorem exec_selectChipByAddress_outside (hs : s.Ready) (hi : inst < Config.nFiu) (hd : dev < 4)
    (outside : ¬ addr.toNat < Config.flashSize inst dev) :
    exec (.selectChipByAddress inst dev addr) s = finish (.status .ok) (s.wrf inst .ctsSwCs 1#32) := by
  have e : exec (.selectChipByAddress inst dev addr) s = _ := hostStep_devOk hs hi hd
  rwa [if_neg outside] at e

end ByAddress

/-- Settles O44, by whether the address lies below the size of the device. -/
theorem selectChipByAddress : Obligations.SelectChipByAddress := by
  intro s inst dev addr hs hi hd done
  by_cases inside : addr.toNat < Config.flashSize inst dev
  · have steered := Fiu.steers_wrf done (.inl rfl) (nat32 dev)
    obtain ⟨device, -⟩ := Fiu.wrf_devNum done hd
    obtain ⟨low, kept⟩ := Fiu.wrf_swCs steered.done false
    obtain ⟨-, busy, regs, mark, fourb⟩ := steered.trans (Fiu.steers_wrf steered.done (.inr rfl) 0#32)
    have selected := Runs.first (exec_selectChipByAddress_inside hi hd inside (.inl ⟨hs, rfl⟩))
      ((On.start hs.1).steer hi done (.inl rfl) (nat32 dev))
    obtain ⟨t, e, ended, others, fiu⟩ := selected.finish fun u within on =>
      ⟨_, exec_selectChipByAddress_inside hi hd inside (.inr within), on.steer hi steered.done (.inr rfl) 0#32⟩
    refine ⟨t, (if_pos inside).symm ▸ e, ended, others, ?_⟩
    rw [fiu]
    exact ⟨fun _ => ⟨kept.trans device, low⟩, fun outside => absurd inside (Nat.not_lt.2 outside), busy, regs, mark, fourb⟩
  · obtain ⟨high, kept⟩ := Fiu.wrf_swCs done true
    obtain ⟨-, busy, regs, mark, fourb⟩ := Fiu.steers_wrf done (.inr rfl) 1#32
    obtain ⟨t, e, ended, others, fiu⟩ := ((On.start hs.1).steer hi done (.inr rfl) 1#32).finish (.status .ok)
    have step := (execN_one _ s).trans ((exec_selectChipByAddress_outside hs hi hd inside).trans e)
    refine ⟨t, (if_neg inside).symm ▸ step, ended, others, ?_⟩
    rw [fiu]
    exact ⟨fun h => absurd h inside, fun _ => ⟨kept, high⟩, busy, regs, mark, fourb⟩

/-! ### The address size (R223, R225) -/

/-- The addressing flag of a device after it is stored (R49). -/
theorem Fiu.fourbOf_setFourb (b : Fiu) {dev : Nat} (hd : dev < 4) (v : Bool) (d : Nat) :
    (b.setFourb dev v).fourbOf d = if d = dev then v else b.fourbOf d := by
  rw [Fiu.setFourb, dif_pos hd, Fiu.fourbOf, Fiu.fourbOf]
  by_cases same : d = dev
  · subst same
    simp [hd]
  · simp [same, Ne.symm same]

/-- A store of an addressing flag changes the flags alone. -/
theorem Fiu.setFourb_flags (b : Fiu) (dev : Nat) (v : Bool) : ∃ flags, b.setFourb dev v = { b with fourb := flags } := by
  unfold Fiu.setFourb
  split
  · exact ⟨_, rfl⟩
  · exact ⟨b.fourb, rfl⟩

/-- The field writes of `set_four_byte_addressing`. -/
def addressSizeWrites (enabled : Bool) : List (Field × Word) :=
  [(.drdAddsiz, bool32 enabled), (.dwrAddsiz, bool32 enabled)]

theorem addressSizeWrites_direct (enabled : Bool) : DirectWrites (addressSizeWrites enabled) :=
  have fits : (bool32 enabled).toNat < 2 ^ 2 := by cases enabled <;> decide
  directWrites_cons.2 ⟨⟨rfl, fits, by simp⟩, directWrites_cons.2 ⟨⟨rfl, fits, nofun⟩, .nil⟩⟩

/-- `set_four_byte_addressing` writes the two fields; the flag is stored with the second. -/
theorem exec_setFourByteAddressing {s : State} {p : Pos} {inst dev : Nat} {enabled : Bool} (hi : inst < Config.nFiu) (hd : dev < 4)
    (h : s.Ready ∧ p = startPos ∨ s.At (.setFourByteAddressing inst dev enabled) p) :
    exec (.setFourByteAddressing inst dev enabled) s = straight (.setFourByteAddressing inst dev enabled) p s
      [(·.wrf inst .drdAddsiz (bool32 enabled)), fun s => (s.wrf inst .dwrAddsiz (bool32 enabled)).setFiu inst
        (((s.wrf inst .dwrAddsiz (bool32 enabled)).fiu inst).setFourb dev enabled)] (.status .ok) :=
  hostStep_devOk_at hi hd h

/-- A request stores an addressing flag. -/
theorem On.setFourb {inst : Nat} {s0 s : State} {b : Fiu} (h : On inst s0 s b) (hi : inst < Config.nFiu) (dev : Nat) (v : Bool) :
    On inst s0 (s.setFiu inst ((s.fiu inst).setFourb dev v)) (b.setFourb dev v) := by
  obtain ⟨flags, e⟩ := b.setFourb_flags dev v
  exact h.touch (State.touched_setFiu s inst _) (by rw [s.fiu_setFiu_same _ hi, h.fiu]) (by rw [e]) (by rw [e])

/-- The run of `set_four_byte_addressing`: the two field writes, then the flag. -/
theorem execN_setFourByteAddressing {s : State} (hs : s.Ready) {inst dev : Nat} (hi : inst < Config.nFiu) (hd : dev < 4)
    (enabled : Bool) :
    ∃ t, execN 2 (.setFourByteAddressing inst dev enabled) s = .next t ∧ s.Ended t (.status .ok) ∧ s.SameOthers inst t
      ∧ t.fiu inst = (runAll (fiuWrites (addressSizeWrites enabled)) (s.fiu inst)).setFourb dev enabled := by
  have first := Runs.first (exec_setFourByteAddressing hi hd (.inl ⟨hs, rfl⟩))
    ((On.start hs.1).wrf hi (f := .drdAddsiz) (v := bool32 enabled) nofun (Fiu.wrf_plain_unmodelled _ rfl _))
  exact first.finish fun u within on => ⟨_, exec_setFourByteAddressing hi hd (.inr within),
    (on.wrf hi (f := .dwrAddsiz) (v := bool32 enabled) nofun (Fiu.wrf_plain_unmodelled _ rfl _)).setFourb hi dev enabled⟩

/-- `get_four_byte_addressing` is one field read. -/
theorem exec_getFourByteAddressing {s : State} (hs : s.Ready) {inst dev : Nat} (hi : inst < Config.nFiu) (hd : dev < 4) :
    exec (.getFourByteAddressing inst dev) s =
      .next { s.readDrdCfg inst with seq := .idle, result := some (.flag (decide ((s.fiu inst).get .drdAddsiz = 1#32))) } := by
  have e : exec (.getFourByteAddressing inst dev) s = finish (.flag ((s.rdf inst .drdAddsiz).1 == 1#32)) (s.rdf inst .drdAddsiz).2 :=
    hostStep_devOk hs hi hd
  rw [s.rdf_drdCfg inst rfl] at e
  exact e.trans (finish_live (s := s.readDrdCfg inst) hs.handling _)

/-- Settles O43, from the two field writes and the flag, and from the field read. -/
theorem fourByteAddressing : Obligations.FourByteAddressing := by
  intro s inst dev enabled hs hi hd
  refine ⟨?set, _, exec_getFourByteAddressing hs hi hd, ⟨rfl, hs.halted, rfl, rfl, rfl, rfl, rfl, rfl, rfl⟩, rfl⟩
  obtain ⟨t, e, ended, others, fiu⟩ := execN_setFourByteAddressing hs hi hd enabled
  obtain ⟨written, kept, -, hidden⟩ := (s.fiu inst).wrote_runAll (addressSizeWrites_direct enabled)
  set c := runAll (fiuWrites (addressSizeWrites enabled)) (s.fiu inst)
  obtain ⟨eng, fourb, frame, wire, handler, inHandler, sup, unmodelled, draws⟩ := hidden
  simp only [addressSizeWrites, List.forall_mem_cons] at written
  obtain ⟨drdAddsiz, dwrAddsiz, -⟩ := written
  have flagOf : ∀ d, (t.fiu inst).fourbOf d = if d = dev then enabled else (s.fiu inst).fourbOf d := by
    intro d
    rw [fiu, Fiu.fourbOf_setFourb c hd, Fiu.fourbOf, fourb, Fiu.fourbOf]
  obtain ⟨flags, stored⟩ := c.setFourb_flags dev enabled
  refine ⟨t, e, ended, others, ?_⟩
  rw [fiu] at flagOf ⊢
  refine ⟨?_, ?_, (flagOf dev).trans (if_pos rfl), fun d hne => (flagOf d).trans (if_neg hne), fun f hdrd hdwr => ?_, ?_⟩ <;>
    rw [stored]
  · exact drdAddsiz
  · exact dwrAddsiz
  · exact kept f (by simp [addressSizeWrites, hdrd.symm, hdwr.symm])
  · exact ⟨eng, wire, frame, handler, inHandler, sup, draws, unmodelled⟩

end Sys2Proof.Machine
end

section
/-! SUPPORT. The statements of 45_protection.md, section 2: the verdict of the enforcer (R243 to R248, R251) and what the end of a
transaction makes of it (R249). -/

namespace Sys2Proof.Machine

/-! ### `PRT_CHECK` (R243 to R248, R251) -/

/-- `PRT_CHECK` with a transaction latched records the enforcer's verdict. -/
theorem exec_prtCheck_busy {s : State} {inst : Nat} (hm : s.mark? = none) (hi : inst < Config.nFiu) {l : Descr} {dist : Bool}
    (he : (s.fiu inst).eng = .busy l dist) :
    exec (.prtCheck inst) s = .next { s with result := some (.verdict ((s.fiu inst).prtCheck cfg.forbidTable l)) } := by
  simp [exec, execPrtCheck, agentStep, hm, he, instOk, hi]

section Verdict

variable {b : Fiu} {l : Descr} {n : Fin Config.nCmdSlot}

/-- With protection off every transaction is allowed. -/
theorem Fiu.prtCheck_off (off : b.bit .prtPen = false) : b.prtCheck cfg.forbidTable l = .allow := by
  have off : flag .prtPen (b.rd .prtCfg) = false := off
  simp [Fiu.prtCheck, off]

theorem Fiu.prtCheck_noCommand (on : b.bit .prtPen = true) (noCommand : l.cmdsiz = 0) :
    b.prtCheck cfg.forbidTable l = b.noCommandVerdict l := by
  have on : flag .prtPen (b.rd .prtCfg) = true := on
  simp [Fiu.prtCheck, on, noCommand]

theorem Fiu.prtCheck_command (on : b.bit .prtPen = true) (command : l.cmdsiz ≠ 0) :
    b.prtCheck cfg.forbidTable l = if (b.matching l).isEmpty then b.defaultVerdict
      else if (b.matching l).any (fun n => b.permits cfg.forbidTable n l) then .allow else .reject := by
  have on : flag .prtPen (b.rd .prtCfg) = true := on
  simp [Fiu.prtCheck, on, command]

/-- A transaction without a command that continues a judged frame has the verdict of the frame (R244). -/
theorem Fiu.noCommandVerdict_continues (held : l.held = true) {w : Verdict} (frame : b.frame = .opened l.dev (some w)) :
    b.noCommandVerdict l = w := by
  simp [Fiu.noCommandVerdict, held, frame]

/-- Any other transaction without a command has the default verdict (R244). -/
theorem Fiu.noCommandVerdict_default (h : l.held = false ∨ ∀ w, b.frame ≠ .opened l.dev (some w)) :
    b.noCommandVerdict l = b.defaultVerdict := by
  unfold Fiu.noCommandVerdict
  split
  · next d w held frame =>
    obtain notHeld | unjudged := h
    · rw [held] at notHeld
      cases notHeld
    · refine if_neg ?_
      rintro rfl
      exact unjudged w frame
  · rfl

/-- The default verdict is `OCALWD` (R245). -/
theorem Fiu.defaultVerdict_eq_allow : b.defaultVerdict = .allow ↔ b.bit .prtOcalwd = true := by
  show (if b.bit .prtOcalwd = true then Verdict.allow else .reject) = .allow ↔ _
  split <;> simp [*]

/-- The matching slots are those whose command byte is the transaction's (R243). -/
theorem Fiu.mem_matching : n ∈ b.matching l ↔ b.slotField n .entCmd = l.cmd.toNat := by
  have byte : (l.cmd.setWidth 32 : Word).toNat = l.cmd.toNat := BitVec.toNat_setWidth_of_le (by decide)
  rw [Fiu.matching, List.mem_filter, beq_iff_eq, ← BitVec.toNat_inj, byte]
  exact and_iff_right (List.mem_finRange n)

/-- The model's range test is the one of R248. -/
theorem Fiu.inRange_iff {r : Fin 16} : b.inRange r l = true ↔ b.InRange r l := by
  have chipSelect : (l.dev < 2 ∧ (b.get (.rngCsuse r)).getLsbD l.dev = true) ↔
      (l.dev = 0 ∧ (b.get (.rngCsuse r)).getLsbD 0 = true ∨ l.dev = 1 ∧ (b.get (.rngCsuse r)).getLsbD 1 = true) := by
    constructor
    · rintro ⟨hd, applies⟩
      obtain h | h : l.dev = 0 ∨ l.dev = 1 := by omega
      · exact .inl ⟨h, h ▸ applies⟩
      · exact .inr ⟨h, h ▸ applies⟩
    · rintro (⟨h, applies⟩ | ⟨h, applies⟩) <;> rw [h] <;> exact ⟨by decide, applies⟩
  unfold Fiu.inRange Fiu.InRange sentAddr
  rw [← chipSelect]
  simp only [Nat.shiftRight_eq_div_pow, Bool.and_eq_true, decide_eq_true_eq, and_assoc]
  rfl

/-- The default forbid table by range select and forbid code (R247). -/
theorem forbidTable_eq {sel d : Nat} (hs : sel < 2) (hd : d < 4) : cfg.forbidTable (4 * sel + d) =
    if d = 0 then .alwaysAllowed else if d = 3 then .alwaysForbidden
    else .outsideForbidden [Fin.ofNat 16 (2 * sel + (d - 1))] := by
  interval_cases sel <;> interval_cases d <;> rfl

/-- A field of a slot's entry is below two to its width. -/
theorem Fiu.slotField_lt (f : Fin 14 → Half → Field) : b.slotField n f < 2 ^ fieldWidth (f (slotReg n) (slotHalf n)) :=
  toNat_getField_lt _ _

/-- The model's test of an entry is the one of R246 with the default table. -/
theorem Fiu.permits_iff : b.permits cfg.forbidTable n l = true ↔ b.Permits n l := by
  have hs : b.slotField n .entRngsel < 2 := b.slotField_lt _
  have hd : b.slotField n .entFrbdc < 4 := b.slotField_lt _
  have size : flag (.entAddsz (slotReg n) (slotHalf n)) (b.rd (.prtCmd (slotReg n))) = true ↔ b.slotField n .entAddsz = 1 := by
    rw [flag, beq_iff_eq, ← BitVec.toNat_inj]
    rfl
  have code : b.entCode n = 4 * b.slotField n .entRngsel + b.slotField n .entFrbdc := rfl
  have range : ∀ r : Fin 16, r.val = 2 * b.slotField n .entRngsel + (b.slotField n .entFrbdc - 1) ↔
      r = Fin.ofNat 16 (2 * b.slotField n .entRngsel + (b.slotField n .entFrbdc - 1)) := by
    intro r
    rw [Fin.ext_iff, Fin.val_ofNat, Nat.mod_eq_of_lt (by omega)]
  unfold Fiu.permits Fiu.Permits
  rw [code, forbidTable_eq hs hd, Bool.and_eq_true, beq_iff_eq]
  refine and_congr_right' ?_
  by_cases allowed : b.slotField n .entFrbdc = 0
  · simp [allowed]
  · by_cases forbidden : b.slotField n .entFrbdc = 3
    · simp [forbidden]
    · have outside : b.slotField n .entFrbdc = 1 ∨ b.slotField n .entFrbdc = 2 := by omega
      simp only [allowed, forbidden, outside, if_false, false_or, true_and, range, exists_eq_left, ← Fiu.inRange_iff, size,
        List.any_cons, List.any_nil, Bool.or_false, Bool.and_eq_true, beq_iff_eq, and_assoc]
      rfl

/-- A command that no slot names has the default verdict (R245). -/
theorem Fiu.prtCheck_unlisted (on : b.bit .prtPen = true) (command : l.cmdsiz ≠ 0)
    (unlisted : ∀ n, b.slotField n .entCmd ≠ l.cmd.toNat) : b.prtCheck cfg.forbidTable l = b.defaultVerdict := by
  have empty : b.matching l = [] := List.eq_nil_iff_forall_not_mem.2 fun n hn => unlisted n (Fiu.mem_matching.1 hn)
  rw [Fiu.prtCheck_command on command, empty]
  rfl

/-- A command that some slot names is allowed where a slot that names it permits the transaction (R243). -/
theorem Fiu.prtCheck_listed (on : b.bit .prtPen = true) (command : l.cmdsiz ≠ 0)
    (listed : ∃ n, b.slotField n .entCmd = l.cmd.toNat) :
    b.prtCheck cfg.forbidTable l = .allow ↔ ∃ n, b.slotField n .entCmd = l.cmd.toNat ∧ b.Permits n l := by
  obtain ⟨n, hn⟩ := listed
  have nonempty : (b.matching l).isEmpty ≠ true := by
    rw [ne_eq, List.isEmpty_iff]
    exact List.ne_nil_of_mem (Fiu.mem_matching.2 hn)
  have permitted : (b.matching l).any (fun n => b.permits cfg.forbidTable n l) = true ↔
      ∃ n, b.slotField n .entCmd = l.cmd.toNat ∧ b.Permits n l := by
    simp only [List.any_eq_true, Fiu.mem_matching]
    exact exists_congr fun n => and_congr_right' Fiu.permits_iff
  rw [Fiu.prtCheck_command on command, if_neg nonempty, ← permitted]
  split <;> simp [*]

end Verdict

/-- Settles O36, case by case of the enforcer's algorithm. -/
theorem enforcerVerdict : Obligations.EnforcerVerdict := by
  intro s inst l dist hm hi he
  refine ⟨_, exec_prtCheck_busy hm hi he, Fiu.prtCheck_off, fun on noCommand held w frame => ?continues,
    fun on noCommand fresh => ?fresh, fun on command unlisted => ?unlisted, Fiu.prtCheck_listed⟩
  case continues => rw [Fiu.prtCheck_noCommand on noCommand, Fiu.noCommandVerdict_continues held frame]
  case fresh => rw [Fiu.prtCheck_noCommand on noCommand, Fiu.noCommandVerdict_default fresh, Fiu.defaultVerdict_eq_allow]
  case unlisted => rw [Fiu.prtCheck_unlisted on command unlisted, Fiu.defaultVerdict_eq_allow]

/-! ### The verdict and the frame (R243, R249) -/

/-- The frame after a transaction that was judged. -/
theorem Fiu.complete_frame (b : Fiu) (inst : Nat) (l : Descr) :
    (b.complete inst l false).frame = frameVerdict l (b.prtCheck cfg.forbidTable l) b.frame := by
  cases verdict : b.prtCheck cfg.forbidTable l with
  | allow =>
    rw [Fiu.complete_allowed inst verdict]
    rfl
  | reject =>
    rw [Fiu.complete_rejected inst verdict]
    rfl

/-- The open frame of a held transaction takes its verdict. -/
theorem frameVerdict_held {l : Descr} (held : l.held = true) {fr : Frame} (opened : frameDev fr = some l.dev) (v : Verdict) :
    frameVerdict l v fr = .opened l.dev (some v) := by
  cases fr with
  | closed => cases opened
  | opened d w =>
    obtain rfl := Option.some.inj opened
    simp [frameVerdict, held]

theorem frameVerdict_notHeld {l : Descr} (notHeld : l.held = false) (v : Verdict) (fr : Frame) : frameVerdict l v fr = fr := by
  simp [frameVerdict, notHeld]

/-- Settles O37: the verdict that `PRT_CHECK` records is the one that the end of the transaction acts on. -/
theorem frameRemembersVerdict : Obligations.FrameRemembersVerdict := by
  intro s inst l v hm hi he checked
  have verdict : (s.fiu inst).prtCheck cfg.forbidTable l = v := by
    have recorded := congrArg State.result (Host.Outcome.next.inj ((exec_prtCheck_busy hm hi he).symm.trans checked))
    exact Result.verdict.inj (Option.some.inj recorded)
  refine ⟨_, exec_engineComplete_busy hm hi he, ?_⟩
  rw [State.fiu_setFiu_same s _ hi, Fiu.complete_frame, verdict]
  refine ⟨?_, ?_, fun held opened => frameVerdict_held held opened v, fun notHeld => frameVerdict_notHeld notHeld v _⟩
  · rintro rfl
    obtain ⟨-, viol, -⟩ := Fiu.complete_rejected_spec inst verdict
    exact viol
  · rintro rfl
    exact Fiu.complete_allowed_rd verdict nofun nofun

end Sys2Proof.Machine
end

section
/-! SUPPORT. The statements of 45_protection.md, sections 1 and 3: the requests that program the protection tables as field writes,
taken or ignored by the locks (R236 to R241), and the violation status (R261). -/

namespace Sys2Proof.Machine

/-! ### Writes of the protection registers -/

/-- A write of a range or whitelist register, taken or ignored, changes nothing hidden. -/
theorem Fiu.busWrite_protection_hidden (b : Fiu) {r : Reg} (hr : (∃ n, r = .prtRange n) ∨ ∃ n, r = .prtCmd n) (v : Word) :
    b.SameHidden (b.busWrite r v) := by
  obtain ⟨n, rfl⟩ | ⟨n, rfl⟩ := hr <;> rw [Fiu.busWrite] <;> split
  · exact b.sameHidden_refl
  · exact b.sameHidden_setReg _ _
  · exact b.sameHidden_refl
  · exact b.sameHidden_setReg _ _

/-- The mark is hidden. -/
theorem Fiu.unmodelled_of_sameHidden {b c : Fiu} (h : b.SameHidden c) : c.unmodelled = b.unmodelled := by
  obtain ⟨-, -, -, -, -, -, -, mark, -⟩ := h
  exact mark

/-- The fields of `PRT_CFG`, and those of a range, share no bit. -/
theorem protection_apart {r : Reg} (hr : r = .prtCfg ∨ ∃ n, r = .prtRange n) {f g : Field} (hf : fieldReg f = r) (hg : fieldReg g = r)
    (hne : g ≠ f) : fieldsApart f g = true := by
  have cfgApart : ∀ f ∈ regFields .prtCfg, ∀ g ∈ regFields .prtCfg, g ≠ f → fieldsApart f g = true := by decide
  have rangeApart : ∀ n, ∀ f ∈ regFields (.prtRange n), ∀ g ∈ regFields (.prtRange n), g ≠ f → fieldsApart f g = true := by decide
  have memF := mem_regFields f
  have memG := mem_regFields g
  rw [hf] at memF
  rw [hg] at memG
  obtain rfl | ⟨n, rfl⟩ := hr
  · exact cfgApart f memF g memG hne
  · exact rangeApart n f memF g memG hne

/-- Machines with the same instances one by one have the same instances. -/
theorem State.fius_eq {s t : State} (h : ∀ k, t.fiu k = s.fiu k) : t.fius = s.fius :=
  Vector.ext fun k hk => by simpa only [State.fiu, fiuAt, hk, dite_true] using h k

/-- A request that leaves its own instance leaves all of them. -/
theorem State.SameOthers.fius_eq {inst : Nat} {s t : State} (others : s.SameOthers inst t) (same : t.fiu inst = s.fiu inst) :
    t.fius = s.fius :=
  State.fius_eq fun k => if h : k = inst then h ▸ same else others k h

/-! ### Lists of field writes of the protection registers -/

/-- What field writes leave in the registers of instance `b`: the fields written hold their values, every other field and every register
with no field written is kept. -/
structure Fiu.Writes (b : Fiu) (ws : List (Field × Word)) (c : Fiu) : Prop where
  written : ∀ w ∈ ws, c.get w.1 = w.2
  kept : ∀ f, (∀ w ∈ ws, w.1 ≠ f) → c.get f = b.get f
  regs : ∀ q, (∀ w ∈ ws, fieldReg w.1 ≠ q) → c.rd q = b.rd q

theorem Fiu.Writes.refl (b : Fiu) : b.Writes [] b := ⟨nofun, fun _ _ => rfl, fun _ _ => rfl⟩

/-- Field writes, then field writes of other fields. -/
theorem Fiu.Writes.append {b c d : Fiu} {ws xs : List (Field × Word)} (h1 : b.Writes ws c) (h2 : c.Writes xs d)
    (others : ∀ w ∈ ws, ∀ x ∈ xs, x.1 ≠ w.1) : b.Writes (ws ++ xs) d where
  written := List.forall_mem_append.2 ⟨fun w hw => (h2.kept w.1 (others w hw)).trans (h1.written w hw), h2.written⟩
  kept f hf := by
    obtain ⟨hws, hxs⟩ := List.forall_mem_append.1 hf
    exact (h2.kept f hxs).trans (h1.kept f hws)
  regs q hq := by
    obtain ⟨hws, hxs⟩ := List.forall_mem_append.1 hq
    exact (h2.regs q hxs).trans (h1.regs q hws)

/-- A field write that its register takes, of a field that shares no bit with the register's others. -/
theorem Fiu.writes_wrf {b : Fiu} {f : Field} {v : Word} (fits : v.toNat < 2 ^ fieldWidth f)
    (apart : ∀ g, fieldReg g = fieldReg f → g ≠ f → fieldsApart f g = true)
    (taken : ∀ g, fieldReg g = fieldReg f → (b.wrf f v).get g = getField g (b.rmw f v)) : b.Writes [(f, v)] (b.wrf f v) where
  written := by
    rw [List.forall_mem_singleton, taken f rfl, Fiu.rmw, getField_putField_same]
    exact and_lowMask_of_fits fits
  kept g hg := by
    have hne : g ≠ f := (List.forall_mem_singleton.1 hg).symm
    by_cases hr : fieldReg g = fieldReg f
    · rw [taken g hr, Fiu.rmw, getField_putField_apart (apart g hr hne), ← hr]
      rfl
    · exact congrArg (getField g) (b.busWrite_rd_ne _ hr)
  regs q hq := b.busWrite_rd_ne _ (List.forall_mem_singleton.1 hq).symm

/-- The lock fields `locks` are 0. -/
def Fiu.Unlocked (b : Fiu) (locks : List Field) : Prop := ∀ f ∈ locks, b.get f = 0#32

/-- Writes of other fields leave the lock fields 0. -/
theorem Fiu.Unlocked.writes {b c : Fiu} {locks : List Field} {ws : List (Field × Word)} (h : b.Unlocked locks) (hw : b.Writes ws c)
    (free : ∀ w ∈ ws, w.1 ∉ locks) : c.Unlocked locks :=
  fun f hf => (hw.kept f fun w hw e => free w hw (e ▸ hf)).trans (h f hf)

section FieldWrites

variable {ws : List (Field × Word)}

/-- Field writes one after the other, each of which the register takes while the lock fields are 0, and none of a lock field. -/
theorem Fiu.writes_runAll {locks : List Field}
    (taken : ∀ b : Fiu, b.Unlocked locks → ∀ w ∈ ws, b.Writes [w] (b.wrf w.1 w.2)) (free : ∀ w ∈ ws, w.1 ∉ locks)
    (once : (ws.map Prod.fst).Nodup) {b : Fiu} (h : b.Unlocked locks) : b.Writes ws (runAll (fiuWrites ws) b) := by
  induction ws generalizing b with
  | nil => exact .refl b
  | cons w ws ih =>
    obtain ⟨freeFirst, freeRest⟩ := List.forall_mem_cons.1 free
    rw [List.map_cons, List.nodup_cons] at once
    obtain ⟨fresh, once⟩ := once
    have first := taken b h w List.mem_cons_self
    have rest := ih (fun c hc x hx => taken c hc x (List.mem_cons_of_mem _ hx)) freeRest once
      (h.writes first (List.forall_mem_singleton.2 freeFirst))
    exact first.append rest (List.forall_mem_singleton.2 fun x hx e => fresh (e ▸ List.mem_map_of_mem hx))

/-- A reflexive and transitive relation kept by each field write of a list is kept by the list. -/
theorem relates_fiuWrites {R : Fiu → Fiu → Prop} (refl : ∀ b, R b b) (trans : ∀ {b c d}, R b c → R c d → R b d)
    (step : ∀ w ∈ ws, ∀ b : Fiu, R b (b.wrf w.1 w.2)) (b : Fiu) : R b (runAll (fiuWrites ws) b) := by
  induction ws generalizing b with
  | nil => exact refl b
  | cons w ws ih =>
    obtain ⟨first, rest⟩ := List.forall_mem_cons.1 step
    exact trans (first b) (ih rest (b.wrf w.1 w.2))

/-- The accesses of the host make the changes of the instance. -/
theorem acc_fieldWrites {inst : Nat} (hi : inst < Config.nFiu) (stored : ∀ w ∈ ws, ∀ k, fieldReg w.1 ≠ .umaDr k) :
    List.Forall₂ (Acc inst) (hostWrites inst ws) (fiuWrites ws) := by
  rw [hostWrites, fiuWrites, List.forall₂_map_left_iff, List.forall₂_map_right_iff, List.forall₂_same]
  exact fun w hw => acc_wrf hi (stored w hw) w.2

/-- Field writes that set no mark. -/
theorem keeps_fieldWrites (mark : ∀ w ∈ ws, ∀ b : Fiu, (b.wrf w.1 w.2).unmodelled = b.unmodelled) (b : Fiu) :
    keeps b (fiuWrites ws) := by
  induction ws generalizing b with
  | nil => trivial
  | cons w ws ih =>
    obtain ⟨first, rest⟩ := List.forall_mem_cons.1 mark
    exact ⟨b.wrf_inHandler w.1 w.2, first b, ih rest (b.wrf w.1 w.2)⟩

end FieldWrites

/-! ### `set_protection_range` (R236) -/

/-- The field writes of `set_protection_range`. -/
def rangeWrites (n : Fin 16) (start stop : Word) (mask : BitVec 2) : List (Field × Word) :=
  [(.rngStrt n, start13 start), (.rngLast n, last13 stop), (.rngCsuse n, mask.setWidth 32)]

/-- They are of the one range, and not of its lock. -/
theorem rangeWrites_field {n : Fin 16} {start stop : Word} {mask : BitVec 2} :
    ∀ w ∈ rangeWrites n start stop mask, fieldReg w.1 = .prtRange n ∧ w.1 ∉ [.prtLck, .rngRlck n] := by
  simp [rangeWrites, fieldReg]

/-- A value of at most 32 bits, widened, is below two to its width. -/
theorem toNat_setWidth_lt {k : Nat} (x : BitVec k) : (x.setWidth 32).toNat < 2 ^ k := by
  rw [BitVec.toNat_setWidth]
  exact Nat.lt_of_le_of_lt (Nat.mod_le _ _) x.isLt

/-- The values fit their fields. -/
theorem rangeWrites_fits {n : Fin 16} {start stop : Word} {mask : BitVec 2} :
    ∀ w ∈ rangeWrites n start stop mask, w.2.toNat < 2 ^ fieldWidth w.1 := by
  have bound : ∀ a, (start13 a).toNat < 2 ^ 13 := fun a => start13_eq_extract a ▸ toNat_setWidth_lt _
  simp only [rangeWrites, List.forall_mem_cons]
  exact ⟨bound start, bound (stop - 0x3FFF#32), toNat_setWidth_lt mask, nofun⟩

/-- Where neither lock stands a range takes a field write. -/
theorem Fiu.writes_wrf_range {b : Fiu} {n : Fin 16} (unlocked : b.Unlocked [.prtLck, .rngRlck n]) {f : Field}
    (hf : fieldReg f = .prtRange n) {v : Word} (fits : v.toNat < 2 ^ fieldWidth f) : b.Writes [(f, v)] (b.wrf f v) := by
  refine Fiu.writes_wrf fits (fun g hg => protection_apart (.inr ⟨n, rfl⟩) hf (hg.trans hf)) fun g hg => ?_
  have lck : b.bit .prtLck = false := (flag_eq_false rfl _).2 (unlocked _ (by simp))
  have rlck : b.bit (.rngRlck n) = false := (flag_eq_false rfl _).2 (unlocked _ (by simp))
  have taken : b.wrf f v = b.setReg (fieldReg f) (b.rmw f v &&& regMask (fieldReg f)) := by
    rw [Fiu.wrf, hf]
    exact Fiu.busWrite_prtRange lck rlck _
  rw [taken, Fiu.get_setReg_rmw, if_pos hg]
  rfl

/-- With a legal index `set_protection_range` is its field writes. -/
theorem exec_setProtectionRange {s : State} {p : Pos} {inst : Nat} {n : Fin 16} {start stop : Word} {mask : BitVec 2}
    (hi : inst < Config.nFiu) (h : s.Ready ∧ p = startPos ∨ s.At (.setProtectionRange inst n.val start stop mask) p) :
    exec (.setProtectionRange inst n.val start stop mask) s =
      straight (.setProtectionRange inst n.val start stop mask) p s (hostWrites inst (rangeWrites n start stop mask))
        (.status .ok) :=
  (hostStep_instOk_at hi h).trans (dif_pos n.isLt)

/-- Settles O45: neither lock stands, and the range takes the three field writes, or one does, and each is ignored. -/
theorem setProtectionRange : Obligations.SetProtectionRange := by
  intro s inst n start stop mask hs hi
  have field := rangeWrites_field (n := n) (start := start) (stop := stop) (mask := mask)
  set ws := rangeWrites n start stop mask with hws
  have quiet : ∀ w ∈ ws, ∀ b : Fiu, b.SameHidden (b.wrf w.1 w.2) := fun w hw b =>
    b.busWrite_protection_hidden (.inl ⟨n, (field w hw).1⟩) _
  obtain ⟨t, e, ended, others, fiu, trace⟩ := execN_acc (fun _ _ _ => exec_setProtectionRange hi)
    (acc_fieldWrites hi (ws := ws) fun w hw k => (field w hw).1 ▸ nofun) (by simp [rangeWrites, hostWrites]) hs
    (keeps_fieldWrites (ws := ws) (fun w hw b => Fiu.unmodelled_of_sameHidden (quiet w hw b)) _)
  refine ⟨t, e, ended, others, fun lck rlck => ?taken, fun lock => others.fius_eq (fiu.trans ?ignored), ?regs, ?hidden, trace⟩
  case taken =>
    have unlocked : (s.fiu inst).Unlocked [.prtLck, .rngRlck n] := by
      simp only [Fiu.Unlocked, List.forall_mem_cons]
      exact ⟨(flag_eq_false rfl _).1 lck, (flag_eq_false rfl _).1 rlck, nofun⟩
    obtain ⟨written, kept, -⟩ := Fiu.writes_runAll (fun b hb w hw => Fiu.writes_wrf_range hb (field w hw).1 (rangeWrites_fits w hw))
      (fun w hw => (field w hw).2) (by simp [hws, rangeWrites]) unlocked
    rw [fiu]
    simp only [hws, rangeWrites, List.forall_mem_cons] at written
    obtain ⟨strt, last, csuse, -⟩ := written
    refine ⟨strt.trans (start13_eq_extract _), last.trans (start13_eq_extract _), csuse, ?_⟩
    exact (congrArg (· == 1#32) (kept (.rngRlck n) (by simp [hws, rangeWrites]))).trans rlck
  case ignored =>
    exact relates_fiuWrites (R := fun b c => b.bit .prtLck = true ∨ b.bit (.rngRlck n) = true → c = b) (fun _ _ => rfl)
      (fun h1 h2 lock => by obtain rfl := h1 lock; exact h2 lock)
      (fun w hw b lock => by rw [Fiu.wrf, (field w hw).1]; exact Fiu.busWrite_prtRange_locked lock _) _ lock
  case regs =>
    rw [fiu]
    exact relates_fiuWrites (R := Fiu.SameButReg (.prtRange n)) (fun _ _ _ => rfl)
      (fun h1 h2 q hq => (h2 q hq).trans (h1 q hq)) (fun w hw b q hq => b.busWrite_rd_ne _ ((field w hw).1 ▸ hq)) _
  case hidden =>
    rw [fiu]
    exact relates_fiuWrites Fiu.sameHidden_refl Fiu.sameHidden_trans quiet _

/-! ### `set_protection_command` (R238, R239) -/

/-- A legal number of bits is two to the code of its width (R14). -/
theorem widthOfBits_spec {n : Nat} (h : n = 1 ∨ n = 2 ∨ n = 4) : ∃ w, widthOfBits n = some w ∧ 2 ^ widthCode w = n := by
  obtain rfl | rfl | rfl := h <;> exact ⟨_, rfl, rfl⟩

/-- With legal operands `set_protection_command` is the field write of the slot's entry. -/
theorem exec_setProtectionCommand {s : State} (hs : s.Ready) {inst : Nat} (hi : inst < Config.nFiu) (n : Fin Config.nCmdSlot)
    {code : Nat} (hc : code ≤ 7) (cmd : Byte) {addrBytes addrBits cmdBits : Nat} (bytes : addrBytes = 3 ∨ addrBytes = 4)
    {wa wc : Width} (ha : widthOfBits addrBits = some wa) (hw : widthOfBits cmdBits = some wc) :
    exec (.setProtectionCommand inst n.val code cmd addrBytes addrBits cmdBits) s =
      finish (.status .ok) (s.wrf inst (.entry (slotReg n) (slotHalf n)) (packEntry code cmd addrBytes wa wc)) := by
  have slot : n.val / 2 < 14 := (slotReg n).isLt
  have e : exec (.setProtectionCommand inst n.val code cmd addrBytes addrBits cmdBits) s = _ := hostStep_instOk hs hi
  rw [dif_pos slot, if_neg (by omega)] at e
  simp only [ha, hw] at e
  exact e.trans (if_neg (by omega))

/-- A field of a field: it reads the part of the value that it covers. -/
theorem getField_putField_inner {f g g' : Field} (lo : fieldLo g = fieldLo f + fieldLo g') (width : fieldWidth g = fieldWidth g')
    (inside : fieldLo g' + fieldWidth g' ≤ fieldWidth f) (v w : Word) : getField g (putField f v w) = getField g' v := by
  apply BitVec.eq_of_getLsbD_eq
  intro j _
  rw [getLsbD_getField, getLsbD_getField, getLsbD_putField, width]
  by_cases hj : j < fieldWidth g'
  · have covered : fieldLo f ≤ fieldLo g + j ∧ fieldLo g + j < fieldLo f + fieldWidth f := by omega
    rw [if_pos covered, show fieldLo g + j - fieldLo f = fieldLo g' + j by omega]
  · simp [hj]

/-- The six parts of a whitelist entry (10_state.md R33). -/
def entryFields : List (Fin 14 → Half → Field) := [.entCmd, .entFrbdc, .entAddsz, .entCmbpck, .entAdbpck, .entRngsel]

/-- A part of entry A or B stands where it stands in the packed entry, from the entry's first bit on. -/
theorem entryFields_place {f : Fin 14 → Half → Field} (hf : f ∈ entryFields) (r : Fin 14) (h : Half) :
    fieldReg (f r h) = .prtCmd r ∧ fieldLo (f r h) = fieldLo (.entry r h) + fieldLo (f 0 .a)
      ∧ fieldWidth (f r h) = fieldWidth (f 0 .a) ∧ fieldLo (f 0 .a) + fieldWidth (f 0 .a) ≤ 16 := by
  simp only [entryFields, List.mem_cons, List.not_mem_nil, or_false] at hf
  obtain rfl | rfl | rfl | rfl | rfl | rfl := hf <;> cases h <;> exact ⟨rfl, rfl, rfl, by decide⟩

/-- The fields of a packed entry (30_encoding.md R111). -/
theorem packEntry_fields {code : Nat} (hc : code ≤ 7) (cmd : Byte) (addrBytes : Nat) (wa wc : Width) :
    (getField (.entCmd 0 .a) (packEntry code cmd addrBytes wa wc)).toNat = cmd.toNat
      ∧ (getField (.entFrbdc 0 .a) (packEntry code cmd addrBytes wa wc)).toNat = code % 4
      ∧ (getField (.entRngsel 0 .a) (packEntry code cmd addrBytes wa wc)).toNat = code / 4
      ∧ (getField (.entAddsz 0 .a) (packEntry code cmd addrBytes wa wc)).toNat = (if addrBytes = 4 then 1 else 0)
      ∧ (getField (.entCmbpck 0 .a) (packEntry code cmd addrBytes wa wc)).toNat = widthCode wc
      ∧ (getField (.entAdbpck 0 .a) (packEntry code cmd addrBytes wa wc)).toNat = widthCode wa := by
  have apart : ∀ f ∈ entryFields.map (· 0 .a), ∀ g ∈ entryFields.map (· 0 .a), g ≠ f → fieldsApart f g = true := by decide
  have skip : ∀ f g v w, f ∈ entryFields.map (· 0 .a) → g ∈ entryFields.map (· 0 .a) → g ≠ f →
      getField g (putField f v w) = getField g w :=
    fun f g v w hf hg hne => getField_putField_apart (apart f hf g hg hne) v w
  have size : (bool32 (addrBytes == 4) &&& lowMask 1).toNat = if addrBytes = 4 then 1 else 0 := by
    by_cases four : addrBytes = 4
    · subst four
      rfl
    · rw [beq_false_of_ne four, if_neg four]
      rfl
  have widthCode_lt : ∀ w, widthCode w < 2 ^ 2 := fun w => Nat.lt_succ_of_le ((widthCode_le w).trans (by decide))
  unfold packEntry
  refine ⟨?cmd, ?frbdc, ?rngsel, ?addsz, ?cmbpck, ?adbpck⟩ <;>
    (repeat rw [skip _ _ _ _ (by decide) (by decide) (by decide)]) <;> rw [getField_putField_same]
  case cmd =>
    rw [and_lowMask_of_fits (f := .entCmd 0 .a) (commandByte_fits cmd)]
    exact BitVec.toNat_setWidth_of_le (by decide)
  case frbdc => exact nat32_and_lowMask (by decide) (Nat.mod_lt _ (by decide))
  case rngsel => exact nat32_and_lowMask (by decide) (by show code / 4 < 2 ^ 1; omega)
  case addsz => exact size
  case cmbpck => exact nat32_and_lowMask (by decide) (widthCode_lt wc)
  case adbpck => exact nat32_and_lowMask (by decide) (widthCode_lt wa)

/-- Different slots are in different registers or different entries of one (10_state.md R33). -/
theorem slot_apart {m n : Fin Config.nCmdSlot} (hne : m ≠ n) : slotReg m ≠ slotReg n ∨ slotHalf m ≠ slotHalf n := by
  by_contra! same
  obtain ⟨reg, half⟩ := same
  have quotient : m.val / 2 = n.val / 2 := congrArg Fin.val reg
  have parity : m.val % 2 = 0 ↔ n.val % 2 = 0 := by
    unfold slotHalf at half
    by_cases hm : m.val % 2 = 0 <;> by_cases hn : n.val % 2 = 0 <;> simp [hm, hn] at half ⊢
  exact hne (Fin.ext (by omega))

/-- The two entries of a whitelist register share no bit. -/
theorem entries_apart (r : Fin 14) : ∀ {h k : Half}, k ≠ h → fieldsApart (.entry r h) (.entry r k) = true
  | .a, .b, _ => rfl
  | .b, .a, _ => rfl
  | .a, .a, hne => absurd rfl hne
  | .b, .b, hne => absurd rfl hne

section Entry

variable {b : Fiu} (unlocked : b.bit .prtLck = false) (n : Fin Config.nCmdSlot) (v : Word)

include unlocked

/-- A field of a whitelist register after the field write of a slot's entry on an unlocked instance. -/
theorem Fiu.get_wrf_entry (g : Field) : (b.wrf (.entry (slotReg n) (slotHalf n)) v).get g =
    if fieldReg g = .prtCmd (slotReg n) then getField g (putField (.entry (slotReg n) (slotHalf n)) v (b.rd (.prtCmd (slotReg n))))
    else b.get g := by
  have taken : b.wrf (.entry (slotReg n) (slotHalf n)) v = _ := Fiu.busWrite_prtCmd unlocked _
  rw [taken]
  exact b.get_setReg_rmw (.entry (slotReg n) (slotHalf n)) g v

/-- The entry's parts are those of the written value. -/
theorem Fiu.slotField_wrf_entry {f : Fin 14 → Half → Field} (hf : f ∈ entryFields) :
    (b.wrf (.entry (slotReg n) (slotHalf n)) v).slotField n f = (getField (f 0 .a) v).toNat := by
  obtain ⟨reg, lo, width, inside⟩ := entryFields_place hf (slotReg n) (slotHalf n)
  refine congrArg BitVec.toNat ((Fiu.get_wrf_entry unlocked n v (f (slotReg n) (slotHalf n))).trans ?_)
  rw [if_pos reg]
  exact getField_putField_inner lo width inside v _

/-- Every other entry is kept. -/
theorem Fiu.slotField_wrf_entry_ne {m : Fin Config.nCmdSlot} (hne : m ≠ n) :
    (b.wrf (.entry (slotReg n) (slotHalf n)) v).slotField m .entry = b.slotField m .entry := by
  refine congrArg BitVec.toNat ((Fiu.get_wrf_entry unlocked n v (.entry (slotReg m) (slotHalf m))).trans ?_)
  split
  · next reg =>
    have same : slotReg m = slotReg n := Reg.prtCmd.inj reg
    have halves : slotHalf m ≠ slotHalf n := (slot_apart hne).resolve_left (not_not.2 same)
    rw [← same, getField_putField_apart (entries_apart (slotReg m) halves)]
    rfl
  · rfl

end Entry

/-- Settles O46, from the field write of the entry. -/
theorem setProtectionCommand : Obligations.SetProtectionCommand := by
  intro s inst n code cmd addrBytes addrBits cmdBits hs hi hc bytes addrWidth cmdWidth
  obtain ⟨wa, ha, wideAddr⟩ := widthOfBits_spec addrWidth
  obtain ⟨wc, hw, wideCmd⟩ := widthOfBits_spec cmdWidth
  set b := s.fiu inst
  set v := packEntry code cmd addrBytes wa wc
  set entry := Field.entry (slotReg n) (slotHalf n)
  have hidden : b.SameHidden (b.wrf entry v) := b.busWrite_protection_hidden (.inr ⟨_, rfl⟩) _
  have on := (On.start hs.1).wrf hi (f := entry) (v := v) nofun (Fiu.unmodelled_of_sameHidden hidden)
  obtain ⟨t, e, ended, others, fiu⟩ := on.finish (.status .ok)
  refine ⟨t, (exec_setProtectionCommand hs hi n hc cmd bytes ha hw).trans e, ended, others, fun unlocked => ?taken,
    fun lock => others.fius_eq ?ignored, fun q hq => ?regs, fiu ▸ hidden⟩
  case taken =>
    obtain ⟨cmdField, frbdc, rngsel, addsz, cmbpck, adbpck⟩ := packEntry_fields hc cmd addrBytes wa wc
    have part := fun f hf => Fiu.slotField_wrf_entry unlocked n v (f := f) hf
    rw [fiu]
    refine ⟨(part _ ?_).trans cmdField, (part _ ?_).trans frbdc, (part _ ?_).trans rngsel, (part _ ?_).trans addsz,
      (congrArg (2 ^ ·) ((part _ ?_).trans cmbpck)).trans wideCmd, (congrArg (2 ^ ·) ((part _ ?_).trans adbpck)).trans wideAddr,
      fun m hm => Fiu.slotField_wrf_entry_ne unlocked n v hm⟩ <;> simp [entryFields]
  case ignored => exact fiu.trans (Fiu.busWrite_prtCmd_locked lock _)
  case regs =>
    rw [fiu]
    exact b.busWrite_rd_ne _ (hq _)

/-! ### The size class of a device (R13) -/

/-- The search finds the least class that holds the size, where one is in reach. -/
theorem devsizFrom_least {size fuel k : Nat} (reach : size ≤ 4 ^ (k + fuel) * 2 ^ 20) (below : ∀ j < k, 4 ^ j * 2 ^ 20 < size) :
    size ≤ 4 ^ devsizFrom fuel k size * 2 ^ 20 ∧ ∀ j < devsizFrom fuel k size, 4 ^ j * 2 ^ 20 < size := by
  induction fuel generalizing k with
  | zero => exact ⟨reach, below⟩
  | succ fuel ih =>
    rw [devsizFrom]
    split
    · next holds => exact ⟨holds, below⟩
    · next tooSmall =>
      refine ih ((Nat.succ_add_eq_add_succ k fuel).symm ▸ reach) fun j hj => ?_
      obtain hj | rfl := Nat.lt_succ_iff_lt_or_eq.1 hj
      · exact below j hj
      · exact Nat.not_le.1 tooSmall

/-- The size class is the least that holds the size. -/
theorem devsiz_least (size : Nat) :
    size ≤ 4 ^ devsiz size * 2 ^ 20 ∧ ∀ j < devsiz size, 4 ^ j * 2 ^ 20 < size := by
  refine devsizFrom_least ?_ fun _ hj => absurd hj (Nat.not_lt_zero _)
  have powers : 2 ^ (size.log2 + 1) ≤ 4 ^ (0 + (size.log2 + 1)) := by
    rw [Nat.zero_add]
    exact Nat.pow_le_pow_left (by decide) _
  have := Nat.lt_log2_self (n := size)
  omega

/-- A size of at most 16 GiB has a class that fits its field. -/
theorem devsiz_le_seven {size : Nat} (small : size ≤ 4 ^ 7 * 2 ^ 20) : devsiz size ≤ 7 := devsizFrom_le_seven small _ (by decide)

/-! ### Field writes of `PRT_CFG` (R37) -/

/-- On an unlocked instance with no force lock a write of `PRT_CFG` is not filtered. -/
theorem prtCfgWritten_unlocked {old : Word} (lck : flag .prtLck old = false) (free : getField .prtFcsLck old = 0#32) (v : Word) :
    prtCfgWritten old v = v &&& regMask .prtCfg := by
  have kept : fcsKept old = 0#32 := by simp [fcsKept, fieldBit, free]
  rw [prtCfgWritten, lck, if_neg Bool.false_ne_true, kept, BitVec.not_zero, BitVec.and_allOnes, BitVec.and_zero, BitVec.or_zero]

/-- On an unlocked instance with no force lock `PRT_CFG` takes a field write. -/
theorem Fiu.writes_wrf_prtCfg {b : Fiu} (unlocked : b.Unlocked [.prtLck, .prtFcsLck]) {f : Field} (hf : fieldReg f = .prtCfg)
    {v : Word} (fits : v.toNat < 2 ^ fieldWidth f) : b.Writes [(f, v)] (b.wrf f v) := by
  refine Fiu.writes_wrf fits (fun g hg => protection_apart (.inl rfl) hf (hg.trans hf)) fun g hg => ?_
  have lck : flag .prtLck (b.rd .prtCfg) = false := (flag_eq_false rfl _).2 (unlocked _ (by simp))
  have taken : (b.wrf f v).rd .prtCfg = b.rmw f v &&& regMask .prtCfg := by
    rw [Fiu.wrf, hf, Fiu.busWrite_prtCfg_rd, prtCfgWritten_unlocked lck (unlocked .prtFcsLck (by simp))]
  rw [Fiu.get, hg.trans hf, taken, getField_and_regMask (hg.trans hf)]

/-- What a field write of `PRT_CFG`, and the registering of a handler with it, leave alone of an instance. -/
structure Fiu.KeepsButPrtCfg (b c : Fiu) : Prop where
  regs : b.SameButReg .prtCfg c
  locked : b.bit .prtLck = true → c.regs = b.regs
  eng : c.eng = b.eng
  unmodelled : c.unmodelled = b.unmodelled

theorem Fiu.KeepsButPrtCfg.refl (b : Fiu) : b.KeepsButPrtCfg b := ⟨fun _ _ => rfl, fun _ => rfl, rfl, rfl⟩

theorem Fiu.KeepsButPrtCfg.trans {b c d : Fiu} (h1 : b.KeepsButPrtCfg c) (h2 : c.KeepsButPrtCfg d) : b.KeepsButPrtCfg d where
  regs q hq := (h2.regs q hq).trans (h1.regs q hq)
  locked lock := by
    have same := h1.locked lock
    have stillLocked : c.bit .prtLck = true := (congrArg (flag .prtLck) (Fiu.rd_congr same _)).trans lock
    exact (h2.locked stillLocked).trans same
  eng := h2.eng.trans h1.eng
  unmodelled := h2.unmodelled.trans h1.unmodelled

theorem Fiu.keepsButPrtCfg_wrf (b : Fiu) {f : Field} (hf : fieldReg f = .prtCfg) (v : Word) : b.KeepsButPrtCfg (b.wrf f v) := by
  rw [Fiu.wrf, hf]
  exact ⟨fun q hq => b.busWrite_rd_ne _ hq, fun lock => congrArg Fiu.regs (Fiu.busWrite_prtCfg_locked lock _), rfl, rfl⟩

/-! ### `configure_protection` (R240, R241) -/

/-- The operands of `configure_protection` (R240). -/
structure ProtectionArgs where
  lock : Bool
  enable : Bool
  size : Nat
  csEnable0 : Bool
  csEnable1 : Bool
  csForce0 : Bool
  csForce1 : Bool
  io2Force : Bool
  otherAllowed : Bool
  handler : Option Nat

/-- The first step of `configure_protection` on the instance, where there is a handler (60_exceptions.md R290). -/
def Fiu.register (b : Fiu) (handler : Nat) : Fiu := { b.wrf .prtVie 1#32 with handler := some handler }

theorem acc_registerHandler {inst : Nat} (hi : inst < Config.nFiu) (handler : Nat) :
    Acc inst (registerHandler inst handler) (·.register handler) where
  blind s q := by
    have e : State.wrf { s with seq := q } inst .prtVie 1#32 = { s.wrf inst .prtVie 1#32 with seq := q } := seqBlind_wrf ..
    simp only [registerHandler, e]
    rfl
  fiu s := by
    have e : (s.wrf inst .prtVie 1#32).fiu inst = (s.fiu inst).wrf .prtVie 1#32 := State.fiu_wrf (f := .prtVie) hi (.inr nofun) _
    exact (State.fiu_setFiu_same _ _ hi).trans (by rw [e]; rfl)
  touched s := (State.touched_wrf s inst .prtVie 1#32).trans (State.touched_setFiu _ inst _)
  trace s := s.length_trace_wrf inst .prtVie 1#32

namespace ProtectionArgs

variable (a : ProtectionArgs)

/-- The request with these operands. -/
def instr (inst : Nat) : Instr :=
  .configureProtection inst a.lock a.enable a.size a.csEnable0 a.csEnable1 a.csForce0 a.csForce1 a.io2Force a.otherAllowed a.handler

/-- The first step, where there is a handler, as an access of the host. -/
def registerAccess (inst : Nat) : List (State → State) := (a.handler.map (registerHandler inst)).toList

/-- The same as a change of the instance. -/
def registerChange : List (Fiu → Fiu) := (a.handler.map fun h b => b.register h).toList

/-- The same as a field write. -/
def registerWrite : List (Field × Word) := (a.handler.map fun _ => (.prtVie, 1#32)).toList

/-- The field writes before the lock. -/
def settings : List (Field × Word) :=
  [(.prtDevsiz, nat32 (devsiz a.size)), (.prtFcsVal, pair32 a.csForce1 a.csForce0), (.prtFcsEn, pair32 a.csEnable1 a.csEnable0),
    (.prtIo2f, bool32 a.io2Force), (.prtOcalwd, bool32 a.otherAllowed), (.prtPen, bool32 a.enable)]

/-- The seven field writes: the lock comes last. -/
def writes : List (Field × Word) := a.settings ++ [(.prtLck, bool32 a.lock)]

/-- The instance after the request. -/
def protect (b : Fiu) : Fiu := runAll (fiuWrites a.writes) (runAll a.registerChange b)

theorem writes_field : ∀ w ∈ a.writes, fieldReg w.1 = .prtCfg := by simp [writes, settings, fieldReg]

/-- The values fit their fields. -/
theorem writes_fits (small : a.size ≤ 4 ^ 7 * 2 ^ 20) : ∀ w ∈ a.writes, w.2.toNat < 2 ^ fieldWidth w.1 := by
  have bit : ∀ x, (bool32 x).toNat < 2 ^ 1 := by decide
  have pair : ∀ x y, (pair32 x y).toNat < 2 ^ 2 := by decide
  simp only [writes, settings, List.cons_append, List.nil_append, List.forall_mem_cons]
  exact ⟨nat32_fits (Nat.lt_succ_of_le (devsiz_le_seven small)), pair _ _, pair _ _, bit _, bit _, bit _, bit _, nofun⟩

/-- The settings neither lock the instance nor a chip select's force fields. -/
theorem settings_free : ∀ w ∈ a.settings, w.1 ∉ [Field.prtLck, .prtFcsLck] := by simp [settings]

theorem registerWrite_field : ∀ w ∈ a.registerWrite, w.1 = .prtVie := by simp [registerWrite]

/-- No field write is of the force locks. -/
theorem fcsLck_kept : ∀ w ∈ a.registerWrite ++ a.writes, w.1 ≠ .prtFcsLck :=
  List.forall_mem_append.2 ⟨fun w hw => a.registerWrite_field w hw ▸ nofun, by simp [writes, settings]⟩

/-- Without a handler no field write is of `VIE`. -/
theorem vie_kept (noHandler : a.handler = none) : ∀ w ∈ a.registerWrite ++ a.writes, w.1 ≠ .prtVie := by
  simp [registerWrite, noHandler, writes, settings]

/-- With a size of at most 16 GiB `configure_protection` is its accesses. -/
theorem exec_instr {s : State} {p : Pos} {inst : Nat} (hi : inst < Config.nFiu) (small : a.size ≤ 4 ^ 7 * 2 ^ 20)
    (h : s.Ready ∧ p = startPos ∨ s.At (a.instr inst) p) : exec (a.instr inst) s =
      straight (a.instr inst) p s (a.registerAccess inst ++ hostWrites inst a.writes) (.status .ok) := by
  have e : exec (a.instr inst) s = _ := (hostStep_instOk_at hi h).trans (if_neg (Nat.not_lt.2 (devsiz_le_seven small)))
  obtain ⟨lock, enable, size, e0, e1, v0, v1, io2, oca, handler⟩ := a
  cases handler <;> exact e

/-- The run of `configure_protection`. -/
theorem execN_instr {s : State} (hs : s.Ready) {inst : Nat} (hi : inst < Config.nFiu) (small : a.size ≤ 4 ^ 7 * 2 ^ 20) :
    ∃ t, execN (if a.handler.isSome then 8 else 7) (a.instr inst) s = .next t ∧ s.Ended t (.status .ok) ∧ s.SameOthers inst t
      ∧ t.fiu inst = a.protect (s.fiu inst) := by
  have register : List.Forall₂ (Acc inst) (a.registerAccess inst) a.registerChange := by
    unfold registerAccess registerChange
    cases a.handler with
    | none => exact .nil
    | some h => exact .cons (acc_registerHandler hi h) .nil
  have writes := acc_fieldWrites hi (ws := a.writes) fun w hw k => a.writes_field w hw ▸ nofun
  have quiet : ∀ b, keeps b (fiuWrites a.writes) :=
    keeps_fieldWrites fun w hw b => (b.keepsButPrtCfg_wrf (a.writes_field w hw) w.2).unmodelled
  have keep : keeps (s.fiu inst) (a.registerChange ++ fiuWrites a.writes) := by
    unfold registerChange
    cases a.handler with
    | none => exact quiet _
    | some h => exact ⟨Fiu.wrf_inHandler _ _ _, rfl, quiet _⟩
  have steps : (a.registerAccess inst ++ hostWrites inst a.writes).length = if a.handler.isSome then 8 else 7 := by
    unfold registerAccess
    cases a.handler <;> rfl
  obtain ⟨t, e, ended, others, fiu, -⟩ := execN_acc (fun _ _ _ => a.exec_instr hi small) (List.rel_append register writes)
    (by simp [ProtectionArgs.writes, hostWrites]) hs keep
  exact ⟨t, steps ▸ e, ended, others, fiu.trans List.foldl_append⟩

/-- On an instance the request changes `PRT_CFG`, the handler and the pins alone, and no register where the instance is locked. -/
theorem keepsButPrtCfg_protect (b : Fiu) : b.KeepsButPrtCfg (a.protect b) := by
  have registered : b.KeepsButPrtCfg (runAll a.registerChange b) := by
    unfold registerChange
    cases a.handler with
    | none => exact .refl b
    | some h =>
      obtain ⟨regs, locked, eng, unmodelled⟩ := b.keepsButPrtCfg_wrf (f := .prtVie) rfl 1#32
      exact ⟨regs, locked, eng, unmodelled⟩
  exact registered.trans (relates_fiuWrites Fiu.KeepsButPrtCfg.refl Fiu.KeepsButPrtCfg.trans
    (fun w hw c => c.keepsButPrtCfg_wrf (a.writes_field w hw) w.2) _)

/-- The handler is registered where there is one. -/
theorem protect_handler (b : Fiu) : (a.protect b).handler = a.handler.or b.handler := by
  have kept : ∀ c : Fiu, (runAll (fiuWrites a.writes) c).handler = c.handler :=
    relates_fiuWrites (R := fun c d => d.handler = c.handler) (fun _ => rfl) (fun h1 h2 => h2.trans h1) fun w _ c => by
      obtain ⟨-, handler, -⟩ := c.busWrite_hidden (fieldReg w.1) (c.rmw w.1 w.2)
      exact handler
  rw [protect, kept]
  unfold registerChange
  cases a.handler with
  | none => exact Option.none_or.symm
  | some h => exact Option.some_or.symm

/-- On an unlocked instance with no force lock every field write is taken. -/
theorem writes_protect {b : Fiu} (unlocked : b.Unlocked [.prtLck, .prtFcsLck]) (small : a.size ≤ 4 ^ 7 * 2 ^ 20) :
    b.Writes (a.registerWrite ++ a.writes) (a.protect b) := by
  obtain ⟨settingFits, lockFits⟩ := List.forall_mem_append.1 (a.writes_fits small)
  obtain ⟨settingField, -⟩ := List.forall_mem_append.1 a.writes_field
  have registered : b.Writes a.registerWrite (runAll a.registerChange b) := by
    unfold registerWrite registerChange
    cases a.handler with
    | none => exact .refl b
    | some h =>
      obtain ⟨written, kept, regs⟩ := Fiu.writes_wrf_prtCfg unlocked (f := .prtVie) rfl (v := 1#32) (by decide)
      exact ⟨written, kept, regs⟩
  have registeredUnlocked := unlocked.writes registered fun w hw => by rw [a.registerWrite_field w hw]; decide
  have stored := Fiu.writes_runAll (fun c hc w hw => Fiu.writes_wrf_prtCfg hc (settingField w hw) (settingFits w hw)) a.settings_free
    (by simp [settings]) registeredUnlocked
  have locked := Fiu.writes_wrf_prtCfg (registeredUnlocked.writes stored a.settings_free) (f := .prtLck) rfl
    (lockFits _ (List.mem_singleton_self _))
  exact registered.append (stored.append locked (by simp [settings])) fun w hw => by
    rw [a.registerWrite_field w hw]
    simp [writes, settings]

end ProtectionArgs

theorem bool32_beq_one : ∀ x, (bool32 x == 1#32) = x := by decide

theorem pair32_bits : ∀ x1 x0, (pair32 x1 x0).getLsbD 0 = x0 ∧ (pair32 x1 x0).getLsbD 1 = x1 := by decide

/-- A one-bit field that holds a truth value. -/
theorem Fiu.bit_of_get {b : Fiu} {f : Field} {x : Bool} (h : b.get f = bool32 x) : b.bit f = x :=
  (congrArg (· == 1#32) h).trans (bool32_beq_one x)

/-- Settles O47, from the field writes on an unlocked instance, and from what they leave alone. -/
theorem configureProtection : Obligations.ConfigureProtection := by
  intro s inst lock enable size e0 e1 v0 v1 io2 oca h hs hi small
  let a : ProtectionArgs := ⟨lock, enable, size, e0, e1, v0, v1, io2, oca, h⟩
  obtain ⟨t, e, ended, others, fiu⟩ := a.execN_instr hs hi small
  obtain ⟨regs, locked, eng, unmodelled⟩ := a.keepsButPrtCfg_protect (s.fiu inst)
  have handler : (a.protect (s.fiu inst)).handler = h.or (s.fiu inst).handler := a.protect_handler (s.fiu inst)
  refine ⟨t, e, ended, others, ?_⟩
  rw [fiu]
  refine ⟨fun lck free => ?fields, locked, fun n hn => ?registered, fun hn => ?unregistered, regs, eng, unmodelled⟩
  case registered => rw [handler, hn, Option.some_or]
  case unregistered => rw [handler, hn, Option.none_or]
  case fields =>
    have unlocked : (s.fiu inst).Unlocked [.prtLck, .prtFcsLck] := by
      simp only [Fiu.Unlocked, List.forall_mem_cons]
      exact ⟨(flag_eq_false rfl _).1 lck, free, nofun⟩
    obtain ⟨written, kept, -⟩ := a.writes_protect unlocked small
    obtain ⟨vie, written⟩ := List.forall_mem_append.1 written
    simp only [ProtectionArgs.writes, ProtectionArgs.settings, List.cons_append, List.nil_append, List.forall_mem_cons] at written
    obtain ⟨devsizField, fcsVal, fcsEn, io2f, ocalwd, pen, lckField, -⟩ := written
    have fits := devsiz_le_seven small
    have sizeClass : ((a.protect (s.fiu inst)).get .prtDevsiz).toNat = devsiz size := by
      rw [devsizField]
      exact Nat.mod_eq_of_lt (Nat.lt_of_le_of_lt fits (by decide))
    obtain ⟨holds, least⟩ := devsiz_least size
    obtain ⟨en0, en1⟩ := pair32_bits e1 e0
    obtain ⟨val0, val1⟩ := pair32_bits v1 v0
    rw [sizeClass, fcsEn, fcsVal]
    refine ⟨Fiu.bit_of_get lckField, Fiu.bit_of_get pen, holds, least, en0, en1, val0, val1, Fiu.bit_of_get io2f,
      Fiu.bit_of_get ocalwd, ?vie, (kept _ ?fcsLck).trans free⟩
    case vie =>
      cases h with
      | none => exact congrArg (· == 1#32) (kept .prtVie (a.vie_kept rfl))
      | some h => exact Fiu.bit_of_get (x := true) (vie (.prtVie, 1#32) (by simp [a, ProtectionArgs.registerWrite]))
    case fcsLck => exact a.fcsLck_kept

/-! ### `get_violation_status` (R261) -/

/-- The end of a request, with the bus trace. -/
theorem On.finish_trace {inst : Nat} {s0 s : State} {b : Fiu} (h : On inst s0 s b) (res : Result) :
    ∃ t, Machine.finish res s = .next t ∧ s0.Ended t res ∧ s0.SameOthers inst t ∧ t.fiu inst = b ∧ t.trace = s.trace :=
  ⟨_, finish_live h.live.2.2 res, ⟨rfl, h.live.2.1, rfl, h.env⟩, h.others, h.fiu, rfl⟩

/-- The machine after a read of `PRT_STS` by the host: the bus trace has one access more. -/
def State.readPrtSts (s : State) (inst : Nat) : State :=
  { s with trace := s.trace ++ [⟨inst, false, .prtSts, (s.fiu inst).rd .prtSts⟩] }

theorem State.rdf_stsViol (s : State) (inst : Nat) : s.rdf inst .stsViol = ((s.fiu inst).get .stsViol, s.readPrtSts inst) :=
  State.rdf_stored (.inr nofun)

/-- Without `clear` the request is one field read. -/
theorem exec_getViolationStatus_keep {s : State} (hs : s.Ready) {inst : Nat} (hi : inst < Config.nFiu) :
    exec (.getViolationStatus inst false) s =
      .next { s.readPrtSts inst with seq := .idle, result := some (.flag ((s.fiu inst).bit .stsViol)) } := by
  have e : exec (.getViolationStatus inst false) s = finish (.flag ((s.rdf inst .stsViol).1 == 1#32)) (s.rdf inst .stsViol).2 :=
    hostStep_instOk hs hi
  rw [s.rdf_stsViol inst] at e
  exact e.trans (finish_live (s := s.readPrtSts inst) hs.handling _)

/-- Between its two accesses `get_violation_status` holds the value of `VIOL`. -/
def violationPos (viol : Word) : Pos := { startPos with label := .s 2 0, first := viol }

/-- With `clear` the first step is the field read. -/
theorem exec_getViolationStatus_start {s : State} (hs : s.Ready) {inst : Nat} (hi : inst < Config.nFiu) :
    exec (.getViolationStatus inst true) s =
      .next { s.readPrtSts inst with seq := .run (.getViolationStatus inst true) (violationPos ((s.fiu inst).get .stsViol)) } := by
  have e : exec (.getViolationStatus inst true) s =
      goTo (.getViolationStatus inst true) (violationPos (s.rdf inst .stsViol).1) (s.rdf inst .stsViol).2 := hostStep_instOk hs hi
  rw [s.rdf_stsViol inst] at e
  exact e.trans (goTo_live (s := s.readPrtSts inst) hs.handling _ _)

/-- The second step writes a 1 to `VIOL` and ends the request. -/
theorem exec_getViolationStatus_clear {s : State} {inst : Nat} {viol : Word}
    (h : s.At (.getViolationStatus inst true) (violationPos viol)) (hi : inst < Config.nFiu) :
    exec (.getViolationStatus inst true) s = finish (.flag (viol == 1#32)) (s.hostWrite inst .prtSts 1#32) := by
  have mask : fieldMask .stsViol = 1#32 := by decide
  rw [← mask]
  exact hostStep_instOk_at hi (.inr h)

/-- Settles O48, from the read of `PRT_STS` and the write of a 1 to `VIOL`. -/
theorem getViolationStatus : Obligations.GetViolationStatus := by
  intro s inst hs hi
  refine ⟨⟨_, exec_getViolationStatus_keep hs hi, ⟨rfl, hs.halted, rfl, rfl, rfl, rfl, rfl, rfl, rfl⟩, rfl⟩, ?_⟩
  have on : On inst s { s.readPrtSts inst with
      seq := .run (.getViolationStatus inst true) (violationPos ((s.fiu inst).get .stsViol)) } (s.fiu inst) :=
    ⟨hs.1, rfl, fun _ _ => rfl, rfl, rfl, rfl, rfl, rfl, rfl⟩
  obtain ⟨t, e, ended, others, fiu, trace⟩ := (on.hostWrite hi (r := .prtSts) (v := 1#32) rfl).finish_trace
    (.flag ((s.fiu inst).bit .stsViol))
  refine ⟨_, t, exec_getViolationStatus_start hs hi, rfl, (exec_getViolationStatus_clear ⟨on.live, rfl⟩ hi).trans e, ended, ?_⟩
  rw [fiu]
  have one : flag .stsViol 1#32 = true := by decide
  refine ⟨?viol, fun q hq => Fiu.busWrite_rd_ne _ _ hq, Fiu.sameHidden_setReg _ _ _, others, ?trace⟩
  case viol => rw [Fiu.busWrite_prtSts_viol, one, Bool.not_true, Bool.and_false]
  case trace =>
    rw [trace]
    exact List.append_assoc _ [_] [_]

end Sys2Proof.Machine
end

section
/-! SUPPORT. The statements of 46_supervisor.md: one poll by the host (R272), and `wait_ready` turn by turn of its poll loop (R271,
R273). -/

namespace Sys2Proof.Machine

/-! ### `POLL` (R272) -/

/-- The machine after a read of `UMA_CTS` by the host: the bus trace has one access more. -/
def State.readUmaCts (s : State) (inst : Nat) : State :=
  { s with trace := s.trace ++ [⟨inst, false, .umaCts, (s.fiu inst).rd .umaCts⟩] }

/-- Settles O49: the poll is one read of `UMA_CTS`, and its result the done bit. -/
theorem pollSamplesDoneBit : Obligations.PollSamplesDoneBit := by
  intro s inst hs hi done
  have e : exec (.poll inst) s = finish (.flag (s.pollBit inst).1) (s.pollBit inst).2 := hostStep_instOk hs hi
  rw [State.pollBit_spec done] at e
  exact ⟨_, e.trans (finish_live (s := s.readUmaCts inst) hs.handling _), ⟨rfl, hs.halted, rfl, rfl, rfl, rfl, rfl, rfl, rfl⟩, rfl⟩

/-! ### One turn of the poll loop (R271) -/

/-- A turn that ends a wait with `OK` reads once. -/
theorem State.length_trace_waitPoll_ok {s t : State} {inst : Nat} (e : s.waitPoll inst = some (some .ok, t)) :
    t.trace.length = s.trace.length + 1 := by
  have polled : ((s.pollBit inst).2.setSup inst .off).trace.length = s.trace.length + 1 := List.length_append
  unfold State.waitPoll at e
  split at e
  case h_1 | h_3 => cases e
  case h_2 | h_4 =>
    dsimp only at e
    split at e
    · cases e
    · cases e
      exact polled

/-- The move to the next position, with the bus trace. -/
theorem On.goTo_trace {inst : Nat} {s0 s : State} {b : Fiu} (h : On inst s0 s b) (i : Instr) (p : Pos) :
    ∃ t, Machine.goTo i p s = .next t ∧ t.At i p ∧ On inst s0 t b ∧ t.trace = s.trace :=
  ⟨_, goTo_live h.live.2.2 i p, ⟨h.live, rfl⟩, ⟨h.live, h.fiu, h.others, h.env⟩, rfl⟩

/-- A turn with a poll due, on a busy engine: the request reads once and goes on. -/
theorem On.busyTurn {inst : Nat} {s0 s : State} {b : Fiu} {q : Sup} (h : On inst s0 s { b with sup := q }) (hi : inst < Config.nFiu)
    (done : b.DoneBit) (busy : b.busy = true) (due : pollDue q = true) (i : Instr) (p : Pos) (cont : Status → State → Out) :
    ∃ t, afterWait (s.waitPoll inst) (Machine.goTo i p) cont = .next t ∧ t.At i p ∧ On inst s0 t { b with sup := supNext q }
      ∧ t.trace.length = s.trace.length + 1 := by
  have turn := State.waitPoll_busy (s := s) (inst := inst) (by rw [h.fiu]; exact done) (by rw [h.fiu]; exact due)
    (by rw [h.fiu]; exact busy)
  have read : On inst s0 (s.readUmaCts inst) { b with sup := q } := ⟨h.live, h.fiu, h.others, h.env⟩
  obtain ⟨t, e, within, on, trace⟩ := (read.setSup hi (supNext q)).goTo_trace i p
  refine ⟨t, ?_, within, on, (congrArg _ trace).trans List.length_append⟩
  have sup : (s.fiu inst).sup = q := congrArg Fiu.sup h.fiu
  rw [turn, sup]
  exact e

/-- `SUP` of a bounded wait counts the polls down. -/
theorem supNext_iterate_bounded (m k : Nat) : supNext^[k] (.bounded (m + k)) = .bounded m := by
  induction k with
  | zero => rfl
  | succ k ih => exact ih

/-! ### `wait_ready` (R271, R273) -/

section WaitReady

variable {s : State} {inst : Nat} {timeout : Word}

/-- Where `wait_ready` stands in its poll loop. -/
def pollPos : Pos := startPos.to (.sp 1)

/-- The first step is the entry of the wait. -/
theorem exec_waitReady_enter (hs : s.Ready) (hi : inst < Config.nFiu) : exec (.waitReady inst timeout) s =
    afterWait (s.waitEnter inst timeout) (goTo (.waitReady inst timeout) pollPos) fun st => finish (.status st) :=
  hostStep_instOk hs hi

/-- A later step is a turn of the loop. -/
theorem exec_waitReady_poll (within : s.At (.waitReady inst timeout) pollPos) (hi : inst < Config.nFiu) :
    exec (.waitReady inst timeout) s =
      afterWait (s.waitPoll inst) (goTo (.waitReady inst timeout) pollPos) fun st => finish (.status st) :=
  hostStep_instOk_at hi (.inr within)

/-- On an idle engine the first poll ends the request. -/
theorem waitReady_ok (hs : s.Ready) (hi : inst < Config.nFiu) (done : (s.fiu inst).DoneBit) (idle : (s.fiu inst).eng = .idle)
    (polls : timeout = 0#32 ∨ Config.pollPeriodUs ≤ timeout.toNat) :
    ∃ t, exec (.waitReady inst timeout) s = .next t ∧ s.Ended t (.status .ok) ∧ s.SameOthers inst t
      ∧ t.fiu inst = { s.fiu inst with sup := .off } ∧ t.trace.length = s.trace.length + 1 := by
  obtain ⟨w, waited, on⟩ := (On.start hs.1).waitEnter hi done (Fiu.busy_false.2 idle) polls
  obtain ⟨t, e, ended, others, fiu, trace⟩ := on.finish_trace (.status .ok)
  refine ⟨t, ?_, ended, others, fiu, trace ▸ State.length_trace_waitPoll_ok (s := s.setSup inst _) waited⟩
  rw [exec_waitReady_enter hs hi, waited]
  exact e

/-- A bound below one period ends the request without a poll. -/
theorem waitReady_noPoll (hs : s.Ready) (hi : inst < Config.nFiu) (bounded : timeout ≠ 0#32)
    (short : timeout.toNat < Config.pollPeriodUs) :
    ∃ t, exec (.waitReady inst timeout) s = .next t ∧ s.Ended t (.status .timeout) ∧ s.SameOthers inst t
      ∧ t.fiu inst = { s.fiu inst with sup := .off } ∧ t.trace = s.trace := by
  obtain ⟨t, e, ended⟩ := ((On.start hs.1).setSup hi .off).finish_trace (.status .timeout)
  refine ⟨t, ?_, ended⟩
  rw [exec_waitReady_enter hs hi, State.waitEnter_timeout hi bounded short]
  exact e

/-- While polls are due and the engine stays busy, each step of the request is one poll. -/
theorem waitReady_polls (hs : s.Ready) (hi : inst < Config.nFiu) (done : (s.fiu inst).DoneBit) (busy : (s.fiu inst).busy = true)
    (n : Nat) (due : ∀ k ≤ n, pollDue (supNext^[k] (supOf timeout)) = true) :
    ∃ t, execN (n + 1) (.waitReady inst timeout) s = .next t ∧ t.At (.waitReady inst timeout) pollPos
      ∧ On inst s t { s.fiu inst with sup := supNext^[n + 1] (supOf timeout) } ∧ t.trace.length = s.trace.length + (n + 1) := by
  induction n with
  | zero =>
    obtain ⟨t, e, within, on, trace⟩ := ((On.start hs.1).setSup hi (supOf timeout)).busyTurn hi done busy (due 0 (Nat.le_refl 0))
      (.waitReady inst timeout) pollPos fun st => finish (.status st)
    exact ⟨t, (execN_one _ _).trans ((exec_waitReady_enter hs hi).trans e), within, on, trace⟩
  | succ n ih =>
    obtain ⟨t, before, within, on, polled⟩ := ih fun k hk => due k (Nat.le_succ_of_le hk)
    obtain ⟨u, e, within', on, trace⟩ := on.busyTurn hi done busy (due (n + 1) (Nat.le_refl _)) (.waitReady inst timeout) pollPos
      fun st => finish (.status st)
    refine ⟨u, execN_then before ((exec_waitReady_poll within hi).trans e), within', ?_, by omega⟩
    rwa [Function.iterate_succ_apply']

/-- On an engine that stays busy the bounded form ends with `TIMEOUT` after the polls that its bound permits. The request begins with
its wait, so `On.timeout`, for a wait that a request enters where it already stands, does not reach it. -/
theorem waitReady_timeout (hs : s.Ready) (hi : inst < Config.nFiu) (done : (s.fiu inst).DoneBit) (busy : (s.fiu inst).busy = true)
    (bounded : timeout ≠ 0#32) :
    ∃ t, execN (pollBudget timeout + 1) (.waitReady inst timeout) s = .next t ∧ s.Ended t (.status .timeout) ∧ s.SameOthers inst t
      ∧ t.fiu inst = { s.fiu inst with sup := .off } ∧ t.trace.length = s.trace.length + pollBudget timeout := by
  have sup : supOf timeout = .bounded (pollBudget timeout) := if_neg bounded
  cases budget : pollBudget timeout with
  | zero =>
    have short : timeout.toNat < Config.pollPeriodUs := (Nat.div_eq_zero_iff_lt (Nat.succ_pos _)).1 budget
    obtain ⟨t, e, ended, others, fiu, trace⟩ := waitReady_noPoll hs hi bounded short
    exact ⟨t, (execN_one _ _).trans e, ended, others, fiu, congrArg _ trace⟩
  | succ m =>
    rw [budget] at sup
    have due : ∀ k ≤ m, pollDue (supNext^[k] (supOf timeout)) = true := fun k hk => by
      obtain ⟨j, rfl⟩ := Nat.exists_eq_add_of_le' hk
      rw [sup, Nat.add_right_comm, supNext_iterate_bounded]
      rfl
    obtain ⟨u, polls, within, on, polled⟩ := waitReady_polls hs hi done busy m due
    have spent : (u.fiu inst).sup = .bounded 0 := by
      have remaining : (u.fiu inst).sup = supNext^[m + 1] (supOf timeout) := congrArg Fiu.sup on.fiu
      rw [remaining, sup]
      simpa only [Nat.zero_add] using supNext_iterate_bounded 0 (m + 1)
    obtain ⟨t, e, ended, others, fiu, trace⟩ := (on.setSup hi .off).finish_trace (.status .timeout)
    refine ⟨t, execN_then polls ?_, ended, others, fiu, (congrArg _ trace).trans polled⟩
    rw [exec_waitReady_poll within hi, State.waitPoll_timeout spent]
    exact e

/-- On an engine that stays busy the unbounded form polls on. -/
theorem waitReady_unbounded (hs : s.Ready) (hi : inst < Config.nFiu) (done : (s.fiu inst).DoneBit) (busy : (s.fiu inst).busy = true)
    (n : Nat) :
    ∃ t, execN (n + 1) (.waitReady inst 0#32) s = .next t ∧ t.At (.waitReady inst 0#32) pollPos
      ∧ t.fiu inst = { s.fiu inst with sup := .unbounded } ∧ t.trace.length = s.trace.length + (n + 1) := by
  have sup : ∀ k, supNext^[k] (supOf 0#32) = .unbounded := Function.iterate_fixed (f := supNext) rfl
  obtain ⟨t, e, within, on, trace⟩ := waitReady_polls (timeout := 0#32) hs hi done busy n fun k _ => by rw [sup]; rfl
  rw [sup] at on
  exact ⟨t, e, within, on.fiu, trace⟩

end WaitReady

/-- Settles O50, from the turns of the poll loop: one that finds the engine idle, one with no poll left, and those of an engine that
stays busy. -/
theorem waitReady : Obligations.WaitReady := by
  intro s inst timeout hs hi done
  have busy : (s.fiu inst).eng ≠ .idle → (s.fiu inst).busy = true := fun h => Bool.eq_true_of_not_eq_false (mt Fiu.busy_false.1 h)
  refine ⟨waitReady_ok hs hi done, waitReady_noPoll hs hi, fun running => waitReady_timeout hs hi done (busy running), ?unbounded⟩
  case unbounded =>
    rintro running rfl n
    obtain ⟨t, polling⟩ := waitReady_unbounded hs hi done (busy running) n
    exact ⟨t, pollPos, polling⟩

end Sys2Proof.Machine
end

section
/-! SUPPORT. The statements of 60_exceptions.md: the protection locks (R296), taking and leaving the violation interrupt (R291, R297,
R298), the contract of a violation handler (R292), and what stops while the host is halted or a mark is set (R284; 10_state.md R58). -/

namespace Sys2Proof.Machine

/-! ### The protection locks (R296; 10_state.md R37 to R39) -/

/-- What the locks of `b` keep, instance lock, range locks and force locks, stands in `c` as in `b`. -/
structure Fiu.LocksKept (b c : Fiu) : Prop where
  config : b.bit .prtLck = true → c.rd .prtCfg = b.rd .prtCfg
  range : ∀ n, b.bit .prtLck = true ∨ b.bit (.rngRlck n) = true → c.rd (.prtRange n) = b.rd (.prtRange n)
  whitelist : b.bit .prtLck = true → ∀ n, c.rd (.prtCmd n) = b.rd (.prtCmd n)
  force : ∀ k < 2, (b.get .prtFcsLck).getLsbD k = true → ∀ f, f = .prtFcsLck ∨ f = .prtFcsEn ∨ f = .prtFcsVal →
    (c.get f).getLsbD k = (b.get f).getLsbD k

/-- Where the protection registers are untouched, the locks keep what they lock. -/
theorem Fiu.locksKept_of_rd {b c : Fiu} (config : c.rd .prtCfg = b.rd .prtCfg) (range : ∀ n, c.rd (.prtRange n) = b.rd (.prtRange n))
    (whitelist : ∀ n, c.rd (.prtCmd n) = b.rd (.prtCmd n)) : b.LocksKept c where
  config _ := config
  range n _ := range n
  whitelist _ := whitelist
  force k _ _ f hf := by
    have reg : fieldReg f = .prtCfg := by obtain rfl | rfl | rfl := hf <;> rfl
    rw [Fiu.get, Fiu.get, reg, config]

/-- The locks themselves are among what is locked, so they stand for the next move too. -/
theorem Fiu.LocksKept.trans {b c d : Fiu} (h : b.LocksKept c) (h' : c.LocksKept d) : b.LocksKept d := by
  have locked : b.bit .prtLck = true → c.bit .prtLck = true := fun lock => by
    rw [← lock]
    exact congrArg (flag .prtLck) (h.config lock)
  have rangeLocked : ∀ n, b.bit .prtLck = true ∨ b.bit (.rngRlck n) = true →
      c.bit .prtLck = true ∨ c.bit (.rngRlck n) = true := fun n lock =>
    lock.imp locked fun own => by
      rw [← own]
      exact congrArg (flag (.rngRlck n)) (h.range n lock)
  exact {
    config := fun lock => (h'.config (locked lock)).trans (h.config lock)
    range := fun n lock => (h'.range n (rangeLocked n lock)).trans (h.range n lock)
    whitelist := fun lock n => (h'.whitelist (locked lock) n).trans (h.whitelist lock n)
    force := fun k hk lock f hf =>
      (h'.force k hk ((h.force k hk lock _ (.inl rfl)).trans lock) f hf).trans (h.force k hk lock f hf) }

/-- A force field's bit is kept by a write of `PRT_CFG` where its lock or the instance lock is set (R37). -/
theorem prtCfgWritten_forceLocked {k : Nat} (hk : k < 2) {f : Field} (hf : f = .prtFcsLck ∨ f = .prtFcsEn ∨ f = .prtFcsVal)
    {old : Word} (lock : (getField .prtFcsLck old).getLsbD k = true) (v : Word) :
    (getField f (prtCfgWritten old v)).getLsbD k = (getField f old).getLsbD k := by
  cases whole : flag .prtLck old with
  | true => rw [prtCfgWritten, if_pos whole]
  | false => rw [prtCfgWritten_force k hk f hf old v whole, if_pos lock]

/-- Every bus write goes through the filters (R37 to R39). -/
theorem Fiu.locksKept_busWrite (b : Fiu) (r : Reg) (v : Word) : b.LocksKept (b.busWrite r v) where
  config lock := by
    by_cases h : r = .prtCfg
    · rw [h, Fiu.busWrite_prtCfg_locked lock]
    · exact b.busWrite_rd_ne v (Ne.symm h)
  range n lock := by
    by_cases h : r = .prtRange n
    · rw [h, Fiu.busWrite_prtRange_locked lock]
    · exact b.busWrite_rd_ne v (Ne.symm h)
  whitelist lock n := by
    by_cases h : r = .prtCmd n
    · rw [h, Fiu.busWrite_prtCmd_locked lock]
    · exact b.busWrite_rd_ne v (Ne.symm h)
  force k hk lock f hf := by
    have reg : fieldReg f = .prtCfg := by obtain rfl | rfl | rfl := hf <;> rfl
    rw [Fiu.get, Fiu.get, reg]
    by_cases h : r = .prtCfg
    · rw [h, Fiu.busWrite_prtCfg_rd]
      exact prtCfgWritten_forceLocked hk hf lock v
    · rw [b.busWrite_rd_ne v (Ne.symm h)]

/-- Every move but `RESET` keeps what is locked. -/
theorem Fiu.Move.locksKept {inst : Nat} {ec md : Bool} {b c : Fiu} (m : Fiu.Move inst ec md b c) : b.LocksKept c := by
  induction m with
  | trans _ _ ih1 ih2 => exact ih1.trans ih2
  | write b r v => exact b.locksKept_busWrite r v
  | drd b f v => exact b.locksKept_busWrite _ _
  | complete b l dist =>
    have kept : ∀ {q : Reg}, q ≠ .umaCts → q ≠ .prtSts → (∀ k, q ≠ .umaDr k) → (b.complete inst l dist).rd q = b.rd q :=
      fun h1 h2 h3 => b.complete_rd inst l dist h1 h2 h3
    exact Fiu.locksKept_of_rd (kept nofun nofun nofun) (fun _ => kept nofun nofun nofun) fun _ => kept nofun nofun nofun
  | refl | draw | sup | handler | inHandler | fourb | mark =>
    exact Fiu.locksKept_of_rd rfl (fun _ => rfl) fun _ => rfl

/-- A step other than `RESET` keeps what is locked, in every instance. -/
theorem exec_locksKept {s t : State} {i : Instr} (hr : i ≠ .reset) (e : exec i s = .next t) (k : Nat) :
    (s.fiu k).LocksKept (t.fiu k) := by
  obtain ⟨j, ⟨others, moved⟩, -⟩ := exec_moves hr e
  by_cases hj : k = j
  · subst hj
    exact moved.locksKept
  · rw [others k hj]
    exact Fiu.locksKept_of_rd rfl (fun _ => rfl) fun _ => rfl

/-- Settles O28: every move of an instance goes through the write filters, which keep the locks too. -/
theorem locksAreOneWay : Obligations.LocksAreOneWay := by
  intro s t i inst _ e hr
  obtain ⟨config, range, whitelist, force⟩ := exec_locksKept hr e inst
  exact ⟨fun lock => ⟨config lock, fun n => range n (.inl lock), whitelist lock⟩, fun n lock => range n (.inr lock), force⟩

/-! ### Taking and leaving the violation interrupt (R291, R297, R298) -/

/-- `IRQ_DELIVER` where no mark is set: the entry, the return, or no step. -/
theorem exec_irqDeliver {s : State} (hm : s.mark? = none) (inst : Nat) : exec (.irqDeliver inst) s =
    if s.irqEnabled inst then .next (s.irqEnter inst)
    else if s.irqReturnDue inst then .next (s.irqReturn inst) else .refused .notEnabled := by
  simp only [exec, execIrqDeliver, agentStep, hm, notEnabled]

/-- The entry is enabled exactly under the condition of R291. -/
theorem State.irqEnabled_iff {s : State} {inst : Nat} (hi : inst < Config.nFiu) : s.irqEnabled inst = true ↔
    (s.fiu inst).irqViol = true ∧ (s.fiu inst).handler ≠ none ∧ s.handling = none ∧ s.halted = none := by
  simp [State.irqEnabled, instOk, hi, Option.isSome_iff_ne_none, and_assoc]

/-- The return is due exactly where the handler of this instance has no operation left. -/
theorem State.irqReturnDue_iff {s : State} {inst : Nat} : s.irqReturnDue inst = true ↔
    s.handling = some inst ∧ s.hprog = [] ∧ s.hseq = .idle ∧ s.halted = none := by
  simp [State.irqReturnDue, and_assoc]

theorem exec_irqDeliver_notEnabled {s : State} {inst : Nat} (hm : s.mark? = none) (entry : ¬ s.irqEnabled inst = true)
    (leave : ¬ s.irqReturnDue inst = true) : exec (.irqDeliver inst) s = .refused .notEnabled := by
  rw [exec_irqDeliver hm, if_neg entry, if_neg leave]

/-- No handler is entered or left while the host is halted (R284, R291). -/
theorem exec_irqDeliver_halted {s : State} (hm : s.mark? = none) (hh : s.halted ≠ none) (inst : Nat) :
    exec (.irqDeliver inst) s = .refused .notEnabled :=
  exec_irqDeliver_notEnabled hm (by simp [State.irqEnabled, hh]) (by simp [State.irqReturnDue_iff, hh])

/-- Setting `IN_HANDLER` of one instance where no handler runs makes it the one whose handler runs. -/
theorem State.handling_enter {s : State} (h : s.handling = none) {inst : Nat} (hi : inst < Config.nFiu) :
    (s.setFiu inst ((s.fiu inst).withInHandler true)).handling = some inst := by
  rw [State.handling_none] at h
  cases running : (s.setFiu inst ((s.fiu inst).withInHandler true)).handling with
  | none =>
    have off := (State.handling_none _).1 running inst hi
    rw [s.fiu_setFiu_same _ hi] at off
    cases off
  | some k =>
    obtain ⟨hk, on⟩ := State.handling_some running
    by_cases same : k = inst
    · rw [same]
    · rw [s.fiu_setFiu_ne _ same, h k hk] at on
      cases on

/-- Settles O58, by whether the entry is enabled and the return due. -/
theorem interruptEntryAndReturn : Obligations.InterruptEntryAndReturn := by
  intro s inst hm hi
  refine ⟨fun h viol registered handling live => ?entry, fun running done idle live => ?leave, fun handling off => ?noRequest,
    fun halted => exec_irqDeliver_halted hm halted inst, fun j running unfinished => ?running⟩
  case entry =>
    have enabled : s.irqEnabled inst = true := (State.irqEnabled_iff hi).2 ⟨viol, by simp [registered], handling, live⟩
    have code : (s.irqEnter inst).hprog = s.codeOf h := by simp only [State.irqEnter, registered, Option.getD_some]
    refine ⟨s.irqEnter inst, ?_, State.handling_enter handling hi, code, rfl, rfl, s.fiu_setFiu_same _ hi, fun _ => s.fiu_setFiu_ne _⟩
    rw [exec_irqDeliver hm, if_pos enabled]
  case leave =>
    have entered : ¬ s.irqEnabled inst = true := by simp [State.irqEnabled_iff hi, running]
    have due : s.irqReturnDue inst = true := State.irqReturnDue_iff.2 ⟨running, done, idle, live⟩
    refine ⟨s.irqReturn inst, ?_, rfl, s.fiu_setFiu_same _ hi, fun _ => s.fiu_setFiu_ne _⟩
    rw [exec_irqDeliver hm, if_neg entered, if_pos due]
  case noRequest =>
    refine exec_irqDeliver_notEnabled hm (fun entry => ?_) (by simp [State.irqReturnDue_iff, handling])
    obtain ⟨viol, registered, -, -⟩ := (State.irqEnabled_iff hi).1 entry
    exact off.elim (fun h => by simp [h] at viol) registered
  case running =>
    refine exec_irqDeliver_notEnabled hm (by simp [State.irqEnabled_iff hi, running]) fun leave => ?_
    obtain ⟨own, done, idle, -⟩ := State.irqReturnDue_iff.1 leave
    obtain other | more | within := unfinished
    · exact other (Option.some.inj (running.symm.trans own))
    · exact more done
    · exact within idle

/-! ### Whose step an instruction is (00_scope.md R15) -/

/-- A register access is the host's step or another master's. -/
theorem regAccess_kinds (i : Instr) (r : Reg) (m : Master) (inst : Nat) (a : Access) (s : State) :
    (m = .host ∧ ∃ body, regAccess i r m inst a s = hostStep i s body)
      ∨ (m = .other ∧ ∃ body, regAccess i r m inst a s = agentStep s body) := by
  cases m with
  | host => exact .inl ⟨rfl, _, rfl⟩
  | other => exact .inr ⟨rfl, _, rfl⟩

/-- So is a raw access. -/
theorem rawAccess_master (i : Instr) (m : Master) (inst o : Nat) (sz : AccessSize) (a : Access) (s : State) :
    (m = .host ∧ ∃ body, rawAccess i m inst o sz a s = hostStep i s body)
      ∨ (m = .other ∧ ∃ body, rawAccess i m inst o sz a s = agentStep s body) := by
  unfold rawAccess
  cases rawTarget o sz with
  | ok r => exact regAccess_kinds i r m inst a s
  | error e =>
    cases m with
    | host => exact .inl ⟨rfl, _, rfl⟩
    | other => exact .inr ⟨rfl, _, rfl⟩

/-- An instruction of the host is a host step, every other but `RESET` an agent's. -/
theorem exec_kinds (i : Instr) (s : State) : (isHostInstr i = true ∧ ∃ body, exec i s = hostStep i s body)
    ∨ (isHostInstr i = false ∧ (i = .reset ∨ ∃ body, exec i s = agentStep s body)) := by
  cases i with
  | reset => exact .inr ⟨rfl, .inl rfl⟩
  | engineComplete | prtCheck | irqDeliver => exact .inr ⟨rfl, .inr ⟨_, rfl⟩⟩
  | configureDirect | configureCommand | getReadMode | setDummyCycles | umaRead | umaWrite | umaIoctl | pageWrite | selectChip
  | setFourByteAddressing | getFourByteAddressing | selectChipByAddress | setProtectionRange | setProtectionCommand
  | configureProtection | getViolationStatus | waitReady | fieldRead | fieldWrite | poll => exact .inl ⟨rfl, _, rfl⟩
  | regRead m inst o sz =>
    obtain ⟨rfl, step⟩ | ⟨rfl, step⟩ := rawAccess_master (.regRead m inst o sz) m inst o sz .read s
    · exact .inl ⟨rfl, step⟩
    · exact .inr ⟨rfl, .inr step⟩
  | regWrite m inst o sz v =>
    obtain ⟨rfl, step⟩ | ⟨rfl, step⟩ := rawAccess_master (.regWrite m inst o sz v) m inst o sz (.write v) s
    · exact .inl ⟨rfl, step⟩
    · exact .inr ⟨rfl, .inr step⟩
  | _ =>
    next m inst a =>
    cases m with
    | host => exact .inl ⟨rfl, _, rfl⟩
    | other => exact .inr ⟨rfl, .inr ⟨_, rfl⟩⟩

/-- An instruction of the host is a host step. -/
theorem exec_isHostInstr {i : Instr} (hi : isHostInstr i = true) (s : State) : ∃ body, exec i s = hostStep i s body := by
  obtain ⟨-, step⟩ | ⟨other, -⟩ := exec_kinds i s
  · exact step
  · rw [hi] at other
    cases other

/-! ### Operations a violation handler may not perform (R292)

The premise `s.RunsHandler j` says that the host executes the handler of instance `j`; `hseq` is the position of the handler's operation,
`seq` that of the interrupted request. -/

/-- No mark is set, the host is not halted, and the handler of instance `j` runs. -/
abbrev State.RunsHandler (s : State) (j : Nat) : Prop := s.mark? = none ∧ s.halted = none ∧ s.handling = some j

/-- A host operation outside the contract sets the mark in the instance whose handler runs and changes nothing else. -/
theorem exec_forbidden {s : State} {j : Nat} (h : s.RunsHandler j) {i : Instr} (host : isHostInstr i = true)
    (forbidden : handlerPermits i = false) :
    ∃ t, exec i s = .next t ∧ t = { s with fius := t.fius } ∧ s.SameOthers j t
      ∧ t.fiu j = { s.fiu j with unmodelled := some .handlerReentrancy } := by
  obtain ⟨hm, hh, hj⟩ := h
  obtain ⟨body, step⟩ := exec_isHostInstr host s
  obtain ⟨hi, -⟩ := State.handling_some hj
  exact ⟨_, step.trans (hostStep_forbidden hm hh hj forbidden body), rfl, fun _ => s.fiu_setFiu_ne _, s.fiu_setFiu_same _ hi⟩

/-- The host's register instructions are its own steps; inside a handler it may read every register and write `PRT_STS` only. -/
theorem ofReg_host_kind (r : Reg) (inst : Nat) (a : Access) : isHostInstr (Instr.ofReg r .host inst a) = true
    ∧ handlerPermits (Instr.ofReg r .host inst a) = (a == .read || r == .prtSts) := by
  cases a <;> cases r with
  | umaDw k | umaDr k | prtCmd k | prtRange k => fin_cases k <;> exact ⟨rfl, rfl⟩
  | _ => exact ⟨rfl, rfl⟩

theorem regOfOffset_regOffset (r : Reg) : regOfOffset (regOffset r) = some r := regOfOffset_offset r

/-- The registers `UMA_*`, the read-data registers among them (10_state.md R22 to R27). -/
abbrev IsUmaReg (r : Reg) : Prop :=
  r = .umaCts ∨ r = .umaCfg ∨ r = .umaCmd ∨ r = .umaAddr ∨ (∃ n, r = .umaDw n) ∨ ∃ n, r = .umaDr n

theorem IsUmaReg.ne_prtSts {r : Reg} (h : IsUmaReg r) : r ≠ .prtSts := by
  obtain rfl | rfl | rfl | rfl | ⟨n, rfl⟩ | ⟨n, rfl⟩ := h <;> nofun

/-- A handler's write of a `UMA_*` register is outside the contract, as a register access and by offset. -/
theorem handlerPermits_uma {r : Reg} (h : IsUmaReg r) (inst : Nat) (v : Word) :
    handlerPermits (Instr.ofReg r .host inst (.write v)) = false
      ∧ handlerPermits (.regWrite .host inst (regOffset r) .word v) = false := by
  have other : (r == .prtSts) = false := beq_eq_false_iff_ne.2 h.ne_prtSts
  constructor
  · rw [(ofReg_host_kind r inst (.write v)).2, other]
    rfl
  · rw [handlerPermits_regWrite, regOfOffset_regOffset]
    simpa using h.ne_prtSts

/-! ### Operations a violation handler may perform (R292) -/

section Handler

variable {s : State} {i : Instr} {p : Pos} {body : Pos → Out} {inst j : Nat}

/-- A permitted operation past the assertion on its instance, at its start or where it stands. -/
theorem hostStep_handler (h : s.RunsHandler j) (permitted : handlerPermits i = true) (hi : inst < Config.nFiu)
    (stands : s.hseq = .idle ∧ p = startPos ∨ s.hseq = .run i p) :
    hostStep i s (fun p => if !instOk inst then raiseHalt .instanceIndex s else body p) = body p := by
  obtain ⟨hm, hh, hj⟩ := h
  obtain ⟨idle, rfl⟩ | within := stands
  · rw [hostStep_permitted hm hh hj idle permitted]
    simp [instOk, hi]
  · simp [hostStep, hm, hh, hj, permitted, State.posOf, State.cur, within, instOk, hi]

/-- The move of a handler's operation to its next position: the interrupted request keeps its own (R297 (d)). -/
theorem goTo_handling (h : s.handling = some j) (i : Instr) (p : Pos) : goTo i p s = .next { s with hseq := .run i p } := by
  simp [goTo, State.setCur, h]

/-- A handler's bus read. -/
theorem hostAccess_read_handler (h : s.RunsHandler j) (idle : s.hseq = .idle) (hi : inst < Config.nFiu)
    (permitted : handlerPermits i = true) (r : Reg) : hostAccess i inst r .read s =
      .next { (s.hostRead inst r).2 with hseq := .idle, result := some (.word (s.hostRead inst r).1) } := by
  have e : hostAccess i inst r .read s = finish (.word (s.hostRead inst r).1) (s.hostRead inst r).2 :=
    hostStep_handler h permitted hi (.inl ⟨idle, rfl⟩)
  exact e.trans (finish_handling ((handling_hostRead s inst r).trans h.2.2) _)

/-- A handler's bus write. -/
theorem hostAccess_write_handler (h : s.RunsHandler j) (idle : s.hseq = .idle) (hi : inst < Config.nFiu)
    (permitted : handlerPermits i = true) (r : Reg) (v : Word) : hostAccess i inst r (.write v) s =
      .next { s.hostWrite inst r v with hseq := .idle, result := some .done } := by
  have e : hostAccess i inst r (.write v) s = finish .done (s.hostWrite inst r v) :=
    hostStep_handler h permitted hi (.inl ⟨idle, rfl⟩)
  exact e.trans (finish_handling ((handling_hostWrite s inst r v).trans h.2.2) _)

/-- A raw word access of the host at a register's offset is a bus access to the register. -/
theorem rawAccess_host_register (i : Instr) (r : Reg) (a : Access) :
    rawAccess i .host inst (regOffset r) .word a s = hostAccess i inst r a s := by
  simp only [rawAccess, rawTarget_register, regAccess]

/-- A handler's read of a register, by name or by offset. -/
theorem exec_read_handler (h : s.RunsHandler j) (idle : s.hseq = .idle) (hi : inst < Config.nFiu) (r : Reg) :
    ∃ t, exec (Instr.ofReg r .host inst .read) s = .next t ∧ exec (.regRead .host inst (regOffset r) .word) s = .next t
      ∧ t = { (s.hostRead inst r).2 with hseq := .idle, result := some (.word (s.hostRead inst r).1) } := by
  refine ⟨_, ?name, ?offset, rfl⟩
  case name =>
    rw [exec_ofReg_host]
    exact hostAccess_read_handler h idle hi (ofReg_host_kind r inst .read).2 r
  case offset => exact (rawAccess_host_register _ r .read).trans (hostAccess_read_handler h idle hi rfl r)

/-- A handler's write of `PRT_STS`, by name or by offset. -/
theorem exec_writePrtSts_handler (h : s.RunsHandler j) (idle : s.hseq = .idle) (hi : inst < Config.nFiu) (v : Word) :
    ∃ t, exec (.prtSts .host inst (.write v)) s = .next t ∧ exec (.regWrite .host inst (regOffset .prtSts) .word v) s = .next t
      ∧ t = { s.hostWrite inst .prtSts v with hseq := .idle, result := some .done } := by
  have permitted : handlerPermits (.regWrite .host inst (regOffset .prtSts) .word v) = true := by
    rw [handlerPermits_regWrite, regOfOffset_regOffset]
    rfl
  exact ⟨_, hostAccess_write_handler h idle hi rfl .prtSts v,
    (rawAccess_host_register _ .prtSts (.write v)).trans (hostAccess_write_handler h idle hi permitted .prtSts v), rfl⟩

/-- What a write of `PRT_STS` leaves in the instance (10_state.md R40). -/
theorem fiu_hostWrite_prtSts (s : State) (hi : inst < Config.nFiu) (v : Word) :
    ((s.hostWrite inst .prtSts v).fiu inst).bit .stsViol = ((s.fiu inst).bit .stsViol && !(flag .stsViol v))
      ∧ (s.fiu inst).SameButReg .prtSts ((s.hostWrite inst .prtSts v).fiu inst)
      ∧ (s.fiu inst).SameHidden ((s.hostWrite inst .prtSts v).fiu inst) := by
  rw [State.fiu_hostWrite hi]
  exact ⟨Fiu.busWrite_prtSts_viol _ v, fun q hq => Fiu.busWrite_rd_ne _ v hq, Fiu.sameHidden_setReg _ _ _⟩

/-- A handler's raw read with no meaning gets the mark of its kind (20_memory.md R74, R81). -/
theorem exec_meaninglessRead_handler (h : s.RunsHandler j) (idle : s.hseq = .idle) (hi : inst < Config.nFiu) {o : Nat}
    {sz : AccessSize} {u : Unmodelled} (target : rawTarget o sz = .error u) :
    exec (.regRead .host inst o sz) s =
      .next { s.setFiu inst ((s.fiu inst).mark u) with hseq := .idle, result := some .done } := by
  have raw : exec (.regRead .host inst o sz) s = markAccess (.regRead .host inst o sz) .host inst u s := by
    simp only [exec, execRegRead, rawAccess, target]
  have e : markAccess (.regRead .host inst o sz) .host inst u s = finish .done (s.setFiu inst ((s.fiu inst).mark u)) :=
    hostStep_handler h rfl hi (.inl ⟨idle, rfl⟩)
  exact raw.trans (e.trans (finish_handling ((s.handling_setFiu inst ((s.fiu inst).mark u) rfl).trans h.2.2) _))

/-- The mark of a raw access that is narrow or misaligned, or aligned at an offset with no register. -/
theorem rawTarget_meaningless {o : Nat} {sz : AccessSize} {u : Unmodelled}
    (h : (sz ≠ .word ∨ o % 4 ≠ 0) ∧ u = .narrowRegisterAccess
      ∨ sz = .word ∧ o % 4 = 0 ∧ (∀ r, o ≠ regOffset r) ∧ u = .unmappedOffset) : rawTarget o sz = .error u := by
  obtain ⟨narrow, rfl⟩ | ⟨word, aligned, unmapped, rfl⟩ := h
  · rw [rawTarget_error (narrow.imp_right .inl), if_pos narrow]
  · rw [rawTarget_error (.inr (.inr unmapped)), if_neg]
    rintro (h | h)
    exacts [h word, h aligned]

/-- A handler's read of a field. -/
theorem exec_fieldRead_handler (h : s.RunsHandler j) (idle : s.hseq = .idle) (hi : inst < Config.nFiu) (f : Field) :
    exec (.fieldRead inst f) s = .next { (s.rdf inst f).2 with hseq := .idle, result := some (.word (s.rdf inst f).1) } := by
  have e : exec (.fieldRead inst f) s = finish (.word (s.rdf inst f).1) (s.rdf inst f).2 :=
    hostStep_handler h rfl hi (.inl ⟨idle, rfl⟩)
  exact e.trans (finish_handling ((handling_hostRead s inst _).trans h.2.2) _)

/-- `get_four_byte_addressing` in a handler is one field read (44_chip_select.md R225). -/
theorem exec_getFourByteAddressing_handler (h : s.RunsHandler j) (idle : s.hseq = .idle) (hi : inst < Config.nFiu) {dev : Nat}
    (hd : dev < 4) : exec (.getFourByteAddressing inst dev) s =
      .next { s.readDrdCfg inst with hseq := .idle, result := some (.flag (decide ((s.fiu inst).get .drdAddsiz = 1#32))) } := by
  have known : (!devOk inst dev) ≠ true := by simp [devOk, hd]
  have e : exec (.getFourByteAddressing inst dev) s = finish (.flag ((s.rdf inst .drdAddsiz).1 == 1#32)) (s.rdf inst .drdAddsiz).2 :=
    (hostStep_handler h rfl hi (.inl ⟨idle, rfl⟩)).trans (if_neg known)
  rw [s.rdf_drdCfg inst rfl] at e
  exact e.trans (finish_handling (s := s.readDrdCfg inst) h.2.2 _)

/-- `get_read_mode` in a handler is two field reads (41_direct_access.md R156). -/
theorem execN_getReadMode_handler (h : s.RunsHandler j) (idle : s.hseq = .idle) (hi : inst < Config.nFiu) :
    execN 2 (.getReadMode inst) s = .next { (s.readDrdCfg inst).readDrdCfg inst with
      hseq := .idle, result := some (.mode (modeOfPair ((s.fiu inst).get .drdAcctype) ((s.fiu inst).get .drdDbw))) } := by
  have start : exec (.getReadMode inst) s =
      goTo (.getReadMode inst) (readModePos (s.rdf inst .drdAcctype).1) (s.rdf inst .drdAcctype).2 :=
    hostStep_handler h rfl hi (.inl ⟨idle, rfl⟩)
  rw [s.rdf_drdCfg inst rfl, goTo_handling (s := s.readDrdCfg inst) h.2.2] at start
  set u : State := { s.readDrdCfg inst with
    hseq := .run (.getReadMode inst) (readModePos ((s.fiu inst).get .drdAcctype)) }
  have stop : exec (.getReadMode inst) u =
      finish (.mode (modeOfPair ((s.fiu inst).get .drdAcctype) (u.rdf inst .drdDbw).1)) (u.rdf inst .drdDbw).2 :=
    hostStep_handler (s := u) h rfl hi (.inr rfl)
  rw [u.rdf_drdCfg inst rfl, finish_handling (s := u.readDrdCfg inst) h.2.2] at stop
  exact (execN_cons start).trans ((execN_one _ u).trans stop)

/-- `get_violation_status` in a handler without `clear` is one field read (45_protection.md R261). -/
theorem exec_getViolationStatus_handler (h : s.RunsHandler j) (idle : s.hseq = .idle) (hi : inst < Config.nFiu) :
    exec (.getViolationStatus inst false) s =
      .next { s.readPrtSts inst with hseq := .idle, result := some (.flag ((s.fiu inst).bit .stsViol)) } := by
  have e : exec (.getViolationStatus inst false) s = finish (.flag ((s.rdf inst .stsViol).1 == 1#32)) (s.rdf inst .stsViol).2 :=
    hostStep_handler h rfl hi (.inl ⟨idle, rfl⟩)
  rw [s.rdf_stsViol inst] at e
  exact e.trans (finish_handling (s := s.readPrtSts inst) h.2.2 _)

/-- With `clear` it is a field read and a write of a 1 to `VIOL` (45_protection.md R261). -/
theorem execN_getViolationStatus_handler (h : s.RunsHandler j) (idle : s.hseq = .idle) (hi : inst < Config.nFiu) :
    execN 2 (.getViolationStatus inst true) s = .next { (s.readPrtSts inst).hostWrite inst .prtSts 1#32 with
      hseq := .idle, result := some (.flag ((s.fiu inst).bit .stsViol)) } := by
  have start : exec (.getViolationStatus inst true) s =
      goTo (.getViolationStatus inst true) (violationPos (s.rdf inst .stsViol).1) (s.rdf inst .stsViol).2 :=
    hostStep_handler h rfl hi (.inl ⟨idle, rfl⟩)
  rw [s.rdf_stsViol inst, goTo_handling (s := s.readPrtSts inst) h.2.2] at start
  set u : State := { s.readPrtSts inst with
    hseq := .run (.getViolationStatus inst true) (violationPos ((s.fiu inst).get .stsViol)) }
  have mask : fieldMask .stsViol = 1#32 := by decide
  have stop : exec (.getViolationStatus inst true) u =
      finish (.flag ((s.fiu inst).bit .stsViol)) (u.hostWrite inst .prtSts (fieldMask .stsViol)) :=
    hostStep_handler (s := u) h rfl hi (.inr rfl)
  rw [mask, finish_handling ((handling_hostWrite u inst .prtSts 1#32).trans h.2.2)] at stop
  exact (execN_cons start).trans ((execN_one _ u).trans stop)

end Handler

/-- Settles O59: an operation outside the contract by its mark, a permitted one by the accesses it is made of. -/
theorem handlerContract : Obligations.HandlerContract := by
  intro s j hm hh hj idle
  have running : s.RunsHandler j := ⟨hm, hh, hj⟩
  refine ⟨fun i listed => ?forbidden, fun k r hk => ?read, fun k v hk => ?write, fun k o sz u hk meaningless => ?meaningless,
    fun k f hk stored => ?field, fun k dev hk hd => ?addressing, fun k hk => ?mode, fun k hk => ?status, fun k hk => ?clear⟩
  case forbidden =>
    obtain ⟨host, forbidden⟩ : isHostInstr i = true ∧ handlerPermits i = false := by
      rcases listed with ⟨_, _, _, _, _, _, _, rfl⟩ | ⟨_, _, _, _, _, _, _, _, rfl⟩
        | ⟨_, _, _, _, _, _, _, _, _, _, _, _, _, _, rfl⟩ | ⟨_, _, _, _, _, _, _, rfl⟩ | ⟨_, _, rfl⟩ | ⟨_, _, rfl⟩ | ⟨_, _, _, rfl⟩
        | ⟨k, v, r, rfl, uma⟩ | ⟨k, v, r, rfl, uma⟩ | ⟨_, _, _, rfl, -⟩ | ⟨k, o, sz, v, rfl, meaningless⟩
      any_goals exact ⟨rfl, rfl⟩
      · exact ⟨(ofReg_host_kind r k _).1, (handlerPermits_uma uma k v).1⟩
      · exact ⟨rfl, (handlerPermits_uma uma k v).2⟩
      · exact ⟨rfl, handlerPermits_meaningless meaningless k v⟩
    exact exec_forbidden running host forbidden
  case read =>
    obtain ⟨t, name, offset, rfl⟩ := exec_read_handler running idle hk r
    obtain ⟨others, seq, -⟩ := (State.touched_hostRead s k r).rest
    obtain ⟨d, drawn⟩ := (s.fiu k).busRead_snd k r
    refine ⟨_, _, name, offset, rfl, others, rfl, ⟨d, (s.fiu_setFiu_same _ hk).trans drawn⟩, fun stored => ?_, seq, rfl,
      (handling_hostRead s k r).trans hj⟩
    rw [State.hostRead_stored stored]
    exact ⟨rfl, rfl⟩
  case write =>
    obtain ⟨t, name, offset, rfl⟩ := exec_writePrtSts_handler running idle hk v
    obtain ⟨viol, regs, hidden⟩ := fiu_hostWrite_prtSts s hk v
    obtain ⟨others, -⟩ := (State.touched_hostWrite s k .prtSts v).rest
    exact ⟨_, name, offset, rfl, rfl, (handling_hostWrite s k .prtSts v).trans hj, viol, others, rfl, regs, hidden⟩
  case meaningless =>
    exact ⟨_, exec_meaninglessRead_handler running idle hk (rawTarget_meaningless meaningless), fun _ => s.fiu_setFiu_ne _, rfl, rfl,
      rfl, s.fiu_setFiu_same _ hk⟩
  case field =>
    have e := exec_fieldRead_handler running idle hk f
    rw [State.rdf_stored stored] at e
    exact ⟨_, e, rfl, rfl, rfl, rfl⟩
  case addressing => exact ⟨_, exec_getFourByteAddressing_handler running idle hk hd, rfl, rfl, rfl, rfl⟩
  case mode => exact ⟨_, execN_getReadMode_handler running idle hk, rfl, rfl, rfl, rfl⟩
  case status => exact ⟨_, exec_getViolationStatus_handler running idle hk, rfl, rfl, rfl, rfl⟩
  case clear =>
    obtain ⟨viol, regs, hidden⟩ := fiu_hostWrite_prtSts (s.readPrtSts k) hk 1#32
    obtain ⟨others, -⟩ := (State.touched_hostWrite (s.readPrtSts k) k .prtSts 1#32).rest
    refine ⟨_, execN_getViolationStatus_handler running idle hk, others, rfl, rfl, rfl, viol.trans ?_, regs, hidden⟩
    rw [show flag .stsViol 1#32 = true from by decide, Bool.not_true, Bool.and_false]

/-! ### Stops (R284; 10_state.md R58) -/

/-- Past a mark no other agent's step has a meaning either (10_state.md R58). -/
theorem agentStep_marked {s : State} {r : Unmodelled} (h : s.mark? = some r) (body : Out) :
    agentStep s body = .fault (.unmodelled r) := by
  simp only [agentStep, h]

/-- Settles O60, by whose step the instruction is. -/
theorem haltedAndUnmodelledStops : Obligations.HaltedAndUnmodelledStops := by
  intro s i
  refine ⟨fun hm hh stopped => ?halted, fun r hm notReset => ?marked⟩
  case halted =>
    obtain host | ⟨k, rfl⟩ := stopped
    · obtain ⟨body, step⟩ := exec_isHostInstr host s
      rw [step, hostStep_halted hm (Option.isSome_iff_ne_none.2 hh)]
    · exact exec_irqDeliver_halted hm hh k
  case marked =>
    obtain ⟨-, body, step⟩ | ⟨-, rfl | ⟨body, step⟩⟩ := exec_kinds i s
    · rw [step, hostStep_marked hm]
    · exact absurd rfl notReset
    · rw [step, agentStep_marked hm]

end Sys2Proof.Machine
end

section
/-! SUPPORT. The statements of 70_reset_and_hazards.md: the state after reset (R311) and what the step `RESET` leaves (R310; 10_state.md
R58, R60, R61). -/

namespace Sys2Proof.Machine

/-! ### The registers after reset (10_state.md R60) -/

/-- A field of a direct-access register that has a reset value holds it after reset, whatever the register's other fields draw. -/
theorem getField_resetWord {f : Field} (plain : plainReg (fieldReg f) = true) {v : Nat} (value : resetOf f = some v) (d : Word) :
    getField f (resetWord (fieldReg f) d) = BitVec.ofNat 32 v &&& lowMask (fieldWidth f) := by
  obtain ⟨before, after, fields⟩ := List.append_of_mem (mem_regFields f)
  have reg : ∀ g ∈ after, fieldReg g = fieldReg f := fun g hg => fieldReg_of_mem (by rw [fields]; simp [hg])
  rw [resetWord, fields, List.foldl_append, List.foldl_cons, value]
  -- no later field shares a bit with this one
  refine List.foldlRecOn (motive := fun w => getField f w = BitVec.ofNat 32 v &&& lowMask (fieldWidth f)) after _
    (getField_putField_same f _ _) fun w stands g hg => ?_
  by_cases same : g = f
  · rw [same, value]
    exact getField_putField_same f _ _
  · have apart : fieldsApart g f = true := plain_apart (by rw [reg g hg]; exact plain) (reg g hg).symm (Ne.symm same)
    split <;> rw [getField_putField_apart apart, stands]

/-- The registers hold the values that 10_state.md R60 gives, as far as it gives them. -/
structure Fiu.AtReset (b : Fiu) : Prop where
  prtCfg : b.rd .prtCfg = 0#32
  prtSts : b.rd .prtSts = 0#32
  prtRange : ∀ n, b.rd (.prtRange n) = 0#32
  prtCmd : ∀ n, b.rd (.prtCmd n) = 0#32
  umaCts : b.rd .umaCts = 0x00010000#32
  direct : ∀ f, f = .drdAcctype ∨ f = .drdDbw ∨ f = .drdAddsiz ∨ f = .dwrAddsiz → b.get f = 0#32

/-- A register file after reset, whatever was drawn, holds them. -/
theorem Fiu.atReset_of_resetRegs {b : Fiu} {d : Nat → Word} (hr : b.regs = resetRegs d) : b.AtReset := by
  have word : ∀ r, b.rd r = resetWord r (d (regIndex r).val) := fun r => by
    simp [Fiu.rd, hr, wordAt, resetRegs, allRegs_regIndex]
  refine ⟨?_, ?_, fun n => ?_, fun n => ?_, ?_, fun f hf => ?direct⟩
  case direct =>
    have zero : plainReg (fieldReg f) = true ∧ resetOf f = some 0 := by
      obtain rfl | rfl | rfl | rfl := hf <;> exact ⟨rfl, rfl⟩
    rw [Fiu.get, word, getField_resetWord zero.1 zero.2]
    exact BitVec.zero_and
  · rw [word, resetWord_prtCfg]
  · rw [word, resetWord_prtSts]
  · rw [word, resetWord_prtRange]
  · rw [word, resetWord_prtCmd]
  · rw [word, resetWord_umaCts]

namespace Fiu.AtReset

variable {b : Fiu} (h : b.AtReset)

include h

/-- `SW_CS` is 1 and every other field of `UMA_CTS` 0. -/
theorem control : b.get .ctsSwCs = 1#32 ∧ ∀ f, f = .ctsExecDone ∨ f = .ctsDevNum ∨ f = .ctsRdyst ∨ f = .ctsRdyie → b.get f = 0#32 := by
  have field : ∀ f, fieldReg f = .umaCts → b.get f = getField f 0x00010000#32 := fun f hf => by rw [Fiu.get, hf, h.umaCts]
  refine ⟨(field .ctsSwCs rfl).trans (by decide), fun f hf => ?_⟩
  obtain rfl | rfl | rfl | rfl := hf <;> exact (field _ rfl).trans (by decide)

/-- Every field of `PRT_CFG` is 0. -/
theorem protection {f : Field} (hf : fieldReg f = .prtCfg) : b.get f = 0#32 := by
  rw [Fiu.get, hf, h.prtCfg, getField]
  simp

/-- Every chip select is released. -/
theorem released {d : Nat} (hd : d < 4) : csPin (b.rd .prtCfg) (b.rd .umaCts) d = true := by
  rw [h.prtCfg, h.umaCts]
  interval_cases d <;> decide

end Fiu.AtReset

theorem Fiu.fourbOf_cleared {b : Fiu} (h : b.fourb = Vector.replicate 4 false) (d : Nat) : b.fourbOf d = false := by
  simp [Fiu.fourbOf, h]

/-! ### The state after reset (R311) -/

/-- Settles O23, from the registers at their reset values. -/
theorem resetState : Obligations.ResetState := by
  refine ⟨rfl, fun k hk => ?_⟩
  have same : State.reset.fiu k = resetFiu := by simp [State.reset, State.fiu, fiuAt, hk]
  have regs : resetFiu.regs = resetRegs fun _ => 0#32 := by simp only [resetFiu]
  have h : resetFiu.AtReset := Fiu.atReset_of_resetRegs regs
  obtain ⟨swCs, cts⟩ := h.control
  rw [same]
  refine ⟨Fiu.bit_of_get (h.protection rfl), Fiu.bit_of_get (h.protection rfl), h.protection rfl, fun n => ?rangeLock, ?viol,
    Fiu.bit_of_get (h.protection rfl), Fiu.bit_of_get (cts _ (by simp)), rfl, rfl, Fiu.bit_of_get (cts _ (by simp)),
    Fiu.bit_of_get swCs, cts _ (by simp), h.protection rfl, fun d hd => h.released hd, ?mode, h.direct _ (by simp),
    h.direct _ (by simp), fun d _ => Fiu.fourbOf_cleared rfl d⟩
  case rangeLock => rw [Fiu.bit, show fieldReg (.rngRlck n) = .prtRange n from rfl, h.prtRange, flag_eq_bit rfl, BitVec.getLsbD_zero]
  case viol => rw [Fiu.bit, show fieldReg .stsViol = .prtSts from rfl, h.prtSts]; decide
  case mode => rw [h.direct _ (by simp), h.direct _ (by simp)]; rfl

/-! ### The step `RESET` (R310) -/

/-- The chip selects that are low rise, each once. -/
def Fiu.risingPins (b : Fiu) : List WireEvent :=
  (devices.filter fun d => !(csPin (b.rd .prtCfg) (b.rd .umaCts) d)).map .csHigh

theorem Fiu.nodup_risingPins (b : Fiu) : b.risingPins.Nodup := by
  have devices_nodup : devices.Nodup := by decide
  exact (devices_nodup.filter _).map fun _ _ h => WireEvent.csHigh.inj h

theorem Fiu.mem_risingPins {b : Fiu} {e : WireEvent} :
    e ∈ b.risingPins ↔ ∃ d < 4, e = .csHigh d ∧ csPin (b.rd .prtCfg) (b.rd .umaCts) d = false := by
  simp only [Fiu.risingPins, List.mem_map, List.mem_filter, mem_devices, Bool.not_eq_true']
  constructor
  · rintro ⟨d, ⟨hd, low⟩, rfl⟩
    exact ⟨d, hd, rfl, low⟩
  · rintro ⟨d, hd, rfl, low⟩
    exact ⟨d, ⟨hd, low⟩, rfl⟩

/-- What `RESET` appends to the wire log: the abandoned transaction, the pins that rise, the marker. -/
theorem Fiu.wire_reset_idle {b : Fiu} (h : b.eng = .idle) (k : Nat) : (b.reset k).wire = b.wire ++ b.risingPins ++ [.reset] := by
  rw [Fiu.reset_wire, Fiu.resetEvents, h]
  exact (List.append_assoc ..).symm

/-- See `wire_reset_idle`. -/
theorem Fiu.wire_reset_busy {b : Fiu} {l : Descr} {dist : Bool} (h : b.eng = .busy l dist) (k : Nat) :
    (b.reset k).wire = b.wire ++ [.disturbed l] ++ b.risingPins ++ [.reset] := by
  rw [Fiu.reset_wire, Fiu.resetEvents, h]
  simp only [List.append_assoc]
  rfl

/-- Settles O24, from the reset of each instance. -/
theorem resetStep : Obligations.ResetStep := by
  intro s
  refine ⟨s.doReset, exec_reset s, rfl, rfl, rfl, rfl, rfl, rfl, rfl, rfl, rfl, fun k hk => ?_⟩
  rw [State.doReset_fiu s hk]
  have h : ((s.fiu k).reset k).AtReset := Fiu.atReset_of_resetRegs ((s.fiu k).reset_regs k)
  obtain ⟨swCs, cts⟩ := h.control
  refine ⟨Fiu.reset_eng _ k, Fiu.fourbOf_cleared (Fiu.reset_fourb _ k), Fiu.reset_frame _ k, Fiu.reset_handler _ k,
    Fiu.reset_inHandler _ k, Fiu.reset_sup _ k, Fiu.reset_unmodelled _ k, h.prtCfg, h.prtSts, h.prtRange, h.prtCmd, swCs,
    fun f hf => ?fields, (s.fiu k).risingPins, Fiu.nodup_risingPins _, fun _ => Fiu.mem_risingPins,
    fun idle => Fiu.wire_reset_idle idle k, fun _ _ busy => Fiu.wire_reset_busy busy k⟩
  case fields =>
    have either : (f = .ctsExecDone ∨ f = .ctsDevNum ∨ f = .ctsRdyst ∨ f = .ctsRdyie)
        ∨ f = .drdAcctype ∨ f = .drdDbw ∨ f = .drdAddsiz ∨ f = .dwrAddsiz := by simpa only [or_assoc] using hf
    exact either.elim (cts f) (h.direct f)

end Sys2Proof.Machine
end
